-- ==== Sys2Proof/Word.lean ====
section
/-! DEFINITION. The word types of the CP2 codec core (R12, R126). -/

namespace Sys2Proof

/-- A byte of a stream (R12). -/
abbrev Byte := BitVec 8

/-- A 16-bit stream field or checksum (R127). -/
abbrev Half := BitVec 16

/-- A host register or command word (R126). -/
abbrev Word := BitVec 32

end Sys2Proof
end

