-- ==== Sys2Proof/Config.lean ====
section
/-! DEFINITION. The implementation parameters of R10 and the model's free values.

A parameter marked `param` in R10 is a field of `Params`; every other row is a constant. -/

namespace Sys2Proof

/-- Which bytes of a chunk the LZW/1 header CRC covers (R328, NUFX_CRC_SPAN). -/
inductive CrcSpan where
  | padded
  | data
deriving DecidableEq, Repr

/-- The padding of an LZC group that is closed early (R416, LZC_FLUSH_PAD). -/
inductive FlushPad where
  | stale
  | zero
deriving DecidableEq, Repr

/-- The Squeeze RLE layout (R183, SQ_RLE_LAYOUT). -/
inductive SqLayout where
  | doc
  | usq
deriving DecidableEq, Repr

/-- The width of the Squeeze scaling arithmetic (R512, SQ_ARITH). -/
inductive SqArith where
  | u32
  | u16
deriving DecidableEq, Repr

/-- The parameters of R10 with the spec's defaults. N_CTX is the length of `State.ctxs` (R40). `base` is the platform
parameter BASE of R130 (log entry 8: DESIGN CHOICE 0). -/
structure Params where
  base : Nat := 0
  crcSeed : Half := 0
  crcSpan : CrcSpan := .padded
  zeroKeyQuirk : Bool := true
  flushPad : FlushPad := .stale
  lzcMaxIn : Nat := 2147483647
  sqLayout : SqLayout := .doc
  sqArith : SqArith := .u32
  outqCap : Option Nat := none
  maxWhole : Option Nat := none
deriving DecidableEq, Repr

namespace Config

/-- NUFX_CHUNK (R10). -/
abbrev nufxChunk : Nat := 4096
/-- NUFX_RLE_THRESHOLD (R10). -/
abbrev nufxThreshold : Nat := 4
/-- SQ_RLE_THRESHOLD (R10). -/
abbrev sqThreshold : Nat := 3
/-- NUFX_RLE_MAXRUN and SQ_RLE_MAXRUN (R10). -/
abbrev rleMaxRun : Nat := 256
/-- NUFX_CLEAR (R10). -/
abbrev nufxClear : Nat := 0x100
/-- NUFX_FIRST (R10). -/
abbrev nufxFirst : Nat := 0x101
/-- NUFX_LAST (R10). -/
abbrev nufxLast : Nat := 0x0FFD
/-- LZC_CLEAR (R400). -/
abbrev lzcClear : Nat := 256
/-- LZC_FIRST (R400). -/
abbrev lzcFirst : Nat := 257
/-- LZC_CHECK_GAP (R400). -/
abbrev lzcCheckGap : Nat := 10000
/-- LZC_HSIZE (R400). -/
abbrev lzcHsize : Nat := 69001
/-- INIT_BITS (R400). -/
abbrev lzcInitBits : Nat := 9
/-- HSHIFT (R400). -/
abbrev lzcHshift : Nat := 8
/-- SQ_NUMVALS (R10, R500). -/
abbrev sqNumVals : Nat := 257
/-- The EOF symbol (R500). -/
abbrev sqEof : Nat := 256
/-- SQ_MAXCOUNT (R505). -/
abbrev sqMaxCount : Nat := 65535
/-- SQ_MAX_CODELEN (R516). -/
abbrev sqMaxCodeLen : Nat := 16
/-- SQ_MAX_NODES (R542). -/
abbrev sqMaxNodes : Nat := 256
/-- NAME_MAX (R61). -/
abbrev nameMax : Nat := 255
/-- ZX0_MAX_OFFSET (R600). -/
abbrev zx0MaxOffset : Nat := 32640
/-- ZX0_MAX_OFFSET_QUICK (R600). -/
abbrev zx0MaxOffsetQuick : Nat := 2176
/-- ZX0_END_MARKER (R600). -/
abbrev zx0EndMarker : Nat := 256
/-- ZX0_INITIAL_OFFSET (R600). -/
abbrev zx0InitialOffset : Nat := 1

/-- FREE VALUE (log entry 10). The bytes that an LZC compress engine appends once more than
LZC_MAX_IN bytes were fed: R425 does not define them. Nothing constrains them. -/
opaque freeLzcOutput : Nat → List Byte

end Config

end Sys2Proof
end

