-- ==== Sys2Proof/Syntax.lean ====
section
/-! DEFINITION. The instructions of the CP2 codec core: one constructor for each row of the opcode table.

R2: an instruction is a host command (a word written to CMD) or a stream token (what a decoder engine
interprets). Bits that a command ignores (R164) are no operands (log entry 20). -/

namespace Sys2Proof

inductive Instr where
  /-- NOP, R223 -/
  | cmdNop
  /-- OPEN, R224: ENGINE = w[6:4], DIR = w[7] -/
  | cmdOpen (eng : BitVec 3) (dir : Bool)
  /-- FEED, R225: BYTE = w[15:8] -/
  | cmdFeed (b : Byte)
  /-- PRODUCE, R226 -/
  | cmdProduce
  /-- FINISH, R227 -/
  | cmdFinish
  /-- SEEK, R232 -/
  | cmdSeek
  /-- CLOSE, R228 -/
  | cmdClose
  /-- NAMEBYTE, R229: BYTE = w[15:8] -/
  | cmdNameByte (b : Byte)
  /-- NAMECLEAR, R230 -/
  | cmdNameClear
  /-- RESERVED, OP 0x9, R231 -/
  | cmdReserved9
  /-- RESERVED, OP 0xA and 0xB, R231: `lo` is bit 0 of OP -/
  | cmdReservedAB (lo : BitVec 1)
  /-- RESERVED, OP 0xC to 0xF, R231: `lo` is bits [1:0] of OP -/
  | cmdReservedCF (lo : BitVec 2)
  /-- NUFX.LIT, R360 -/
  | nufxLit (k : Byte)
  /-- NUFX.CLEAR, R361 -/
  | nufxClear
  /-- NUFX.TABLE, R362 -/
  | nufxTable (k : BitVec 12)
  /-- NUFX.KWKWK, R363 -/
  | nufxKwkwk (k : BitVec 12)
  /-- NUFX.INVALID, R364 -/
  | nufxInvalid (k : BitVec 12)
  /-- RLE.RUN of NuFX, R365 -/
  | nufxRleRun (v n : Byte)
  /-- RLE.LIT of NuFX, R366 -/
  | nufxRleLit (b : Byte)
  /-- NUFX1.HDR, R367 -/
  | nufx1Hdr (crc : Half) (volume delim : Byte)
  /-- NUFX1.CHUNK, R368 -/
  | nufx1Chunk (rlelen : Half) (flag : Byte)
  /-- NUFX2.HDR, R369 -/
  | nufx2Hdr (volume delim : Byte)
  /-- NUFX2.CHUNK, R370: CLEN is present iff W[15] = 1; it is 0 here when absent -/
  | nufx2Chunk (w clen : Half)
  /-- LZC.LIT, R460 -/
  | lzcLit (k : Byte)
  /-- LZC.CLEAR, R461 -/
  | lzcClear
  /-- LZC.TABLE, R462 -/
  | lzcTable (k : Half)
  /-- LZC.KWKWK, R463 -/
  | lzcKwkwk (k : Half)
  /-- LZC.INVALID, R464 -/
  | lzcInvalid (k : Half)
  /-- LZC.HDR, R465: the magic bytes and the flags byte -/
  | lzcHdr (m0 m1 flags : Byte)
  /-- LZC.GROUP, R466: the bytes of the group -/
  | lzcGroup (bytes : List Byte)
  /-- SQ.HDR, R560: the magic bytes, the checksum and the name without its NUL -/
  | sqHdr (m0 m1 : Byte) (sum : Half) (name : List Byte)
  /-- SQ.COUNT, R561 -/
  | sqCount (numnodes : Half)
  /-- SQ.NODE, R562: LEFT and RIGHT are signed 16-bit values -/
  | sqNode (left right : Half)
  /-- SQ.SYM, R563: the symbol 0 to 255 -/
  | sqSym (s : Byte)
  /-- SQ.EOF, R564 -/
  | sqEof
  /-- SQ.PAD, R565: the padding bits, 0 to 7 of them -/
  | sqPad (bits : List Bool)
  /-- RLE.RUN of Squeeze, R566 -/
  | sqRleRun (v n : Byte)
  /-- RLE.LIT of Squeeze, R567 -/
  | sqRleLit (b : Byte)
  /-- USQ.RUN, R568 -/
  | usqRun (n : Byte)
  /-- USQ.ESC, R569 -/
  | usqEsc
  /-- ZX0.LITERALS, R641: the literal bytes; their number is L -/
  | zx0Literals (bytes : List Byte)
  /-- ZX0.REP, R642 -/
  | zx0Rep (len : Nat)
  /-- ZX0.NEW, R643: `b` is the raw byte, whose bit 0 is the first bit of EG(len - 1) -/
  | zx0New (msb b : Byte) (len : Nat)
  /-- ZX0.END, R644 -/
  | zx0End
deriving DecidableEq, Repr

/-- The row is a host command (R2 (a)); otherwise it is a stream token (R2 (b)). -/
def Instr.isCommand : Instr → Bool
  | .cmdNop | .cmdOpen .. | .cmdFeed .. | .cmdProduce | .cmdFinish | .cmdSeek | .cmdClose
  | .cmdNameByte .. | .cmdNameClear | .cmdReserved9 | .cmdReservedAB .. | .cmdReservedCF .. => true
  | .nufxLit .. | .nufxClear | .nufxTable .. | .nufxKwkwk .. | .nufxInvalid .. | .nufxRleRun ..
  | .nufxRleLit .. | .nufx1Hdr .. | .nufx1Chunk .. | .nufx2Hdr .. | .nufx2Chunk .. | .lzcLit ..
  | .lzcClear | .lzcTable .. | .lzcKwkwk .. | .lzcInvalid .. | .lzcHdr .. | .lzcGroup .. | .sqHdr ..
  | .sqCount .. | .sqNode .. | .sqSym .. | .sqEof | .sqPad .. | .sqRleRun .. | .sqRleLit .. | .usqRun ..
  | .usqEsc | .zx0Literals .. | .zx0Rep .. | .zx0New .. | .zx0End => false

/-- A unit of a stream as a reader takes it: one bit of a packed part, or one whole byte. In a ZX0
stream bits and raw bytes interleave (R128, R184). -/
inductive Item where
  | bit (b : Bool)
  | byte (b : Byte)
deriving DecidableEq, Repr

end Sys2Proof
end

