-- ==== Sys2Proof/Machine/Operands.lean ====
section
/-! DEFINITION. Operand forms: the fields of command words and of stream headers, packed code values,
Elias-gamma codes and ZX0 offsets (R127, R160, R181, R185 to R187), and the code widths (R310). -/

namespace Sys2Proof

/-- `u16le(b0, b1) = b0 + 256*b1` (R12). -/
def u16le (b0 b1 : Byte) : Half := b1 ++ b0

/-- The low byte of a 16-bit field (R127). -/
def loByte (h : Half) : Byte := h.setWidth 8

/-- The high byte of a 16-bit field (R127). -/
def hiByte (h : Half) : Byte := (h >>> 8).setWidth 8

/-- A 16-bit field as its two stream bytes, little-endian (R127). -/
def leBytes (h : Half) : List Byte := [loByte h, hiByte h]

/-- `s16le` as an integer (R12, R181): two's complement. -/
def s16 (h : Half) : Int := h.toInt

/-- `bitlen(v)` (R12). -/
def bitlen (v : Nat) : Nat := if v = 0 then 0 else Nat.log2 v + 1

/-- The `n` low bits of `v`, bit 0 first (R262). -/
def bitsOf (v : Nat) : Nat → List Bool
  | 0 => []
  | n + 1 => decide (v % 2 = 1) :: bitsOf (v / 2) n

/-- The value of a list of bits, the first being bit 0 (R264). -/
def ofBits : List Bool → Nat
  | [] => 0
  | b :: bs => b.toNat + 2 * ofBits bs

/-- `W(F) = clamp(bitlen(F), 9, 12)` (R310). -/
def nufxWidth (f : Nat) : Nat := min 12 (max 9 (bitlen f))

/-- The bits of `v` below its leading 1, highest first (R185). -/
def egData (v : Nat) : List Bool := (bitsOf v (Nat.log2 v)).reverse

/-- `EG(v)` for v >= 1, each data bit XORed with `invert` (R185, R271). -/
def egBits (invert : Bool) (v : Nat) : List Bool :=
  (egData v).flatMap (fun b => [false, xor b invert]) ++ [true]

/-- `eg_bits(n)`, the length of `EG(n)` (R281). -/
def egCost (n : Nat) : Nat := 2 * bitlen n - 1

/-- INV = 1 - CLASSIC (R621, R643). -/
def zx0Invert (classic : Bool) : Bool := !classic

/-- `msb = (off - 1) // 128 + 1` (R186). -/
def zx0Msb (off : Nat) : Nat := (off - 1) / 128 + 1

/-- `L = (127 - (off - 1) % 128) << 1` (R186). -/
def zx0Lsb (off : Nat) : Byte := BitVec.ofNat 8 ((127 - (off - 1) % 128) * 2)

/-- `off = msb * 128 - (L >> 1)` (R186). -/
def zx0Offset (msb : Nat) (l : Byte) : Nat := msb * 128 - l.toNat / 2

/-- OP = w[3:0] (R160). -/
def cmdOp (w : Word) : Nat := (w.extractLsb' 0 4).toNat

/-- ENGINE = w[6:4] (R160). -/
def cmdEngine (w : Word) : BitVec 3 := w.extractLsb' 4 3

/-- DIR = w[7] (R160). -/
def cmdDir (w : Word) : Bool := w.getLsbD 7

/-- BYTE = w[15:8] (R160). -/
def cmdByte (w : Word) : Byte := w.extractLsb' 8 8

/-- RLELEN = W[12:0] of an LZW/2 chunk word (R173). -/
def chunkRlelen (w : Half) : Half := (w.extractLsb' 0 13).setWidth 16

/-- The LZW flag W[15] of an LZW/2 chunk word (R173). -/
def chunkUseLzw (w : Half) : Bool := w.getLsbD 15

/-- MAXBITS = flags[4:0] of an LZC header (R176, R440). -/
def flagsMaxbits (flags : Byte) : Nat := (flags.extractLsb' 0 5).toNat

/-- BLOCK = flags[7] of an LZC header (R176, R440). -/
def flagsBlock (flags : Byte) : Bool := flags.getLsbD 7

/-- The reserved bits flags[6:5] of an LZC header (R176, R440). -/
def flagsReserved (flags : Byte) : BitVec 2 := flags.extractLsb' 5 2

/-- A packed code's class (R174, R177). -/
inductive CodeClass where
  | lit
  | clear
  | table
  | kwkwk
  | invalid
deriving DecidableEq, Repr

/-- The class of a NuFX code, in the order of R340: `f` is F, `havePrev` says PREV is not NONE. -/
def nufxClass (f : Nat) (havePrev : Bool) (code : Nat) : CodeClass :=
  if code = Config.nufxClear then .clear
  else if havePrev then
    if Config.nufxLast < f then .invalid
    else if code < 0x100 then .lit
    else if code < f then .table
    else if code = f then .kwkwk
    else .invalid
  else
    if code < 0x100 then .lit
    else if code < f then .table
    else .invalid

/-- The class of an LZC code (R445): `mustLit` for the first code of the stream and the first after a
CLEAR (R444, R464). -/
def lzcClass (freeEnt : Nat) (block mustLit : Bool) (code : Nat) : CodeClass :=
  if mustLit then (if code < 256 then .lit else .invalid)
  else if code = Config.lzcClear ∧ block then .clear
  else if code < 256 then .lit
  else if code < freeEnt then .table
  else if code = freeEnt then .kwkwk
  else .invalid

end Sys2Proof
end

