-- ==== Sys2Proof/Machine/Tab.lean ====
section
/-! DEFINITION. Working memories as sparse tables in one canonical form (R120 (4), R139; log entry 15).

A table lists (index, value) pairs with strictly rising indexes; no entry equals `d`, what an unlisted
index reads as. -/

namespace Sys2Proof

/-- A working memory: its listed cells. -/
abbrev Tab (α : Type) := List (Nat × α)

namespace Tab

variable {α : Type}

/-- The value at index `k`; `d` where no entry is listed. -/
def get (d : α) : Tab α → Nat → α
  | [], _ => d
  | (a, v) :: t, k => if k = a then v else if k < a then d else get d t k

/-- `t` with index `k` holding `v`, in canonical form again. -/
def put [DecidableEq α] (d : α) : Tab α → Nat → α → Tab α
  | [], k, v => if v = d then [] else [(k, v)]
  | (a, u) :: t, k, v =>
    if k < a then (if v = d then (a, u) :: t else (k, v) :: (a, u) :: t)
    else if k = a then (if v = d then t else (k, v) :: t)
    else (a, u) :: put d t k v

/-- Every listed index is at least `lo`, indexes rise strictly, and no entry holds `d`. -/
def wfFrom [DecidableEq α] (d : α) : Nat → Tab α → Bool
  | _, [] => true
  | lo, (a, v) :: t => decide (lo ≤ a) && decide (v ≠ d) && wfFrom d (a + 1) t

/-- The canonical form (log entry 15). -/
def wf [DecidableEq α] (d : α) (t : Tab α) : Bool := wfFrom d 0 t

end Tab

end Sys2Proof
end

