-- ==== Sys2Proof/WellFormed.lean ====
section
/-! DEFINITION. Which instruction terms the encoding admits, whatever the decoder's state is.

The class conditions that depend on table state (R174, R177) stand at the read point, in Decode. -/

namespace Sys2Proof

/-- The terms that some stream or command word can carry.
* R174: a NuFX table code is 0x101 or more and not the CLEAR code; R364 lets any non-CLEAR code be invalid.
* R177: an LZC table code is 256 or more.
* R173: CLEN is present iff W[15] = 1.
* R176 and the table row: magic 1F 9D, flags bits [6:5] zero.
* R178: a group holds 1 to 16 bytes.
* R179: magic 76 FF, no name byte is 0.
* R182: 0 to 7 padding bits.
* R568: a USQ run count is not 0.
* R184: a literal run and a copy are not empty; R186: msb is 1 to 255; R643: a new-offset copy has at least 2 bytes,
  and bit 0 of its raw byte is the first bit of EG(len - 1), which is 1 exactly when len - 1 = 1 (R185). -/
def Instr.wellFormed : Instr → Bool
  | .cmdNop | .cmdOpen _ _ | .cmdFeed _ | .cmdProduce | .cmdFinish | .cmdSeek | .cmdClose
  | .cmdNameByte _ | .cmdNameClear | .cmdReserved9 | .cmdReservedAB _ | .cmdReservedCF _ => true
  | .nufxLit _ | .nufxClear => true
  | .nufxTable k | .nufxKwkwk k => decide (0x101 ≤ k.toNat)
  | .nufxInvalid k => decide (k.toNat ≠ 0x100)
  | .nufxRleRun _ _ | .nufxRleLit _ => true
  | .nufx1Hdr _ _ _ | .nufx1Chunk _ _ | .nufx2Hdr _ _ => true
  | .nufx2Chunk w clen => w.getLsbD 15 || decide (clen = 0)
  | .lzcLit _ | .lzcClear => true
  | .lzcTable k | .lzcKwkwk k | .lzcInvalid k => decide (256 ≤ k.toNat)
  | .lzcHdr m0 m1 flags => decide (m0 = 0x1F) && decide (m1 = 0x9D) && decide (flags &&& 0x60#8 = 0)
  | .lzcGroup bytes => decide (1 ≤ bytes.length) && decide (bytes.length ≤ 16)
  | .sqHdr m0 m1 _ name => decide (m0 = 0x76) && decide (m1 = 0xFF) && name.all (fun b => decide (b ≠ 0))
  | .sqCount _ | .sqNode _ _ | .sqSym _ | .sqEof => true
  | .sqPad bits => decide (bits.length ≤ 7)
  | .sqRleRun _ _ | .sqRleLit _ => true
  | .usqRun n => decide (n ≠ 0)
  | .usqEsc => true
  | .zx0Literals bytes => decide (1 ≤ bytes.length)
  | .zx0Rep len => decide (1 ≤ len)
  | .zx0New msb b len => decide (msb ≠ 0) && decide (2 ≤ len) && (b.getLsbD 0 == decide (len = 2))
  | .zx0End => true

end Sys2Proof
end

