-- ==== Sys2Proof/Decode.lean ====
section
/-! DEFINITION. The decoder of command words and of stream tokens, and after it the encoder.

A command word always decodes (R160, R161, R164). A stream token's bits mean something only at a read
point: which decoder waits there and what its tables hold (R174, R177, R188). -/

namespace Sys2Proof

/-- The command a word written to CMD encodes (R160, R161). Unused bits are dropped (R164, log entry 20). -/
def decodeCmd (w : Word) : Instr :=
  match cmdOp w with
  | 0 => .cmdNop
  | 1 => .cmdOpen (cmdEngine w) (cmdDir w)
  | 2 => .cmdFeed (cmdByte w)
  | 3 => .cmdProduce
  | 4 => .cmdFinish
  | 5 => .cmdSeek
  | 6 => .cmdClose
  | 7 => .cmdNameByte (cmdByte w)
  | 8 => .cmdNameClear
  | 9 => .cmdReserved9
  | 10 => .cmdReservedAB 0
  | 11 => .cmdReservedAB 1
  | _ => .cmdReservedCF (w.extractLsb' 0 2)

/-- Where a decoder stands when a token's bits arrive, with the state that tells the tokens apart. -/
inductive ReadPoint where
  /-- the command register (R160) -/
  | cmd
  /-- a NuFX code of `width` bits, F = `f` (R174, R340) -/
  | nufxCode (width f : Nat) (havePrev : Bool)
  /-- NuFX stage-1 data (R175) -/
  | nufxRle (delim : Byte)
  | nufx1Hdr
  | nufx1Chunk
  | nufx2Hdr
  | nufx2Chunk
  | lzcHdr
  /-- an LZC group of `nBits` bytes (R178) -/
  | lzcGroup (nBits : Nat)
  /-- an LZC code of `nBits` bits (R177, R445) -/
  | lzcCode (nBits freeEnt : Nat) (block mustLit : Bool)
  | sqHdr
  | sqCount
  | sqNode
  /-- a Huffman code: `tree` holds child `2*i + side` of node `i` (R182) -/
  | sqCode (tree : Tab Int)
  /-- `n` padding bits after the EOF code (R182) -/
  | sqPad (n : Nat)
  /-- Squeeze RLE symbols (R183) -/
  | sqRle (layout : SqLayout) (delim : Byte)
  /-- a ZX0 token: the first of its stream, or after a LITERALS token or not (R184) -/
  | zx0 (first afterLit classic : Bool)
deriving DecidableEq, Repr

/-- Why a sequence of stream items is no token at a read point. -/
inductive DecodeError where
  /-- the items end inside the token, or there are none -/
  | truncated
  /-- a ZX0 new-offset MSB above 256 (R273) -/
  | badElias
deriving DecidableEq, Repr

/-- The bits of an item in the order in which they are read: a byte's from bit 7 down in ZX0 (`msb`, R272), from
bit 0 up elsewhere (R264). -/
def Item.bits (msb : Bool) : Item → List Bool
  | .bit b => [b]
  | .byte b => if msb then (bitsOf b.toNat 8).reverse else bitsOf b.toNat 8

/-- The next `n` bits. What is left of a byte whose first bits are taken stays, as bits. -/
def takeBits (msb : Bool) : Nat → List Item → Except DecodeError (List Bool × List Item)
  | 0, r => .ok ([], r)
  | _ + 1, [] => .error .truncated
  | n + 1, it :: r =>
    let bs := it.bits msb
    if n + 1 ≤ bs.length then .ok (bs.take (n + 1), (bs.drop (n + 1)).map .bit ++ r)
    else
      match takeBits msb (n + 1 - bs.length) r with
      | .ok (bs', r') => .ok (bs ++ bs', r')
      | .error e => .error e

/-- The next `n` bytes. Bits that stand before a byte are unread bits of an earlier byte: in ZX0 they stay for the
next bit read (`keep`, R272), elsewhere they are discarded (R265, R442). -/
def takeBytes (keep : Bool) : Nat → List Item → Except DecodeError (List Byte × List Item)
  | 0, r => .ok ([], r)
  | _ + 1, [] => .error .truncated
  | n + 1, .bit b :: r =>
    match takeBytes keep (n + 1) r with
    | .ok (bs, r') => .ok (bs, if keep then .bit b :: r' else r')
    | .error e => .error e
  | n + 1, .byte b :: r =>
    match takeBytes keep n r with
    | .ok (bs, r') => .ok (b :: bs, r')
    | .error e => .error e

/-- Bytes up to a 0x00, which is taken and not returned (R179). -/
def takeName : List Item → Except DecodeError (List Byte × List Item)
  | [] => .error .truncated
  | .bit _ :: r => takeName r
  | .byte b :: r =>
    if b = 0 then .ok ([], r)
    else
      match takeName r with
      | .ok (bs, r') => .ok (b :: bs, r')
      | .error e => .error e

/-- How far some bits bring an Elias-gamma value (R185). -/
inductive EgScan where
  /-- the value is complete, with the bits left -/
  | done (v : Nat) (rest : List Bool)
  /-- the value so far is `v`; `data` says a data bit is due -/
  | more (v : Nat) (data : Bool)
  /-- the value has passed the limit -/
  | over
deriving DecidableEq, Repr

/-- The bits of an Elias-gamma value whose value so far is `v` (R185, R273). -/
def scanEg (invert : Bool) (limit : Option Nat) : Nat → Bool → List Bool → EgScan
  | v, data, [] => .more v data
  | v, false, b :: r => if b then .done v r else scanEg invert limit v true r
  | v, true, b :: r =>
    let v' := 2 * v + (xor b invert).toNat
    if limit.any (fun m => decide (m < v')) then .over else scanEg invert limit v' false r

/-- An Elias-gamma value whose value so far is `v` (R185, R273). -/
def takeEg (invert : Bool) (limit : Option Nat) : Nat → Bool → List Item → Except DecodeError (Nat × List Item)
  | _, _, [] => .error .truncated
  | v, data, it :: r =>
    match scanEg invert limit v data (it.bits true) with
    | .done v' bs => .ok (v', bs.map .bit ++ r)
    | .more v' data' => takeEg invert limit v' data' r
    | .over => .error .badElias

/-- A walk along some bits from tree node `i`: the node or leaf reached, and the bits left (R182). -/
def walkLeaf (tree : Tab Int) : Nat → List Bool → Int × List Bool
  | i, [] => (i, [])
  | i, b :: r =>
    let c := Tab.get 0 tree (2 * i + b.toNat)
    if c < 0 then (c, r) else walkLeaf tree c.toNat r

/-- A Huffman code from tree node `i`: the child reference of the leaf it ends at (R181, R182). -/
def takeLeaf (tree : Tab Int) : Nat → List Item → Except DecodeError (Int × List Item)
  | _, [] => .error .truncated
  | i, it :: r =>
    let q := walkLeaf tree i (it.bits false)
    if q.1 < 0 then .ok (q.1, q.2.map .bit ++ r) else takeLeaf tree q.1.toNat r

/-- The row a NuFX code of class `c` belongs to (R174). -/
def nufxInstr (c : CodeClass) (code : Nat) : Instr :=
  match c with
  | .lit => .nufxLit (BitVec.ofNat 8 code)
  | .clear => .nufxClear
  | .table => .nufxTable (BitVec.ofNat 12 code)
  | .kwkwk => .nufxKwkwk (BitVec.ofNat 12 code)
  | .invalid => .nufxInvalid (BitVec.ofNat 12 code)

/-- The row an LZC code of class `c` belongs to (R177). -/
def lzcInstr (c : CodeClass) (code : Nat) : Instr :=
  match c with
  | .lit => .lzcLit (BitVec.ofNat 8 code)
  | .clear => .lzcClear
  | .table => .lzcTable (BitVec.ofNat 16 code)
  | .kwkwk => .lzcKwkwk (BitVec.ofNat 16 code)
  | .invalid => .lzcInvalid (BitVec.ofNat 16 code)

/-- The NuFX RLE token at the head of stage-1 data (R175). -/
def decodeNufxRle (delim : Byte) (items : List Item) : Except DecodeError (Instr × List Item) :=
  match takeBytes false 1 items with
  | .ok ([b], r) =>
    if b = delim then
      match takeBytes false 2 r with
      | .ok ([v, n], r') => .ok (.nufxRleRun v n, r')
      | .ok _ => .error .truncated
      | .error e => .error e
    else .ok (.nufxRleLit b, r)
  | .ok _ => .error .truncated
  | .error e => .error e

/-- The Squeeze RLE token at the head of the symbols (R183, R502, R503). -/
def decodeSqRle (layout : SqLayout) (delim : Byte) (items : List Item) :
    Except DecodeError (Instr × List Item) :=
  match takeBytes false 1 items with
  | .ok ([b], r) =>
    if b = delim then
      match layout with
      | .doc =>
        match takeBytes false 2 r with
        | .ok ([v, n], r') => .ok (.sqRleRun v n, r')
        | .ok _ => .error .truncated
        | .error e => .error e
      | .usq =>
        match takeBytes false 1 r with
        | .ok ([n], r') => .ok (if n = 0 then .usqEsc else .usqRun n, r')
        | .ok _ => .error .truncated
        | .error e => .error e
    else .ok (.sqRleLit b, r)
  | .ok _ => .error .truncated
  | .error e => .error e

/-- A LITERALS body: `EG(L)` and L raw bytes (R641). -/
def decodeZx0Literals (items : List Item) : Except DecodeError (Instr × List Item) :=
  match takeEg false none 1 false items with
  | .ok (len, r) =>
    match takeBytes true len r with
    | .ok (bs, r') => .ok (.zx0Literals bs, r')
    | .error e => .error e
  | .error e => .error e

/-- A NEW_OFFSET or END body after its indicator 1 (R643, R644). -/
def decodeZx0New (classic : Bool) (items : List Item) : Except DecodeError (Instr × List Item) :=
  match takeEg (zx0Invert classic) (some Config.zx0EndMarker) 1 false items with
  | .ok (msb, r) =>
    if msb = Config.zx0EndMarker then .ok (.zx0End, r)
    else
      match takeBytes true 1 r with
      | .ok ([b], r') =>
        match takeEg false none 1 false (.bit (b.getLsbD 0) :: r') with
        | .ok (len, r'') => .ok (.zx0New (BitVec.ofNat 8 msb) b (len + 1), r'')
        | .error e => .error e
      | .ok _ => .error .truncated
      | .error e => .error e
  | .error e => .error e

/-- A ZX0 token (R184). -/
def decodeZx0 (first afterLit classic : Bool) (items : List Item) :
    Except DecodeError (Instr × List Item) :=
  if first then decodeZx0Literals items
  else
    match takeBits true 1 items with
    | .ok ([true], r) => decodeZx0New classic r
    | .ok (_, r) =>
      if afterLit then
        match takeEg false none 1 false r with
        | .ok (len, r') => .ok (.zx0Rep len, r')
        | .error e => .error e
      else decodeZx0Literals r
    | .error e => .error e

/-- A Squeeze standalone header (R179). A header whose magic is wrong ends at the magic: what executes
it raises CORRUPT(BAD_MAGIC) (R541). -/
def decodeSqHdr (items : List Item) : Except DecodeError (Instr × List Item) :=
  match takeBytes false 2 items with
  | .ok ([m0, m1], r) =>
    if m0 = 0x76 ∧ m1 = 0xFF then
      match takeBytes false 2 r with
      | .ok ([s0, s1], r') =>
        match takeName r' with
        | .ok (name, r'') => .ok (.sqHdr m0 m1 (u16le s0 s1) name, r'')
        | .error e => .error e
      | .ok _ => .error .truncated
      | .error e => .error e
    else .ok (.sqHdr m0 m1 0 [], r)
  | .ok _ => .error .truncated
  | .error e => .error e

/-- An LZW/2 chunk word, with CLEN iff W[15] = 1 (R173). -/
def decodeNufx2Chunk (items : List Item) : Except DecodeError (Instr × List Item) :=
  match takeBytes false 2 items with
  | .ok ([b0, b1], r) =>
    if chunkUseLzw (u16le b0 b1) then
      match takeBytes false 2 r with
      | .ok ([c0, c1], r') => .ok (.nufx2Chunk (u16le b0 b1) (u16le c0 c1), r')
      | .ok _ => .error .truncated
      | .error e => .error e
    else .ok (.nufx2Chunk (u16le b0 b1) 0, r)
  | .ok _ => .error .truncated
  | .error e => .error e

/-- How many bytes stand at the head of the items, at most `n`. -/
def bytesAhead : Nat → List Item → Nat
  | n + 1, .byte _ :: r => bytesAhead n r + 1
  | _, _ => 0

/-- The item is a single bit. -/
def Item.isBit : Item → Bool
  | .bit _ => true
  | .byte _ => false

/-- The token at the head of `items`, and the items after it. -/
def decode (p : ReadPoint) (items : List Item) : Except DecodeError (Instr × List Item) :=
  match p with
  | .cmd =>
    match takeBits false 32 items with
    | .ok (bs, r) => .ok (decodeCmd (BitVec.ofNat 32 (ofBits bs)), r)
    | .error e => .error e
  | .nufxCode width f havePrev =>
    match takeBits false width items with
    | .ok (bs, r) => .ok (nufxInstr (nufxClass f havePrev (ofBits bs)) (ofBits bs), r)
    | .error e => .error e
  | .nufxRle delim => decodeNufxRle delim items
  | .nufx1Hdr =>
    match takeBytes false 4 items with
    | .ok ([c0, c1, v, d], r) => .ok (.nufx1Hdr (u16le c0 c1) v d, r)
    | .ok _ => .error .truncated
    | .error e => .error e
  | .nufx1Chunk =>
    match takeBytes false 3 items with
    | .ok ([b0, b1, f], r) => .ok (.nufx1Chunk (u16le b0 b1) f, r)
    | .ok _ => .error .truncated
    | .error e => .error e
  | .nufx2Hdr =>
    match takeBytes false 2 items with
    | .ok ([v, d], r) => .ok (.nufx2Hdr v d, r)
    | .ok _ => .error .truncated
    | .error e => .error e
  | .nufx2Chunk => decodeNufx2Chunk items
  | .lzcHdr =>
    match takeBytes false 3 items with
    | .ok ([m0, m1, f], r) => .ok (.lzcHdr m0 m1 f, r)
    | .ok _ => .error .truncated
    | .error e => .error e
  | .lzcGroup nBits =>
    match bytesAhead nBits (items.dropWhile Item.isBit) with
    | 0 => .error .truncated
    | n + 1 =>
      match takeBytes false (n + 1) items with
      | .ok (bs, r) => .ok (.lzcGroup bs, r)
      | .error e => .error e
  | .lzcCode nBits freeEnt block mustLit =>
    match takeBits false nBits items with
    | .ok (bs, r) => .ok (lzcInstr (lzcClass freeEnt block mustLit (ofBits bs)) (ofBits bs), r)
    | .error e => .error e
  | .sqHdr => decodeSqHdr items
  | .sqCount =>
    match takeBytes false 2 items with
    | .ok ([b0, b1], r) => .ok (.sqCount (u16le b0 b1), r)
    | .ok _ => .error .truncated
    | .error e => .error e
  | .sqNode =>
    match takeBytes false 4 items with
    | .ok ([l0, l1, r0, r1], r) => .ok (.sqNode (u16le l0 l1) (u16le r0 r1), r)
    | .ok _ => .error .truncated
    | .error e => .error e
  | .sqCode tree =>
    match takeLeaf tree 0 items with
    | .ok (c, r) =>
      .ok (if c = -257 then .sqEof else .sqSym (BitVec.ofNat 8 (-(c + 1)).toNat), r)
    | .error e => .error e
  | .sqPad n =>
    match takeBits false n items with
    | .ok (bs, r) => .ok (.sqPad bs, r)
    | .error e => .error e
  | .sqRle layout delim => decodeSqRle layout delim items
  | .zx0 first afterLit classic => decodeZx0 first afterLit classic items

/-- The table size at which codes of `width` bits are read when nothing else is known: the least F with
that width (R310, log entry 18). -/
def tableWordF (width : Nat) : Nat := if width ≤ 9 then Config.nufxFirst else 2 ^ (width - 1)

/-- The least FREE_ENT at which LZC codes have 16 bits (R414, log entry 18). -/
abbrev tableWordFreeEnt : Nat := 32768

/-- Byte `i` of a three-byte row, the first byte being the most significant (as the table numbers LZC.HDR). -/
def tableByte (w i : Nat) : Byte := BitVec.ofNat 8 (w / 256 ^ (2 - i))

/-- The instruction of an opcode-table row from its bits alone, the later bytes being 0. Stream rows of
equal width share their bits; log entry 18 says which is answered and with what table state. -/
def decodeTableWord (nbits w : Nat) : Option Instr :=
  if 2 ^ nbits ≤ w then none
  else if nbits = 32 then some (decodeCmd (BitVec.ofNat 32 w))
  else if nbits = 24 then
    if w / 256 = 0x1F9D ∧ w / 32 % 4 = 0 then some (.lzcHdr 0x1F 0x9D (tableByte w 2))
    else some (.nufx1Chunk (u16le (tableByte w 0) (tableByte w 1)) (tableByte w 2))
  else if nbits = 16 then
    if w = 0x76FF then some (.sqHdr 0x76 0xFF 0 [])
    else some (lzcInstr (lzcClass tableWordFreeEnt true false w) w)
  else if 9 ≤ nbits ∧ nbits ≤ 12 then
    some (nufxInstr (nufxClass (tableWordF nbits) false w) w)
  else none

/-! ### The encoder -/

/-- The word of a command, ignored bits 0 (R160, R164). -/
def encodeCmd : Instr → Option Word
  | .cmdNop => some 0
  | .cmdOpen eng dir => some (0#24 ++ BitVec.ofBool dir ++ eng ++ 1#4)
  | .cmdFeed b => some (0#16 ++ b ++ 0#4 ++ 2#4)
  | .cmdProduce => some 3
  | .cmdFinish => some 4
  | .cmdSeek => some 5
  | .cmdClose => some 6
  | .cmdNameByte b => some (0#16 ++ b ++ 0#4 ++ 7#4)
  | .cmdNameClear => some 8
  | .cmdReserved9 => some 9
  | .cmdReservedAB lo => some (0#28 ++ 5#3 ++ lo)
  | .cmdReservedCF lo => some (0#28 ++ 3#2 ++ lo)
  | _ => none

/-- The bits of a code (R262, R264). -/
def codeItems (width code : Nat) : List Item := (bitsOf code width).map .bit

/-- The code value of a NuFX row (R174). -/
def nufxCodeOf : Instr → Option Nat
  | .nufxLit k => some k.toNat
  | .nufxClear => some Config.nufxClear
  | .nufxTable k | .nufxKwkwk k | .nufxInvalid k => some k.toNat
  | _ => none

/-- The code value of an LZC row (R177). -/
def lzcCodeOf : Instr → Option Nat
  | .lzcLit k => some k.toNat
  | .lzcClear => some Config.lzcClear
  | .lzcTable k | .lzcKwkwk k | .lzcInvalid k => some k.toNat
  | _ => none

/-- The left-first path of at most `fuel` bits from a node to the leaf whose child reference is
`target` (R182). -/
def sqPath (tree : Tab Int) (target : Int) : Nat → Nat → Option (List Bool)
  | 0, _ => none
  | fuel + 1, i =>
    let l := Tab.get 0 tree (2 * i)
    let r := Tab.get 0 tree (2 * i + 1)
    if l = target then some [false]
    else if r = target then some [true]
    else
      match (if l < 0 then none else sqPath tree target fuel l.toNat) with
      | some p => some (false :: p)
      | none =>
        match (if r < 0 then none else sqPath tree target fuel r.toNat) with
        | some p => some (true :: p)
        | none => none

/-- The child reference of a leaf, `-(s + 1)` (R181). -/
def sqLeafRef (s : Nat) : Int := -((s : Int) + 1)

/-- The Huffman code of symbol `s` (R182). -/
def sqCodeItems (tree : Tab Int) (s : Nat) : Option (List Item) :=
  (sqPath tree (sqLeafRef s) 17 0).map (fun p => p.map .bit)

/-- The items of a ZX0 token (R184 to R186). -/
def encodeZx0 (first afterLit classic : Bool) : Instr → Option (List Item)
  | .zx0Literals bs =>
    if first then some ((egBits false bs.length).map .bit ++ bs.map .byte)
    else if afterLit then none
    else some (.bit false :: ((egBits false bs.length).map .bit ++ bs.map .byte))
  | .zx0Rep len =>
    if first || !afterLit then none else some (.bit false :: (egBits false len).map .bit)
  | .zx0New msb b len =>
    if first then none
    else some (.bit true :: ((egBits (zx0Invert classic) msb.toNat).map .bit ++
      .byte b :: (egBits false (len - 1)).tail.map .bit))
  | .zx0End =>
    if first then none
    else some (.bit true :: (egBits (zx0Invert classic) Config.zx0EndMarker).map .bit)
  | _ => none

/-- The items of an instruction at a read point; none where the row does not stand at that point. -/
def encode (p : ReadPoint) (i : Instr) : Option (List Item) :=
  match p, i with
  | .cmd, i => (encodeCmd i).map (fun w => codeItems 32 w.toNat)
  | .nufxCode width _ _, i => (nufxCodeOf i).map (codeItems width)
  | .nufxRle delim, .nufxRleRun v n => some [.byte delim, .byte v, .byte n]
  | .nufxRle _, .nufxRleLit b => some [.byte b]
  | .nufx1Hdr, .nufx1Hdr crc v d => some ((leBytes crc ++ [v, d]).map .byte)
  | .nufx1Chunk, .nufx1Chunk rlelen f => some ((leBytes rlelen ++ [f]).map .byte)
  | .nufx2Hdr, .nufx2Hdr v d => some [.byte v, .byte d]
  | .nufx2Chunk, .nufx2Chunk w clen =>
    some ((leBytes w ++ (if chunkUseLzw w then leBytes clen else [])).map .byte)
  | .lzcHdr, .lzcHdr m0 m1 f => some [.byte m0, .byte m1, .byte f]
  | .lzcGroup _, .lzcGroup bs => some (bs.map .byte)
  | .lzcCode nBits _ _ _, i => (lzcCodeOf i).map (codeItems nBits)
  | .sqHdr, .sqHdr m0 m1 sum name => some (([m0, m1] ++ leBytes sum ++ name ++ [0]).map .byte)
  | .sqCount, .sqCount n => some ((leBytes n).map .byte)
  | .sqNode, .sqNode l r => some ((leBytes l ++ leBytes r).map .byte)
  | .sqCode tree, .sqSym s => sqCodeItems tree s.toNat
  | .sqCode tree, .sqEof => sqCodeItems tree Config.sqEof
  | .sqPad _, .sqPad bits => some (bits.map .bit)
  | .sqRle .doc delim, .sqRleRun v n => some [.byte delim, .byte v, .byte n]
  | .sqRle .usq delim, .usqRun n => some [.byte delim, .byte n]
  | .sqRle .usq delim, .usqEsc => some [.byte delim, .byte 0]
  | .sqRle _ _, .sqRleLit b => some [.byte b]
  | .zx0 first afterLit classic, i => encodeZx0 first afterLit classic i
  | _, _ => none

/-- The row's condition at the read point: what the "condition" column of the opcode table and the
class rules R174 and R177 ask, and that the point can hold the operand's width. -/
def ReadPoint.admits (p : ReadPoint) (i : Instr) : Bool :=
  i.wellFormed &&
  match p, i with
  | .cmd, i => i.isCommand
  | .nufxCode width f havePrev, i =>
    match nufxCodeOf i with
    | some k => decide (width ≤ 12) && decide (k < 2 ^ width) &&
        decide (nufxInstr (nufxClass f havePrev k) k = i)
    | none => false
  | .nufxRle _, .nufxRleRun _ _ => true
  | .nufxRle delim, .nufxRleLit b => decide (b ≠ delim)
  | .nufx1Hdr, .nufx1Hdr _ _ _ => true
  | .nufx1Chunk, .nufx1Chunk _ _ => true
  | .nufx2Hdr, .nufx2Hdr _ _ => true
  | .nufx2Chunk, .nufx2Chunk _ _ => true
  | .lzcHdr, .lzcHdr _ _ _ => true
  | .lzcGroup nBits, .lzcGroup bs => decide (bs.length = nBits)
  | .lzcCode nBits freeEnt block mustLit, i =>
    match lzcCodeOf i with
    | some k => decide (nBits ≤ 16) && decide (k < 2 ^ nBits) &&
        decide (lzcInstr (lzcClass freeEnt block mustLit k) k = i)
    | none => false
  | .sqHdr, .sqHdr _ _ _ _ => true
  | .sqCount, .sqCount _ => true
  | .sqNode, .sqNode _ _ => true
  | .sqCode tree, .sqSym s => (sqCodeItems tree s.toNat).isSome
  | .sqCode tree, .sqEof => (sqCodeItems tree Config.sqEof).isSome
  | .sqPad n, .sqPad bits => decide (bits.length = n)
  | .sqRle .doc _, .sqRleRun _ _ => true
  | .sqRle .usq _, .usqRun _ => true
  | .sqRle .usq _, .usqEsc => true
  | .sqRle _ delim, .sqRleLit b => decide (b ≠ delim)
  | .zx0 first afterLit classic, i => (encodeZx0 first afterLit classic i).isSome
  | _, _ => false

end Sys2Proof
end

