-- ==== Sys2Proof/Machine/State.lean ====
section
/-! DEFINITION. The state of the CP2 codec core (10_state.md), the errors of R706, the model's faults and
refusals, and the state after hardware reset (R78, R800).

Engine state after reset is unspecified by the spec (R78): each record's `reset` is the value its rule
gives after OPEN, or zero (log entry 4, DESIGN CHOICE). -/

namespace Sys2Proof.Machine

open Sys2Proof

/-- The errors the core can raise: every row of R706. -/
inductive Err where
  | badEngine
  | badMaxbits
  | negExpectLen
  | nameTooLong
  | nameNul
  | truncated
  | badMagic
  | badHeader
  | badChunkHeader
  | badCode
  | tableFull
  | lzwOverrun
  | rleTruncated
  | rleOverrun
  | rleUnderrun
  | checksum
  | badTree
  | badElias
  | badOffset
  | sqCeiling
  | zx0NoPath
  | zx0RepeatAfterMatch
  | seek
  | reservedOp
  | wrongState
deriving DecidableEq, Repr

/-- What an engine procedure does next (R221): it waits for input, it has returned, or it raises. -/
inductive Sig where
  | running
  | returned
  | raised (e : Err)
deriving DecidableEq, Repr

/-- One stretch of an engine procedure: the engine state after it, the bytes it gave to OutByte in
order, and how it ended. -/
structure Run (σ : Type) where
  st : σ
  out : List Byte := []
  sig : Sig := .running
deriving DecidableEq, Repr

/-! ### Bit I/O registers (R63 to R66) -/

/-- The sinks of completed bytes (R63, DEST). -/
inductive Dest where
  | outq
  | lzbuf
deriving DecidableEq, Repr

/-- The LSB-first bit writer (R63). That DEST is OUTQ from OPEN to the engine's first use of the writer is a DESIGN CHOICE,
log entry 28. -/
structure LsbWriter where
  acc : Byte := 0
  nacc : Nat := 0
  dest : Dest := .outq
deriving DecidableEq, Repr

/-- The LSB-first bit reader (R64). `got` bits of the code being read are collected in `val`
(the loop variables of R264, part of PC). -/
structure LsbReader where
  rbyte : Byte := 0
  ravail : Nat := 0
  got : Nat := 0
  val : Nat := 0
deriving DecidableEq, Repr

/-- The ZX0 bit writer (R65). -/
structure ZxWriter where
  zout : List Byte := []
  bitMask : Byte := 0
  bitIndex : Nat := 0
  backtrack : Bool := true
deriving DecidableEq, Repr

/-- The ZX0 bit reader (R66). `waiting` says that `read_bit` stands inside its `read_byte` (R272; part of PC, log
entry 25). -/
structure ZxReader where
  zmask : Byte := 0
  zval : Byte := 0
  zback : Bool := false
  zlast : Byte := 0
  waiting : Bool := false
deriving DecidableEq, Repr

/-! ### NuFX (R67 to R69) -/

/-- The NuFX compress engines (R67). `chunk` is the first CLEN bytes of CHUNKBUF (log entry 21); `dict`
maps `prefix * 256 + byte` to a code, 0 meaning no entry (R68, log entry 14). -/
structure NufxEnc where
  chunk : List Byte := []
  rlebuf : List Byte := []
  lzbuf : List Byte := []
  body : List Byte := []
  crc : Half := 0
  dict : Tab Nat := []
  f : Nat := Config.nufxFirst
  p : Nat := 0
  wr : LsbWriter := {}
  returned : Bool := false
deriving DecidableEq, Repr

/-- Control points of the NuFX expand procedures (R62, R345, R346, R340, R349). -/
inductive NufxPc where
  /-- inside the stream header, whose first bytes are `got` -/
  | hdr (got : List Byte)
  /-- at the test of `while PRODUCED < EXPECT` -/
  | loop
  /-- inside the chunk header or word -/
  | chunkHdr (got : List Byte)
  /-- inside CLEN of the LZW/2 chunk word `w` -/
  | clen (w : Half) (got : List Byte)
  /-- reading stored stage-1 bytes -/
  | stored
  /-- reading an LZW code -/
  | code
  /-- expanding stage-1 data, `rest` is still to come -/
  | rle (rest : List Byte)
  | done
deriving DecidableEq, Repr

/-- The NuFX expand engines (R69). -/
structure NufxDec where
  expect : Nat := 0
  produced : Nat := 0
  delimIn : Byte := 0
  volumeIn : Byte := 0
  crcWant : Half := 0
  crc : Half := 0
  rlelen : Nat := 0
  useLzw : Bool := false
  pfx : Tab Nat := []
  sfx : Tab Byte := []
  f : Nat := Config.nufxFirst
  prev : Option Nat := none
  seg : List Byte := []
  chunk : List Byte := []
  rd : LsbReader := {}
  pc : NufxPc := .hdr []
deriving DecidableEq, Repr

/-! ### LZC (R70, R71) -/

/-- The LZC compress engine (R70). -/
structure LzcEnc where
  maxbits : Nat := 0
  block : Bool := false
  maxmaxcode : Nat := 0
  htab : Tab Int := []
  codetab : Tab Nat := []
  freeEnt : Nat := 256
  nBits : Nat := Config.lzcInitBits
  maxcode : Nat := 511
  ent : Nat := 0
  haveEnt : Bool := false
  inCnt : Nat := 1
  bytesOut : Nat := 3
  checkpoint : Nat := Config.lzcCheckGap
  ratio : Nat := 0
  clearFlg : Bool := false
  gbuf : List Byte := List.replicate 16 0
  goff : Nat := 0
  hshift : Nat := Config.lzcHshift
  returned : Bool := false
deriving DecidableEq, Repr

/-- Which code the LZC expand procedure reads next (R445): the first of the stream, the first after a
CLEAR, or another. -/
inductive LzcPhase where
  | first
  | afterClear
  | next
deriving DecidableEq, Repr

/-- Control points of the LZC expand procedure (R62, R440, R442, R445). -/
inductive LzcPc where
  | hdr (got : List Byte)
  /-- inside the read of a group; GRP holds the bytes so far -/
  | fetch (ph : LzcPhase)
  /-- at the head of getcode -/
  | codes (ph : LzcPhase)
  | done
deriving DecidableEq, Repr

/-- The LZC expand engine (R71). Entries of TAB_SUFFIX below 256 are their own index and are not listed. -/
structure LzcDec where
  maxbits : Nat := 0
  block : Bool := false
  maxmaxcode : Nat := 0
  tabPrefix : Tab Nat := []
  tabSuffix : Tab Byte := []
  freeEnt : Nat := 256
  nBits : Nat := Config.lzcInitBits
  maxcode : Nat := 511
  grp : List Byte := []
  goff : Nat := 0
  gsize : Int := 0
  clearFlg : Bool := false
  oldcode : Nat := 0
  finchar : Byte := 0
  pc : LzcPc := .hdr []
deriving DecidableEq, Repr

/-! ### Squeeze (R72, R73) -/

/-- The Squeeze compress engine (R72). NOCHILD is -1. -/
structure SqEnc where
  whole : List Byte := []
  rleout : List Byte := []
  weight : Tab Nat := []
  tdepth : Tab Nat := []
  lchild : Tab Int := []
  rchild : Tab Int := []
  list : List Nat := []
  code : Tab Nat := []
  codelen : Tab Nat := []
  ceiling : Nat := 65535
  sum : Half := 0
  wr : LsbWriter := {}
  returned : Bool := false
deriving DecidableEq, Repr

/-- RSTATE of the Squeeze RLE expander (R73, R547). -/
inductive RState where
  | normal
  | haveDelim
  | haveValue
deriving DecidableEq, Repr

/-- Control points of the Squeeze expand procedure (R62, R540). -/
inductive SqPc where
  | hdr (got : List Byte)
  | count (got : List Byte)
  /-- inside node entry `i` -/
  | node (i : Nat) (got : List Byte)
  | data
  /-- after the data section: the checks before the return -/
  | tail
  | done
deriving DecidableEq, Repr

/-- The Squeeze expand engine (R73). `dnode` holds DNODE[i][side] at index `2*i + side`. -/
structure SqDec where
  sumWant : Half := 0
  sum : Half := 0
  numnodes : Nat := 0
  dnode : Tab Int := []
  node : Int := 0
  rstate : RState := .normal
  rval : Byte := 0
  rd : LsbReader := {}
  pc : SqPc := .hdr []
deriving DecidableEq, Repr

/-! ### ZX0 (R74, R75) -/

/-- A parse block and its chain (R602); `none` is the NONE of R611. -/
inductive ParseBlock where
  | none
  | mk (bits index : Int) (offset : Nat) (chain : ParseBlock)
deriving DecidableEq, Repr

/-- LAST_LITERAL, LAST_MATCH and MATCH_LENGTH of one offset (R74). -/
structure OffRec where
  lastLiteral : ParseBlock := .none
  lastMatch : ParseBlock := .none
  matchLength : Nat := 0
deriving DecidableEq, Repr

/-- PREV_KIND (R74, R621). -/
inductive PrevKind where
  | none
  | lit
  | rep
  | new
deriving DecidableEq, Repr

/-- The ZX0 compress engine (R74). `offs` is the per-offset arrays from offset 1 up; `optimal` is
OPTIMAL, the newest position first. -/
structure ZxEnc where
  whole : List Byte := []
  offs : List OffRec := []
  optimal : List ParseBlock := []
  bestLength : Tab Nat := []
  wr : ZxWriter := {}
  lastOffset : Nat := Config.zx0InitialOffset
  prevKind : PrevKind := .none
  returned : Bool := false
deriving DecidableEq, Repr

/-- ZSTATE (R75). -/
inductive ZState where
  | copyLiterals
  | copyFromLastOffset
  | copyFromNewOffset
  | done
deriving DecidableEq, Repr

/-- What a ZX0 Elias-gamma value is read for (R641 to R643). -/
inductive EgUse where
  | litLen
  | repLen
  | msb
  | newLen
deriving DecidableEq, Repr

/-- Control points of the ZX0 expand procedure (R62, R640 to R643, R273). -/
inductive ZxPc where
  /-- at AtEOF, before the first byte -/
  | start
  /-- inside `read_eg`, value so far `v`; `data` says a data bit is due, else a continue or stop bit -/
  | eg (use : EgUse) (v : Nat) (data : Bool)
  /-- `left` raw bytes of a literal run are due -/
  | lits (left : Nat)
  /-- the raw byte of a new offset is due -/
  | lsb (msb : Nat)
  /-- the indicator bit of the next token is due -/
  | indic
  | done
deriving DecidableEq, Repr

/-- The ZX0 expand engine (R75). `hist` is every byte output, the newest first (log entry 24). -/
structure ZxDec where
  zstate : ZState := .copyLiterals
  lastOffset : Nat := Config.zx0InitialOffset
  hist : List Byte := []
  rd : ZxReader := {}
  pc : ZxPc := .start
deriving DecidableEq, Repr

/-! ### A context -/

/-- STATE (R56). -/
inductive CState where
  | idle
  | active
  | finished
  | error
deriving DecidableEq, Repr

/-- The latched configuration (R58). -/
structure LCfg where
  delim : Word := 0
  volume : Word := 0
  lzc : Word := 0
  sq : Word := 0
  zx0 : Word := 0
  expect : Word := 0
  name : List Byte := []
deriving DecidableEq, Repr

/-- The engine state of a context: separate records for each engine and direction (R140). -/
structure Engines where
  nufxEnc : NufxEnc := {}
  nufxDec : NufxDec := {}
  lzcEnc : LzcEnc := {}
  lzcDec : LzcDec := {}
  sqEnc : SqEnc := {}
  sqDec : SqDec := {}
  zxEnc : ZxEnc := {}
  zxDec : ZxDec := {}
deriving DecidableEq, Repr

/-- One context (R40): its register block (R41), control state (R56 to R62) and engine state. -/
structure Ctx where
  st : CState := .idle
  engine : BitVec 3 := 0
  dir : Bool := false
  dout : Word := 0
  err : Word := 0
  warn : Word := 0
  inCount : Word := 0
  outCount : Word := 0
  trailCount : Word := 0
  cfgDelim : Word := 0xDB
  cfgVolume : Word := 0
  cfgLzc : Word := 0x90
  cfgSq : Word := 0x190
  cfgZx0 : Word := 0
  cfgExpect : Word := 0
  namebuf : List Byte := []
  lcfg : LCfg := {}
  inq : List Byte := []
  outq : List Byte := []
  ended : Bool := false
  natend : Bool := false
  eng : Engines := {}
deriving DecidableEq, Repr

/-- The context after hardware reset (R78, R800). -/
def Ctx.reset : Ctx := {}

/-- Which of a decoder's token layers an item sequence is offered to (log entry 3). -/
inductive Space where
  /-- the packed or byte stream itself -/
  | stream
  /-- the code group of LZC (R466) -/
  | group
  /-- the RLE layer behind the stream (R175, R183) -/
  | rle
  /-- the padding after a Squeeze EOF code (R565) -/
  | pad
deriving DecidableEq, Repr

/-- A pending event of the outside world: a register access (R122), hardware reset (R800), or the model's
own token port (log entry 3). `size` is the access width in bytes. Addresses are natural numbers: R121 leaves the
width of the host address to the platform, and the model gives it none (log entry 29, DESIGN CHOICE). -/
inductive Event where
  | write (addr size : Nat) (v : Word)
  | read (addr size : Nat)
  | reset
  | token (sp : Space) (items : List Item)
deriving DecidableEq, Repr

/-- The whole core. `par` is configuration and never changes; `sel`, `bus`, `rdata` and `free` are the
model's own (log entries 26, 2, 13, 10). -/
structure State where
  par : Params
  ctxs : List Ctx
  sel : Nat
  bus : List Event
  rdata : Word
  free : Nat
deriving DecidableEq, Repr

/-- The core right after hardware reset, default parameters, no access pending (R78, R800). -/
def State.reset : State where
  par := {}
  ctxs := [Ctx.reset]
  sel := 0
  bus := []
  rdata := 0
  free := 0

/-- Faults: the machine stops. -/
inductive Fault where
  /-- Raised by a register access whose address lies in no context's block (R130), and by a meaning run
  for a context index that does not exist. Safe: it stops where the core is not addressed. -/
  | unmapped
deriving DecidableEq, Repr

/-- Refusals: what the model leaves out. -/
inductive Refusal where
  /-- Raised by exec for an instruction that has no meaning yet. Safe. -/
  | notModelled (mnemonic : String)
  /-- Raised by a register access that is not an aligned 4-byte access (R123, I1). Safe. -/
  | badAccess
  /-- Raised by a stream token when the addressed context has no decoder that awaits that kind of token
  (log entry 3). Safe. -/
  | tokenNotAwaited
  /-- Raised by a stream token whose row's condition does not hold in the decoder's state: its bits are
  another row's (R174, R177, log entry 3). Safe. -/
  | tokenClass
  /-- Raised by FEED past a bounded MAX_WHOLE_FILE (R816, I16, log entry 9). Safe. -/
  | wholeFileFull
  /-- Raised by a command or token that leaves more than a bounded OUTQ_CAP bytes in OUTQ (R812, I15, log
  entry 9). Safe. -/
  | outqFull
deriving DecidableEq, Repr

/-- The outcome of an instruction or a step. -/
abbrev Out := Host.Outcome State Fault Refusal

end Sys2Proof.Machine
end

