-- ==== Sys2Proof/Machine/Flags.lean ====
section
/-! DEFINITION. The status words the core computes: ERR (R45, R706), STATUS (R43), DOUT (R44) and WARN
(R46). R76: these are all the flags the core has. -/

namespace Sys2Proof.Machine

open Sys2Proof

/-- The class codes of R45. -/
def Err.cls : Err → BitVec 4
  | .badEngine | .badMaxbits | .negExpectLen | .nameTooLong | .nameNul => 1
  | .truncated | .badMagic | .badHeader | .badChunkHeader | .badCode | .tableFull | .lzwOverrun
  | .rleTruncated | .rleOverrun | .rleUnderrun | .checksum | .badTree | .badElias | .badOffset => 2
  | .sqCeiling | .zx0NoPath | .zx0RepeatAfterMatch => 3
  | .seek => 4
  | .reservedOp | .wrongState => 5

/-- The detail codes of R706. -/
def Err.detail : Err → Byte
  | .badEngine => 0x01
  | .badMaxbits => 0x02
  | .negExpectLen => 0x03
  | .nameTooLong => 0x04
  | .nameNul => 0x05
  | .truncated => 0x01
  | .badMagic => 0x02
  | .badHeader => 0x03
  | .badChunkHeader => 0x04
  | .badCode => 0x05
  | .tableFull => 0x06
  | .lzwOverrun => 0x07
  | .rleTruncated => 0x08
  | .rleOverrun => 0x09
  | .rleUnderrun => 0x0A
  | .checksum => 0x0B
  | .badTree => 0x0C
  | .badElias => 0x0D
  | .badOffset => 0x0E
  | .sqCeiling => 0x01
  | .zx0NoPath => 0x02
  | .zx0RepeatAfterMatch => 0x03
  | .seek => 0x01
  | .reservedOp => 0x01
  | .wrongState => 0x02

/-- `ERR = CLASS | DETAIL << 8` (R45, R706). -/
def Err.word (e : Err) : Word := 0#16 ++ e.detail ++ 0#4 ++ e.cls

/-- ERR.CLASS (R45). -/
def errClass (w : Word) : BitVec 4 := w.extractLsb' 0 4

/-- ERR.DETAIL (R45). -/
def errDetail (w : Word) : Byte := w.extractLsb' 8 8

/-- The state codes of R56. -/
def CState.code : CState → BitVec 2
  | .idle => 0
  | .active => 1
  | .finished => 2
  | .error => 3

/-- OUT_AVAIL (R43). -/
def Ctx.outAvail (c : Ctx) : Bool := decide (c.outq ≠ [])

/-- OUT_END (R43). -/
def Ctx.outEnd (c : Ctx) : Bool :=
  (decide (c.st = .finished) && decide (c.outq = [])) || decide (c.st = .error)

/-- WARN_ANY (R43). -/
def Ctx.warnAny (c : Ctx) : Bool := decide (c.warn ≠ 0)

/-- DIR as STATUS shows it: 0 while IDLE (R43, R57). -/
def Ctx.statusDir (c : Ctx) : Bool := decide (c.st ≠ .idle) && c.dir

/-- ENGINE as STATUS shows it: 0 while IDLE (R43, R57). -/
def Ctx.statusEngine (c : Ctx) : BitVec 3 := if c.st = .idle then 0 else c.engine

/-- The value of STATUS (R43). -/
def Ctx.status (c : Ctx) : Word :=
  0#20 ++ BitVec.ofBool c.warnAny ++ BitVec.ofBool c.natend ++ BitVec.ofBool c.outEnd ++
    BitVec.ofBool c.outAvail ++ 0#1 ++ c.statusEngine ++ 0#1 ++ BitVec.ofBool c.statusDir ++ c.st.code

/-- A value of DOUT (R44). -/
def doutWord (fin valid : Bool) (b : Byte) : Word :=
  0#22 ++ BitVec.ofBool fin ++ BitVec.ofBool valid ++ b

/-- The bit TRAILING_INPUT of WARN (R46). -/
def warnTrailing : Word := 1

/-- NAME_LEN (R54). -/
def Ctx.nameLen (c : Ctx) : Word := BitVec.ofNat 32 c.namebuf.length

end Sys2Proof.Machine
end

