-- ==== Sys2Proof/Machine/Bits.lean ====
section
/-! DEFINITION. Bit I/O primitives (41_bit_io.md): the LSB-first writer and reader, the ZX0 writer, the
Elias-gamma writer, and the CRC collaborator. -/

namespace Sys2Proof.Machine

open Sys2Proof

/-! ### Stretches of a procedure -/

namespace Run

variable {σ : Type}

/-- `f` continues the procedure where `r` is still running; output keeps its order. -/
def andThen (r : Run σ) (f : σ → Run σ) : Run σ :=
  match r.sig with
  | .running =>
    let q := f r.st
    { st := q.st, out := r.out ++ q.out, sig := q.sig }
  | _ => r

/-- The procedure raises `e` (R13). -/
def fail (s : σ) (e : Err) : Run σ := { st := s, sig := .raised e }

/-- The procedure returns (R221 (b)). -/
def ret (s : σ) : Run σ := { st := s, sig := .returned }

/-- The procedure goes on, with output `o`. -/
def go (s : σ) (o : List Byte := []) : Run σ := { st := s, out := o }

end Run

/-! ### LSB-first writer (R262, R263) -/

namespace LsbWriter

/-- One round of `put_code`'s loop: the bit goes to the lowest unfilled bit of ACC (R262). -/
def putBit (w : LsbWriter) (b : Bool) : LsbWriter × List Byte :=
  let acc := w.acc ||| (BitVec.ofNat 8 b.toNat <<< w.nacc)
  if w.nacc + 1 = 8 then ({ w with acc := 0, nacc := 0 }, [acc])
  else ({ w with acc := acc, nacc := w.nacc + 1 }, [])

/-- Bits in order, with the bytes that fill up. -/
def putBits (w : LsbWriter) : List Bool → LsbWriter × List Byte
  | [] => (w, [])
  | b :: bs =>
    let r := w.putBit b
    let r' := putBits r.1 bs
    (r'.1, r.2 ++ r'.2)

/-- `put_code(value, width)` for width >= 1 (R262). -/
def putCode (w : LsbWriter) (value width : Nat) : LsbWriter × List Byte :=
  w.putBits (bitsOf value width)

/-- `flush()` (R263). -/
def flush (w : LsbWriter) : LsbWriter × List Byte :=
  ({ w with acc := 0, nacc := 0 }, if 0 < w.nacc then [w.acc] else [])

end LsbWriter

/-! ### LSB-first reader (R264, R265) -/

namespace LsbReader

/-- RBYTE takes the next byte of the source (R264). -/
def load (r : LsbReader) (b : Byte) : LsbReader := { r with rbyte := b, ravail := 8 }

/-- The next unread bit of RBYTE, `RBYTE[8 - RAVAIL]` (R264). -/
def bit (r : LsbReader) : Bool := r.rbyte.getLsbD (8 - r.ravail)

/-- One round of `get_code`'s loop: the bit becomes bit `got` of the code (R264). -/
def take (r : LsbReader) : LsbReader :=
  { r with ravail := r.ravail - 1, got := r.got + 1, val := r.val + r.bit.toNat * 2 ^ r.got }

/-- A new `get_code` begins (R264). -/
def start (r : LsbReader) : LsbReader := { r with got := 0, val := 0 }

/-- `align()` (R265): RBYTE and RAVAIL are 0 after it (R64). -/
def align (_ : LsbReader) : LsbReader := {}

end LsbReader

/-! ### ZX0 writer (R270, R271) -/

namespace ZxWriter

/-- `write_byte(v)` (R270). -/
def writeByte (w : ZxWriter) (v : Byte) : ZxWriter := { w with zout := w.zout ++ [v] }

/-- Byte `i` of a list, ORed with `m`. -/
def orAt (l : List Byte) (i : Nat) (m : Byte) : List Byte := l.set i (l.getD i 0 ||| m)

/-- `write_bit(v)` (R270). -/
def writeBit (w : ZxWriter) (v : Bool) : ZxWriter :=
  if w.backtrack then
    { w with
      zout := if v then orAt w.zout (w.zout.length - 1) 1 else w.zout
      backtrack := false }
  else
    let w := if w.bitMask = 0 then
        { w with bitMask := 0x80, bitIndex := w.zout.length, zout := w.zout ++ [0] }
      else w
    { w with
      zout := if v then orAt w.zout w.bitIndex w.bitMask else w.zout
      bitMask := w.bitMask >>> 1 }

/-- Bits in order. -/
def writeBits (w : ZxWriter) : List Bool → ZxWriter
  | [] => w
  | b :: bs => writeBits (w.writeBit b) bs

/-- `write_eg(value, invert)` (R271). -/
def writeEg (w : ZxWriter) (value : Nat) (invert : Bool) : ZxWriter := w.writeBits (egBits invert value)

/-- Raw bytes in order. -/
def writeBytes (w : ZxWriter) : List Byte → ZxWriter
  | [] => w
  | b :: bs => writeBytes (w.writeByte b) bs

end ZxWriter

/-! ### CRC collaborator (R290) -/

/-- One bit of the CRC loop (R290). -/
def crcBit (crc : Half) : Half :=
  if crc.getLsbD 15 then (crc <<< 1) ^^^ 0x1021 else crc <<< 1

/-- One byte of the CRC loop (R290). -/
def crcByte (crc : Half) (b : Byte) : Half :=
  crcBit (crcBit (crcBit (crcBit (crcBit (crcBit (crcBit (crcBit (crc ^^^ (b ++ 0#8)))))))))

/-- `crc16_xmodem(seed, buf, 0, |buf|)` (R290). -/
def crc16Xmodem (seed : Half) (buf : List Byte) : Half := buf.foldl crcByte seed

/-! ### The RLE pass (R302, R303) -/

/-- The maximal runs of a byte list, none longer than `maxRun`: `n` bytes `v` have been seen (R302). -/
def rleRuns (maxRun : Nat) (v : Byte) (n : Nat) : List Byte → List (Byte × Nat)
  | [] => [(v, n)]
  | x :: xs =>
    if x = v ∧ n < maxRun then rleRuns maxRun v (n + 1) xs
    else (v, n) :: rleRuns maxRun x 1 xs

/-- The runs of a byte list (R302). -/
def runsOf (maxRun : Nat) : List Byte → List (Byte × Nat)
  | [] => []
  | x :: xs => rleRuns maxRun x 1 xs

/-- How one run is coded (R302). -/
def rleEmit (delim : Byte) (threshold : Nat) (r : Byte × Nat) : List Byte :=
  if threshold ≤ r.2 ∨ r.1 = delim then [delim, r.1, BitVec.ofNat 8 (r.2 - 1)]
  else List.replicate r.2 r.1

/-- `rle_encode(X, DELIM, THRESHOLD)` (R302). -/
def rleEncode (x : List Byte) (delim : Byte) (threshold : Nat) : List Byte :=
  (runsOf Config.rleMaxRun x).flatMap (rleEmit delim threshold)

end Sys2Proof.Machine
end

