-- ==== Sys2Proof/Machine/LzcDec.lean ====
section
/-! DEFINITION. The LZC expand engine (43_lzc.md, R440 to R466).

Each stream token has one operation here, named after its row; the procedure and the token's meaning both
run it. -/

namespace Sys2Proof.Machine

open Sys2Proof

namespace LzcDec

/-- string(k), following TAB_PREFIX for at most `fuel` links; `acc` is what follows (R447; log entry 17). -/
def stringOf (d : LzcDec) : Nat → Nat → List Byte → List Byte
  | 0, k, acc => BitVec.ofNat 8 k :: acc
  | fuel + 1, k, acc =>
    if k < 256 then BitVec.ofNat 8 k :: acc
    else stringOf d fuel (Tab.get 0 d.tabPrefix k) (Tab.get 0 d.tabSuffix k :: acc)

/-- string(k): the prefix of an entry that a code can name is a smaller code, so `k` links are enough
(R447). -/
def string (d : LzcDec) (k : Nat) : List Byte := d.stringOf k k []

/-- Entry creation and `OLDCODE <- k` (R446). -/
def addEntry (d : LzcDec) (k : Nat) : LzcDec :=
  if d.freeEnt < d.maxmaxcode then
    { d with
      tabPrefix := Tab.put 0 d.tabPrefix d.freeEnt d.oldcode
      tabSuffix := Tab.put 0 d.tabSuffix d.freeEnt d.finchar
      freeEnt := d.freeEnt + 1
      oldcode := k }
  else { d with oldcode := k }

/-- The string `s` of the non-first code `k`: output, FINCHAR, entry creation (R460, R462, R463, R446). -/
def emit (d : LzcDec) (s : List Byte) (k : Nat) : Run LzcDec :=
  .go { ({ d with finchar := s.headD 0 }.addEntry k) with pc := .codes .next } s

/-- LZC.LIT: `first` says it is the first code of the stream (R460, R444). -/
def lit (d : LzcDec) (first : Bool) (k : Byte) : Run LzcDec :=
  if first then .go { d with oldcode := k.toNat, finchar := k, pc := .codes .next } [k]
  else d.emit [k] k.toNat

/-- LZC.CLEAR (R461). -/
def clear (d : LzcDec) : Run LzcDec :=
  .go { d with freeEnt := 256, clearFlg := true, pc := .codes .afterClear }

/-- LZC.TABLE (R462). -/
def table (d : LzcDec) (k : Nat) : Run LzcDec := d.emit (d.string k) k

/-- LZC.KWKWK (R463). -/
def kwkwk (d : LzcDec) (k : Nat) : Run LzcDec := d.emit (d.string d.oldcode ++ [d.finchar]) k

/-- LZC.INVALID (R464). -/
def invalid (d : LzcDec) : Run LzcDec := .fail d .badCode

/-- The class of a code at phase `ph` (R444, R445). -/
def classOf (d : LzcDec) (ph : LzcPhase) (code : Nat) : CodeClass :=
  lzcClass d.freeEnt d.block (decide (ph ≠ .next)) code

/-- A code's token rule (R445). -/
def applyCode (d : LzcDec) (ph : LzcPhase) (code : Nat) : Run LzcDec :=
  match d.classOf ph code with
  | .lit => d.lit (decide (ph = .first)) (BitVec.ofNat 8 code)
  | .clear => d.clear
  | .table => d.table code
  | .kwkwk => d.kwkwk code
  | .invalid => d.invalid

/-- LZC.HDR (R465, R440). -/
def hdr (d : LzcDec) (m0 m1 flags : Byte) : Run LzcDec :=
  if m0 ≠ 0x1F ∨ m1 ≠ 0x9D then .fail d .badMagic
  else
    let d1 := { d with maxbits := flagsMaxbits flags, block := flagsBlock flags }
    if flagsReserved flags ≠ 0 ∨ flagsMaxbits flags < 9 ∨ 16 < flagsMaxbits flags then .fail d1 .badHeader
    else .go { d1 with
      maxmaxcode := 2 ^ flagsMaxbits flags
      freeEnt := if flagsBlock flags then Config.lzcFirst else 256
      pc := .codes .first }

/-- The value of a list of bytes, the first being the least significant (R442). -/
def leVal : List Byte → Nat
  | [] => 0
  | b :: bs => b.toNat + 256 * leVal bs

/-- `getcode` reads a new group (R442). GRP is empty while GOFF < GSIZE only where a code token of the port has just
stood for a whole group (R178, log entry 3), and its group holds no other code. -/
def needGroup (d : LzcDec) : Bool :=
  decide (d.grp = []) || d.clearFlg || decide (d.gsize ≤ (d.goff : Int)) || decide (d.maxcode < d.freeEnt)

/-- The width changes before a group read (R442, R443; where the example of R443 differs from R442, log entry 30). -/
def growWidth (d : LzcDec) : LzcDec :=
  let d1 := if d.maxcode < d.freeEnt then
      { d with nBits := d.nBits + 1
               maxcode := if d.nBits + 1 = d.maxbits then d.maxmaxcode else 2 ^ (d.nBits + 1) - 1 }
    else d
  if d1.clearFlg then { d1 with nBits := Config.lzcInitBits, maxcode := 511, clearFlg := false } else d1

/-- The code at GOFF of GRP (R442). -/
def codeAt (d : LzcDec) : Nat := leVal d.grp / 2 ^ d.goff % 2 ^ d.nBits

/-- The procedure goes on from the head of `getcode` until it needs input (R221, R445): at most `fuel`
codes (log entry 17). -/
def codesLoop : Nat → LzcDec → Run LzcDec
  | 0, d => .go d
  | fuel + 1, d =>
    match d.pc with
    | .codes ph =>
      if d.needGroup then .go { d.growWidth with grp := [], pc := .fetch ph }
      else (applyCode { d with goff := d.goff + d.nBits } ph d.codeAt).andThen (codesLoop fuel)
    | _ => .go d

/-- A group holds at most 8 codes a byte; one more round finds that it is used up. -/
def settle (d : LzcDec) : Run LzcDec := codesLoop (8 * d.grp.length + 1) d

/-- LZC.GROUP: the bytes of a group enter GRP, and its codes can be decoded (R466, R442). A group too
short for one code is the end of the stream. -/
def group (d : LzcDec) (ph : LzcPhase) (bytes : List Byte) : Run LzcDec :=
  let d1 := { d with grp := bytes, goff := 0, gsize := (bytes.length : Int) * 8 - ((d.nBits : Int) - 1) }
  if d1.gsize ≤ 0 then .ret { d1 with pc := .done } else .go { d1 with pc := .codes ph }

/-- InByte returns `b` at the control point (R124). -/
def byte (d : LzcDec) (b : Byte) : Run LzcDec :=
  match d.pc with
  | .hdr [m0, m1] => (d.hdr m0 m1 b).andThen settle
  | .hdr got => .go { d with pc := .hdr (got ++ [b]) }
  | .fetch ph =>
    if d.grp.length + 1 < d.nBits then .go { d with grp := d.grp ++ [b] }
    else (d.group ph (d.grp ++ [b])).andThen settle
  | _ => .go d

/-- The procedure finds no byte at the head of a group (R442, R448). -/
def atEnd (d : LzcDec) : Run LzcDec :=
  match d.pc with
  | .fetch _ => .ret { d with pc := .done }
  | _ => .go d

/-- InByte returns EOF: TRUNCATED inside the header, else the end of the stream (R440, R442). -/
def eof (d : LzcDec) : Run LzcDec :=
  match d.pc with
  | .hdr _ => .fail d .truncated
  | .fetch ph =>
    if d.grp = [] then .ret { d with pc := .done }
    else ((d.group ph d.grp).andThen settle).andThen atEnd
  | _ => .go d

/-- The engine at OPEN (R71, R79, R441). The registers that the header sets are 0 until then, and FREE_ENT is 256: DESIGN
CHOICE, log entry 28. -/
def start : LzcDec := {}

end LzcDec

end Sys2Proof.Machine
end

