-- ==== Sys2Proof/Machine/LzcEnc.lean ====
section
/-! DEFINITION. The LZC compress engine (43_lzc.md, R400 to R425). -/

namespace Sys2Proof.Machine

open Sys2Proof

namespace LzcEnc

/-- MAXCODE after a growth to `n` bits (R414, R416). -/
def grownMaxcode (maxbits maxmaxcode n : Nat) : Nat := if n = maxbits then maxmaxcode else 2 ^ n - 1

/-- What `lookup` finds (R411). -/
inductive Probe where
  | hit (i : Nat)
  | miss (i : Nat)
deriving DecidableEq, Repr

/-- `continue_probe(h)` (R412): `quirk` is LZC_ZERO_KEY_QUIRK = ON. -/
def continueProbe (quirk : Bool) (h : Int) : Bool := if quirk then decide (0 < h) else decide (0 ≤ h)

/-- The secondary probe sequence (R411), at most `fuel` slots of it (log entry 17). -/
def probeFrom (quirk : Bool) (htab : Tab Int) (fcode : Int) (disp : Nat) : Nat → Nat → Probe
  | 0, i => .miss i
  | fuel + 1, i =>
    let i' := if i < disp then i + Config.lzcHsize - disp else i - disp
    let h := Tab.get (-1) htab i'
    if h = fcode then .hit i'
    else if continueProbe quirk h then probeFrom quirk htab fcode disp fuel i'
    else .miss i'

/-- `fcode = (c << MAXBITS) + ENT` (R411). -/
def fcode (e : LzcEnc) (c : Byte) : Nat := c.toNat * 2 ^ e.maxbits + e.ent

/-- The primary slot `(c << HSHIFT) XOR ENT` (R411). -/
def slot (e : LzcEnc) (c : Byte) : Nat := (c.toNat * 2 ^ e.hshift) ^^^ e.ent

/-- `lookup(ENT, c)` (R411). -/
def lookup (quirk : Bool) (e : LzcEnc) (c : Byte) : Probe :=
  let i := e.slot c
  let h := Tab.get (-1) e.htab i
  if h = (e.fcode c : Int) then .hit i
  else if h < 0 then .miss i
  else probeFrom quirk e.htab (e.fcode c) (if i = 0 then 1 else Config.lzcHsize - i) Config.lzcHsize i

/-- Bytes of `v`, least significant first, over the `n` bytes of `l` from index `k` (R415). -/
def overwrite (l : List Byte) (k v : Nat) : Nat → List Byte
  | 0 => l
  | n + 1 => overwrite (l.set k (BitVec.ofNat 8 v)) (k + 1) (v / 256) n

/-- The packing of `output(code)`: the bits of the first byte below GOFF are kept, the other bits of the
touched bytes are overwritten (R415). -/
def pack (gbuf : List Byte) (goff nBits code : Nat) : List Byte :=
  let lo := goff % 8
  let old := (gbuf.getD (goff / 8) 0).toNat % 2 ^ lo
  overwrite gbuf (goff / 8) (old + (code % 2 ^ nBits) * 2 ^ lo) ((lo + nBits + 7) / 8)

/-- `ceil(GOFF / 8)` (R416, R417). -/
def usedBytes (e : LzcEnc) : Nat := (e.goff + 7) / 8

/-- The bytes of a partial group that is closed early (R416). -/
def groupBytes (pad : FlushPad) (e : LzcEnc) : List Byte :=
  match pad with
  | .stale => e.gbuf.take e.nBits
  | .zero => e.gbuf.take e.usedBytes ++ List.replicate (e.nBits - e.usedBytes) 0

/-- The width after `width_change_flush` (R416). -/
def nextWidth (e : LzcEnc) : LzcEnc :=
  if e.clearFlg then { e with nBits := Config.lzcInitBits, maxcode := 511, clearFlg := false }
  else { e with nBits := e.nBits + 1, maxcode := grownMaxcode e.maxbits e.maxmaxcode (e.nBits + 1) }

/-- `width_change_flush()` (R416). -/
def widthChangeFlush (pad : FlushPad) (e : LzcEnc) : LzcEnc × List Byte :=
  if 0 < e.goff then
    ({ e with bytesOut := e.bytesOut + e.nBits, goff := 0 }.nextWidth, groupBytes pad e)
  else (e.nextWidth, [])

/-- A full group of 8 codes is written (R415). -/
def groupFull (e : LzcEnc) : LzcEnc × List Byte :=
  if e.goff = e.nBits * 8 then
    ({ e with bytesOut := e.bytesOut + e.nBits, goff := 0 }, e.gbuf.take e.nBits)
  else (e, [])

/-- `output(code)` (R415). -/
def output (pad : FlushPad) (e : LzcEnc) (code : Nat) : LzcEnc × List Byte :=
  let e1 := { e with gbuf := pack e.gbuf e.goff e.nBits code, goff := e.goff + e.nBits }
  let r := e1.groupFull
  if r.1.maxcode < r.1.freeEnt ∨ r.1.clearFlg then
    let q := r.1.widthChangeFlush pad
    (q.1, r.2 ++ q.2)
  else r

/-- `output(FLUSH)` (R417). -/
def outputFlush (e : LzcEnc) : LzcEnc × List Byte :=
  ({ e with bytesOut := e.bytesOut + e.usedBytes, goff := 0 }, e.gbuf.take e.usedBytes)

/-- The ratio of the check (R419). -/
def ratioOf (e : LzcEnc) : Nat :=
  if 0x007FFFFF < e.inCnt then
    (if e.bytesOut / 256 = 0 then 0x7FFFFFFF else e.inCnt / (e.bytesOut / 256))
  else e.inCnt * 256 / e.bytesOut

/-- `cl_block()` (R419, R420). -/
def clBlock (pad : FlushPad) (e : LzcEnc) : LzcEnc × List Byte :=
  let e1 := { e with checkpoint := e.inCnt + Config.lzcCheckGap }
  if e1.ratio < e1.ratioOf then ({ e1 with ratio := e1.ratioOf }, [])
  else
    { e1 with ratio := 0, htab := [], freeEnt := Config.lzcFirst, clearFlg := true }.output pad Config.lzcClear

/-- The new entry of a miss at slot `i`, or the ratio check (R410, R413). -/
def afterMiss (pad : FlushPad) (e : LzcEnc) (i fcode : Nat) : LzcEnc × List Byte :=
  if e.freeEnt < e.maxmaxcode then
    ({ e with
      codetab := Tab.put 0 e.codetab i e.freeEnt
      freeEnt := e.freeEnt + 1
      htab := Tab.put (-1) e.htab i fcode }, [])
  else if e.checkpoint ≤ e.inCnt ∧ e.block then e.clBlock pad
  else (e, [])

/-- The header bytes (R401). -/
def header (maxbits : Nat) (block : Bool) : List Byte :=
  [0x1F, 0x9D, BitVec.ofNat 8 maxbits ||| (if block then 0x80 else 0)]

/-- The first steps of the procedure, at OPEN (R401, R402). -/
def start (l : LCfg) : Run LzcEnc where
  st := { maxbits := flagsMaxbits (l.lzc.setWidth 8)
          block := flagsBlock (l.lzc.setWidth 8)
          maxmaxcode := 2 ^ flagsMaxbits (l.lzc.setWidth 8)
          freeEnt := if flagsBlock (l.lzc.setWidth 8) then Config.lzcFirst else 256 }
  out := header (flagsMaxbits (l.lzc.setWidth 8)) (flagsBlock (l.lzc.setWidth 8))

/-- The loop body for a later byte (R410). -/
def next (par : Params) (e : LzcEnc) (c : Byte) : LzcEnc × List Byte :=
  let e1 := { e with inCnt := e.inCnt + 1 }
  match e1.lookup par.zeroKeyQuirk c with
  | .hit i => ({ e1 with ent := Tab.get 0 e1.codetab i }, [])
  | .miss i =>
    let f := e1.fcode c
    let r := e1.output par.flushPad e1.ent
    let q := { r.1 with ent := c.toNat }.afterMiss par.flushPad i f
    (q.1, r.2 ++ q.2)

/-- InByte returns `b` (R410). -/
def byte (par : Params) (e : LzcEnc) (b : Byte) : Run LzcEnc :=
  if e.haveEnt then .go (e.next par b).1 (e.next par b).2
  else .go { e with ent := b.toNat, haveEnt := true }

/-- The end of the input (R423, R424). -/
def eof (par : Params) (e : LzcEnc) : Run LzcEnc :=
  if e.haveEnt then
    let r := e.output par.flushPad e.ent
    let q := r.1.outputFlush
    { st := { q.1 with returned := true }, out := r.2 ++ q.2, sig := .returned }
  else .ret { e with returned := true }

end LzcEnc

end Sys2Proof.Machine
end

