-- ==== Sys2Proof/Machine/NufxDec.lean ====
section
/-! DEFINITION. The NuFX LZW/1 and LZW/2 expand engines (42_nufx_lzw.md, R340 to R370).

Each stream token has one operation here, named after its row; the procedure and the token's meaning both
run it. -/

namespace Sys2Proof.Machine

open Sys2Proof

namespace NufxDec

/-- `table_reset()` of the decoder (R311). -/
def tableReset (d : NufxDec) : NufxDec := { d with f := Config.nufxFirst }

/-- string(k), following PREFIX for at most `fuel` links (R340; log entry 17). -/
def stringOf (d : NufxDec) : Nat → Nat → List Byte
  | 0, k => [BitVec.ofNat 8 k]
  | fuel + 1, k =>
    if k < 0x100 then [BitVec.ofNat 8 k]
    else stringOf d fuel (Tab.get 0 d.pfx k) ++ [Tab.get 0 d.sfx k]

/-- string(k): a table code's prefix is a smaller code, so `k` links are enough (R340). -/
def string (d : NufxDec) (k : Nat) : List Byte := d.stringOf k k

/-- `PREFIX[F] <- prev; SUFFIX[F] <- c; F <- F + 1` (R360, R362, R363). -/
def addEntry (d : NufxDec) (prev : Nat) (c : Byte) : NufxDec :=
  { d with pfx := Tab.put 0 d.pfx d.f prev, sfx := Tab.put 0 d.sfx d.f c, f := d.f + 1 }

/-- The new entry of a code whose string begins with `c`, where a previous code exists (R360, R362). -/
def define (d : NufxDec) (c : Byte) : NufxDec :=
  match d.prev with
  | none => d
  | some p => d.addEntry p c

/-- `SEG <- SEG ++ s; PREV <- k` (R360, R362, R363). -/
def append (d : NufxDec) (s : List Byte) (k : Nat) : NufxDec :=
  { d with seg := d.seg ++ s, prev := some k }

/-- NUFX.LIT (R360). -/
def lit (d : NufxDec) (k : Byte) : NufxDec := (d.define k).append [k] k.toNat

/-- NUFX.CLEAR (R361). -/
def clear (d : NufxDec) : NufxDec := { d.tableReset with prev := none }

/-- NUFX.TABLE (R362). -/
def table (d : NufxDec) (k : Nat) : NufxDec :=
  (d.define ((d.string k).headD 0)).append (d.string k) k

/-- NUFX.KWKWK (R363); without a previous code there is no such token. -/
def kwkwk (d : NufxDec) (k : Nat) : NufxDec :=
  match d.prev with
  | none => d
  | some p =>
    (d.addEntry p ((d.string p).headD 0)).append (d.string p ++ [(d.string p).headD 0]) k

/-- The error NUFX.INVALID raises (R364). -/
def invalidErr (d : NufxDec) : Err :=
  if d.prev.isSome ∧ Config.nufxLast < d.f then .tableFull else .badCode

/-- The class of a code in the decoder's state (R340). -/
def classOf (d : NufxDec) (code : Nat) : CodeClass := nufxClass d.f d.prev.isSome code

/-- A code's token rule (R340). -/
def applyCode (d : NufxDec) (code : Nat) : Run NufxDec :=
  match d.classOf code with
  | .lit => .go (d.lit (BitVec.ofNat 8 code))
  | .clear => .go d.clear
  | .table => .go (d.table code)
  | .kwkwk => .go (d.kwkwk code)
  | .invalid => .fail d d.invalidErr

/-- The width of the next code (R343). -/
def width (d : NufxDec) : Nat := nufxWidth (if d.prev.isSome then d.f + 1 else d.f)

/-- RLE.RUN (R365), with the limit check of R303. -/
def rleRun (d : NufxDec) (v n : Byte) : Run NufxDec :=
  let d1 := { d with chunk := d.chunk ++ List.replicate (n.toNat + 1) v }
  if Config.nufxChunk < d1.chunk.length then .fail d1 .rleOverrun else .go d1

/-- RLE.LIT (R366), with the limit check of R303. -/
def rleLit (d : NufxDec) (b : Byte) : Run NufxDec :=
  let d1 := { d with chunk := d.chunk ++ [b] }
  if Config.nufxChunk < d1.chunk.length then .fail d1 .rleOverrun else .go d1

/-- NUFX1.HDR (R367, the first steps of R345). -/
def hdr1 (d : NufxDec) (par : Params) (crc : Half) (volume delim : Byte) : NufxDec :=
  { d with crcWant := crc, volumeIn := volume, delimIn := delim, crc := par.crcSeed, produced := 0,
           pc := .loop }

/-- NUFX2.HDR (R369, the first steps of R346). -/
def hdr2 (d : NufxDec) (volume delim : Byte) : NufxDec :=
  { d.tableReset with volumeIn := volume, delimIn := delim, produced := 0, pc := .loop }

/-- The start of `decode_chunk(RLELEN, lzw)` (R349, R340, R341). A stored chunk empties SEG and PREV too: DESIGN CHOICE,
log entry 31. -/
def startChunk (d : NufxDec) (useLzw : Bool) : NufxDec :=
  { d with seg := [], prev := none, rd := d.rd.align, pc := if useLzw then .code else .stored }

/-- NUFX1.CHUNK (R368: the header steps of R345, R347, then R349). -/
def chunk1 (d : NufxDec) (rlelen : Half) (flag : Byte) : Run NufxDec :=
  let d1 := { d with rlelen := rlelen.toNat, useLzw := decide (flag = 1) }
  if 1 < flag.toNat ∨ Config.nufxChunk < rlelen.toNat then .fail d1 .badChunkHeader
  else .go (d1.tableReset.startChunk (decide (flag = 1)))

/-- NUFX2.CHUNK (R370: the header steps of R346, R347, R348, then R349). CLEN is read and ignored. -/
def chunk2 (d : NufxDec) (w : Half) (_clen : Half) : Run NufxDec :=
  let d1 := { d with rlelen := (chunkRlelen w).toNat, useLzw := chunkUseLzw w }
  if Config.nufxChunk < (chunkRlelen w).toNat then .fail d1 .badChunkHeader
  else .go ((if chunkUseLzw w then d1 else d1.tableReset).startChunk (chunkUseLzw w))

/-- The test of `while PRODUCED < EXPECT`, and the end of the procedure (R345, R346, R351). -/
def loopHead (lzw2 : Bool) (d : NufxDec) : Run NufxDec :=
  if d.produced < d.expect then .go { d with pc := .chunkHdr [] }
  else if !lzw2 && decide (d.crc ≠ d.crcWant) then .fail d .checksum
  else .ret { d with pc := .done }

/-- The bytes a decoded chunk adds to the running CRC (R328, R345). -/
def crcSpanBytes (span : CrcSpan) (d : NufxDec) (n : Nat) : List Byte :=
  match span with
  | .padded => d.chunk
  | .data => d.chunk.take n

/-- CHUNK is decoded: the CRC and `emit(n)`, then the loop again (R345, R346, R350). -/
def chunkDone (par : Params) (lzw2 : Bool) (d : NufxDec) : Run NufxDec :=
  let n := min Config.nufxChunk (d.expect - d.produced)
  let d1 := { d with
    crc := if lzw2 then d.crc else crc16Xmodem d.crc (crcSpanBytes par.crcSpan d n)
    produced := d.produced + n, pc := .loop }
  (Run.go d1 (d.chunk.take n)).andThen (loopHead lzw2)

/-- `rle_decode` over the stage-1 bytes still to come, then the length check of R349 (R303). -/
def rleLoop (par : Params) (lzw2 : Bool) (d : NufxDec) : List Byte → Run NufxDec
  | [] =>
    if d.chunk.length = Config.nufxChunk then chunkDone par lzw2 { d with pc := .rle [] }
    else .fail { d with pc := .rle [] } .rleUnderrun
  | y :: ys =>
    if y = d.delimIn then
      match ys with
      | v :: n :: rest =>
        match d.rleRun v n with
        | ⟨d1, _, .running⟩ => rleLoop par lzw2 d1 rest
        | r => r
      | _ => .fail { d with pc := .rle (y :: ys) } .rleTruncated
    else
      match d.rleLit y with
      | ⟨d1, _, .running⟩ => rleLoop par lzw2 d1 ys
      | r => r

/-- The stage-1 data is complete in SEG: the rest of the byte is discarded, and SEG becomes CHUNK (R344,
R349). -/
def stage1Done (par : Params) (lzw2 : Bool) (d : NufxDec) : Run NufxDec :=
  let d1 := { d with rd := d.rd.align }
  if d1.rlelen = Config.nufxChunk then chunkDone par lzw2 { d1 with chunk := d1.seg }
  else rleLoop par lzw2 { d1 with chunk := [] } d1.seg

/-- The procedure goes on from its control point until it needs input (R221). -/
def settle (par : Params) (lzw2 : Bool) (d : NufxDec) : Run NufxDec :=
  match d.pc with
  | .loop => loopHead lzw2 d
  | .code =>
    if d.rlelen < d.seg.length then .fail d .lzwOverrun
    else if d.seg.length = d.rlelen then stage1Done par lzw2 d
    else .go d
  | .stored => if d.rlelen ≤ d.seg.length then stage1Done par lzw2 d else .go d
  | .rle rest => rleLoop par lzw2 d rest
  | _ => .go d

/-- The next unread bit goes to `get_code`; a complete code runs its token rule (R264, R340). -/
def bit (par : Params) (lzw2 : Bool) (d : NufxDec) : Run NufxDec :=
  let r := d.rd.take
  if r.got < d.width then .go { d with rd := r }
  else (applyCode { d with rd := r.start } r.val).andThen (settle par lzw2)

/-- The bits left in RBYTE, at most `n` of them, while the procedure reads codes. -/
def bits (par : Params) (lzw2 : Bool) : Nat → NufxDec → Run NufxDec
  | 0, d => .go d
  | n + 1, d =>
    if d.pc = .code ∧ 0 < d.rd.ravail then (bit par lzw2 d).andThen (bits par lzw2 n) else .go d

/-- The bytes of an LZW/1 or LZW/2 stream header that have come (R367, R369). CRC_WANT is written with its second byte
and VOLUME_IN with its own, before the procedure waits for the next byte (R345, R346). -/
def hdrBytes (par : Params) (lzw2 : Bool) (d : NufxDec) (got : List Byte) : Run NufxDec :=
  match lzw2, got with
  | false, [c0, c1] => .go { d with crcWant := u16le c0 c1, pc := .hdr got }
  | false, [_, _, v] => .go { d with volumeIn := v, pc := .hdr got }
  | true, [v] => .go { d with volumeIn := v, pc := .hdr got }
  | false, [c0, c1, v, dl] => (Run.go (d.hdr1 par (u16le c0 c1) v dl)).andThen (settle par lzw2)
  | true, [v, dl] => (Run.go (d.hdr2 v dl)).andThen (settle par lzw2)
  | _, _ => .go { d with pc := .hdr got }

/-- The bytes of a chunk header or chunk word that have come (R368, R370). An LZW/2 chunk word writes RLELEN and USE_LZW
before the procedure waits for CLEN, and RLELEN is checked after it (R346). -/
def chunkHdrBytes (par : Params) (lzw2 : Bool) (d : NufxDec) (got : List Byte) : Run NufxDec :=
  match lzw2, got with
  | false, [h0, h1, h2] => (d.chunk1 (u16le h0 h1) h2).andThen (settle par lzw2)
  | true, [b0, b1] =>
    if chunkUseLzw (u16le b0 b1) then
      .go { d with rlelen := (chunkRlelen (u16le b0 b1)).toNat, useLzw := true, pc := .clen (u16le b0 b1) [] }
    else (d.chunk2 (u16le b0 b1) 0).andThen (settle par lzw2)
  | _, _ => .go { d with pc := .chunkHdr got }

/-- The bytes of CLEN (R348). -/
def clenBytes (par : Params) (lzw2 : Bool) (d : NufxDec) (w : Half) (got : List Byte) : Run NufxDec :=
  match got with
  | [c0, c1] => (d.chunk2 w (u16le c0 c1)).andThen (settle par lzw2)
  | _ => .go { d with pc := .clen w got }

/-- InByte returns `b` at the control point (R124). The stored stage-1 bytes S of R349 stand in SEG: DESIGN CHOICE, log
entry 31. -/
def byte (par : Params) (lzw2 : Bool) (d : NufxDec) (b : Byte) : Run NufxDec :=
  match d.pc with
  | .hdr got => hdrBytes par lzw2 d (got ++ [b])
  | .chunkHdr got => chunkHdrBytes par lzw2 d (got ++ [b])
  | .clen w got => clenBytes par lzw2 d w (got ++ [b])
  | .stored => (Run.go { d with seg := d.seg ++ [b] }).andThen (settle par lzw2)
  | .code => bits par lzw2 8 { d with rd := d.rd.load b }
  | _ => .go d

/-- InByte returns EOF: every control point that waits for a byte raises TRUNCATED (R340, R345, R346). -/
def eof (d : NufxDec) : Run NufxDec :=
  match d.pc with
  | .done => .go d
  | _ => .fail d .truncated

/-- The engine at OPEN (R69, R79): it waits for the first header byte. -/
def start (par : Params) (l : LCfg) : NufxDec := { expect := l.expect.toNat, crc := par.crcSeed }

end NufxDec

end Sys2Proof.Machine
end

