-- ==== Sys2Proof/Machine/NufxEnc.lean ====
section
/-! DEFINITION. The NuFX LZW/1 and LZW/2 compress engines (42_nufx_lzw.md, R300 to R328). -/

namespace Sys2Proof.Machine

open Sys2Proof

namespace NufxEnc

/-- The DICT key of (prefix, byte) (R67, R312). -/
def dictKey (p : Nat) (c : Byte) : Nat := p * 256 + c.toNat

/-- `table_reset()` of the encoder (R311). -/
def tableReset (e : NufxEnc) : NufxEnc := { e with dict := [], f := Config.nufxFirst }

/-- `put_code` with DEST = LZBUF (R320). -/
def put (e : NufxEnc) (code width : Nat) : NufxEnc :=
  let r := e.wr.putCode code width
  { e with wr := r.1, lzbuf := e.lzbuf ++ r.2 }

/-- `emit_clear()` (R321). -/
def emitClear (e : NufxEnc) : NufxEnc := (e.put Config.nufxClear (nufxWidth e.f)).tableReset

/-- One byte of the scan of `lzw_encode_chunk` (R320). -/
def scan (e : NufxEnc) (c : Byte) : NufxEnc :=
  let k := Tab.get 0 e.dict (dictKey e.p c)
  if k ≠ 0 then { e with p := k }
  else
    let e1 := e.put e.p (nufxWidth e.f)
    let e2 := { e1 with dict := Tab.put 0 e1.dict (dictKey e.p c) e1.f, f := e1.f + 1 }
    let e3 := if Config.nufxLast < e2.f then e2.emitClear else e2
    { e3 with p := c.toNat }

/-- `flush()` with DEST = LZBUF (R263, R320). -/
def flushLz (e : NufxEnc) : NufxEnc :=
  let r := e.wr.flush
  { e with wr := r.1, lzbuf := e.lzbuf ++ r.2 }

/-- `lzw_encode_chunk(S)`: the codes go to LZBUF (R320). -/
def lzwEncodeChunk (e : NufxEnc) : List Byte → NufxEnc
  | [] => { e with lzbuf := [], wr := { dest := .lzbuf } }
  | s0 :: s =>
    let e0 := { e with lzbuf := [], wr := { dest := .lzbuf }, p := s0.toNat }
    let e1 := s.foldl scan e0
    (e1.put e1.p (nufxWidth e1.f)).flushLz

/-- The chunk zero-padded to 4096 bytes (R301). -/
def padded (e : NufxEnc) : List Byte :=
  e.chunk ++ List.replicate (Config.nufxChunk - e.chunk.length) 0

/-- The stage-1 data and RLELEN of a chunk whose RLE form is `r` (R305). -/
def stage1 (raw r : List Byte) : List Byte × Nat :=
  if r.length < Config.nufxChunk then (r, r.length) else (raw, Config.nufxChunk)

/-- `encode_chunk()`: the stored form (RLELEN, LZW flag, data) and the engine after it (R322). RLEBUF keeps the whole RLE
form also where that has 4096 bytes or more and is not used (R305, R67): DESIGN CHOICE, log entry 33. -/
def encodeChunk (e : NufxEnc) (delim : Byte) : (Nat × Bool × List Byte) × NufxEnc :=
  let r := rleEncode e.padded delim Config.nufxThreshold
  let s := stage1 e.padded r
  let e1 := { e with rlebuf := r }.lzwEncodeChunk s.1
  if e1.lzbuf.length < s.1.length then ((s.2, true, e1.lzbuf), e1)
  else ((s.2, false, s.1), e1.tableReset)

/-- A 16-bit field's two bytes from its value (R127). -/
def le16 (n : Nat) : List Byte := leBytes (BitVec.ofNat 16 n)

/-- The bytes of an LZW/1 chunk (R171, R325). -/
def chunk1Bytes (c : Nat × Bool × List Byte) : List Byte :=
  le16 c.1 ++ [BitVec.ofNat 8 c.2.1.toNat] ++ c.2.2

/-- The bytes of an LZW/2 chunk: word, CLEN iff LZW is used, data (R173, R326). -/
def chunk2Bytes (c : Nat × Bool × List Byte) : List Byte :=
  le16 (c.1 + c.2.1.toNat * 2 ^ 15) ++ (if c.2.1 then le16 (c.2.2.length + 4) else []) ++ c.2.2

/-- The bytes a chunk adds to the header CRC (R328). -/
def crcSpanBytes (span : CrcSpan) (e : NufxEnc) : List Byte :=
  match span with
  | .padded => e.padded
  | .data => e.chunk

/-- The accumulated chunk is encoded: LZW/1 adds it to BODY (R323, R325), LZW/2 outputs it (R324, R326).
The chunk buffer is then empty. -/
def closeChunk (par : Params) (lzw2 : Bool) (delim : Byte) (e : NufxEnc) : Run NufxEnc :=
  if lzw2 then
    let r := e.encodeChunk delim
    .go { r.2 with chunk := [] } (chunk2Bytes r.1)
  else
    let e0 := { e with crc := crc16Xmodem e.crc (crcSpanBytes par.crcSpan e) }.tableReset
    let r := e0.encodeChunk delim
    .go { r.2 with chunk := [], body := r.2.body ++ chunk1Bytes r.1 }

/-- The first steps of the procedure, at OPEN: LZW/2 writes its header, LZW/1 nothing (R325, R326). -/
def start (par : Params) (lzw2 : Bool) (l : LCfg) : Run NufxEnc :=
  .go { crc := par.crcSeed } (if lzw2 then [l.volume.setWidth 8, l.delim.setWidth 8] else [])

/-- An input byte reaches `fill_chunk` (R301); the 4096th closes the chunk (R235). -/
def byte (par : Params) (lzw2 : Bool) (l : LCfg) (e : NufxEnc) (b : Byte) : Run NufxEnc :=
  let e1 := { e with chunk := e.chunk ++ [b] }
  if e1.chunk.length < Config.nufxChunk then .go e1
  else closeChunk par lzw2 (l.delim.setWidth 8) e1

/-- The last steps: LZW/1 writes header and BODY (R325), LZW/2 nothing (R326). -/
def finalize (lzw2 : Bool) (l : LCfg) (e : NufxEnc) : Run NufxEnc :=
  { st := { e with returned := true }
    out := if lzw2 then [] else leBytes e.crc ++ [l.volume.setWidth 8, l.delim.setWidth 8] ++ e.body
    sig := .returned }

/-- The end of the input: a short chunk is closed, then the procedure returns (R325, R326, R327). -/
def eof (par : Params) (lzw2 : Bool) (l : LCfg) (e : NufxEnc) : Run NufxEnc :=
  if e.chunk = [] then finalize lzw2 l e
  else (closeChunk par lzw2 (l.delim.setWidth 8) e).andThen (finalize lzw2 l)

end NufxEnc

end Sys2Proof.Machine
end

