-- ==== Sys2Proof/Machine/SqEnc.lean ====
section
/-! DEFINITION. The Squeeze compress engine (44_squeeze.md, R500 to R523). -/

namespace Sys2Proof.Machine

open Sys2Proof

/-- The Squeeze RLE escape byte, LCFG.SQ.DELIM (R51). -/
def sqDelim (l : LCfg) : Byte := l.sq.setWidth 8

/-- LCFG.SQ.FULLHDR (R51). -/
def sqFullHdr (l : LCfg) : Bool := l.sq.getLsbD 8

/-- The sum of bytes modulo 65536, from `sum` on (R504). -/
def sumBytes (sum : Half) (bs : List Byte) : Half := bs.foldl (fun a b => a + b.setWidth 16) sum

namespace SqEnc

/-- The maximal runs of layout USQ: a DELIM byte never joins a run, and no run is longer than 255 (R502). -/
def usqRuns (delim v : Byte) (n : Nat) : List Byte → List (Byte × Nat)
  | [] => [(v, n)]
  | x :: xs =>
    if x = v ∧ v ≠ delim ∧ n < 255 then usqRuns delim v (n + 1) xs
    else (v, n) :: usqRuns delim x 1 xs

/-- How one run is coded in layout USQ (R502). -/
def usqEmit (delim : Byte) (r : Byte × Nat) : List Byte :=
  if r.1 = delim then [delim, 0]
  else if 3 ≤ r.2 then [r.1, delim, BitVec.ofNat 8 r.2]
  else List.replicate r.2 r.1

/-- `rle_encode_usq(X, DELIM)` (R502). -/
def rleEncodeUsq (delim : Byte) : List Byte → List Byte
  | [] => []
  | x :: xs => (usqRuns delim x 1 xs).flatMap (usqEmit delim)

/-- The RLE pass of the layout (R501, R502). -/
def rlePass (layout : SqLayout) (delim : Byte) (x : List Byte) : List Byte :=
  match layout with
  | .doc => rleEncode x delim Config.sqThreshold
  | .usq => rleEncodeUsq delim x

/-- The modulus of SQ_ARITH (R512). -/
def modulus : SqArith → Nat
  | .u32 => 2 ^ 32
  | .u16 => 2 ^ 16

/-- WEIGHT[i]. -/
def weightAt (e : SqEnc) (i : Nat) : Nat := Tab.get 0 e.weight i

/-- One occurrence of byte `b`, clamped (R505). -/
def countByte (t : Tab Nat) (b : Byte) : Tab Nat :=
  Tab.put 0 t b.toNat (min Config.sqMaxCount (Tab.get 0 t b.toNat + 1))

/-- `count(RLEOUT)` (R505). -/
def count (e : SqEnc) : SqEnc :=
  { e with weight := Tab.put 0 (e.rleout.foldl countByte e.weight) Config.sqEof 1 }

/-- One leaf of the overflow count: `(s, ovflw)` (R512). -/
def overflowStep (m ceil : Nat) (a : Nat × Nat) (w : Nat) : Nat × Nat :=
  ((a.1 + w) % m, if (ceil + m - a.1) % m < w then a.2 + 1 else a.2)

/-- The leaves 0 to 256 (R500). -/
def leaves : List Nat := List.range Config.sqNumVals

/-- The divisor `ovflw + 1` (R512). -/
def divisor (m ceil : Nat) (t : Tab Nat) : Nat :=
  ((leaves.map (Tab.get 0 t)).foldl (overflowStep m ceil) (0, 0)).2 + 1

/-- Weights `0 < w < d` rise to `d` (R512). -/
def raise1 (d : Nat) (t : Tab Nat) (c : Nat) : Tab Nat :=
  if 0 < Tab.get 0 t c ∧ Tab.get 0 t c < d then Tab.put 0 t c d else t

/-- A leaf weight is divided (R512). -/
def divide1 (d : Nat) (t : Tab Nat) (c : Nat) : Tab Nat := Tab.put 0 t c (Tab.get 0 t c / d)

/-- `scale(ceil)` (R512), at most `fuel` rounds of its loop. Every round but the last raises a weight, and
no weight is raised above 258, so 257 * 258 rounds are enough (log entry 17). -/
def scaleLoop (m ceil : Nat) : Nat → Tab Nat → Tab Nat
  | 0, t => t
  | fuel + 1, t =>
    let d := divisor m ceil t
    let t' := leaves.foldl (raise1 d) t
    if t' = t then (if 1 < d then leaves.foldl (divide1 d) t else t)
    else scaleLoop m ceil fuel t'

/-- `scale(CEILING)` (R512). -/
def scale (arith : SqArith) (e : SqEnc) : SqEnc :=
  { e with weight := scaleLoop (modulus arith) e.ceiling (257 * 258 + 1) e.weight }

/-- `gt(a, b)` (R513). -/
def gt (e : SqEnc) (a b : Nat) : Bool :=
  decide (e.weightAt b < e.weightAt a) ||
    (decide (e.weightAt a = e.weightAt b) && decide (Tab.get 0 e.tdepth b < Tab.get 0 e.tdepth a))

/-- `adjust(top, bottom)` (R514), at most `fuel` levels deep (log entry 17). -/
def adjust (e : SqEnc) : Nat → List Nat → Nat → Nat → List Nat
  | 0, l, _, _ => l
  | fuel + 1, l, top, bottom =>
    let k0 := 2 * top + 1
    if bottom < k0 then l
    else
      let k := if k0 < bottom ∧ e.gt (l.getD k0 0) (l.getD (k0 + 1) 0) then k0 + 1 else k0
      if e.gt (l.getD top 0) (l.getD k 0) then
        adjust e fuel ((l.set top (l.getD k 0)).set k (l.getD top 0)) k bottom
      else l

/-- `adjust` on the engine's LIST. -/
def adjustList (e : SqEnc) (top bottom : Nat) : SqEnc :=
  { e with list := adjust e e.list.length e.list top bottom }

/-- `heapify(LIST)` from index `i` down to 0 (R514). -/
def heapifyFrom : Nat → SqEnc → SqEnc
  | 0, e => e.adjustList 0 (e.list.length - 1)
  | i + 1, e => heapifyFrom i (e.adjustList (i + 1) (e.list.length - 1))

/-- `heapify(LIST)` (R514). -/
def heapify (e : SqEnc) : SqEnc := heapifyFrom ((e.list.length - 2) / 2) e

/-- One merge of `bld_tree` (R515): `n` trees are left. -/
def merge (arith : SqArith) (e : SqEnc) (n freenode : Nat) : SqEnc :=
  let lc := e.list.getD 0 0
  let e1 := { e with list := e.list.set 0 (e.list.getD (n - 1) 0) }.adjustList 0 (n - 2)
  let rc := e1.list.getD 0 0
  let e2 := { e1 with
    list := e1.list.set 0 freenode
    lchild := Tab.put (-1) e1.lchild freenode lc
    rchild := Tab.put (-1) e1.rchild freenode rc
    weight := Tab.put 0 e1.weight freenode ((e1.weightAt lc + e1.weightAt rc) % modulus arith)
    tdepth := Tab.put 0 e1.tdepth freenode (1 + max (Tab.get 0 e1.tdepth lc) (Tab.get 0 e1.tdepth rc)) }
  e2.adjustList 0 (n - 2)

/-- `bld_tree(LIST)` with `n` trees left (R515); LIST[0] is the root in the end. -/
def bldTree (arith : SqArith) : Nat → Nat → SqEnc → SqEnc
  | 0, _, e => e
  | 1, _, e => e
  | n + 2, freenode, e => bldTree arith (n + 1) (freenode + 1) (e.merge arith (n + 2) freenode)

/-- `buildenc` at node `nd`, level `level`, path `path` (R516). `fuel` is 17 - level: at level 17 every
leaf below is too deep, and the walk fails. -/
def buildencFrom : Nat → SqEnc → (nd level path : Nat) → Option SqEnc
  | 0, _, _, _, _ => none
  | fuel + 1, e, nd, level, path =>
    if nd < Config.sqNumVals then
      some { e with code := Tab.put 0 e.code nd path, codelen := Tab.put 0 e.codelen nd level }
    else
      match buildencFrom fuel e (Tab.get (-1) e.lchild nd).toNat (level + 1) path with
      | none => none
      | some e1 => buildencFrom fuel e1 (Tab.get (-1) e1.rchild nd).toNat (level + 1) (path + 2 ^ level)

/-- `buildenc(root)` (R516). -/
def buildenc (e : SqEnc) (root : Nat) : Option SqEnc :=
  buildencFrom (Config.sqMaxCodeLen + 1) e root 0 0

/-- One try of `build()` up to the tree (R511). -/
def tryTree (arith : SqArith) (e : SqEnc) : SqEnc :=
  let e1 := e.scale arith
  let e2 := { e1 with
    ceiling := e1.ceiling / 2
    tdepth := e1.tdepth.filter (fun p => decide (Config.sqEof < p.1))
    list := leaves.filter (fun s => decide (Tab.get 0 e1.weight s ≠ 0)) }
  let e3 := e2.heapify
  bldTree arith e3.list.length Config.sqNumVals e3

/-- `build()` (R511): the engine with its codes, and the root; no root when CEILING reaches 0 (R523). The
ceiling halves each time, so 17 rounds are enough. -/
def build (arith : SqArith) : Nat → SqEnc → SqEnc × Option Nat
  | 0, e => (e, none)
  | fuel + 1, e =>
    if e.ceiling = 0 then (e, none)
    else
      let e1 := e.tryTree arith
      match e1.buildenc (e1.list.getD 0 0) with
      | some e2 => (e2, some (e1.list.getD 0 0))
      | none => build arith fuel e1

/-- NUMNODES (R517). -/
def numnodes (root : Nat) : Nat := if root < Config.sqNumVals then 0 else root - Config.sqEof

/-- The reference to a child in the stream (R518). -/
def childRef (root : Nat) (child : Int) : Half :=
  BitVec.ofInt 16 (if child < Config.sqNumVals then -(child + 1) else (root : Int) - child)

/-- `write_tree(root)` (R518). -/
def writeTree (e : SqEnc) (root : Nat) : List Byte :=
  leBytes (BitVec.ofNat 16 (numnodes root)) ++
    (List.range (numnodes root)).flatMap (fun k =>
      leBytes (childRef root (Tab.get (-1) e.lchild (root - k))) ++
        leBytes (childRef root (Tab.get (-1) e.rchild (root - k))))

/-- `write_header()` (R520). -/
def writeHeader (sum : Half) (name : List Byte) : List Byte :=
  [0x76, 0xFF] ++ leBytes sum ++ name ++ [0]

/-- `put_code(CODE[s], CODELEN[s])` (R521). -/
def putSym (e : SqEnc) (s : Nat) : SqEnc × List Byte :=
  let r := e.wr.putCode (Tab.get 0 e.code s) (Tab.get 0 e.codelen s)
  ({ e with wr := r.1 }, r.2)

/-- The codes of symbols in order (R521). -/
def putSyms (e : SqEnc) : List Nat → SqEnc × List Byte
  | [] => (e, [])
  | s :: ss =>
    let r := e.putSym s
    let q := putSyms r.1 ss
    (q.1, r.2 ++ q.2)

/-- `write_data()` (R521). -/
def writeData (e : SqEnc) : SqEnc × List Byte :=
  let r := { e with wr := {} }.putSyms (e.rleout.map BitVec.toNat ++ [Config.sqEof])
  let q := r.1.wr.flush
  ({ r.1 with wr := q.1 }, r.2 ++ q.2)

/-- The engine at OPEN (R72, R79). -/
def start : SqEnc := {}

/-- InByte returns `b` (R510). -/
def byte (e : SqEnc) (b : Byte) : Run SqEnc := .go { e with whole := e.whole ++ [b] }

/-- `squeeze_compress` after the end of the input (R510). -/
def eof (par : Params) (l : LCfg) (e : SqEnc) : Run SqEnc :=
  let e1 := { e with
    sum := sumBytes 0 e.whole
    rleout := rlePass par.sqLayout (sqDelim l) e.whole }.count
  match build par.sqArith 17 { e1 with ceiling := 65535 } with
  | (e2, none) => .fail e2 .sqCeiling
  | (e2, some root) =>
    let hdr := if sqFullHdr l then writeHeader e2.sum l.name else []
    let d := e2.writeData
    { st := { d.1 with returned := true }, out := hdr ++ e2.writeTree root ++ d.2, sig := .returned }

end SqEnc

end Sys2Proof.Machine
end

