-- ==== Sys2Proof/Machine/SqDec.lean ====
section
/-! DEFINITION. The Squeeze expand engine (44_squeeze.md, R540 to R569).

Each stream token has one operation here, named after its row; the procedure and the token's meaning both
run it. -/

namespace Sys2Proof.Machine

open Sys2Proof

namespace SqDec

/-- `out(b)` for each byte (R547). -/
def outBytes (d : SqDec) (bs : List Byte) : Run SqDec := .go { d with sum := sumBytes d.sum bs } bs

/-- RLE.RUN of layout DOC: `n + 1` copies of `v` (R566, R547). -/
def rleRun (d : SqDec) (v n : Byte) : Run SqDec :=
  { d with rval := v, rstate := .normal }.outBytes (List.replicate (n.toNat + 1) v)

/-- RLE.LIT: a symbol other than DELIM (R567); in layout USQ it sets RVAL (R503). -/
def rleLit (d : SqDec) (layout : SqLayout) (b : Byte) : Run SqDec :=
  match layout with
  | .doc => d.outBytes [b]
  | .usq => { d with rval := b }.outBytes [b]

/-- How often `DELIM n` of layout USQ repeats RVAL, n >= 1 (R503). -/
def usqCount (n : Byte) : Nat := if n = 1 then 1 else n.toNat - 1

/-- USQ.RUN (R568, R503). -/
def usqRun (d : SqDec) (n : Byte) : Run SqDec :=
  { d with rstate := .normal }.outBytes (List.replicate (usqCount n) d.rval)

/-- USQ.ESC (R569, R503). -/
def usqEsc (d : SqDec) (delim : Byte) : Run SqDec := { d with rstate := .normal }.outBytes [delim]

/-- `rle_step(s)` (R547, R503). -/
def rleStep (d : SqDec) (layout : SqLayout) (delim s : Byte) : Run SqDec :=
  match d.rstate with
  | .normal => if s = delim then .go { d with rstate := .haveDelim } else d.rleLit layout s
  | .haveDelim =>
    match layout with
    | .doc => .go { d with rval := s, rstate := .haveValue }
    | .usq => if s = 0 then d.usqEsc delim else d.usqRun s
  | .haveValue => d.rleRun d.rval s

/-- The checks at the end of the procedure (R540, R548, R546). -/
def finish (d : SqDec) (full : Bool) : Run SqDec :=
  if d.rstate ≠ .normal then .fail d .rleTruncated
  else if full ∧ d.sum ≠ d.sumWant then .fail d .checksum
  else .ret { d with pc := .done }

/-- SQ.HDR (R560, R541); the name is discarded. -/
def hdr (d : SqDec) (m0 m1 : Byte) (sum : Half) : Run SqDec :=
  if m0 ≠ 0x76 ∨ m1 ≠ 0xFF then .fail d .badMagic
  else .go { d with sumWant := sum, pc := .count [] }

/-- The state before the data section (R540). -/
def startData (d : SqDec) : SqDec :=
  { d with sum := 0, rstate := .normal, rval := 0, node := 0, rd := d.rd.align,
           pc := if d.numnodes = 0 then .tail else .data }

/-- SQ.COUNT (R561, R542). -/
def count (d : SqDec) (n : Half) : Run SqDec :=
  let d1 := { d with numnodes := n.toNat }
  if Config.sqMaxNodes < n.toNat then .fail d1 .badTree
  else if n = 0 then .go d1.startData
  else .go { d1 with pc := .node 0 [] }

/-- A child reference is in range (R543). -/
def refOk (d : SqDec) (r : Half) : Bool :=
  (decide (-257 ≤ s16 r) && decide (s16 r ≤ -1)) || (decide (0 ≤ s16 r) && decide (s16 r < d.numnodes))

/-- `DNODE[i][side] <- r`, checked (R540, R543). -/
def setRef (d : SqDec) (i side : Nat) (r : Half) : Run SqDec :=
  if d.refOk r then .go { d with dnode := Tab.put 0 d.dnode (2 * i + side) (s16 r) } else .fail d .badTree

/-- After node entry `i` (R540). -/
def nextNode (d : SqDec) (i : Nat) : Run SqDec :=
  .go (if i + 1 < d.numnodes then { d with pc := .node (i + 1) [] } else d.startData)

/-- SQ.NODE, node entry `i` (R562, R543). -/
def node1 (d : SqDec) (i : Nat) (left right : Half) : Run SqDec :=
  ((d.setRef i 0 left).andThen (fun d => d.setRef i 1 right)).andThen (fun d => d.nextNode i)

/-- SQ.SYM (R563): the walk is at the root again, and the symbol goes to the RLE expander. -/
def sym (d : SqDec) (layout : SqLayout) (delim s : Byte) : Run SqDec :=
  { d with node := 0 }.rleStep layout delim s

/-- SQ.EOF (R564): the rest of the byte is discarded, then the checks (R545 to R548). That NODE is 0 after the EOF leaf is
a DESIGN CHOICE, log entry 32. -/
def eofSym (d : SqDec) (full : Bool) : Run SqDec := { d with node := 0, rd := d.rd.align }.finish full

/-- SQ.PAD (R565, R265). -/
def padBits (d : SqDec) : SqDec := { d with rd := d.rd.align }

/-- One bit of `decode_symbol` (R544); a complete symbol runs its token rule. -/
def bit (par : Params) (l : LCfg) (d : SqDec) : Run SqDec :=
  let c := Tab.get 0 d.dnode (2 * d.node.toNat + d.rd.bit.toNat)
  let d1 := { d with rd := d.rd.take.start }
  if 0 ≤ c then .go { d1 with node := c }
  else if c = -257 then d1.eofSym (sqFullHdr l)
  else d1.sym par.sqLayout (sqDelim l) (BitVec.ofNat 8 (-(c + 1)).toNat)

/-- The bits left in RBYTE, at most `n` of them, while the procedure reads symbols. -/
def bits (par : Params) (l : LCfg) : Nat → SqDec → Run SqDec
  | 0, d => .go d
  | n + 1, d =>
    if d.pc = .data ∧ 0 < d.rd.ravail then (bit par l d).andThen (bits par l n) else .go d

/-- The procedure goes on from its control point until it needs input (R221). -/
def settle (l : LCfg) (d : SqDec) : Run SqDec :=
  match d.pc with
  | .tail => d.finish (sqFullHdr l)
  | _ => .go d

/-- A header byte (R541). -/
def hdrByte (d : SqDec) (got : List Byte) (b : Byte) : Run SqDec :=
  match got with
  | [] => if b ≠ 0x76 then .fail d .badMagic else .go { d with pc := .hdr [b] }
  | [m0] => if b ≠ 0xFF then .fail d .badMagic else .go { d with pc := .hdr [m0, b] }
  | [m0, m1] => .go { d with pc := .hdr [m0, m1, b] }
  | [m0, m1, s0] => .go { d with sumWant := u16le s0 b, pc := .hdr [m0, m1, s0, b] }
  | m0 :: m1 :: s0 :: s1 :: _ => if b = 0 then d.hdr m0 m1 (u16le s0 s1) else .go d

/-- A byte of node entry `i` (R540, R543). -/
def nodeByte (l : LCfg) (d : SqDec) (i : Nat) (got : List Byte) (b : Byte) : Run SqDec :=
  match got with
  | [l0] => (d.setRef i 0 (u16le l0 b)).andThen (fun d => .go { d with pc := .node i [l0, b] })
  | [_, _, r0] =>
    ((d.setRef i 1 (u16le r0 b)).andThen (fun d => d.nextNode i)).andThen (settle l)
  | _ => .go { d with pc := .node i (got ++ [b]) }

/-- InByte returns `b` at the control point (R124). -/
def byte (par : Params) (l : LCfg) (d : SqDec) (b : Byte) : Run SqDec :=
  match d.pc with
  | .hdr got => d.hdrByte got b
  | .count [b0] => (d.count (u16le b0 b)).andThen (settle l)
  | .count _ => .go { d with pc := .count [b] }
  | .node i got => d.nodeByte l i got b
  | .data => bits par l 8 { d with rd := d.rd.load b }
  | _ => .go d

/-- InByte returns EOF: every control point that waits for a byte raises TRUNCATED (R540, R544). -/
def eof (d : SqDec) : Run SqDec :=
  match d.pc with
  | .tail => .go d
  | .done => .go d
  | _ => .fail d .truncated

/-- The engine at OPEN (R73, R79, R540). -/
def start (l : LCfg) : SqDec := { pc := if sqFullHdr l then .hdr [] else .count [] }

end SqDec

end Sys2Proof.Machine
end

