-- ==== Sys2Proof/Machine/ZxEnc.lean ====
section
/-! DEFINITION. The ZX0 compress engine: the optimal parser and the emitter (45_zx0.md, R600 to R626). -/

namespace Sys2Proof.Machine

open Sys2Proof

/-- LCFG.ZX0.QUICK (R52). -/
def zxQuick (l : LCfg) : Bool := l.zx0.getLsbD 0

/-- LCFG.ZX0.CLASSIC (R52). -/
def zxClassic (l : LCfg) : Bool := l.zx0.getLsbD 1

/-- The cost of a block; NONE has none. -/
def ParseBlock.cost : ParseBlock → Int
  | .none => 0
  | .mk bits _ _ _ => bits

/-- The last position a block covers (R602). -/
def ParseBlock.pos : ParseBlock → Int
  | .none => -1
  | .mk _ index _ _ => index

namespace ZxEnc

/-- LIMIT (R603). -/
def limit (quick : Bool) : Nat := if quick then Config.zx0MaxOffsetQuick else Config.zx0MaxOffset

/-- `offset_ceiling(index)` (R603). -/
def offsetCeiling (quick : Bool) (index : Nat) : Nat :=
  min (limit quick) (max Config.zx0InitialOffset index)

/-- What `step(index)` carries along the offsets (R612): OPTIMAL[index], `bls` and BEST_LENGTH. -/
structure Pos where
  best : ParseBlock := .none
  bls : Nat := 2
  bestLength : Tab Nat
deriving DecidableEq, Repr

/-- A candidate replaces OPTIMAL[index] only if it is strictly cheaper (R617). -/
def Pos.offer (p : Pos) (b : ParseBlock) : Pos :=
  match p.best with
  | .none => { p with best := b }
  | .mk bits _ _ _ => if b.cost < bits then { p with best := b } else p

/-- `rep_candidate(index, offset)` (R613). -/
def repCandidate (index offset : Nat) (r : OffRec) (p : Pos) : OffRec × Pos :=
  match r.lastLiteral with
  | .none => (r, p)
  | .mk lbits lindex loff lchain =>
    let len := ((index : Int) - lindex).toNat
    let b := ParseBlock.mk (lbits + 1 + egCost len) index offset (.mk lbits lindex loff lchain)
    ({ r with lastMatch := b }, p.offer b)

/-- `literal_candidate(index, offset)` (R615). -/
def literalCandidate (index : Nat) (r : OffRec) (p : Pos) : OffRec × Pos :=
  match r.lastMatch with
  | .none => (r, p)
  | .mk mbits mindex moff mchain =>
    let len := ((index : Int) - mindex).toNat
    let b := ParseBlock.mk (mbits + 1 + egCost len + 8 * len) index 0 (.mk mbits mindex moff mchain)
    ({ r with lastLiteral := b }, p.offer b)

/-- `OPTIMAL[index - l]`, for `l >= 1`, from OPTIMAL with the newest position first. -/
def optAt (optimal : List ParseBlock) (l : Nat) : ParseBlock := optimal.getD (l - 1) .none

/-- `OPTIMAL[index - l].bits + eg_bits(l - 1)` (R614). -/
def lenCost (optimal : List ParseBlock) (l : Nat) : Int := (optAt optimal l).cost + egCost (l - 1)

/-- The `repeat` loop of `new_candidate`: `n` more lengths (R614). -/
def extendBest (optimal : List ParseBlock) : Nat → Int → Pos → Pos
  | 0, _, p => p
  | n + 1, bits, p =>
    let k := p.bls + 1
    if lenCost optimal k ≤ bits then
      extendBest optimal n (lenCost optimal k) { p with bls := k, bestLength := Tab.put 0 p.bestLength k k }
    else
      extendBest optimal n bits
        { p with bls := k, bestLength := Tab.put 0 p.bestLength k (Tab.get 0 p.bestLength p.bls) }

/-- BEST_LENGTH is valid up to `m` (R614). -/
def fillBest (optimal : List ParseBlock) (m : Nat) (p : Pos) : Pos :=
  extendBest optimal (m - p.bls) (lenCost optimal (Tab.get 0 p.bestLength p.bls)) p

/-- LAST_MATCH[offset] gives way to a new-offset block of cost `bits` (R614). -/
def giveWay (last : ParseBlock) (index : Nat) (bits : Int) : Bool :=
  match last with
  | .none => true
  | .mk mbits mindex _ _ => decide (mindex ≠ index) || decide (bits < mbits)

/-- `new_candidate(index, offset)` (R614). -/
def newCandidate (optimal : List ParseBlock) (index offset : Nat) (r : OffRec) (p : Pos) : OffRec × Pos :=
  let p1 := fillBest optimal r.matchLength p
  let len := Tab.get 0 p1.bestLength r.matchLength
  let bits := (optAt optimal len).cost + 8 + egCost (zx0Msb offset) + egCost (len - 1)
  if giveWay r.lastMatch index bits then
    let b := ParseBlock.mk bits index offset (optAt optimal len)
    ({ r with lastMatch := b }, p1.offer b)
  else (r, p1)

/-- One offset at one position (R612): `same` says that D[index] = D[index - offset], and that both are
there. -/
def stepOffset (optimal : List ParseBlock) (index offset : Nat) (same : Bool) (r : OffRec) (p : Pos) :
    OffRec × Pos :=
  if same then
    let a := repCandidate index offset r p
    let r1 : OffRec := { a.1 with matchLength := a.1.matchLength + 1 }
    if 1 < r1.matchLength then newCandidate optimal index offset r1 a.2 else (r1, a.2)
  else literalCandidate index { r with matchLength := 0 } p

/-- The offsets from `offset` on, `left` of them, at one position; `prev` is D[index - offset],
D[index - offset - 1], ... (R612). -/
def stepOffsets (optimal : List ParseBlock) (index : Nat) (x : Byte) :
    Nat → Nat → List Byte → List OffRec → Pos → List OffRec × Pos
  | 0, _, _, rs, p => (rs, p)
  | _ + 1, _, _, [], p => ([], p)
  | left + 1, offset, prev, r :: rs, p =>
    let a := stepOffset optimal index offset (decide (prev.head? = some x)) r p
    let q := stepOffsets optimal index x left (offset + 1) prev.tail rs a.2
    (a.1 :: q.1, q.2)

/-- `step(index)` (R612); none is INTERNAL(ZX0_NO_PATH) (R616). `prev` is the input before `index`, the
newest first. -/
def step (quick : Bool) (e : ZxEnc) (index : Nat) (prev : List Byte) (x : Byte) : Option ZxEnc :=
  let q := stepOffsets e.optimal index x (offsetCeiling quick index) 1 prev e.offs { bestLength := e.bestLength }
  match q.2.best with
  | .none => none
  | b => some { e with offs := q.1, bestLength := q.2.bestLength, optimal := b :: e.optimal }

/-- The positions from `index` on (R611). -/
def steps (quick : Bool) : ZxEnc → Nat → List Byte → List Byte → Option ZxEnc
  | e, _, _, [] => some e
  | e, index, prev, x :: xs =>
    match e.step quick index prev x with
    | none => none
    | some e1 => steps quick e1 (index + 1) (x :: prev) xs

/-- The arrays at the start of the parse of `n` bytes (R611). -/
def initParse (quick : Bool) (e : ZxEnc) (n : Nat) : ZxEnc :=
  { e with
    offs := { lastMatch := .mk (-1) (-1) Config.zx0InitialOffset .none } ::
      List.replicate (offsetCeiling quick (n - 1) - 1) {}
    optimal := []
    bestLength := if 2 < n then [(2, 2)] else [] }

/-- `optimize(WHOLE)` (R611): OPTIMAL[n - 1] is the head of `optimal`. -/
def optimize (quick : Bool) (e : ZxEnc) : Option ZxEnc :=
  (e.initParse quick e.whole.length).steps quick 0 [] e.whole

/-- The blocks after the fake block, oldest first, as (length, offset) pairs; `acc` follows (R620). -/
def chainBlocks : ParseBlock → List (Nat × Nat) → List (Nat × Nat)
  | .mk _ index offset (.mk b i o c), acc =>
    chainBlocks (.mk b i o c) (((index - i).toNat, offset) :: acc)
  | _, acc => acc

/-- LITERALS (R621). -/
def emitLiterals (e : ZxEnc) (bytes : List Byte) : ZxEnc :=
  { e with
    wr := ((e.wr.writeBit false).writeEg bytes.length false).writeBytes bytes
    prevKind := .lit }

/-- LAST_OFFSET copy (R621). -/
def emitRep (e : ZxEnc) (len : Nat) : ZxEnc :=
  { e with wr := (e.wr.writeBit false).writeEg len false, prevKind := .rep }

/-- NEW_OFFSET copy (R621). -/
def emitNew (classic : Bool) (e : ZxEnc) (len offset : Nat) : ZxEnc :=
  let w := ((e.wr.writeBit true).writeEg (zx0Msb offset) (zx0Invert classic)).writeByte (zx0Lsb offset)
  { e with
    wr := { w with backtrack := true }.writeEg (len - 1) false
    lastOffset := offset
    prevKind := .new }

/-- The blocks in order (R621); `rest` is the input they cover. None is INTERNAL(ZX0_REPEAT_AFTER_MATCH)
(R623). -/
def emitBlocks (classic : Bool) : ZxEnc → List Byte → List (Nat × Nat) → Option ZxEnc
  | e, _, [] => some e
  | e, rest, (len, offset) :: bs =>
    if offset = 0 then emitBlocks classic (e.emitLiterals (rest.take len)) (rest.drop len) bs
    else if offset = e.lastOffset then
      if e.prevKind = .lit then emitBlocks classic (e.emitRep len) (rest.drop len) bs else none
    else emitBlocks classic (e.emitNew classic len offset) (rest.drop len) bs

/-- The end marker (R622). -/
def emitEnd (classic : Bool) (e : ZxEnc) : ZxEnc :=
  { e with wr := (e.wr.writeBit true).writeEg Config.zx0EndMarker (zx0Invert classic) }

/-- The engine at OPEN (R74, R79). -/
def start : ZxEnc := {}

/-- InByte returns `b` (R610). -/
def byte (e : ZxEnc) (b : Byte) : Run ZxEnc := .go { e with whole := e.whole ++ [b] }

/-- `zx0_compress` after the end of the input (R610, R624, R626). -/
def eof (l : LCfg) (e : ZxEnc) : Run ZxEnc :=
  if e.whole = [] then .ret { e with returned := true }
  else
    match e.optimize (zxQuick l) with
    | none => .fail e .zx0NoPath
    | some e1 =>
      match emitBlocks (zxClassic l) { e1 with wr := {}, lastOffset := Config.zx0InitialOffset, prevKind := .none }
          e1.whole (chainBlocks (e1.optimal.headD .none) []) with
      | none => .fail e1 .zx0RepeatAfterMatch
      | some e2 =>
        let e3 := e2.emitEnd (zxClassic l)
        { st := { e3 with returned := true }, out := e3.wr.zout, sig := .returned }

end ZxEnc

end Sys2Proof.Machine
end

