-- ==== Sys2Proof/Machine/ZxDec.lean ====
section
/-! DEFINITION. The ZX0 expand engine (45_zx0.md, R640 to R649) and its bit reader (R272, R273).

Each stream token has one operation here, named after its row; the procedure and the token's meaning both
run it. A token ends before the indicator bit of the next one (R184). -/

namespace Sys2Proof.Machine

open Sys2Proof

namespace ZxReader

/-- A bit can be read without a new byte (R272). -/
def avail (r : ZxReader) : Bool := !r.waiting && (r.zback || decide (r.zmask >>> 1 ≠ 0))

/-- `read_bit()` has begun, found ZMASK used up and waits in `read_byte` (R272). -/
def await (r : ZxReader) : ZxReader := { r with zmask := 0x80, waiting := true }

/-- `read_bit()` where no new byte is needed (R272). -/
def readBit (r : ZxReader) : Bool × ZxReader :=
  if r.zback then (r.zlast.getLsbD 0, { r with zback := false })
  else (decide (r.zval &&& (r.zmask >>> 1) ≠ 0), { r with zmask := r.zmask >>> 1 })

/-- `read_bit()` takes a new bit byte (R272). -/
def loadBit (r : ZxReader) (b : Byte) : Bool × ZxReader :=
  (b.getLsbD 7, { r with zlast := b, zval := b, zmask := 0x80, waiting := false })

end ZxReader

namespace ZxDec

/-- Bytes are output and join HIST (R641). -/
def outBytes (d : ZxDec) (bs : List Byte) : Run ZxDec := .go { d with hist := bs.reverse ++ d.hist } bs

/-- `n` bytes copied one by one from `off` bytes back, and HIST after them, the newest first (R642, R648). -/
def copyHist (off : Nat) : Nat → List Byte → List Byte × List Byte
  | 0, h => ([], h)
  | n + 1, h =>
    let b := h.getD (off - 1) 0
    let r := copyHist off n (b :: h)
    (b :: r.1, r.2)

/-- The check and the copy of a match (R642, R643, R645). -/
def copy (d : ZxDec) (len : Nat) : Run ZxDec :=
  if d.hist.length < d.lastOffset then .fail d .badOffset
  else
    let r := copyHist d.lastOffset len d.hist
    .go { d with hist := r.2 } r.1

/-- ZX0.LITERALS (R641). Through the token port its bits and bytes pass no bit reader (log entry 3). -/
def literals (d : ZxDec) (bytes : List Byte) : Run ZxDec :=
  { d with zstate := .copyLiterals, pc := .indic }.outBytes bytes

/-- ZX0.REP (R642). -/
def rep (d : ZxDec) (len : Nat) : Run ZxDec :=
  { d with zstate := .copyFromLastOffset, pc := .indic }.copy len

/-- The copy of ZX0.NEW once its offset is assembled (R643). -/
def newCopy (d : ZxDec) (len : Nat) : Run ZxDec :=
  { d with zstate := .copyFromNewOffset, pc := .indic }.copy len

/-- ZX0.NEW (R643). -/
def newMatch (d : ZxDec) (msb : Nat) (b : Byte) (len : Nat) : Run ZxDec :=
  { d with lastOffset := zx0Offset msb b }.newCopy len

/-- ZX0.END (R644). -/
def endMarker (d : ZxDec) : Run ZxDec := .ret { d with zstate := .done, pc := .done }

/-- An Elias-gamma value is complete (R641 to R644). -/
def egDone (d : ZxDec) (use : EgUse) (v : Nat) : Run ZxDec :=
  match use with
  | .litLen => .go { d with pc := .lits v }
  | .repLen => d.rep v
  | .msb => if v = Config.zx0EndMarker then d.endMarker else .go { d with pc := .lsb v }
  | .newLen => d.newCopy (v + 1)

/-- A bit of an Elias-gamma value (R273). -/
def egBit (classic : Bool) (d : ZxDec) (use : EgUse) (v : Nat) (data b : Bool) : Run ZxDec :=
  if data then
    let v' := 2 * v + (xor b (decide (use = .msb) && zx0Invert classic)).toNat
    if use = .msb ∧ Config.zx0EndMarker < v' then .fail d .badElias else .go { d with pc := .eg use v' false }
  else if b then d.egDone use v
  else .go { d with pc := .eg use v true }

/-- The indicator bit picks the next state (R641 to R643). -/
def indicBit (d : ZxDec) (b : Bool) : Run ZxDec :=
  if b then .go { d with zstate := .copyFromNewOffset, pc := .eg .msb 1 false }
  else if d.zstate = .copyLiterals then
    .go { d with zstate := .copyFromLastOffset, pc := .eg .repLen 1 false }
  else .go { d with zstate := .copyLiterals, pc := .eg .litLen 1 false }

/-- The bit `b` at the control point (R640). The first token has no indicator. -/
def bit (classic : Bool) (d : ZxDec) (b : Bool) : Run ZxDec :=
  match d.pc with
  | .start => d.egBit classic .litLen 1 false b
  | .eg use v data => d.egBit classic use v data b
  | .indic => d.indicBit b
  | _ => .go d

/-- The control point is inside `read_bit`. At the start of the stream AtEOF comes before it (R640). -/
def wantsBit (d : ZxDec) : Bool :=
  match d.pc with
  | .eg .. | .indic => true
  | _ => false

/-- The bits that need no new byte, at most `n` of them; then `read_bit` waits for one (R272). -/
def bits (classic : Bool) : Nat → ZxDec → Run ZxDec
  | 0, d => .go d
  | n + 1, d =>
    if d.wantsBit then
      if d.rd.avail then
        (({ d with rd := d.rd.readBit.2 }).bit classic d.rd.readBit.1).andThen (bits classic n)
      else .go { d with rd := d.rd.await }
    else .go d

/-- The procedure goes on from its control point until it needs input (R221): 7 bits of a bit byte and
the backtrack bit are at most 8, and one more round waits. -/
def settle (l : LCfg) (d : ZxDec) : Run ZxDec := bits (zxClassic l) 9 d

/-- InByte returns `b` at the control point (R124, R272). -/
def byte (l : LCfg) (d : ZxDec) (b : Byte) : Run ZxDec :=
  match d.pc with
  | .lits left =>
    (({ d with rd := { d.rd with zlast := b }
               pc := if left ≤ 1 then .indic else .lits (left - 1) }).outBytes [b]).andThen (settle l)
  | .lsb msb =>
    settle l { d with
      rd := { d.rd with zlast := b, zback := true }
      lastOffset := zx0Offset msb b
      pc := .eg .newLen 1 false }
  | .done => .go d
  | _ => (({ d with rd := (d.rd.loadBit b).2 }).bit (zxClassic l) (d.rd.loadBit b).1).andThen (settle l)

/-- InByte returns EOF: the empty stream, or TRUNCATED (R640, R646). -/
def eof (d : ZxDec) : Run ZxDec :=
  match d.pc with
  | .start => .ret { d with zstate := .done, pc := .done }
  | .done => .go d
  | _ => .fail d .truncated

/-- The engine at OPEN (R75, R79). -/
def start : ZxDec := {}

end ZxDec

end Sys2Proof.Machine
end

