-- ==== Sys2Proof/Machine/Ops.lean ====
section
/-! DEFINITION. The shared operations: error entry and leaving ERROR, the run of an engine procedure, the
registers, hardware reset, and the acceptance of stream tokens.

The core takes no traps (R700): its exception entry is `Ctx.raise` (R710), and the return from it is
`Ctx.close` (R228, R714). -/

namespace Sys2Proof.Machine

open Sys2Proof

/-! ### Error entry and exit -/

namespace Ctx

/-- Error entry, `raise e` (R710): first error wins (R712), and while IDLE the error is only recorded.
The dead engine state stays as it was (log entry 6). -/
def raise (c : Ctx) (e : Err) : Ctx :=
  let c1 := if errClass c.err = 0 then { c with err := e.word } else c
  if c1.st = .idle then c1 else { c1 with st := .error, outq := [], inq := [] }

/-- `warn(TRAILING_INPUT)` (R715). -/
def warnTrail (c : Ctx) : Ctx := { c with warn := c.warn ||| warnTrailing }

/-- The end of an instance (R228); in ERROR it is the only way out (R714). Engine state is discarded:
every record takes its reset value (log entry 5). -/
def close (c : Ctx) : Ctx :=
  { c with inq := [], outq := [], ended := false, natend := false, eng := {}, engine := 0, dir := false,
           st := .idle }

/-- `k` trailing bytes are counted (R236, R225). -/
def trail (c : Ctx) (k : Nat) : Ctx :=
  if k = 0 then c else { c with trailCount := c.trailCount + BitVec.ofNat 32 k }.warnTrail

/-- The procedure of an expand engine has returned: the natural end, and input left over is trailing input
(R236). LZC expand has no natural end (R448, log entry 7), and a compress procedure returns only after the
end of its input (R221). -/
def procReturned (c : Ctx) : Ctx :=
  if c.dir ∧ c.engine ≠ 2 then { (c.trail c.inq.length) with natend := true, inq := [] } else c

end Ctx

/-- OUTQ may hold `n` bytes: OUTQ_CAP is unbounded, or not passed (R812, I15, log entry 9). -/
def hasRoom (par : Params) (n : Nat) : Bool := par.outqCap.all (fun cap => decide (n ≤ cap))

/-! ### Running an engine procedure (R221) -/

/-- An engine procedure: has it returned, what it does before it needs input, with a byte, and with EOF. -/
structure Proc (σ : Type) where
  done : σ → Bool
  settle : σ → Run σ
  byte : σ → Byte → Run σ
  eof : σ → Run σ

namespace Proc

variable {σ : Type}

/-- InByte takes the bytes of INQ one by one until the procedure stops; with it, the bytes left (R124). -/
def feed (p : Proc σ) : List Byte → σ → Run σ × List Byte
  | [], s => (.go s, [])
  | b :: bs, s =>
    let r := p.byte s b
    match r.sig with
    | .running =>
      let q := feed p bs r.st
      ({ st := q.1.st, out := r.out ++ q.1.out, sig := q.1.sig }, q.2)
    | _ => (r, bs)

/-- The procedure from a control point: INQ first, then EOF if ENDED (R221, R124). -/
def drive (p : Proc σ) (ended : Bool) (inq : List Byte) (s : σ) : Run σ × List Byte :=
  if p.done s then (.go s, inq)
  else
    let r := p.settle s
    match r.sig with
    | .running =>
      let q := p.feed inq r.st
      let q1 : Run σ := { q.1 with out := r.out ++ q.1.out }
      (if ended then q1.andThen p.eof else q1, q.2)
    | _ => (r, inq)

end Proc

/-- The same stretch, of a larger state. -/
def Run.map {σ τ : Type} (f : σ → τ) (r : Run σ) : Run τ := { st := f r.st, out := r.out, sig := r.sig }

/-- NuFX compress (R325, R326). -/
def nufxEncProc (par : Params) (lzw2 : Bool) (l : LCfg) : Proc NufxEnc where
  done e := e.returned
  settle e := .go e
  byte := NufxEnc.byte par lzw2 l
  eof := NufxEnc.eof par lzw2 l

/-- NuFX expand (R345, R346). -/
def nufxDecProc (par : Params) (lzw2 : Bool) : Proc NufxDec where
  done d := decide (d.pc = .done)
  settle := NufxDec.settle par lzw2
  byte := NufxDec.byte par lzw2
  eof := NufxDec.eof

/-- LZC compress (R410). -/
def lzcEncProc (par : Params) : Proc LzcEnc where
  done e := e.returned
  settle e := .go e
  byte := LzcEnc.byte par
  eof := LzcEnc.eof par

/-- LZC expand (R445). -/
def lzcDecProc : Proc LzcDec where
  done d := decide (d.pc = .done)
  settle := LzcDec.settle
  byte := LzcDec.byte
  eof := LzcDec.eof

/-- Squeeze compress (R510). -/
def sqEncProc (par : Params) (l : LCfg) : Proc SqEnc where
  done e := e.returned
  settle e := .go e
  byte := SqEnc.byte
  eof := SqEnc.eof par l

/-- Squeeze expand (R540). -/
def sqDecProc (par : Params) (l : LCfg) : Proc SqDec where
  done d := decide (d.pc = .done)
  settle := SqDec.settle l
  byte := SqDec.byte par l
  eof := SqDec.eof

/-- ZX0 compress (R610). -/
def zxEncProc (l : LCfg) : Proc ZxEnc where
  done e := e.returned
  settle e := .go e
  byte := ZxEnc.byte
  eof := ZxEnc.eof l

/-- ZX0 expand (R640). -/
def zxDecProc (l : LCfg) : Proc ZxDec where
  done d := decide (d.pc = .done)
  settle := ZxDec.settle l
  byte := ZxDec.byte l
  eof := ZxDec.eof

/-- A stretch of one engine, as a stretch of the engine state, with the input left. -/
def liftRun {σ : Type} (f : σ → Engines) (r : Run σ × List Byte) : Run Engines × List Byte :=
  (r.1.map f, r.2)

namespace Ctx

/-- The open instance's procedure (R237) runs on INQ. OPEN admits no other ENGINE value (R224). -/
def runProc (par : Params) (c : Ctx) : Run Engines × List Byte :=
  let e := c.eng
  match c.engine.toNat, c.dir with
  | 0, false => liftRun (fun x => { e with nufxEnc := x })
      ((nufxEncProc par false c.lcfg).drive c.ended c.inq e.nufxEnc)
  | 0, true => liftRun (fun x => { e with nufxDec := x })
      ((nufxDecProc par false).drive c.ended c.inq e.nufxDec)
  | 1, false => liftRun (fun x => { e with nufxEnc := x })
      ((nufxEncProc par true c.lcfg).drive c.ended c.inq e.nufxEnc)
  | 1, true => liftRun (fun x => { e with nufxDec := x })
      ((nufxDecProc par true).drive c.ended c.inq e.nufxDec)
  | 2, false => liftRun (fun x => { e with lzcEnc := x })
      ((lzcEncProc par).drive c.ended c.inq e.lzcEnc)
  | 2, true => liftRun (fun x => { e with lzcDec := x })
      (lzcDecProc.drive c.ended c.inq e.lzcDec)
  | 3, false => liftRun (fun x => { e with sqEnc := x })
      ((sqEncProc par c.lcfg).drive c.ended c.inq e.sqEnc)
  | 3, true => liftRun (fun x => { e with sqDec := x })
      ((sqDecProc par c.lcfg).drive c.ended c.inq e.sqDec)
  | 4, false => liftRun (fun x => { e with zxEnc := x })
      ((zxEncProc c.lcfg).drive c.ended c.inq e.zxEnc)
  | 4, true => liftRun (fun x => { e with zxDec := x })
      ((zxDecProc c.lcfg).drive c.ended c.inq e.zxDec)
  | _, _ => (.go e, c.inq)

/-- What a stretch of the procedure does to the context: OutByte for each byte (R125), the input it left,
and the event that stopped it (R221). -/
def absorb (c : Ctx) (r : Run Engines) (rest : List Byte) : Ctx :=
  let c1 := { c with
    eng := r.st
    outq := c.outq ++ r.out
    outCount := c.outCount + BitVec.ofNat 32 r.out.length
    inq := rest }
  match r.sig with
  | .running => c1
  | .returned => c1.procReturned
  | .raised e => c1.raise e

/-- An LZC compress engine has read more than LZC_MAX_IN bytes (R425); before the first byte IN_CNT is
already 1 (R402). -/
def lzcPastMax (par : Params) (c : Ctx) (e : Engines) : Bool :=
  decide (c.engine = 2) && !c.dir && e.lzcEnc.haveEnt && decide (par.lzcMaxIn < e.lzcEnc.inCnt)

/-- `run()` (R221), with the counter of free values: past LZC_MAX_IN what LZC compress outputs is a free
value (R425, log entry 10). -/
def run (par : Params) (free : Nat) (c : Ctx) : Ctx × Nat :=
  let r := c.runProc par
  if c.lzcPastMax par r.1.st then
    (c.absorb { r.1 with out := Config.freeLzcOutput free } r.2, free + 1)
  else (c.absorb r.1 r.2, free)

/-- The result of a command that can output: refused where OUTQ passes a bounded OUTQ_CAP (log entry 9). -/
def commit (par : Params) (r : Ctx × Nat) : Except Refusal (Ctx × Nat) :=
  if hasRoom par r.1.outq.length then .ok r else .error .outqFull

/-- The registers latched by OPEN (R58). -/
def latch (c : Ctx) : LCfg where
  delim := c.cfgDelim
  volume := c.cfgVolume
  lzc := c.cfgLzc
  sq := c.cfgSq
  zx0 := c.cfgZx0
  expect := c.cfgExpect
  name := c.namebuf

/-- The engine state after OPEN, and what the first steps output (R79, R224). The other engines' records
are not touched. A register whose value after OPEN the spec leaves unspecified (I12) is 0 or empty: DESIGN CHOICE, log
entry 28. -/
def startEngine (par : Params) (c : Ctx) : Run Engines :=
  let e := c.eng
  match c.engine.toNat, c.dir with
  | 0, false => (NufxEnc.start par false c.lcfg).map (fun x => { e with nufxEnc := x })
  | 0, true => .go { e with nufxDec := NufxDec.start par c.lcfg }
  | 1, false => (NufxEnc.start par true c.lcfg).map (fun x => { e with nufxEnc := x })
  | 1, true => .go { e with nufxDec := NufxDec.start par c.lcfg }
  | 2, false => (LzcEnc.start c.lcfg).map (fun x => { e with lzcEnc := x })
  | 2, true => .go { e with lzcDec := LzcDec.start }
  | 3, false => .go { e with sqEnc := SqEnc.start }
  | 3, true => .go { e with sqDec := SqDec.start c.lcfg }
  | 4, false => .go { e with zxEnc := ZxEnc.start }
  | 4, true => .go { e with zxDec := ZxDec.start }
  | _, _ => .go e

/-- Hardware reset of one context (R800). -/
def hardReset (_ : Ctx) : Ctx := Ctx.reset

/-! ### Registers (R41, R122, R233, R234) -/

/-- The value a MemRead of word offset `off` returns (R41, R234). -/
def readReg (c : Ctx) (off : Nat) : Word :=
  match off with
  | 0x04 => c.status
  | 0x08 => c.dout
  | 0x0C => c.err
  | 0x10 => c.warn
  | 0x14 => c.inCount
  | 0x18 => c.outCount
  | 0x1C => c.trailCount
  | 0x20 => c.cfgDelim
  | 0x24 => c.cfgVolume
  | 0x28 => c.cfgLzc
  | 0x2C => c.cfgSq
  | 0x30 => c.cfgZx0
  | 0x34 => c.cfgExpect
  | 0x38 => c.nameLen
  | _ => 0

/-- A MemWrite of `v` to a word offset other than CMD: defined fields of a CFG register are stored, any
other write is ignored (R122, R233; fields R48 to R53). -/
def writeReg (c : Ctx) (off : Nat) (v : Word) : Ctx :=
  match off with
  | 0x20 => { c with cfgDelim := v &&& 0x000000FF#32 }
  | 0x24 => { c with cfgVolume := v &&& 0x000000FF#32 }
  | 0x28 => { c with cfgLzc := v &&& 0x0000009F#32 }
  | 0x2C => { c with cfgSq := v &&& 0x000001FF#32 }
  | 0x30 => { c with cfgZx0 := v &&& 0x00000003#32 }
  | 0x34 => { c with cfgExpect := v }
  | _ => c

end Ctx

/-! ### The addressed context -/

namespace State

/-- `f` acts on the context that the access addresses; no other context changes (R40, R722). It gives the
context and the counter of free values, or refuses. -/
def onCtx (s : State) (f : Ctx → Except Refusal (Ctx × Nat)) : Out :=
  match s.ctxs[s.sel]? with
  | none => .fault .unmapped
  | some c =>
    match f c with
    | .error r => .refused r
    | .ok (c', n) => .next { s with ctxs := s.ctxs.set s.sel c', free := n }

/-- A command that draws no free value and outputs nothing. -/
def onCtxPure (s : State) (f : Ctx → Ctx) : Out := s.onCtx (fun c => .ok (f c, s.free))

/-- The context index and register offset of a host address (R130). -/
def locate (s : State) (addr : Nat) : Option (Nat × Nat) :=
  if s.par.base ≤ addr ∧ (addr - s.par.base) / 0x40 < s.ctxs.length then
    some ((addr - s.par.base) / 0x40, (addr - s.par.base) % 0x40)
  else none

/-- Only 4-byte accesses at multiples of 4 are defined (R123). -/
def accessOk (addr size : Nat) : Bool := decide (size = 4) && decide (addr % 4 = 0)

end State

/-! ### Acceptance of stream tokens (log entry 3) -/

namespace Ctx

/-- An expand instance is open and has not reached its natural end. -/
def expanding (c : Ctx) : Bool := decide (c.st = .active) && c.dir && !c.natend

/-- The token rule's stretch of the engine takes effect. -/
def tokenRun (par : Params) (free : Nat) (c : Ctx) (r : Run Engines) : Except Refusal (Ctx × Nat) :=
  commit par (c.absorb r c.inq, free)

/-- A token of an engine whose record is `d`: `awaited` says that the decoder stands at this kind of
token, `cls` that the row's condition holds, `r` is the token rule. -/
def token (par : Params) (free : Nat) (c : Ctx) (awaited cls : Bool) (r : Run Engines) :
    Except Refusal (Ctx × Nat) :=
  if !(c.expanding && awaited) then .error .tokenNotAwaited
  else if !cls then .error .tokenClass
  else c.tokenRun par free r

/-- The open instance is NuFX expand; `lzw2` says which. -/
def isNufx (c : Ctx) (lzw2 : Bool) : Bool := decide (c.engine = if lzw2 then 1 else 0)

end Ctx

namespace NufxDec

/-- The decoder is at the boundary of a code (R340). -/
def atCode (d : NufxDec) : Bool := decide (d.pc = .code) && decide (d.rd.got = 0)

/-- The decoder is in `rle_decode` (R349). -/
def inRle (d : NufxDec) : Bool :=
  match d.pc with
  | .rle _ => true
  | _ => false

end NufxDec

namespace LzcDec

/-- The phase of the next code, if the decoder is at the boundary of a code (R445). -/
def phase? (d : LzcDec) : Option LzcPhase :=
  match d.pc with
  | .codes ph => some ph
  | .fetch ph => if d.grp = [] then some ph else none
  | _ => none

/-- The phase at a group read that has no byte yet (R442). -/
def groupPhase? (d : LzcDec) : Option LzcPhase :=
  match d.pc with
  | .fetch ph => if d.grp = [] then some ph else none
  | _ => none

/-- A code rule `f` at the phase of the next code, if the code is of class `k` there. -/
def codeIs (d : LzcDec) (k : CodeClass) (code : Nat) : Bool :=
  match d.phase? with
  | some ph => decide (d.classOf ph code = k)
  | none => false

end LzcDec

namespace SqDec

/-- The decoder is at the boundary of a Huffman code (R544). -/
def atCode (d : SqDec) : Bool := decide (d.pc = .data) && decide (d.node = 0)

/-- The RLE expander is at the boundary of a token (R547). -/
def atRle (d : SqDec) : Bool := decide (d.pc = .data) && decide (d.rstate = .normal)

end SqDec

namespace State

/-- A NuFX token (either variant, or the one `only` names). -/
def onNufx (s : State) (only : Option Bool) (awaited cls : NufxDec → Bool) (f : NufxDec → Run NufxDec) :
    Out :=
  s.onCtx (fun c =>
    c.token s.par s.free
      ((match only with
        | none => c.isNufx false || c.isNufx true
        | some lzw2 => c.isNufx lzw2) && awaited c.eng.nufxDec)
      (cls c.eng.nufxDec)
      ((f c.eng.nufxDec).map (fun x => { c.eng with nufxDec := x })))

/-- An LZC token. -/
def onLzc (s : State) (awaited cls : LzcDec → Bool) (f : LzcDec → Run LzcDec) : Out :=
  s.onCtx (fun c =>
    c.token s.par s.free (decide (c.engine = 2) && awaited c.eng.lzcDec) (cls c.eng.lzcDec)
      ((f c.eng.lzcDec).map (fun x => { c.eng with lzcDec := x })))

/-- A Squeeze token; the token rule may read LCFG (R547). -/
def onSq (s : State) (awaited cls : LCfg → SqDec → Bool) (f : LCfg → SqDec → Run SqDec) : Out :=
  s.onCtx (fun c =>
    c.token s.par s.free (decide (c.engine = 3) && awaited c.lcfg c.eng.sqDec) (cls c.lcfg c.eng.sqDec)
      ((f c.lcfg c.eng.sqDec).map (fun x => { c.eng with sqDec := x })))

/-- A ZX0 token. -/
def onZx (s : State) (awaited cls : ZxDec → Bool) (f : ZxDec → Run ZxDec) : Out :=
  s.onCtx (fun c =>
    c.token s.par s.free (decide (c.engine = 4) && awaited c.eng.zxDec) (cls c.eng.zxDec)
      ((f c.eng.zxDec).map (fun x => { c.eng with zxDec := x })))

end State

end Sys2Proof.Machine
end

