-- ==== Sys2Proof/Machine/Commands.lean ====
section
/-! DEFINITION. The meanings of the host commands (40_host_interface.md, R222 to R232). -/

namespace Sys2Proof.Machine

open Sys2Proof

namespace Ctx

/-- A command that is illegal outside `ok`, and has no effect in ERROR (R222): the state checks come
before all others (R713). -/
def guarded (c : Ctx) (free : Nat) (ok : Bool) (f : Except Refusal (Ctx × Nat)) :
    Except Refusal (Ctx × Nat) :=
  if c.st = .error then .ok (c, free)
  else if ok then f
  else .ok (c.raise .wrongState, free)

/-- The context once OPEN is accepted, before its checks (R224). -/
def opened (c : Ctx) (eng : BitVec 3) (dir : Bool) : Ctx :=
  { c with
    err := 0, warn := 0, dout := 0, inCount := 0, outCount := 0, trailCount := 0
    inq := [], outq := [], ended := false, natend := false
    engine := eng, dir := dir, lcfg := c.latch, st := .active }

/-- The first CONFIG error of OPEN, in the order of R224 and R713. -/
def openError (c : Ctx) : Option Err :=
  if 4 < c.engine.toNat then some .badEngine
  else if c.engine = 2 ∧ c.dir = false ∧
      ¬ (9 ≤ flagsMaxbits (c.lcfg.lzc.setWidth 8) ∧ flagsMaxbits (c.lcfg.lzc.setWidth 8) ≤ 16) then
    some .badMaxbits
  else if (c.engine = 0 ∨ c.engine = 1) ∧ c.dir = true ∧ c.lcfg.expect.getLsbD 31 = true then
    some .negExpectLen
  else none

/-- The checks of OPEN, the initialisation of the engine and its first run (R224). -/
def openRun (par : Params) (free : Nat) (c : Ctx) : Except Refusal (Ctx × Nat) :=
  match c.openError with
  | some e => .ok (c.raise e, free)
  | none => commit par ((c.absorb (c.startEngine par) []).run par free)

/-- OPEN (R224). -/
def openCmd (par : Params) (free : Nat) (eng : BitVec 3) (dir : Bool) (c : Ctx) :
    Except Refusal (Ctx × Nat) :=
  c.guarded free (decide (c.st = .idle)) ((c.opened eng dir).openRun par free)

/-- A whole-file engine already holds MAX_WHOLE_FILE bytes (R816, I16, log entry 9). -/
def wholeFull (par : Params) (c : Ctx) : Bool :=
  !c.dir && ((decide (c.engine = 3) && par.maxWhole.any (fun n => decide (n ≤ c.eng.sqEnc.whole.length))) ||
    (decide (c.engine = 4) && par.maxWhole.any (fun n => decide (n ≤ c.eng.zxEnc.whole.length))))

/-- FEED in ACTIVE (R225). A bounded OUTQ_CAP does not bound INQ: DESIGN CHOICE, log entry 9. -/
def feedRun (par : Params) (free : Nat) (b : Byte) (c : Ctx) : Except Refusal (Ctx × Nat) :=
  let c1 := { c with inCount := c.inCount + 1 }
  if c.natend then .ok (c1.trail 1, free)
  else if c.wholeFull par then .error .wholeFileFull
  else commit par ({ c1 with inq := c1.inq ++ [b] }.run par free)

/-- FEED (R225). -/
def feedCmd (par : Params) (free : Nat) (b : Byte) (c : Ctx) : Except Refusal (Ctx × Nat) :=
  c.guarded free (decide (c.st = .active)) (c.feedRun par free b)

/-- The new value of DOUT and of OUTQ (R226). -/
def take (c : Ctx) : Ctx :=
  match c.outq with
  | b :: rest => { c with dout := doutWord false true b, outq := rest }
  | [] => { c with dout := doutWord (decide (c.st = .finished) || decide (c.st = .error)) false 0 }

/-- PRODUCE (R226): legal in every state but IDLE. -/
def produceCmd (c : Ctx) : Ctx := if c.st = .idle then c.raise .wrongState else c.take

/-- STATE <- FINISHED, reached only when the run did not raise (R227). -/
def finished (r : Ctx × Nat) : Ctx × Nat :=
  if r.1.st = .active then ({ r.1 with st := .finished }, r.2) else r

/-- FINISH in ACTIVE (R227). -/
def finishRun (par : Params) (free : Nat) (c : Ctx) : Except Refusal (Ctx × Nat) :=
  commit par (finished ({ c with ended := true }.run par free))

/-- FINISH (R227). -/
def finishCmd (par : Params) (free : Nat) (c : Ctx) : Except Refusal (Ctx × Nat) :=
  c.guarded free (decide (c.st = .active)) (c.finishRun par free)

/-- CLOSE (R228). -/
def closeCmd (c : Ctx) : Ctx := if c.st = .idle then c else c.close

/-- NAMEBYTE in IDLE (R229), the checks in the order of R713. -/
def nameRun (b : Byte) (c : Ctx) : Ctx :=
  if b = 0 then c.raise .nameNul
  else if c.namebuf.length = Config.nameMax then c.raise .nameTooLong
  else { c with namebuf := c.namebuf ++ [b] }

/-- NAMEBYTE (R229). -/
def nameByteCmd (free : Nat) (b : Byte) (c : Ctx) : Except Refusal (Ctx × Nat) :=
  c.guarded free (decide (c.st = .idle)) (.ok (c.nameRun b, free))

/-- NAMECLEAR (R230). -/
def nameClearCmd (free : Nat) (c : Ctx) : Except Refusal (Ctx × Nat) :=
  c.guarded free (decide (c.st = .idle)) (.ok ({ c with namebuf := [] }, free))

/-- A command that raises `e` in every state but ERROR (R231, R232). -/
def raiseCmd (e : Err) (c : Ctx) : Ctx := if c.st = .error then c else c.raise e

end Ctx

/-- NOP (R223): no state changes. -/
def execCmdNop (s : State) : Out := .next s

/-- OPEN (R224). -/
def execCmdOpen (eng : BitVec 3) (dir : Bool) (s : State) : Out :=
  s.onCtx (fun c => c.openCmd s.par s.free eng dir)

/-- FEED (R225). -/
def execCmdFeed (b : Byte) (s : State) : Out := s.onCtx (fun c => c.feedCmd s.par s.free b)

/-- PRODUCE (R226). -/
def execCmdProduce (s : State) : Out := s.onCtxPure Ctx.produceCmd

/-- FINISH (R227). -/
def execCmdFinish (s : State) : Out := s.onCtx (fun c => c.finishCmd s.par s.free)

/-- SEEK (R232): UNSUPPORTED(SEEK). -/
def execCmdSeek (s : State) : Out := s.onCtxPure (Ctx.raiseCmd .seek)

/-- CLOSE (R228). -/
def execCmdClose (s : State) : Out := s.onCtxPure Ctx.closeCmd

/-- NAMEBYTE (R229). -/
def execCmdNameByte (b : Byte) (s : State) : Out := s.onCtx (fun c => c.nameByteCmd s.free b)

/-- NAMECLEAR (R230). -/
def execCmdNameClear (s : State) : Out := s.onCtx (fun c => c.nameClearCmd s.free)

/-- RESERVED, OP 0x9 (R231): ILLEGAL_CMD(RESERVED_OP). -/
def execCmdReserved9 (s : State) : Out := s.onCtxPure (Ctx.raiseCmd .reservedOp)

/-- RESERVED, OP 0xA and 0xB (R231): ILLEGAL_CMD(RESERVED_OP). -/
def execCmdReservedAB (_ : BitVec 1) (s : State) : Out := s.onCtxPure (Ctx.raiseCmd .reservedOp)

/-- RESERVED, OP 0xC to 0xF (R231): ILLEGAL_CMD(RESERVED_OP). -/
def execCmdReservedCF (_ : BitVec 2) (s : State) : Out := s.onCtxPure (Ctx.raiseCmd .reservedOp)

end Sys2Proof.Machine
end

