-- ==== Sys2Proof/Machine/LzcTokens.lean ====
section
/-! DEFINITION. The meanings of the LZC stream tokens (43_lzc.md, R460 to R466). -/

namespace Sys2Proof.Machine

open Sys2Proof

/-- A code boundary is awaited. -/
def LzcDec.atCode (d : LzcDec) : Bool := d.phase?.isSome

/-- LZC.LIT (R460). -/
def execLzcLit (k : Byte) (s : State) : Out :=
  s.onLzc LzcDec.atCode (fun d => d.codeIs .lit k.toNat) (fun d => d.lit (decide (d.phase? = some .first)) k)

/-- LZC.CLEAR (R461). -/
def execLzcClear (s : State) : Out :=
  s.onLzc LzcDec.atCode (fun d => d.codeIs .clear Config.lzcClear) (fun d => d.clear)

/-- LZC.TABLE (R462). -/
def execLzcTable (k : Half) (s : State) : Out :=
  s.onLzc LzcDec.atCode (fun d => d.codeIs .table k.toNat) (fun d => d.table k.toNat)

/-- LZC.KWKWK (R463). -/
def execLzcKwkwk (k : Half) (s : State) : Out :=
  s.onLzc LzcDec.atCode (fun d => d.codeIs .kwkwk k.toNat) (fun d => d.kwkwk k.toNat)

/-- LZC.INVALID (R464): CORRUPT(BAD_CODE). -/
def execLzcInvalid (k : Half) (s : State) : Out :=
  s.onLzc LzcDec.atCode (fun d => d.codeIs .invalid k.toNat) (fun d => d.invalid)

/-- LZC.HDR (R465). -/
def execLzcHdr (m0 m1 flags : Byte) (s : State) : Out :=
  s.onLzc (fun d => decide (d.pc = .hdr [])) (fun _ => true) (fun d => d.hdr m0 m1 flags)

/-- LZC.GROUP (R466): 1 to N_BITS bytes (R178). Where the group is shorter than N_BITS but holds a whole code, its codes
are decoded and the decoder then waits for a further group, which may come: DESIGN CHOICE, log entry 3. By FEED such a
group ends the input (R442, `LzcDec.eof`). -/
def execLzcGroup (bytes : List Byte) (s : State) : Out :=
  s.onLzc (fun d => d.groupPhase?.isSome)
    (fun d => decide (1 ≤ bytes.length) && decide (bytes.length ≤ d.nBits))
    (fun d => d.group (d.groupPhase?.getD .next) bytes)

end Sys2Proof.Machine
end

