-- ==== Sys2Proof/Machine/NufxTokens.lean ====
section
/-! DEFINITION. The meanings of the NuFX stream tokens (42_nufx_lzw.md, R360 to R370). -/

namespace Sys2Proof.Machine

open Sys2Proof

/-- NUFX.LIT (R360). -/
def execNufxLit (k : Byte) (s : State) : Out :=
  s.onNufx none NufxDec.atCode (fun d => decide (d.classOf k.toNat = .lit)) (fun d => .go (d.lit k))

/-- NUFX.CLEAR (R361). -/
def execNufxClear (s : State) : Out :=
  s.onNufx none NufxDec.atCode (fun d => decide (d.classOf Config.nufxClear = .clear)) (fun d => .go d.clear)

/-- NUFX.TABLE (R362). -/
def execNufxTable (k : BitVec 12) (s : State) : Out :=
  s.onNufx none NufxDec.atCode (fun d => decide (d.classOf k.toNat = .table))
    (fun d => .go (d.table k.toNat))

/-- NUFX.KWKWK (R363). -/
def execNufxKwkwk (k : BitVec 12) (s : State) : Out :=
  s.onNufx none NufxDec.atCode (fun d => decide (d.classOf k.toNat = .kwkwk))
    (fun d => .go (d.kwkwk k.toNat))

/-- NUFX.INVALID (R364): CORRUPT(TABLE_FULL) or CORRUPT(BAD_CODE). -/
def execNufxInvalid (k : BitVec 12) (s : State) : Out :=
  s.onNufx none NufxDec.atCode (fun d => decide (d.classOf k.toNat = .invalid))
    (fun d => .fail d d.invalidErr)

/-- RLE.RUN of NuFX (R365). -/
def execNufxRleRun (v n : Byte) (s : State) : Out :=
  s.onNufx none NufxDec.inRle (fun _ => true) (fun d => d.rleRun v n)

/-- RLE.LIT of NuFX (R366). -/
def execNufxRleLit (b : Byte) (s : State) : Out :=
  s.onNufx none NufxDec.inRle (fun d => decide (b ≠ d.delimIn)) (fun d => d.rleLit b)

/-- NUFX1.HDR (R367). -/
def execNufx1Hdr (crc : Half) (volume delim : Byte) (s : State) : Out :=
  s.onNufx (some false) (fun d => decide (d.pc = .hdr [])) (fun _ => true)
    (fun d => .go (d.hdr1 s.par crc volume delim))

/-- NUFX1.CHUNK (R368). -/
def execNufx1Chunk (rlelen : Half) (flag : Byte) (s : State) : Out :=
  s.onNufx (some false) (fun d => decide (d.pc = .chunkHdr [])) (fun _ => true)
    (fun d => d.chunk1 rlelen flag)

/-- NUFX2.HDR (R369). -/
def execNufx2Hdr (volume delim : Byte) (s : State) : Out :=
  s.onNufx (some true) (fun d => decide (d.pc = .hdr [])) (fun _ => true) (fun d => .go (d.hdr2 volume delim))

/-- NUFX2.CHUNK (R370). -/
def execNufx2Chunk (w clen : Half) (s : State) : Out :=
  s.onNufx (some true) (fun d => decide (d.pc = .chunkHdr [])) (fun _ => true) (fun d => d.chunk2 w clen)

end Sys2Proof.Machine
end

