-- ==== Sys2Proof/Machine/SqTokens.lean ====
section
/-! DEFINITION. The meanings of the Squeeze stream tokens (44_squeeze.md, R560 to R569). -/

namespace Sys2Proof.Machine

open Sys2Proof

namespace SqDec

/-- The index of the node entry that is due (R540). -/
def nodeIndex? (d : SqDec) : Option Nat :=
  match d.pc with
  | .node i [] => some i
  | _ => none

/-- Symbol `sym` has a leaf in the tree section read (R181, R182). -/
def hasLeaf (d : SqDec) (sym : Nat) : Bool := d.dnode.any (fun p => decide (p.2 = sqLeafRef sym))

end SqDec

/-- SQ.HDR (R560). -/
def execSqHdr (m0 m1 : Byte) (sum : Half) (_name : List Byte) (s : State) : Out :=
  s.onSq (fun _ d => decide (d.pc = .hdr [])) (fun _ _ => true) (fun _ d => d.hdr m0 m1 sum)

/-- SQ.COUNT (R561). -/
def execSqCount (numnodes : Half) (s : State) : Out :=
  s.onSq (fun _ d => decide (d.pc = .count [])) (fun _ _ => true) (fun _ d => d.count numnodes)

/-- SQ.NODE (R562). -/
def execSqNode (left right : Half) (s : State) : Out :=
  s.onSq (fun _ d => d.nodeIndex?.isSome) (fun _ _ => true)
    (fun _ d => d.node1 (d.nodeIndex?.getD 0) left right)

/-- SQ.SYM (R563). -/
def execSqSym (sym : Byte) (s : State) : Out :=
  s.onSq (fun _ d => d.atCode) (fun _ d => d.hasLeaf sym.toNat)
    (fun l d => d.sym s.par.sqLayout (sqDelim l) sym)

/-- SQ.EOF (R564). -/
def execSqEof (s : State) : Out :=
  s.onSq (fun _ d => d.atCode) (fun _ d => d.hasLeaf Config.sqEof) (fun l d => d.eofSym (sqFullHdr l))

/-- SQ.PAD (R565): the 0 to 7 bits after the EOF code are discarded. The decoder has already reached its
natural end (log entry 22). -/
def execSqPad (bits : List Bool) (s : State) : Out :=
  s.onCtx (fun c =>
    if decide (c.st = .active) && c.dir && decide (c.engine = 3) && decide (c.eng.sqDec.pc = .done) then
      if bits.length ≤ 7 then
        .ok ({ c with eng := { c.eng with sqDec := c.eng.sqDec.padBits } }, s.free)
      else .error .tokenClass
    else .error .tokenNotAwaited)

/-- RLE.RUN of Squeeze, DOC layout (R566). -/
def execSqRleRun (v n : Byte) (s : State) : Out :=
  s.onSq (fun _ d => d.atRle) (fun _ _ => decide (s.par.sqLayout = .doc)) (fun _ d => d.rleRun v n)

/-- RLE.LIT of Squeeze (R567; R503 in layout USQ). -/
def execSqRleLit (b : Byte) (s : State) : Out :=
  s.onSq (fun _ d => d.atRle) (fun l _ => decide (b ≠ sqDelim l)) (fun _ d => d.rleLit s.par.sqLayout b)

/-- USQ.RUN (R568). -/
def execUsqRun (n : Byte) (s : State) : Out :=
  s.onSq (fun _ d => d.atRle) (fun _ _ => decide (s.par.sqLayout = .usq) && decide (n ≠ 0))
    (fun _ d => d.usqRun n)

/-- USQ.ESC (R569). -/
def execUsqEsc (s : State) : Out :=
  s.onSq (fun _ d => d.atRle) (fun _ _ => decide (s.par.sqLayout = .usq)) (fun l d => d.usqEsc (sqDelim l))

end Sys2Proof.Machine
end

