-- ==== Sys2Proof/Machine/ZxTokens.lean ====
section
/-! DEFINITION. The meanings of the ZX0 stream tokens (45_zx0.md, R641 to R644). -/

namespace Sys2Proof.Machine

open Sys2Proof

namespace ZxDec

/-- The decoder is at the boundary of a token (R184, R640). -/
def atToken (d : ZxDec) : Bool := decide (d.pc = .start) || decide (d.pc = .indic)

/-- A LITERALS token can stand here: first, or after a copy (R184). -/
def literalsHere (d : ZxDec) : Bool := decide (d.pc = .start) || decide (d.zstate ≠ .copyLiterals)

/-- A REP token can stand here: after LITERALS only (R184). -/
def repHere (d : ZxDec) : Bool := decide (d.pc = .indic) && decide (d.zstate = .copyLiterals)

/-- A NEW or END token can stand here: after any token (R184). -/
def newHere (d : ZxDec) : Bool := decide (d.pc = .indic)

end ZxDec

/-- ZX0.LITERALS (R641). -/
def execZx0Literals (bytes : List Byte) (s : State) : Out :=
  s.onZx ZxDec.atToken (fun d => d.literalsHere && decide (1 ≤ bytes.length)) (fun d => d.literals bytes)

/-- ZX0.REP (R642). -/
def execZx0Rep (len : Nat) (s : State) : Out :=
  s.onZx ZxDec.atToken (fun d => d.repHere && decide (1 ≤ len)) (fun d => d.rep len)

/-- ZX0.NEW (R643): bit 0 of B is the first bit of EG(len - 1). -/
def execZx0New (msb b : Byte) (len : Nat) (s : State) : Out :=
  s.onZx ZxDec.atToken
    (fun d => d.newHere && (decide (msb ≠ 0) && decide (2 ≤ len) && (b.getLsbD 0 == decide (len = 2))))
    (fun d => d.newMatch msb.toNat b len)

/-- ZX0.END (R644). -/
def execZx0End (s : State) : Out :=
  s.onZx ZxDec.atToken (fun d => d.newHere) (fun d => d.endMarker)

end Sys2Proof.Machine
end

