-- ==== Sys2Proof/Machine/Dispatch.lean ====
section
/-! DEFINITION. The dispatch: one arm per constructor of Instr. -/

namespace Sys2Proof.Machine

def exec (i : Instr) (s : State) : Host.Outcome State Fault Refusal :=
  match i with
  | .cmdNop => Sys2Proof.Machine.execCmdNop s
  | .cmdOpen eng dir => Sys2Proof.Machine.execCmdOpen eng dir s
  | .cmdFeed b => Sys2Proof.Machine.execCmdFeed b s
  | .cmdProduce => Sys2Proof.Machine.execCmdProduce s
  | .cmdFinish => Sys2Proof.Machine.execCmdFinish s
  | .cmdSeek => Sys2Proof.Machine.execCmdSeek s
  | .cmdClose => Sys2Proof.Machine.execCmdClose s
  | .cmdNameByte b => Sys2Proof.Machine.execCmdNameByte b s
  | .cmdNameClear => Sys2Proof.Machine.execCmdNameClear s
  | .cmdReserved9 => Sys2Proof.Machine.execCmdReserved9 s
  | .cmdReservedAB lo => Sys2Proof.Machine.execCmdReservedAB lo s
  | .cmdReservedCF lo => Sys2Proof.Machine.execCmdReservedCF lo s
  | .nufxLit k => Sys2Proof.Machine.execNufxLit k s
  | .nufxClear => Sys2Proof.Machine.execNufxClear s
  | .nufxTable k => Sys2Proof.Machine.execNufxTable k s
  | .nufxKwkwk k => Sys2Proof.Machine.execNufxKwkwk k s
  | .nufxInvalid k => Sys2Proof.Machine.execNufxInvalid k s
  | .nufxRleRun v n => Sys2Proof.Machine.execNufxRleRun v n s
  | .nufxRleLit b => Sys2Proof.Machine.execNufxRleLit b s
  | .nufx1Hdr crc volume delim => Sys2Proof.Machine.execNufx1Hdr crc volume delim s
  | .nufx1Chunk rlelen flag => Sys2Proof.Machine.execNufx1Chunk rlelen flag s
  | .nufx2Hdr volume delim => Sys2Proof.Machine.execNufx2Hdr volume delim s
  | .nufx2Chunk w clen => Sys2Proof.Machine.execNufx2Chunk w clen s
  | .lzcLit k => Sys2Proof.Machine.execLzcLit k s
  | .lzcClear => Sys2Proof.Machine.execLzcClear s
  | .lzcTable k => Sys2Proof.Machine.execLzcTable k s
  | .lzcKwkwk k => Sys2Proof.Machine.execLzcKwkwk k s
  | .lzcInvalid k => Sys2Proof.Machine.execLzcInvalid k s
  | .lzcHdr m0 m1 flags => Sys2Proof.Machine.execLzcHdr m0 m1 flags s
  | .lzcGroup bytes => Sys2Proof.Machine.execLzcGroup bytes s
  | .sqHdr m0 m1 sum name => Sys2Proof.Machine.execSqHdr m0 m1 sum name s
  | .sqCount numnodes => Sys2Proof.Machine.execSqCount numnodes s
  | .sqNode left right => Sys2Proof.Machine.execSqNode left right s
  | .sqSym sym => Sys2Proof.Machine.execSqSym sym s
  | .sqEof => Sys2Proof.Machine.execSqEof s
  | .sqPad bits => Sys2Proof.Machine.execSqPad bits s
  | .sqRleRun v n => Sys2Proof.Machine.execSqRleRun v n s
  | .sqRleLit b => Sys2Proof.Machine.execSqRleLit b s
  | .usqRun n => Sys2Proof.Machine.execUsqRun n s
  | .usqEsc => Sys2Proof.Machine.execUsqEsc s
  | .zx0Literals bytes => Sys2Proof.Machine.execZx0Literals bytes s
  | .zx0Rep len => Sys2Proof.Machine.execZx0Rep len s
  | .zx0New msb b len => Sys2Proof.Machine.execZx0New msb b len s
  | .zx0End => Sys2Proof.Machine.execZx0End s

end Sys2Proof.Machine
end

