-- ==== Sys2Proof/Machine/Port.lean ====
section
/-! DEFINITION. The model's token port (log entry 3): where a decoder stands, and how the tokens of the opcode
table are laid before it. -/

namespace Sys2Proof.Machine

open Sys2Proof

namespace Ctx

/-- The read point of the NuFX decoder, `lzw2` saying which variant is open. -/
def nufxPoint (lzw2 : Bool) (d : NufxDec) : Option ReadPoint :=
  match d.pc with
  | .hdr [] => some (if lzw2 then .nufx2Hdr else .nufx1Hdr)
  | .chunkHdr [] => some (if lzw2 then .nufx2Chunk else .nufx1Chunk)
  | .code => if d.rd.got = 0 then some (.nufxCode d.width d.f d.prev.isSome) else none
  | _ => none

/-- The read point of the LZC decoder. -/
def lzcPoint (d : LzcDec) : Option ReadPoint :=
  match d.pc with
  | .hdr [] => some .lzcHdr
  | .fetch ph => if d.grp = [] then some (.lzcCode d.nBits d.freeEnt d.block (decide (ph ≠ .next))) else none
  | _ => none

/-- The read point of the Squeeze decoder. -/
def sqPoint (d : SqDec) : Option ReadPoint :=
  match d.pc with
  | .hdr [] => some .sqHdr
  | .count [] => some .sqCount
  | .node _ [] => some .sqNode
  | .data => if d.node = 0 then some (.sqCode d.dnode) else none
  | _ => none

/-- The read point of the ZX0 decoder. -/
def zxPoint (l : LCfg) (d : ZxDec) : Option ReadPoint :=
  match d.pc with
  | .start => some (.zx0 true false (zxClassic l))
  | .indic => some (.zx0 false (decide (d.zstate = .copyLiterals)) (zxClassic l))
  | _ => none

/-- The read point of the open expand instance in its stream. -/
def streamPoint (c : Ctx) : Option ReadPoint :=
  match c.engine.toNat with
  | 0 => nufxPoint false c.eng.nufxDec
  | 1 => nufxPoint true c.eng.nufxDec
  | 2 => lzcPoint c.eng.lzcDec
  | 3 => sqPoint c.eng.sqDec
  | 4 => zxPoint c.lcfg c.eng.zxDec
  | _ => none

/-- The read point of the RLE layer behind the stream (R175, R183). -/
def rlePoint (par : Params) (c : Ctx) : Option ReadPoint :=
  match c.engine.toNat with
  | 0 | 1 => if c.eng.nufxDec.inRle then some (.nufxRle c.eng.nufxDec.delimIn) else none
  | 3 => if c.eng.sqDec.atRle then some (.sqRle par.sqLayout (sqDelim c.lcfg)) else none
  | _ => none

/-- The read point at which `n` items are offered in a token space. -/
def readPoint (par : Params) (c : Ctx) (sp : Space) (n : Nat) : Option ReadPoint :=
  if decide (c.st = .active) && c.dir then
    match sp with
    | .stream => if c.natend then none else c.streamPoint
    | .group =>
      if decide (c.engine = 2) && c.eng.lzcDec.groupPhase?.isSome then some (.lzcGroup c.eng.lzcDec.nBits)
      else none
    | .rle => if c.natend then none else c.rlePoint par
    | .pad => if decide (c.engine = 3) && decide (c.eng.sqDec.pc = .done) then some (.sqPad n) else none
  else none

/-! ### Where the items end or are no token (log entry 3)

The items of a token event are all the input that its layer still has, so where they end inside a token the procedure
meets the end of its input. -/

/-- The bytes among the items, as a procedure takes them where it waits for whole bytes (R265). -/
def itemBytes (items : List Item) : List Byte :=
  items.filterMap (fun it =>
    match it with
    | .byte b => some b
    | .bit _ => none)

/-- NuFX: a code that is cut short (R266); the bytes of a header are taken one by one as they come (R345, R346);
stage-1 data that ends inside a token, or that is all expanded (R303, R349). -/
def cutNufx (par : Params) (lzw2 : Bool) (sp : Space) (items : List Item) (d : NufxDec) : Run NufxDec :=
  match sp with
  | .rle => if items.isEmpty then d.rleLoop par lzw2 [] else .fail d .rleTruncated
  | _ =>
    if d.pc = .code then d.eof
    else ((nufxDecProc par lzw2).feed (itemBytes items) d).1.andThen NufxDec.eof

/-- Squeeze: the bytes of a header or a node entry are checked one by one as they come (R540, R713); a Huffman code that
is cut short (R544); symbols that end inside an RLE token, or between tokens (R548, R546). -/
def cutSq (par : Params) (l : LCfg) (sp : Space) (items : List Item) (d : SqDec) : Run SqDec :=
  match sp with
  | .rle => if items.isEmpty then d.finish (sqFullHdr l) else .fail d .rleTruncated
  | _ =>
    if d.pc = .data then d.eof
    else ((sqDecProc par l).feed (itemBytes items) d).1.andThen SqDec.eof

/-- ZX0: the empty stream, or a stream that ends before its END token (R272, R646). -/
def cutZx (empty : Bool) (d : ZxDec) : Run ZxDec := if empty then d.eof else .fail d .truncated

/-- What the open procedure does where the items of a token event are no token. In LZC a partial last code is
dropped (R440, R442). -/
def tokenError (par : Params) (c : Ctx) (sp : Space) (items : List Item) : DecodeError → Run Engines
  | .badElias => .fail c.eng .badElias
  | .truncated =>
    match c.engine.toNat with
    | 0 => (cutNufx par false sp items c.eng.nufxDec).map (fun x => { c.eng with nufxDec := x })
    | 1 => (cutNufx par true sp items c.eng.nufxDec).map (fun x => { c.eng with nufxDec := x })
    | 2 => c.eng.lzcDec.eof.map (fun x => { c.eng with lzcDec := x })
    | 3 => (cutSq par c.lcfg sp items c.eng.sqDec).map (fun x => { c.eng with sqDec := x })
    | _ => (cutZx items.isEmpty c.eng.zxDec).map (fun x => { c.eng with zxDec := x })

/-- After a token of the stream the engine procedure runs on (R221): it may reach its natural end or the
next token. A code token of LZC
stands for a whole group, so a new group is read after it: DESIGN CHOICE, log entry 3. -/
def resume (par : Params) (free : Nat) (c : Ctx) : Except Refusal (Ctx × Nat) :=
  if decide (c.st = .active) && !c.natend then commit par (c.run par free) else .ok (c, free)

/-! ### Priming (used by `withFetchWord` only) -/

/-- An ACTIVE expand instance of an engine, with nothing fed. -/
def primed (c : Ctx) (engine : BitVec 3) (e : Engines) : Ctx :=
  { c with st := .active, engine := engine, dir := true, ended := false, natend := false, inq := [], eng := e }

/-- The context with a decoder that stands where a table word of `nbits` bits is read, for the instruction
`i` that `decodeTableWord` reads (log entry 18). -/
def prime (c : Ctx) (nbits : Nat) (i : Instr) : Ctx :=
  match i with
  | .lzcHdr _ _ _ => c.primed 2 { c.eng with lzcDec := {} }
  | .nufx1Chunk _ _ => c.primed 0 { c.eng with nufxDec := { expect := 1, pc := .chunkHdr [] } }
  | .sqHdr _ _ _ _ => c.primed 3 { c.eng with sqDec := {} }
  | .lzcLit _ | .lzcClear | .lzcTable _ | .lzcKwkwk _ | .lzcInvalid _ =>
    c.primed 2 { c.eng with lzcDec :=
      { maxbits := 16, block := true, maxmaxcode := 65536, freeEnt := tableWordFreeEnt, nBits := 16,
        maxcode := 65536, pc := .fetch .next } }
  | _ =>
    c.primed 1 { c.eng with nufxDec :=
      { expect := 1, rlelen := Config.nufxChunk, useLzw := true, f := tableWordF nbits, pc := .code } }

end Ctx

end Sys2Proof.Machine
end

