-- ==== Sys2Proof/Machine/Step.lean ====
section
/-! DEFINITION. The step: one pending event of the outside world (R220, R122, R800; log entries 1 and 2). -/

namespace Sys2Proof.Machine

open Sys2Proof

/-- A MemWrite (R122, R123, R130): to CMD, the command executes; else the register is written. -/
def stepWrite (s : State) (addr size : Nat) (v : Word) : Out :=
  if !State.accessOk addr size then .refused .badAccess
  else
    match s.locate addr with
    | none => .fault .unmapped
    | some (k, off) =>
      if off = 0 then exec (decodeCmd v) { s with sel := k }
      else { s with sel := k }.onCtxPure (fun c => c.writeReg off v)

/-- A MemRead (R122, R234): only what the read returned changes. -/
def stepRead (s : State) (addr size : Nat) : Out :=
  if !State.accessOk addr size then .refused .badAccess
  else
    match s.locate addr with
    | none => .fault .unmapped
    | some (k, off) =>
      match s.ctxs[k]? with
      | none => .fault .unmapped
      | some c => .next { s with rdata := c.readReg off }

/-- A token space whose tokens the engine procedure goes on from (log entry 3). -/
def Space.resumes : Space → Bool
  | .stream | .group => true
  | .rle | .pad => false

/-- The engine procedure of the addressed context goes on after a token (R221). -/
def resumeToken (sp : Space) (s : State) : Out :=
  if sp.resumes then s.onCtx (fun c => c.resume s.par s.free) else .next s

/-- What follows an outcome that is a next state. -/
def outThen (r : Out) (f : State → Out) : Out :=
  match r with
  | .next s => f s
  | r => r

/-- The token port (log entry 3): the token at the head of `items` is decoded at the read point of the
addressed context, executes, and the procedure goes on. Items after it stay pending. Items that are no token are an
input that ends there, or an Elias-gamma value out of range. -/
def stepToken (s : State) (sp : Space) (items : List Item) : Out :=
  match s.ctxs[s.sel]? with
  | none => .fault .unmapped
  | some c =>
    match c.readPoint s.par sp items.length with
    | none => .refused .tokenNotAwaited
    | some p =>
      match decode p items with
      | .error e => s.onCtx (fun c => c.tokenRun s.par s.free (c.tokenError s.par sp items e))
      | .ok (i, rest) =>
        outThen (exec i { s with bus := if rest = [] then s.bus else .token sp rest :: s.bus })
          (resumeToken sp)

/-- One step: the oldest pending event. With none pending the core holds its state (R724). -/
def step (s : State) : Host.Outcome State Fault Refusal :=
  match s.bus with
  | [] => .next s
  | .reset :: rest => .next { s with ctxs := s.ctxs.map Ctx.hardReset, bus := rest }
  | .write addr size v :: rest => stepWrite { s with bus := rest } addr size v
  | .read addr size :: rest => stepRead { s with bus := rest } addr size
  | .token sp items :: rest => stepToken { s with bus := rest } sp items

/-- The instruction of a table word, placed where the next step executes it (log entries 2 and 18): a command
word as a MemWrite to CMD of the context `sel`; a stream word as a token before a decoder that awaits it. -/
def State.withFetchWord (s : State) (nbits w : Nat) : State :=
  if nbits = 32 then
    { s with bus := .write (s.par.base + 0x40 * s.sel) 4 (BitVec.ofNat 32 w) :: s.bus }
  else
    match decodeTableWord nbits w, s.ctxs[s.sel]? with
    | some i, some c =>
      let c' := c.prime nbits i
      match (c'.readPoint s.par .stream 0).bind (fun p => encode p i) with
      | some items =>
        { s with ctxs := s.ctxs.set s.sel c', bus := .token .stream items :: s.bus }
      | none => s
    | _, _ => s

end Sys2Proof.Machine
end

