-- ==== Sys2Proof/Safety.lean ====
section
/-! DEFINITION. The terms claims use: the addressed context, what counts as a well-kept state, and the canonical
form of the working memories. -/

namespace Sys2Proof.Machine

open Sys2Proof

/-- The context the access under execution addresses. -/
def State.cur (s : State) : Option Ctx := s.ctxs[s.sel]?

/-- The state with that context replaced by `c`, and nothing else changed. -/
def State.setCur (s : State) (c : Ctx) : State := { s with ctxs := s.ctxs.set s.sel c }

/-- A run is safe while its steps answer next states. -/
def outSafe (r : Out) : Bool :=
  match r with
  | .next _ => true
  | _ => false

/-- An expand instance of engine `eng` that can take a token: ACTIVE and before its natural end. -/
structure Ctx.Decoding (c : Ctx) (eng : BitVec 3) : Prop where
  st : c.st = .active
  dir : c.dir = true
  natend : c.natend = false
  engine : c.engine = eng

/-- An instance of NuFX expand, of either variant, that can take a token. -/
def Ctx.DecodingNufx (c : Ctx) : Prop := c.Decoding 0 ∨ c.Decoding 1

/-- The NuFX decoder is at the boundary of a code (R340). -/
def NufxDec.AtCode (d : NufxDec) : Prop := d.pc = .code ∧ d.rd.got = 0

/-- The LZC decoder is at the boundary of a code, at phase `ph` (R445). -/
def LzcDec.AtPhase (d : LzcDec) (ph : LzcPhase) : Prop := d.pc = .codes ph ∨ (d.pc = .fetch ph ∧ d.grp = [])

/-- The Squeeze decoder is at the boundary of a Huffman code (R544). -/
def SqDec.AtCode (d : SqDec) : Prop := d.pc = .data ∧ d.node = 0

/-- Instruction `i` enters error `e` (R710) in the addressed context `c`; what it leaves in the dead engine
state is not said. -/
def Raises (i : Instr) (s : State) (c : Ctx) (e : Err) : Prop :=
  ∃ eng, exec i s = .next (s.setCur ({ c with eng := eng }.raise e))

/-- Bytes appended to the output, and the engine state after them (R125). -/
def Ctx.emit (c : Ctx) (out : List Byte) (eng : Engines) : Ctx :=
  { c with eng := eng, outq := c.outq ++ out, outCount := c.outCount + BitVec.ofNat 32 out.length }

/-- The words of R706, in the order of its table. -/
def errWords : List Word :=
  [0x0101, 0x0201, 0x0301, 0x0401, 0x0501, 0x0102, 0x0202, 0x0302, 0x0402, 0x0502, 0x0602, 0x0702, 0x0802,
   0x0902, 0x0A02, 0x0B02, 0x0C02, 0x0D02, 0x0E02, 0x0103, 0x0203, 0x0303, 0x0104, 0x0105, 0x0205]

/-- What every step keeps true of a context. -/
structure Ctx.Ok (c : Ctx) : Prop where
  /-- R228, R43, R57: no instance is open -/
  idle : c.st = .idle →
    c.engine = 0 ∧ c.dir = false ∧ c.inq = [] ∧ c.outq = [] ∧ c.ended = false ∧ c.natend = false
  /-- R224: OPEN admits the engines 0 to 4 -/
  engine : c.st = .active ∨ c.st = .finished → c.engine.toNat ≤ 4
  /-- R227: ENDED is set by the accepted FINISH -/
  active : c.st = .active → c.ended = false
  finished : c.st = .finished → c.ended = true
  /-- R710: nothing unread is left, and ERR names an error -/
  error : c.st = .error → c.inq = [] ∧ c.outq = [] ∧ c.err ≠ 0
  /-- R706: no other word is ever written to ERR -/
  err : c.err = 0 ∨ c.err ∈ errWords
  /-- R46: bits [31:1] of WARN read 0 -/
  warn : c.warn = 0 ∨ c.warn = 1
  /-- R44: bits [31:10] of DOUT read 0, and BYTE is 0 when VALID is 0 -/
  dout : c.dout.extractLsb' 10 22 = 0 ∧ (c.dout.getLsbD 8 = false → c.dout.extractLsb' 0 8 = 0)
  /-- R61: at most 255 name bytes, none of them 0 -/
  name : c.namebuf.length ≤ 255 ∧ 0#8 ∉ c.namebuf
  /-- R48 to R52: the bits outside the defined fields read 0 -/
  cfg : c.cfgDelim &&& 0xFFFFFF00 = 0 ∧ c.cfgVolume &&& 0xFFFFFF00 = 0 ∧ c.cfgLzc &&& 0xFFFFFF60 = 0 ∧
    c.cfgSq &&& 0xFFFFFE00 = 0 ∧ c.cfgZx0 &&& 0xFFFFFFFC = 0
  /-- R236, R448: only a decoder with a natural end reaches it, and no input waits after it -/
  natend : c.natend = true → c.dir = true ∧ c.engine ≠ 2 ∧ c.inq = []

/-- The state is well kept: the addressed context exists and every context is. -/
structure State.Ok (s : State) : Prop where
  sel : s.sel < s.ctxs.length
  ctxs : ∀ c ∈ s.ctxs, c.Ok

/-- Every working memory is in its canonical form (log entry 15). -/
def Engines.memoryWf (e : Engines) : Bool :=
  Tab.wf 0 e.nufxEnc.dict &&
  Tab.wf 0 e.nufxDec.pfx && Tab.wf 0 e.nufxDec.sfx &&
  Tab.wf (-1) e.lzcEnc.htab && Tab.wf 0 e.lzcEnc.codetab &&
  Tab.wf 0 e.lzcDec.tabPrefix && Tab.wf 0 e.lzcDec.tabSuffix &&
  Tab.wf 0 e.sqEnc.weight && Tab.wf 0 e.sqEnc.tdepth && Tab.wf (-1) e.sqEnc.lchild &&
  Tab.wf (-1) e.sqEnc.rchild && Tab.wf 0 e.sqEnc.code && Tab.wf 0 e.sqEnc.codelen &&
  Tab.wf 0 e.sqDec.dnode && Tab.wf 0 e.zxEnc.bestLength

/-- Every working memory of every context is in its canonical form. -/
def State.memoryWf (s : State) : Bool := s.ctxs.all (fun c => c.eng.memoryWf)

end Sys2Proof.Machine
end

