-- ==== Sys2Proof/Certificates/Slice0/Obligations.lean ====
section
/-! DEFINITION. The statements for the provers. Each docstring names the rules it formalises. In each,
`s.cur = some c` says that `c` is the addressed context, and an equation `exec i s = .next (s.setCur c')` says
the result and the frame at once: every field that `c'` does not name is as before, and nothing outside the
addressed context changes. -/

open Sys2Proof Sys2Proof.Machine

/-! ### Reset, registers and steps -/

/-- R78: the state of every context after hardware reset, at `State.reset` and after the reset event from any
state. Engine state and LCFG, which R78 leaves unspecified, are not mentioned. That the reset event keeps the parameters,
the pending events and the last read value is the model's choice (log entry 23). -/
def Obligations.ResetLeavesEveryContextIdle : Prop :=
  let R : Ctx → Prop := fun c =>
    c.st = .idle ∧ c.engine = 0 ∧ c.dir = false ∧ c.dout = 0 ∧ c.err = 0 ∧ c.warn = 0 ∧ c.inCount = 0 ∧
    c.outCount = 0 ∧ c.trailCount = 0 ∧ c.cfgDelim = 0xDB ∧ c.cfgVolume = 0 ∧ c.cfgLzc = 0x90 ∧
    c.cfgSq = 0x190 ∧ c.cfgZx0 = 0 ∧ c.cfgExpect = 0 ∧ c.namebuf = [] ∧ c.nameLen = 0 ∧ c.inq = [] ∧
    c.outq = [] ∧ c.ended = false ∧ c.natend = false
  (∀ c ∈ State.reset.ctxs, R c) ∧
  ∀ (s : State) (rest : List Event), s.bus = .reset :: rest →
    ∃ t, step s = .next t ∧ t.ctxs.length = s.ctxs.length ∧ (∀ c ∈ t.ctxs, R c) ∧ t.par = s.par ∧
      t.bus = rest ∧ t.rdata = s.rdata

/-- R234 with R41: the value of a MemRead at every word offset, and that a read changes no context. -/
def Obligations.ReadReturnsRegisterAndChangesNothing : Prop :=
  ∀ (s : State) (k off : Nat) (rest : List Event) (c : Ctx), s.par.base % 64 = 0 → s.ctxs[k]? = some c →
    off < 64 → off % 4 = 0 → s.bus = .read (s.par.base + 64 * k + off) 4 :: rest →
    ∃ v, step s = .next { s with bus := rest, rdata := v } ∧
      (off = 0x00 → v = 0) ∧ (off = 0x04 → v = c.status) ∧ (off = 0x08 → v = c.dout) ∧
      (off = 0x0C → v = c.err) ∧ (off = 0x10 → v = c.warn) ∧ (off = 0x14 → v = c.inCount) ∧
      (off = 0x18 → v = c.outCount) ∧ (off = 0x1C → v = c.trailCount) ∧ (off = 0x20 → v = c.cfgDelim) ∧
      (off = 0x24 → v = c.cfgVolume) ∧ (off = 0x28 → v = c.cfgLzc) ∧ (off = 0x2C → v = c.cfgSq) ∧
      (off = 0x30 → v = c.cfgZx0) ∧ (off = 0x34 → v = c.cfgExpect) ∧
      (off = 0x38 → v = BitVec.ofNat 32 c.namebuf.length) ∧ (off = 0x3C → v = 0)

/-- R43: the fields of STATUS. -/
def Obligations.StatusShowsState : Prop :=
  ∀ c : Ctx,
    c.status.extractLsb' 0 2 =
      (match c.st with | .idle => 0#2 | .active => 1#2 | .finished => 2#2 | .error => 3#2) ∧
    c.status.getLsbD 2 = (if c.st = .idle then false else c.dir) ∧
    c.status.getLsbD 3 = false ∧
    c.status.extractLsb' 4 3 = (if c.st = .idle then 0#3 else c.engine) ∧
    c.status.getLsbD 7 = false ∧
    (c.status.getLsbD 8 = true ↔ 0 < c.outq.length) ∧
    (c.status.getLsbD 9 = true ↔ (c.st = .finished ∧ c.outq = []) ∨ c.st = .error) ∧
    c.status.getLsbD 10 = c.natend ∧
    (c.status.getLsbD 11 = true ↔ ∃ i, i < 32 ∧ c.warn.getLsbD i = true) ∧
    c.status.extractLsb' 12 20 = 0#20

/-- R233, with the fields of R48 to R53: a MemWrite to a CFG register stores the defined fields, in every STATE;
one to any other word offset but CMD has no effect. -/
def Obligations.WriteStoresConfigFieldsOnly : Prop :=
  ∀ (s : State) (k off : Nat) (v : Word) (rest : List Event) (c : Ctx), s.par.base % 64 = 0 →
    s.ctxs[k]? = some c → off < 64 → off % 4 = 0 → off ≠ 0 →
    s.bus = .write (s.par.base + 64 * k + off) 4 v :: rest →
    ∃ c', step s = .next { s with bus := rest, sel := k, ctxs := s.ctxs.set k c' } ∧
      (off = 0x20 → c' = { c with cfgDelim := v &&& 0xFF }) ∧
      (off = 0x24 → c' = { c with cfgVolume := v &&& 0xFF }) ∧
      (off = 0x28 → c' = { c with cfgLzc := v &&& 0x9F }) ∧
      (off = 0x2C → c' = { c with cfgSq := v &&& 0x1FF }) ∧
      (off = 0x30 → c' = { c with cfgZx0 := v &&& 0x3 }) ∧
      (off = 0x34 → c' = { c with cfgExpect := v }) ∧
      ((off < 0x20 ∨ 0x34 < off) → c' = c)

/-- R123: an access of another width or alignment is refused. With R130: an address in no context's block stops
too; that fault is the model's own (log entry 12). -/
def Obligations.StrayAccessesStop : Prop :=
  ∀ (s : State) (addr size : Nat) (v : Word) (rest : List Event),
    (s.bus = .write addr size v :: rest ∨ s.bus = .read addr size :: rest) →
    (size ≠ 4 ∨ addr % 4 ≠ 0 → step s = .refused .badAccess) ∧
    (size = 4 → addr % 4 = 0 → addr < s.par.base ∨ s.par.base + 64 * s.ctxs.length ≤ addr →
      step s = .fault .unmapped)

/-- R42, R220: a MemWrite to CMD of context `k` runs the command its word encodes, and nothing more; without a
pending event the core holds its state (R724). -/
def Obligations.StepRunsTheWrittenCommand : Prop :=
  (∀ (s : State) (k : Nat) (v : Word) (rest : List Event), s.par.base % 64 = 0 → k < s.ctxs.length →
    s.bus = .write (s.par.base + 64 * k) 4 v :: rest →
    step s = exec (decodeCmd v) { s with bus := rest, sel := k }) ∧
  ∀ s : State, s.bus = [] → step s = .next s

/-- The token port, the model's own (log entry 3): items that decode at the decoder's read point run as the decoded
token; items left over stay pending; in the stream and group spaces the engine procedure then goes on (R221). Items
that are no token are an input that ends there: an MSB above 256 (R273, R645), the end of the input inside a token
(R266, R272, R440, R540), the end of stage-1 data inside an RLE token (R303), a partial last LZC code (R442). In the
stream, bytes of a Squeeze header or node entry that already fail their check raise that error (R541, R543, R713). -/
def Obligations.StepRunsTheDecodedToken : Prop :=
  ∀ (s : State) (sp : Space) (items : List Item) (rest : List Event) (c : Ctx) (p : ReadPoint),
    s.bus = .token sp items :: rest → s.cur = some c → c.readPoint s.par sp items.length = some p →
    (∀ (i : Instr) (rem : List Item), decode p items = .ok (i, rem) →
      let r := exec i { s with bus := if rem = [] then rest else .token sp rem :: rest }
      (∀ f, r = .fault f → step s = .fault f) ∧ (∀ f, r = .refused f → step s = .refused f) ∧
      ∀ t, r = .next t →
        ((sp = .rle ∨ sp = .pad) → step s = .next t) ∧
        ((sp = .stream ∨ sp = .group) → step s = t.onCtx (fun c => c.resume t.par t.free))) ∧
    (decode p items = .error .badElias → step s = .next ({ s with bus := rest }.setCur (c.raise .badElias))) ∧
    (decode p items = .error .truncated → items ≠ [] →
      (sp = .stream → c.engine ≠ 2 ∨ p = .lzcHdr →
        let bytes := items.flatMap (fun it => match it with | .byte b => [b] | .bit _ => [])
        let raises : Err → Prop := fun err =>
          ∃ e, step s = .next ({ s with bus := rest }.setCur ({ c with eng := e }.raise err))
        let ok : Half → Prop := fun x =>
          (-257 ≤ x.toInt ∧ x.toInt ≤ -1) ∨ (0 ≤ x.toInt ∧ x.toInt < c.eng.sqDec.numnodes)
        (p ≠ .sqHdr → p ≠ .sqNode → raises .truncated) ∧
        (p = .sqHdr → (bytes.headD 0x76 = 0x76 → raises .truncated) ∧ (bytes.headD 0x76 ≠ 0x76 → raises .badMagic)) ∧
        (p = .sqNode →
          (bytes.length < 2 → raises .truncated) ∧
          ∀ l0 l1 more, bytes = l0 :: l1 :: more →
            (ok (u16le l0 l1) → raises .truncated) ∧ (¬ ok (u16le l0 l1) → raises .badTree))) ∧
      (sp = .rle → step s = .next ({ s with bus := rest }.setCur (c.raise .rleTruncated))) ∧
      (c.engine = 2 → p ≠ .lzcHdr → hasRoom s.par c.outq.length = true →
        step s = .next ({ s with bus := rest }.setCur { c with
          eng := { c.eng with lzcDec := { c.eng.lzcDec with pc := .done } } })))

/-! ### Decoding -/

/-- R161, R174 to R186: words written out from the spec's encodings decode to the instructions they stand for. -/
def Obligations.SpecWordsDecode : Prop :=
  decodeCmd 0x00000021 = .cmdOpen 2 false ∧ decodeCmd 0x00004102 = .cmdFeed 0x41 ∧
  decodeCmd 0x0000000F = .cmdReservedCF 3 ∧
  -- NuFX c9:101 as a first code
  decode (.nufxCode 9 0x102 false) (codeItems 9 0x101) = .ok (.nufxTable 0x101, []) ∧
  -- the LZC header 1F 9D 90
  decode .lzcHdr [.byte 0x1F, .byte 0x9D, .byte 0x90] = .ok (.lzcHdr 0x1F 0x9D 0x90, []) ∧
  -- LZC c9:100 in block mode
  decode (.lzcCode 9 258 true false)
    [.bit false, .bit false, .bit false, .bit false, .bit false, .bit false, .bit false, .bit false, .bit true]
    = .ok (.lzcClear, []) ∧
  -- the Squeeze node entry BE FF FF FE
  decode .sqNode [.byte 0xBE, .byte 0xFF, .byte 0xFF, .byte 0xFE] = .ok (.sqNode (-66) (-257), []) ∧
  -- ZX0 LITERALS(1) 41: EG(1) is the bit 1
  decode (.zx0 true false false) [.bit true, .byte 0x41] = .ok (.zx0Literals [0x41], [])

/-- R160, R161, R164: the command of every word, by its OP field; bits a command does not use are ignored. -/
def Obligations.CommandWordDecodesByOpcode : Prop :=
  ∀ w : Word,
    (w.extractLsb' 0 4 = 0#4 → decodeCmd w = .cmdNop) ∧
    (w.extractLsb' 0 4 = 1#4 → decodeCmd w = .cmdOpen (w.extractLsb' 4 3) (w.getLsbD 7)) ∧
    (w.extractLsb' 0 4 = 2#4 → decodeCmd w = .cmdFeed (w.extractLsb' 8 8)) ∧
    (w.extractLsb' 0 4 = 3#4 → decodeCmd w = .cmdProduce) ∧
    (w.extractLsb' 0 4 = 4#4 → decodeCmd w = .cmdFinish) ∧
    (w.extractLsb' 0 4 = 5#4 → decodeCmd w = .cmdSeek) ∧
    (w.extractLsb' 0 4 = 6#4 → decodeCmd w = .cmdClose) ∧
    (w.extractLsb' 0 4 = 7#4 → decodeCmd w = .cmdNameByte (w.extractLsb' 8 8)) ∧
    (w.extractLsb' 0 4 = 8#4 → decodeCmd w = .cmdNameClear) ∧
    (w.extractLsb' 0 4 = 9#4 → decodeCmd w = .cmdReserved9) ∧
    (w.extractLsb' 1 3 = 5#3 → decodeCmd w = .cmdReservedAB (w.extractLsb' 0 1)) ∧
    (w.extractLsb' 2 2 = 3#2 → decodeCmd w = .cmdReservedCF (w.extractLsb' 0 2))

/-- R160 to R186: at every read point, every instruction the point admits has an encoding, and decoding it, whatever
follows, gives the instruction back with every operand. -/
def Obligations.DecodeInvertsEncode : Prop :=
  ∀ (p : ReadPoint) (i : Instr) (rest : List Item), p.admits i = true →
    ∃ items, encode p i = some items ∧ decode p (items ++ rest) = .ok (i, rest)

/-! ### Errors -/

/-- R710, R712: error entry. That the dead engine state keeps its value is the model's choice (log entry 6). -/
def Obligations.ErrorEntryDiscardsAndRecords : Prop :=
  ∀ (c : Ctx) (e : Err),
    ((c.raise e).err = if c.err.extractLsb' 0 4 = 0 then e.word else c.err) ∧
    (c.st = .idle → c.raise e = { c with err := (c.raise e).err }) ∧
    (c.st ≠ .idle →
      c.raise e = { c with err := (c.raise e).err, st := .error, outq := [], inq := [] } ∧
      (c.raise e).status.getLsbD 9 = true ∧ (c.raise e).produceCmd.dout = 0x200)

/-- R706: ERR keeps its value, is cleared, or takes one of the listed words. -/
def Obligations.OnlyListedErrorWords : Prop :=
  ∀ (i : Instr) (s t : State) (c c' : Ctx), s.cur = some c → exec i s = .next t → t.cur = some c' →
    c'.err = c.err ∨ c'.err = 0 ∨ c'.err ∈ errWords

/-- R712: once ERR.CLASS is nonzero, only an OPEN in IDLE and hardware reset change ERR. -/
def Obligations.FirstErrorWins : Prop :=
  ∀ (i : Instr) (s t : State) (c c' : Ctx), s.cur = some c → exec i s = .next t → t.cur = some c' →
    c.err.extractLsb' 0 4 ≠ 0 → (c.st = .idle → ∀ e d, i ≠ .cmdOpen e d) → c'.err = c.err

/-- R702, R703: only the expand direction raises CORRUPT, only the compress direction raises INTERNAL. -/
def Obligations.CorruptOnlyInExpand : Prop :=
  ∀ (i : Instr) (s t : State) (c c' : Ctx), s.cur = some c → exec i s = .next t → t.cur = some c' →
    (c.dir = false → c.err.extractLsb' 0 4 ≠ 2 → c'.err.extractLsb' 0 4 ≠ 2) ∧
    (c.dir = true → c.err.extractLsb' 0 4 ≠ 3 → c'.err.extractLsb' 0 4 ≠ 3)

/-! ### Commands -/

/-- R223: NOP. R815: in ERROR every command but PRODUCE and CLOSE has no effect. -/
def Obligations.ErrorStateIgnoresCommands : Prop :=
  (∀ s : State, exec .cmdNop s = .next s) ∧
  ∀ (i : Instr) (s : State) (c : Ctx), s.cur = some c → c.st = .error → i.isCommand = true →
    i ≠ .cmdProduce → i ≠ .cmdClose → exec i s = .next s

/-- R222: OPEN, FEED and FINISH in a STATE where they are illegal raise ILLEGAL_CMD(WRONG_STATE). -/
def Obligations.WrongStateRaises : Prop :=
  ∀ (s : State) (c : Ctx), s.cur = some c →
    (c.st = .active ∨ c.st = .finished →
      ∀ e d, exec (.cmdOpen e d) s = .next (s.setCur (c.raise .wrongState))) ∧
    (c.st = .idle ∨ c.st = .finished →
      ∀ b, exec (.cmdFeed b) s = .next (s.setCur (c.raise .wrongState)) ∧
        exec .cmdFinish s = .next (s.setCur (c.raise .wrongState)))

/-- R231, R232: SEEK raises UNSUPPORTED(SEEK) and a reserved OP raises ILLEGAL_CMD(RESERVED_OP), in every state
but ERROR, where they have no effect. -/
def Obligations.SeekAndReservedRaise : Prop :=
  ∀ (s : State) (c : Ctx), s.cur = some c →
    (c.st ≠ .error →
      exec .cmdSeek s = .next (s.setCur (c.raise .seek)) ∧
      exec .cmdReserved9 s = .next (s.setCur (c.raise .reservedOp)) ∧
      (∀ lo, exec (.cmdReservedAB lo) s = .next (s.setCur (c.raise .reservedOp))) ∧
      ∀ lo, exec (.cmdReservedCF lo) s = .next (s.setCur (c.raise .reservedOp))) ∧
    (c.st = .error →
      exec .cmdSeek s = .next s ∧ exec .cmdReserved9 s = .next s ∧
      (∀ lo, exec (.cmdReservedAB lo) s = .next s) ∧ ∀ lo, exec (.cmdReservedCF lo) s = .next s)

/-- R224, R58, R79: an accepted OPEN. `hdr` is the header known at OPEN (R401 for LZC compress, R326 for LZW/2
compress); the engine record takes its value after OPEN (R63 to R75), the other engines' records are untouched. The
registers whose value after OPEN is unspecified (I12) are 0 or empty in the record: the model's choice (log entry 28). -/
def Obligations.OpenStartsAnInstance : Prop :=
  ∀ (s : State) (c : Ctx) (eng : BitVec 3) (dir : Bool), s.cur = some c → c.st = .idle → eng.toNat ≤ 4 →
    (eng = 2 → dir = false → 9 ≤ (c.cfgLzc.extractLsb' 0 5).toNat ∧ (c.cfgLzc.extractLsb' 0 5).toNat ≤ 16) →
    (eng.toNat ≤ 1 → dir = true → c.cfgExpect.getLsbD 31 = false) →
    let m := (c.cfgLzc.extractLsb' 0 5).toNat
    let block := c.cfgLzc.getLsbD 7
    let hdr : List Byte :=
      if eng = 2 ∧ dir = false then [0x1F, 0x9D, (c.cfgLzc &&& 0x9F).setWidth 8]
      else if eng = 1 ∧ dir = false then [c.cfgVolume.setWidth 8, c.cfgDelim.setWidth 8] else []
    hasRoom s.par hdr.length = true →
    let l : LCfg :=
      { delim := c.cfgDelim, volume := c.cfgVolume, lzc := c.cfgLzc, sq := c.cfgSq, zx0 := c.cfgZx0,
        expect := c.cfgExpect, name := c.namebuf }
    ∃ e, exec (.cmdOpen eng dir) s = .next (s.setCur { c with
        err := 0, warn := 0, dout := 0, inCount := 0, outCount := BitVec.ofNat 32 hdr.length,
        trailCount := 0, inq := [], outq := hdr, ended := false, natend := false, engine := eng, dir := dir,
        lcfg := l, st := .active, eng := e }) ∧
      (eng.toNat ≤ 1 → dir = false → e = { c.eng with nufxEnc := { crc := s.par.crcSeed } }) ∧
      (eng.toNat ≤ 1 → dir = true →
        e = { c.eng with nufxDec := { expect := c.cfgExpect.toNat, crc := s.par.crcSeed } }) ∧
      (eng = 2 → dir = false → e = { c.eng with lzcEnc :=
        { maxbits := m, block := block, maxmaxcode := 2 ^ m, freeEnt := if block then 257 else 256 } }) ∧
      (eng = 2 → dir = true → e = { c.eng with lzcDec := {} }) ∧
      (eng = 3 → dir = false → e = { c.eng with sqEnc := {} }) ∧
      (eng = 3 → dir = true →
        e = { c.eng with sqDec := { pc := if c.cfgSq.getLsbD 8 then .hdr [] else .count [] } }) ∧
      (eng = 4 → dir = false → e = { c.eng with zxEnc := {} }) ∧
      (eng = 4 → dir = true → e = { c.eng with zxDec := {} })

/-- R224, R701, R713: the CONFIG errors of OPEN, in their order. The new instance enters ERROR with that error. That
the dead engine state keeps its value is the model's choice (log entry 6). -/
def Obligations.OpenRejectsBadConfiguration : Prop :=
  ∀ (s : State) (c : Ctx) (eng : BitVec 3) (dir : Bool), s.cur = some c → c.st = .idle →
    let m := (c.cfgLzc.extractLsb' 0 5).toNat
    let failed : Word → Ctx := fun w => { c with
      err := w, warn := 0, dout := 0, inCount := 0, outCount := 0, trailCount := 0,
      inq := [], outq := [], ended := false, natend := false, engine := eng, dir := dir, lcfg := c.latch,
      st := .error }
    (4 < eng.toNat → exec (.cmdOpen eng dir) s = .next (s.setCur (failed 0x0101))) ∧
    (eng = 2 → dir = false → m < 9 ∨ 16 < m →
      exec (.cmdOpen eng dir) s = .next (s.setCur (failed 0x0201))) ∧
    (eng.toNat ≤ 1 → dir = true → c.cfgExpect.getLsbD 31 = true →
      exec (.cmdOpen eng dir) s = .next (s.setCur (failed 0x0301)))

/-- R225: FEED in ACTIVE with unbounded parameters always completes. IN_COUNT counts the byte, and the registers
that only other commands write are as before. The engine's work, and the error it may raise, is in `c'`. -/
def Obligations.FeedCompletes : Prop :=
  ∀ (s : State) (c : Ctx) (b : Byte), s.cur = some c → c.st = .active → s.par.outqCap = none →
    s.par.maxWhole = none →
    ∃ (c' : Ctx) (n : Nat), exec (.cmdFeed b) s = .next { s.setCur c' with free := n } ∧
      c'.inCount = c.inCount + 1 ∧ (c'.st = .active ∨ c'.st = .error) ∧ c'.engine = c.engine ∧
      c'.dir = c.dir ∧ c'.lcfg = c.lcfg ∧ c'.dout = c.dout ∧ c'.namebuf = c.namebuf ∧ c'.ended = c.ended ∧
      (c'.st = .active → ∃ out, c'.outq = c.outq ++ out ∧
        c'.outCount = c.outCount + BitVec.ofNat 32 out.length)

/-- R225, R236: a FEED after the natural end only counts a trailing byte. -/
def Obligations.FeedAfterNaturalEndCountsTrailing : Prop :=
  ∀ (s : State) (c : Ctx) (b : Byte), s.cur = some c → c.st = .active → c.natend = true →
    exec (.cmdFeed b) s = .next (s.setCur { c with
      inCount := c.inCount + 1, trailCount := c.trailCount + 1, warn := c.warn ||| 1 })

/-- R225, R510, R610: the whole-file compress engines only store a fed byte, until MAX_WHOLE_FILE bytes are held;
past a bounded MAX_WHOLE_FILE the model refuses (log entry 9). -/
def Obligations.WholeFileEnginesStoreTheByte : Prop :=
  ∀ (s : State) (c : Ctx) (b : Byte), s.cur = some c → c.st = .active → c.dir = false → c.natend = false →
    c.inq = [] → c.ended = false → hasRoom s.par c.outq.length = true →
    (c.engine = 3 → c.eng.sqEnc.returned = false →
      (s.par.maxWhole.all (fun n => decide (c.eng.sqEnc.whole.length < n)) = true →
        exec (.cmdFeed b) s = .next (s.setCur { c with
          inCount := c.inCount + 1,
          eng := { c.eng with sqEnc := { c.eng.sqEnc with whole := c.eng.sqEnc.whole ++ [b] } } })) ∧
      (s.par.maxWhole.any (fun n => decide (n ≤ c.eng.sqEnc.whole.length)) = true →
        exec (.cmdFeed b) s = .refused .wholeFileFull)) ∧
    (c.engine = 4 → c.eng.zxEnc.returned = false →
      (s.par.maxWhole.all (fun n => decide (c.eng.zxEnc.whole.length < n)) = true →
        exec (.cmdFeed b) s = .next (s.setCur { c with
          inCount := c.inCount + 1,
          eng := { c.eng with zxEnc := { c.eng.zxEnc with whole := c.eng.zxEnc.whole ++ [b] } } })) ∧
      (s.par.maxWhole.any (fun n => decide (n ≤ c.eng.zxEnc.whole.length)) = true →
        exec (.cmdFeed b) s = .refused .wholeFileFull))

/-- R410 to R413, R419: LZC compress. The first byte fed becomes ENT. A later byte is looked up along `slot`, the primary
slot and then the secondary sequence: `goesOn n` says that the probe passes slot number `n` (R411, with the quirk of R412).
A hit replaces ENT by the pair's code. A miss outputs ENT, which the byte replaces, and creates entry FREE_ENT in the
slot where the probe stopped, or, with the table full, may run the ratio check. -/
def Obligations.LzcCompressFollowsTheTrie : Prop :=
  ∀ (s : State) (c : Ctx) (b : Byte), s.cur = some c → c.st = .active → c.engine = 2 → c.dir = false →
    c.natend = false → c.inq = [] → c.ended = false → c.eng.lzcEnc.returned = false →
    hasRoom s.par c.outq.length = true →
    let e := c.eng.lzcEnc
    let c1 := { c with inCount := c.inCount + 1 }
    let answers : List Byte → LzcEnc → Prop := fun out e' => hasRoom s.par (c.outq.length + out.length) = true →
      exec (.cmdFeed b) s = .next (s.setCur (c1.emit out { c.eng with lzcEnc := e' }))
    let key : Int := ((b.toNat * 2 ^ e.maxbits + e.ent : Nat) : Int)
    let primary := (b.toNat * 2 ^ e.hshift) ^^^ e.ent
    let disp := if primary = 0 then 1 else 69001 - primary
    let slot : Nat → Nat := fun n => (fun i => if i < disp then i + 69001 - disp else i - disp)^[n] primary
    let h : Nat → Int := fun n => Tab.get (-1) e.htab (slot n)
    let goesOn : Nat → Prop := fun n =>
      h n ≠ key ∧ (if n ≠ 0 ∧ s.par.zeroKeyQuirk = true then 0 < h n else 0 ≤ h n)
    (e.haveEnt = false → e.inCnt ≤ s.par.lzcMaxIn → answers [] { e with ent := b.toNat, haveEnt := true }) ∧
    (e.haveEnt = true → e.inCnt < s.par.lzcMaxIn → ∀ n, n ≤ 69001 → (∀ m, m < n → goesOn m) →
      (h n = key → answers [] { e with inCnt := e.inCnt + 1, ent := Tab.get 0 e.codetab (slot n) }) ∧
      (h n ≠ key → ¬ goesOn n →
        let r := { e with inCnt := e.inCnt + 1 }.output s.par.flushPad e.ent
        let e1 := { r.1 with ent := b.toNat }
        (e1.freeEnt < e1.maxmaxcode → answers r.2 { e1 with
          codetab := Tab.put 0 e1.codetab (slot n) e1.freeEnt, freeEnt := e1.freeEnt + 1,
          htab := Tab.put (-1) e1.htab (slot n) key }) ∧
        (e1.maxmaxcode ≤ e1.freeEnt → e1.inCnt < e1.checkpoint ∨ e1.block = false → answers r.2 e1) ∧
        (e1.maxmaxcode ≤ e1.freeEnt → e1.checkpoint ≤ e1.inCnt → e1.block = true →
          let rat := if 0x007FFFFF < e1.inCnt then
              (if e1.bytesOut / 256 = 0 then 0x7FFFFFFF else e1.inCnt / (e1.bytesOut / 256))
            else e1.inCnt * 256 / e1.bytesOut
          let e2 := { e1 with checkpoint := e1.inCnt + 10000 }
          (e1.ratio < rat → answers r.2 { e2 with ratio := rat }) ∧
          (rat ≤ e1.ratio →
            let q := { e2 with ratio := 0, htab := [], freeEnt := 257, clearFlg := true }.output s.par.flushPad 256
            answers (r.2 ++ q.2) q.1))))

/-- R425: past LZC_MAX_IN the state machine goes on as before, and the bytes output are a free value (log entry
10). -/
def Obligations.LzcPastMaximumOutputsFreeBytes : Prop :=
  ∀ (s : State) (c : Ctx) (b : Byte), s.cur = some c → c.st = .active → c.engine = 2 → c.dir = false →
    c.natend = false → c.inq = [] → c.ended = false → c.eng.lzcEnc.returned = false →
    c.eng.lzcEnc.haveEnt = true → s.par.lzcMaxIn ≤ c.eng.lzcEnc.inCnt → s.par.outqCap = none →
    ∃ e, exec (.cmdFeed b) s = .next { s.setCur ({ c with inCount := c.inCount + 1 }.emit
        (Config.freeLzcOutput s.free) { c.eng with lzcEnc := e }) with free := s.free + 1 } ∧
      e.inCnt = c.eng.lzcEnc.inCnt + 1 ∧ e.returned = false

/-- R227: FINISH in ACTIVE with unbounded parameters always completes: FINISHED, or ERROR where the procedure
raises. -/
def Obligations.FinishCompletes : Prop :=
  ∀ (s : State) (c : Ctx), s.cur = some c → c.st = .active → s.par.outqCap = none →
    ∃ (c' : Ctx) (n : Nat), exec .cmdFinish s = .next { s.setCur c' with free := n } ∧
      (c'.st = .finished ∨ c'.st = .error) ∧ c'.ended = true ∧ c'.engine = c.engine ∧ c'.dir = c.dir ∧
      c'.lcfg = c.lcfg ∧ c'.dout = c.dout ∧ c'.namebuf = c.namebuf ∧ c'.inCount = c.inCount ∧
      (c'.st = .finished → ∃ out, c'.outq = c.outq ++ out ∧
        c'.outCount = c.outCount + BitVec.ofNat 32 out.length)

/-- R227 (FINISH with no input), R327, R423, R522, R624, R646: what FINISH does right after OPEN. That an empty
ZX0 stream sets NATEND at FINISH is the model's reading of R236 (log entry 7). -/
def Obligations.FinishOnEmptyInput : Prop :=
  ∀ (s : State) (c : Ctx), s.cur = some c → c.st = .active → c.natend = false → c.inq = [] →
    s.par.outqCap = none →
    let done : List Byte → Prop := fun out => ∃ e, exec .cmdFinish s =
      .next (s.setCur { (c.emit out e) with st := .finished, ended := true })
    let cut : Prop := ∃ e, exec .cmdFinish s =
      .next (s.setCur ({ c with ended := true, eng := e }.raise .truncated))
    (c.dir = false →
      (c.engine = 0 → c.eng.nufxEnc = { crc := s.par.crcSeed } →
        done (leBytes s.par.crcSeed ++ [c.lcfg.volume.setWidth 8, c.lcfg.delim.setWidth 8])) ∧
      (c.engine = 1 → c.eng.nufxEnc = { crc := s.par.crcSeed } → done []) ∧
      (c.engine = 2 → c.eng.lzcEnc.haveEnt = false → c.eng.lzcEnc.returned = false → done []) ∧
      (c.engine = 3 → c.eng.sqEnc = {} →
        done ((if c.lcfg.sq.getLsbD 8 then [0x76, 0xFF, 0, 0] ++ c.lcfg.name ++ [0] else []) ++ [0, 0])) ∧
      (c.engine = 4 → c.eng.zxEnc = {} → done [])) ∧
    (c.dir = true →
      (c.engine.toNat ≤ 1 → c.eng.nufxDec.pc = .hdr [] → cut) ∧
      (c.engine = 2 → c.eng.lzcDec.pc = .hdr [] → cut) ∧
      (c.engine = 3 → c.eng.sqDec.pc = .hdr [] ∨ c.eng.sqDec.pc = .count [] → cut) ∧
      (c.engine = 4 → c.eng.zxDec = {} → ∃ e, exec .cmdFinish s =
        .next (s.setCur { c with st := .finished, ended := true, natend := true, eng := e })))

/-- R226: PRODUCE. -/
def Obligations.ProduceTakesAByte : Prop :=
  ∀ (s : State) (c : Ctx), s.cur = some c →
    (c.st = .idle → exec .cmdProduce s = .next (s.setCur (c.raise .wrongState))) ∧
    (c.st ≠ .idle → ∀ b rest, c.outq = b :: rest →
      exec .cmdProduce s = .next (s.setCur { c with dout := 0x100 ||| b.setWidth 32, outq := rest })) ∧
    (c.outq = [] → c.st = .finished ∨ c.st = .error →
      exec .cmdProduce s = .next (s.setCur { c with dout := 0x200 })) ∧
    (c.outq = [] → c.st = .active → exec .cmdProduce s = .next (s.setCur { c with dout := 0 }))

/-- R228, R714: CLOSE ends the instance, from ERROR too; ERR, WARN, the counters and DOUT are kept, nothing is
flushed. No other instruction leaves ERROR. Which value the discarded engine state takes is the model's choice (log
entry 5). -/
def Obligations.CloseEndsTheInstance : Prop :=
  ∀ (s : State) (c : Ctx), s.cur = some c →
    (c.st = .idle → exec .cmdClose s = .next s) ∧
    (c.st ≠ .idle → ∃ e, exec .cmdClose s = .next (s.setCur { c with
      inq := [], outq := [], ended := false, natend := false, eng := e, engine := 0, dir := false, st := .idle })) ∧
    ∀ (i : Instr) (t : State) (c' : Ctx), c.st = .error → i ≠ .cmdClose → exec i s = .next t → t.cur = some c' →
      c'.st = .error

/-- R229, R230: the file name. -/
def Obligations.NameCommandsEditTheName : Prop :=
  ∀ (s : State) (c : Ctx) (b : Byte), s.cur = some c →
    (c.st = .idle →
      (b ≠ 0 → c.namebuf.length < 255 →
        exec (.cmdNameByte b) s = .next (s.setCur { c with namebuf := c.namebuf ++ [b] })) ∧
      (b = 0 → exec (.cmdNameByte b) s = .next (s.setCur (c.raise .nameNul))) ∧
      (b ≠ 0 → c.namebuf.length = 255 → exec (.cmdNameByte b) s = .next (s.setCur (c.raise .nameTooLong))) ∧
      exec .cmdNameClear s = .next (s.setCur { c with namebuf := [] })) ∧
    (c.st = .active ∨ c.st = .finished →
      exec (.cmdNameByte b) s = .next (s.setCur (c.raise .wrongState)) ∧
      exec .cmdNameClear s = .next (s.setCur (c.raise .wrongState))) ∧
    (c.st = .error → exec (.cmdNameByte b) s = .next s ∧ exec .cmdNameClear s = .next s)

/-! ### NuFX stream tokens -/

/-- R360, R361: a literal code and CLEAR. A literal after a previous code also creates an entry. -/
def Obligations.NufxLiteralAndClear : Prop :=
  ∀ (s : State) (c : Ctx) (k : Byte), s.cur = some c → c.DecodingNufx → c.eng.nufxDec.AtCode →
    hasRoom s.par c.outq.length = true →
    let d := c.eng.nufxDec
    let upd : NufxDec → Ctx := fun d' => { c with eng := { c.eng with nufxDec := d' } }
    (d.prev = none →
      exec (.nufxLit k) s = .next (s.setCur (upd { d with seg := d.seg ++ [k], prev := some k.toNat }))) ∧
    (∀ p, d.prev = some p → d.f ≤ 0xFFD →
      exec (.nufxLit k) s = .next (s.setCur (upd { d with
        pfx := Tab.put 0 d.pfx d.f p, sfx := Tab.put 0 d.sfx d.f k, f := d.f + 1,
        seg := d.seg ++ [k], prev := some k.toNat }))) ∧
    exec .nufxClear s = .next (s.setCur (upd { d with f := 0x101, prev := none }))

/-- R362, R363: a code of an existing entry, and the code of the entry about to be created; R340: the string of a code,
while every entry's prefix is a smaller code. -/
def Obligations.NufxTableAndKwkwk : Prop :=
  (∀ d : NufxDec,
    (∀ k : Nat, k < 0x100 → d.string k = [BitVec.ofNat 8 k]) ∧
    ((∀ k, 0x100 ≤ k → Tab.get 0 d.pfx k < k) → ∀ k, 0x100 ≤ k →
      d.string k = d.string (Tab.get 0 d.pfx k) ++ [Tab.get 0 d.sfx k])) ∧
  ∀ (s : State) (c : Ctx) (k : BitVec 12), s.cur = some c → c.DecodingNufx → c.eng.nufxDec.AtCode →
    hasRoom s.par c.outq.length = true → 0x101 ≤ k.toNat →
    let d := c.eng.nufxDec
    let upd : NufxDec → Ctx := fun d' => { c with eng := { c.eng with nufxDec := d' } }
    let str := d.string k.toNat
    (k.toNat < d.f → d.prev = none →
      exec (.nufxTable k) s = .next (s.setCur (upd { d with seg := d.seg ++ str, prev := some k.toNat }))) ∧
    (∀ p, k.toNat < d.f → d.prev = some p → d.f ≤ 0xFFD →
      exec (.nufxTable k) s = .next (s.setCur (upd { d with
        pfx := Tab.put 0 d.pfx d.f p, sfx := Tab.put 0 d.sfx d.f (str.headD 0), f := d.f + 1,
        seg := d.seg ++ str, prev := some k.toNat }))) ∧
    (∀ p, k.toNat = d.f → d.prev = some p → d.f ≤ 0xFFD →
      exec (.nufxKwkwk k) s = .next (s.setCur (upd { d with
        pfx := Tab.put 0 d.pfx d.f p, sfx := Tab.put 0 d.sfx d.f ((d.string p).headD 0), f := d.f + 1,
        seg := d.seg ++ (d.string p ++ [(d.string p).headD 0]), prev := some k.toNat })))

/-- R364: a code that names no entry; the table limit is checked first. -/
def Obligations.NufxInvalidCodeRaises : Prop :=
  ∀ (s : State) (c : Ctx) (k : BitVec 12), s.cur = some c → c.DecodingNufx → c.eng.nufxDec.AtCode →
    k ≠ 0x100 →
    let d := c.eng.nufxDec
    (d.prev ≠ none → 0xFFD < d.f → Raises (.nufxInvalid k) s c .tableFull) ∧
    (d.prev ≠ none → d.f ≤ 0xFFD → d.f < k.toNat → 0x100 ≤ k.toNat → Raises (.nufxInvalid k) s c .badCode) ∧
    (d.prev = none → d.f ≤ k.toNat → 0x100 ≤ k.toNat → Raises (.nufxInvalid k) s c .badCode)

/-- R365, R366: the RLE tokens of NuFX, with the 4096-byte limit of the chunk. -/
def Obligations.NufxRleTokensFillTheChunk : Prop :=
  ∀ (s : State) (c : Ctx) (v n b : Byte) (rest : List Byte), s.cur = some c → c.DecodingNufx →
    c.eng.nufxDec.pc = .rle rest → hasRoom s.par c.outq.length = true →
    let d := c.eng.nufxDec
    let upd : NufxDec → Ctx := fun d' => { c with eng := { c.eng with nufxDec := d' } }
    (d.chunk.length + (n.toNat + 1) ≤ 4096 → exec (.nufxRleRun v n) s =
      .next (s.setCur (upd { d with chunk := d.chunk ++ List.replicate (n.toNat + 1) v }))) ∧
    (4096 < d.chunk.length + (n.toNat + 1) → Raises (.nufxRleRun v n) s c .rleOverrun) ∧
    (b ≠ d.delimIn → d.chunk.length + 1 ≤ 4096 → exec (.nufxRleLit b) s =
      .next (s.setCur (upd { d with chunk := d.chunk ++ [b] }))) ∧
    (b ≠ d.delimIn → 4096 < d.chunk.length + 1 → Raises (.nufxRleLit b) s c .rleOverrun)

/-- R303, R349, R350, R351, R236: the last byte of a chunk's stored stage-1 data. The data are SEG and the byte fed: the
tokens `ts`, and perhaps a token cut short. A chunk of 4096 stage-1 bytes holds no tokens (R349).
That the stored bytes stand in SEG is the model's choice (log entry 31). -/
def Obligations.NufxChunkEndsWithItsLastByte : Prop :=
  ∀ (s : State) (c : Ctx) (b : Byte) (ts : List (Byte × Option Byte)) (tail x : List Byte), s.cur = some c →
    c.DecodingNufx → c.inq = [] → c.ended = false → c.eng.nufxDec.pc = .stored → s.par.outqCap = none →
    let d := c.eng.nufxDec
    let c1 := { c with inCount := c.inCount + 1 }
    d.rlelen = d.seg.length + 1 →
    (if d.rlelen = 4096 then x = d.seg ++ [b] ∧ tail = []
     else d.rlelen < 4096 ∧ (∀ t ∈ ts, t.2 = none → t.1 ≠ d.delimIn) ∧
      x = ts.flatMap (fun t => match t.2 with | none => [t.1] | some n => List.replicate (n.toNat + 1) t.1) ∧
      d.seg ++ [b] = ts.flatMap (fun t => match t.2 with | none => [t.1] | some n => [d.delimIn, t.1, n]) ++ tail) →
    let raises : Err → Prop := fun err => ∃ e, exec (.cmdFeed b) s = .next (s.setCur ({ c1 with eng := e }.raise err))
    (4096 < x.length → raises .rleOverrun) ∧
    (x.length ≤ 4096 → (tail = [d.delimIn] ∨ ∃ v, tail = [d.delimIn, v]) → raises .rleTruncated) ∧
    (x.length < 4096 → tail = [] → raises .rleUnderrun) ∧
    (x.length = 4096 → tail = [] →
      let n := min 4096 (d.expect - d.produced)
      let crc := if c.engine = 1 then d.crc else
        crc16Xmodem d.crc (match s.par.crcSpan with | .padded => x | .data => x.take n)
      (d.produced + n < d.expect → ∃ e, exec (.cmdFeed b) s = .next (s.setCur (c1.emit (x.take n) e)) ∧
        e.nufxDec.pc = .chunkHdr [] ∧ e.nufxDec.produced = d.produced + n ∧ e.nufxDec.crc = crc) ∧
      (d.expect ≤ d.produced + n → c.engine = 0 → crc ≠ d.crcWant →
        ∃ e, exec (.cmdFeed b) s = .next (s.setCur ((c1.emit (x.take n) e).raise .checksum))) ∧
      (d.expect ≤ d.produced + n → c.engine = 1 ∨ crc = d.crcWant →
        ∃ e, exec (.cmdFeed b) s = .next (s.setCur { c1.emit (x.take n) e with natend := true }) ∧
          e.nufxDec.pc = .done))

/-- R367, R369: the stream headers. Any VOLUME and any DELIM are legal. -/
def Obligations.NufxStreamHeaders : Prop :=
  ∀ (s : State) (c : Ctx) (crc : Half) (volume delim : Byte), s.cur = some c →
    c.eng.nufxDec.pc = .hdr [] → hasRoom s.par c.outq.length = true →
    let d := c.eng.nufxDec
    let upd : NufxDec → Ctx := fun d' => { c with eng := { c.eng with nufxDec := d' } }
    (c.Decoding 0 → exec (.nufx1Hdr crc volume delim) s = .next (s.setCur (upd { d with
      crcWant := crc, volumeIn := volume, delimIn := delim, crc := s.par.crcSeed, produced := 0,
      pc := .loop }))) ∧
    (c.Decoding 1 → exec (.nufx2Hdr volume delim) s = .next (s.setCur (upd { d with
      volumeIn := volume, delimIn := delim, f := 0x101, produced := 0, pc := .loop })))

/-- R368, R370, R347, R348: the chunk headers. LZW/1 empties the table for every chunk, LZW/2 only for a stored
one; CLEN and W[14:13] are ignored. That a stored chunk too empties SEG and PREV is the model's choice (log entry 31). -/
def Obligations.NufxChunkHeaders : Prop :=
  ∀ (s : State) (c : Ctx) (rlelen w clen : Half) (flag : Byte), s.cur = some c →
    c.eng.nufxDec.pc = .chunkHdr [] → hasRoom s.par c.outq.length = true →
    let d := c.eng.nufxDec
    let upd : NufxDec → Ctx := fun d' => { c with eng := { c.eng with nufxDec := d' } }
    let len := (w.extractLsb' 0 13).toNat
    (c.Decoding 0 →
      (flag.toNat ≤ 1 → rlelen.toNat ≤ 4096 →
        exec (.nufx1Chunk rlelen flag) s = .next (s.setCur (upd { d with
          rlelen := rlelen.toNat, useLzw := decide (flag = 1), f := 0x101, seg := [], prev := none, rd := {},
          pc := if flag = 1 then .code else .stored }))) ∧
      (1 < flag.toNat ∨ 4096 < rlelen.toNat → Raises (.nufx1Chunk rlelen flag) s c .badChunkHeader)) ∧
    (c.Decoding 1 →
      (len ≤ 4096 →
        exec (.nufx2Chunk w clen) s = .next (s.setCur (upd { d with
          rlelen := len, useLzw := w.getLsbD 15, f := if w.getLsbD 15 then d.f else 0x101, seg := [],
          prev := none, rd := {}, pc := if w.getLsbD 15 then .code else .stored }))) ∧
      (4096 < len → Raises (.nufx2Chunk w clen) s c .badChunkHeader))

/-! ### LZC stream tokens -/

/-- R460, R446, R444: a literal code outputs its byte; any but the first of the stream also creates an entry while
the table is not full. A code token of the port that stood for a whole group is followed by a group read and by no other
code (R178, R442; the port is the model's own, log entry 3). -/
def Obligations.LzcLiteralOutputsItsByte : Prop :=
  ∀ (s : State) (c : Ctx) (k : Byte) (ph : LzcPhase), s.cur = some c → c.Decoding 2 →
    c.eng.lzcDec.AtPhase ph → hasRoom s.par (c.outq.length + 1) = true →
    let d := c.eng.lzcDec
    let upd : LzcDec → Ctx := fun d' => c.emit [k] { c.eng with lzcDec := { d' with pc := .codes .next } }
    (ph = .first →
      exec (.lzcLit k) s = .next (s.setCur (upd { d with oldcode := k.toNat, finchar := k }))) ∧
    (ph ≠ .first → d.freeEnt < d.maxmaxcode →
      exec (.lzcLit k) s = .next (s.setCur (upd { d with
        finchar := k, tabPrefix := Tab.put 0 d.tabPrefix d.freeEnt d.oldcode,
        tabSuffix := Tab.put 0 d.tabSuffix d.freeEnt k, freeEnt := d.freeEnt + 1, oldcode := k.toNat }))) ∧
    (ph ≠ .first → d.maxmaxcode ≤ d.freeEnt →
      exec (.lzcLit k) s = .next (s.setCur (upd { d with finchar := k, oldcode := k.toNat }))) ∧
    (d.pc = .fetch ph → c.inq = [] → c.ended = false → ∀ c', exec (.lzcLit k) s = .next (s.setCur c') →
      ∃ d', c'.resume s.par s.free = .ok ({ c' with eng := { c'.eng with lzcDec := d' } }, s.free) ∧
        d'.pc = .fetch .next ∧ d'.grp = [])

/-- R461, R442: CLEAR in block mode; the next code comes from a new group of 9-bit codes. -/
def Obligations.LzcClearStartsANewGroup : Prop :=
  ∀ (s : State) (c : Ctx), s.cur = some c → c.Decoding 2 → c.eng.lzcDec.AtPhase .next →
    c.eng.lzcDec.block = true → hasRoom s.par c.outq.length = true →
    let d' := { c.eng.lzcDec with freeEnt := 256, clearFlg := true, pc := .codes .afterClear }
    exec .lzcClear s = .next (s.setCur { c with eng := { c.eng with lzcDec := d' } }) ∧
      d'.needGroup = true ∧ d'.growWidth.nBits = 9 ∧ d'.growWidth.maxcode = 511 ∧
      d'.growWidth.clearFlg = false

/-- R462, R463, R446: a code of an existing entry, and the code of the entry about to be created; R447: the string of a
code, while every entry's prefix is a smaller code. -/
def Obligations.LzcTableAndKwkwk : Prop :=
  (∀ d : LzcDec,
    (∀ k : Nat, k < 256 → d.string k = [BitVec.ofNat 8 k]) ∧
    ((∀ k, 256 ≤ k → Tab.get 0 d.tabPrefix k < k) → ∀ k, 256 ≤ k →
      d.string k = d.string (Tab.get 0 d.tabPrefix k) ++ [Tab.get 0 d.tabSuffix k])) ∧
  ∀ (s : State) (c : Ctx) (k : Half), s.cur = some c → c.Decoding 2 → c.eng.lzcDec.AtPhase .next →
    256 ≤ k.toNat → ¬ (k = 256 ∧ c.eng.lzcDec.block = true) →
    let d := c.eng.lzcDec
    let after : List Byte → Ctx := fun str =>
      let d1 := { d with finchar := str.headD 0, oldcode := k.toNat, pc := .codes .next }
      c.emit str { c.eng with lzcDec :=
        if d.freeEnt < d.maxmaxcode then
          { d1 with tabPrefix := Tab.put 0 d.tabPrefix d.freeEnt d.oldcode,
                    tabSuffix := Tab.put 0 d.tabSuffix d.freeEnt (str.headD 0), freeEnt := d.freeEnt + 1 }
        else d1 }
    (k.toNat < d.freeEnt → hasRoom s.par (c.outq.length + (d.string k.toNat).length) = true →
      exec (.lzcTable k) s = .next (s.setCur (after (d.string k.toNat)))) ∧
    (k.toNat = d.freeEnt → hasRoom s.par (c.outq.length + ((d.string d.oldcode).length + 1)) = true →
      exec (.lzcKwkwk k) s = .next (s.setCur (after (d.string d.oldcode ++ [d.finchar]))))

/-- R464, R444: an invalid code, and a table code where a literal must stand. -/
def Obligations.LzcInvalidCodeRaises : Prop :=
  ∀ (s : State) (c : Ctx) (k : Half) (ph : LzcPhase), s.cur = some c → c.Decoding 2 →
    c.eng.lzcDec.AtPhase ph → 256 ≤ k.toNat →
    (ph ≠ .next → Raises (.lzcInvalid k) s c .badCode) ∧
    (ph = .next → c.eng.lzcDec.freeEnt < k.toNat → ¬ (k = 256 ∧ c.eng.lzcDec.block = true) →
      Raises (.lzcInvalid k) s c .badCode)

/-- R465, R440: the stream header. -/
def Obligations.LzcHeaderIsChecked : Prop :=
  ∀ (s : State) (c : Ctx) (m0 m1 flags : Byte), s.cur = some c → c.Decoding 2 →
    c.eng.lzcDec.pc = .hdr [] → hasRoom s.par c.outq.length = true →
    let d := c.eng.lzcDec
    let m := (flags.extractLsb' 0 5).toNat
    (m0 ≠ 0x1F ∨ m1 ≠ 0x9D → Raises (.lzcHdr m0 m1 flags) s c .badMagic) ∧
    (m0 = 0x1F → m1 = 0x9D → flags.extractLsb' 5 2 ≠ 0 ∨ m < 9 ∨ 16 < m →
      Raises (.lzcHdr m0 m1 flags) s c .badHeader) ∧
    (m0 = 0x1F → m1 = 0x9D → flags.extractLsb' 5 2 = 0 → 9 ≤ m → m ≤ 16 →
      exec (.lzcHdr m0 m1 flags) s = .next (s.setCur { c with eng := { c.eng with lzcDec := { d with
        maxbits := m, block := flags.getLsbD 7, maxmaxcode := 2 ^ m,
        freeEnt := if flags.getLsbD 7 then 257 else 256, pc := .codes .first } } }))

/-- R466, R442: the bytes of a group; one too short for a whole code ends the stream, with no natural end (R448). That
a group shorter than N_BITS with a whole code does not end the input is the model's choice (log entry 3). -/
def Obligations.LzcGroupIsRead : Prop :=
  ∀ (s : State) (c : Ctx) (bytes : List Byte) (ph : LzcPhase), s.cur = some c → c.Decoding 2 →
    c.eng.lzcDec.pc = .fetch ph → c.eng.lzcDec.grp = [] → 1 ≤ bytes.length →
    bytes.length ≤ c.eng.lzcDec.nBits → hasRoom s.par c.outq.length = true →
    let d := c.eng.lzcDec
    exec (.lzcGroup bytes) s = .next (s.setCur { c with eng := { c.eng with lzcDec := { d with
      grp := bytes, goff := 0, gsize := (bytes.length : Int) * 8 - ((d.nBits : Int) - 1),
      pc := if bytes.length * 8 < d.nBits then .done else .codes ph } } })

/-! ### Squeeze stream tokens -/

/-- R560, R561, R541, R542: the standalone header and the node count. -/
def Obligations.SqueezeHeaderAndCount : Prop :=
  ∀ (s : State) (c : Ctx) (m0 m1 : Byte) (sum n : Half) (name : List Byte), s.cur = some c → c.Decoding 3 →
    hasRoom s.par c.outq.length = true →
    let d := c.eng.sqDec
    let upd : SqDec → Ctx := fun d' => { c with eng := { c.eng with sqDec := d' } }
    (d.pc = .hdr [] →
      (m0 = 0x76 → m1 = 0xFF →
        exec (.sqHdr m0 m1 sum name) s = .next (s.setCur (upd { d with sumWant := sum, pc := .count [] }))) ∧
      (m0 ≠ 0x76 ∨ m1 ≠ 0xFF → Raises (.sqHdr m0 m1 sum name) s c .badMagic)) ∧
    (d.pc = .count [] →
      (n = 0 → exec (.sqCount n) s = .next (s.setCur (upd { d with
        numnodes := 0, sum := 0, rstate := .normal, rval := 0, node := 0,
        rd := {}, pc := .tail }))) ∧
      (0 < n.toNat → n.toNat ≤ 256 →
        exec (.sqCount n) s = .next (s.setCur (upd { d with numnodes := n.toNat, pc := .node 0 [] }))) ∧
      (256 < n.toNat → Raises (.sqCount n) s c .badTree))

/-- R562, R543, R181: a node entry; each reference must be a leaf -257 to -1 or a node below NUMNODES. -/
def Obligations.SqueezeNodeIsChecked : Prop :=
  ∀ (s : State) (c : Ctx) (l r : Half) (i : Nat), s.cur = some c → c.Decoding 3 →
    c.eng.sqDec.pc = .node i [] → hasRoom s.par c.outq.length = true →
    let d := c.eng.sqDec
    let ok : Half → Prop := fun x =>
      (-257 ≤ x.toInt ∧ x.toInt ≤ -1) ∨ (0 ≤ x.toInt ∧ x.toInt < d.numnodes)
    let dn := Tab.put 0 (Tab.put 0 d.dnode (2 * i) l.toInt) (2 * i + 1) r.toInt
    let upd : SqDec → Ctx := fun d' => { c with eng := { c.eng with sqDec := d' } }
    (ok l → ok r → i + 1 < d.numnodes →
      exec (.sqNode l r) s = .next (s.setCur (upd { d with dnode := dn, pc := .node (i + 1) [] }))) ∧
    (ok l → ok r → i + 1 = d.numnodes →
      exec (.sqNode l r) s = .next (s.setCur (upd { d with
        dnode := dn, sum := 0, rstate := .normal, rval := 0, node := 0,
        rd := {}, pc := .data }))) ∧
    (¬ ok l ∨ ¬ ok r → Raises (.sqNode l r) s c .badTree)

/-- R563, R547, R503: a data symbol goes to the RLE expander, in both layouts. -/
def Obligations.SqueezeSymbolFeedsTheRleExpander : Prop :=
  ∀ (s : State) (c : Ctx) (b : Byte), s.cur = some c → c.Decoding 3 → c.eng.sqDec.AtCode →
    c.eng.sqDec.hasLeaf b.toNat = true →
    let d := c.eng.sqDec
    let delim : Byte := c.lcfg.sq.setWidth 8
    let upd : List Byte → SqDec → Ctx := fun out d' =>
      c.emit out { c.eng with sqDec := { d' with sum := sumBytes d.sum out } }
    let room : Nat → Prop := fun n => hasRoom s.par (c.outq.length + n) = true
    (d.rstate = .normal → b = delim → room 0 →
      exec (.sqSym b) s = .next (s.setCur (upd [] { d with rstate := .haveDelim }))) ∧
    (d.rstate = .normal → b ≠ delim → room 1 →
      exec (.sqSym b) s = .next (s.setCur (upd [b]
        (match s.par.sqLayout with | .doc => d | .usq => { d with rval := b })))) ∧
    (s.par.sqLayout = .doc →
      (d.rstate = .haveDelim → room 0 →
        exec (.sqSym b) s = .next (s.setCur (upd [] { d with rval := b, rstate := .haveValue })))) ∧
    (d.rstate = .haveValue → room (b.toNat + 1) →
      exec (.sqSym b) s = .next (s.setCur (upd (List.replicate (b.toNat + 1) d.rval)
        { d with rstate := .normal }))) ∧
    (s.par.sqLayout = .usq → d.rstate = .haveDelim →
      (b = 0 → room 1 →
        exec (.sqSym b) s = .next (s.setCur (upd [delim] { d with rstate := .normal }))) ∧
      (b ≠ 0 → room b.toNat → exec (.sqSym b) s = .next (s.setCur (upd
        (List.replicate (if b = 1 then 1 else b.toNat - 1) d.rval) { d with rstate := .normal }))))

/-- R564, R545, R546, R548, R236: the end code: the checks, then the natural end, where input left over is counted
as trailing. That NODE is 0 after the EOF leaf is the model's choice (log entry 32). -/
def Obligations.SqueezeEofEndsTheStream : Prop :=
  ∀ (s : State) (c : Ctx), s.cur = some c → c.Decoding 3 → c.eng.sqDec.AtCode →
    c.eng.sqDec.hasLeaf 256 = true → hasRoom s.par c.outq.length = true →
    let d := c.eng.sqDec
    let full := c.lcfg.sq.getLsbD 8
    (d.rstate ≠ .normal → Raises .sqEof s c .rleTruncated) ∧
    (d.rstate = .normal → full = true → d.sum ≠ d.sumWant → Raises .sqEof s c .checksum) ∧
    (d.rstate = .normal → full = false ∨ d.sum = d.sumWant →
      exec .sqEof s = .next (s.setCur { c with
        natend := true, inq := [],
        trailCount := c.trailCount + BitVec.ofNat 32 c.inq.length,
        warn := if c.inq = [] then c.warn else c.warn ||| 1,
        eng := { c.eng with sqDec := { d with
          node := 0, rd := {}, pc := .done } } }))

/-- R565, R265: the padding after the end code is discarded, whatever its bits. -/
def Obligations.SqueezePaddingIsDiscarded : Prop :=
  ∀ (s : State) (c : Ctx) (bits : List Bool), s.cur = some c → c.st = .active → c.dir = true → c.engine = 3 →
    c.eng.sqDec.pc = .done → bits.length ≤ 7 →
    exec (.sqPad bits) s = .next (s.setCur { c with eng := { c.eng with sqDec := { c.eng.sqDec with
      rd := {} } } })

/-- R566, R567, R568, R569, R503: the RLE tokens of both layouts. -/
def Obligations.SqueezeRleTokens : Prop :=
  ∀ (s : State) (c : Ctx) (v n b : Byte), s.cur = some c → c.Decoding 3 → c.eng.sqDec.pc = .data →
    c.eng.sqDec.rstate = .normal →
    let d := c.eng.sqDec
    let delim : Byte := c.lcfg.sq.setWidth 8
    let upd : List Byte → SqDec → Ctx := fun out d' =>
      c.emit out { c.eng with sqDec := { d' with sum := sumBytes d.sum out } }
    let room : Nat → Prop := fun n => hasRoom s.par (c.outq.length + n) = true
    (s.par.sqLayout = .doc → room (n.toNat + 1) →
      exec (.sqRleRun v n) s = .next (s.setCur (upd (List.replicate (n.toNat + 1) v) { d with rval := v }))) ∧
    (b ≠ delim → room 1 →
      exec (.sqRleLit b) s = .next (s.setCur (upd [b]
        (match s.par.sqLayout with | .doc => d | .usq => { d with rval := b })))) ∧
    (s.par.sqLayout = .usq → n ≠ 0 → room n.toNat →
      exec (.usqRun n) s = .next (s.setCur (upd
        (List.replicate (if n = 1 then 1 else n.toNat - 1) d.rval) d))) ∧
    (s.par.sqLayout = .usq → room 1 → exec .usqEsc s = .next (s.setCur (upd [delim] d)))

/-! ### ZX0 stream tokens -/

/-- R641, R644, R236: a literal run, and the end marker; that the indicator bit that follows belongs to the
next token is the model's reading of R184 (log entry 27). -/
def Obligations.Zx0LiteralsAndEnd : Prop :=
  ∀ (s : State) (c : Ctx) (bytes : List Byte), s.cur = some c → c.Decoding 4 →
    let d := c.eng.zxDec
    (d.pc = .start ∨ (d.pc = .indic ∧ d.zstate ≠ .copyLiterals) → 1 ≤ bytes.length →
      hasRoom s.par (c.outq.length + bytes.length) = true →
      exec (.zx0Literals bytes) s = .next (s.setCur (c.emit bytes { c.eng with zxDec := { d with
        hist := bytes.reverse ++ d.hist, zstate := .copyLiterals, pc := .indic } }))) ∧
    (d.pc = .indic → hasRoom s.par c.outq.length = true →
      exec .zx0End s = .next (s.setCur { c with
        natend := true, inq := [],
        trailCount := c.trailCount + BitVec.ofNat 32 c.inq.length,
        warn := if c.inq = [] then c.warn else c.warn ||| 1,
        eng := { c.eng with zxDec := { d with zstate := .done, pc := .done } } }))

/-- R642, R643, R645: the copies. `copyHist` is described by Zx0CopyReadsItsOwnOutput. A copy from before the start
of the output raises CORRUPT(BAD_OFFSET). ZSTATE after the token is the model's reading (log entry 27). -/
def Obligations.Zx0CopiesFromHistory : Prop :=
  ∀ (s : State) (c : Ctx) (msb b : Byte) (len : Nat), s.cur = some c → c.Decoding 4 →
    c.eng.zxDec.pc = .indic →
    let d := c.eng.zxDec
    let off := msb.toNat * 128 - b.toNat / 2
    let upd : Nat → ZxDec → Ctx := fun o d' =>
      let r := ZxDec.copyHist o len d.hist
      c.emit r.1 { c.eng with zxDec := { d' with hist := r.2, pc := .indic } }
    (d.zstate = .copyLiterals → 1 ≤ len →
      (d.lastOffset ≤ d.hist.length → hasRoom s.par (c.outq.length + len) = true →
        exec (.zx0Rep len) s = .next (s.setCur (upd d.lastOffset { d with zstate := .copyFromLastOffset }))) ∧
      (d.hist.length < d.lastOffset → Raises (.zx0Rep len) s c .badOffset)) ∧
    (msb ≠ 0 → 2 ≤ len → (b.getLsbD 0 = true ↔ len = 2) →
      (off ≤ d.hist.length → hasRoom s.par (c.outq.length + len) = true →
        exec (.zx0New msb b len) s = .next (s.setCur (upd off { d with
          lastOffset := off, zstate := .copyFromNewOffset }))) ∧
      (d.hist.length < off → Raises (.zx0New msb b len) s c .badOffset))

/-! ### Invariants -/

/-- The reset state is well kept. -/
def Obligations.ResetIsWellKept : Prop := State.reset.Ok ∧ State.reset.memoryWf = true

/-- Every step from a well-kept state gives a well-kept state (R43, R44, R46, R48 to R52, R61, R222, R706, R710,
R236). -/
def Obligations.StepKeepsStateWellKept : Prop :=
  ∀ s t : State, s.Ok → step s = .next t → t.Ok

/-- Every step keeps every working memory in its canonical form (log entry 15). -/
def Obligations.StepKeepsMemoryCanonical : Prop :=
  ∀ s t : State, s.memoryWf = true → step s = .next t → t.memoryWf = true

/-- Log entry 9 (with R812, R816, which leave the behaviour of bounded capacities to the model): OUTQ never passes a
bounded OUTQ_CAP, and unbounded parameters refuse nothing. -/
def Obligations.BoundedOutputQueueIsNeverPassed : Prop :=
  ∀ (i : Instr) (s : State) (c : Ctx), s.cur = some c →
    (∀ (cap : Nat) (t : State) (c' : Ctx), s.par.outqCap = some cap → c.outq.length ≤ cap →
      exec i s = .next t → t.cur = some c' → c'.outq.length ≤ cap) ∧
    (s.par.outqCap = none → exec i s ≠ .refused .outqFull) ∧
    (s.par.maxWhole = none → exec i s ≠ .refused .wholeFileFull)

/-! ### Frames over all instructions -/

/-- R40, R722: no instruction touches another context, nor the parameters, the bus, the read data or the selection. -/
def Obligations.OtherContextsAreUntouched : Prop :=
  ∀ (i : Instr) (s t : State), exec i s = .next t →
    t.par = s.par ∧ t.bus = s.bus ∧ t.rdata = s.rdata ∧ t.sel = s.sel ∧ t.ctxs.length = s.ctxs.length ∧
    ∀ k, k ≠ s.sel → t.ctxs[k]? = s.ctxs[k]?

/-- R58, R233, R229, R44, R47, R57, R59: the registers change only by the instructions the rules name. -/
def Obligations.RegistersChangeOnlyWhereNamed : Prop :=
  ∀ (i : Instr) (s t : State) (c c' : Ctx), s.cur = some c → exec i s = .next t → t.cur = some c' →
    (c'.cfgDelim = c.cfgDelim ∧ c'.cfgVolume = c.cfgVolume ∧ c'.cfgLzc = c.cfgLzc ∧ c'.cfgSq = c.cfgSq ∧
      c'.cfgZx0 = c.cfgZx0 ∧ c'.cfgExpect = c.cfgExpect) ∧
    ((∀ b, i ≠ .cmdNameByte b) → i ≠ .cmdNameClear → c'.namebuf = c.namebuf) ∧
    ((∀ e d, i ≠ .cmdOpen e d) →
      c'.lcfg = c.lcfg ∧
      (i ≠ .cmdClose → c'.engine = c.engine ∧ c'.dir = c.dir) ∧
      (i ≠ .cmdProduce → c'.dout = c.dout) ∧
      ((∀ b, i ≠ .cmdFeed b) → c'.inCount = c.inCount) ∧
      (i ≠ .cmdFinish → i ≠ .cmdClose → c'.ended = c.ended) ∧
      (c'.warn = c.warn ∨ c'.warn = c.warn ||| 1))

/-- R140: an instruction other than OPEN and CLOSE changes no engine state but that of the open instance. -/
def Obligations.OnlyTheOpenEngineChanges : Prop :=
  ∀ (i : Instr) (s t : State) (c c' : Ctx), s.cur = some c → exec i s = .next t → t.cur = some c' →
    (∀ e d, i ≠ .cmdOpen e d) → i ≠ .cmdClose →
    (¬ (c.engine.toNat ≤ 1 ∧ c.dir = false) → c'.eng.nufxEnc = c.eng.nufxEnc) ∧
    (¬ (c.engine.toNat ≤ 1 ∧ c.dir = true) → c'.eng.nufxDec = c.eng.nufxDec) ∧
    (¬ (c.engine = 2 ∧ c.dir = false) → c'.eng.lzcEnc = c.eng.lzcEnc) ∧
    (¬ (c.engine = 2 ∧ c.dir = true) → c'.eng.lzcDec = c.eng.lzcDec) ∧
    (¬ (c.engine = 3 ∧ c.dir = false) → c'.eng.sqEnc = c.eng.sqEnc) ∧
    (¬ (c.engine = 3 ∧ c.dir = true) → c'.eng.sqDec = c.eng.sqDec) ∧
    (¬ (c.engine = 4 ∧ c.dir = false) → c'.eng.zxEnc = c.eng.zxEnc) ∧
    (¬ (c.engine = 4 ∧ c.dir = true) → c'.eng.zxDec = c.eng.zxDec)

/-! ### Stream algorithms -/

/-- R262, R263: the LSB-first writer lays bits down in order, bit 0 of a byte first, and a flush pads with fewer than
8 zeros. -/
def Obligations.PackedBitsAreLaidDownInOrder : Prop :=
  ∀ bs : List Bool,
    let r := ({} : LsbWriter).putBits bs
    ∃ pad, pad < 8 ∧
      (r.2 ++ r.1.flush.2).flatMap (fun b => bitsOf b.toNat 8) = bs ++ List.replicate pad false ∧
      r.1.flush.1 = {}

/-- R501, R302, R547: expanding the RLE form of any bytes, symbol by symbol, outputs the bytes and ends between
tokens, whatever the delimiter. -/
def Obligations.SqueezeRleRoundTrip : Prop :=
  ∀ (x : List Byte) (delim : Byte) (d : SqDec), d.rstate = .normal →
    let step := fun (a : SqDec × List Byte) (b : Byte) =>
      let r := a.1.rleStep .doc delim b
      (r.st, a.2 ++ r.out)
    let r := (SqEnc.rlePass .doc delim x).foldl step (d, [])
    r.2 = x ∧ r.1.rstate = .normal ∧ r.1.sum = sumBytes d.sum x

/-- R648, R642: a copy of `n` bytes from `off` back. -/
def Obligations.Zx0CopyReadsItsOwnOutput : Prop :=
  ∀ (off n : Nat) (h : List Byte), 1 ≤ off → off ≤ h.length →
    let r := ZxDec.copyHist off n h
    r.1.length = n ∧ r.2 = r.1.reverse ++ h ∧
    ∀ i, i < n → r.1[i]? = if i < off then h[off - 1 - i]? else r.1[i - off]?
end

