-- ==== Sys2Proof/Laws/Decode.lean ====
section
/-! SUPPORT. The small lemmas of the decoder and the encoder: what the readers take off items that the
writers laid down. -/

namespace Sys2Proof

@[simp] theorem bitsOf_length (v n : Nat) : (bitsOf v n).length = n := by
  induction n generalizing v with
  | zero => rfl
  | succ n ih => simp [bitsOf, ih]

/-- A value is assembled from its bits (R262, R264). -/
theorem ofBits_bitsOf (v n : Nat) : ofBits (bitsOf v n) = v % 2 ^ n := by
  induction n generalizing v with
  | zero => simp [bitsOf, ofBits, Nat.mod_one]
  | succ n ih =>
    simp only [bitsOf, ofBits, ih]
    rw [Nat.pow_succ', Nat.mod_mul]
    rcases Nat.mod_two_eq_zero_or_one v with h | h <;> simp [h]

/-- Bits laid down are the bits taken. -/
theorem takeBits_map (msb : Bool) (bs : List Bool) (r : List Item) :
    takeBits msb bs.length (bs.map .bit ++ r) = .ok (bs, r) := by
  induction bs with
  | nil => simp [takeBits]
  | cons b bs ih => cases bs <;> simp_all [takeBits, Item.bits]

/-- Bytes laid down are the bytes taken. -/
theorem takeBytes_map (keep : Bool) (bs : List Byte) (r : List Item) :
    takeBytes keep bs.length (bs.map .byte ++ r) = .ok (bs, r) := by
  induction bs with
  | nil => simp [takeBytes]
  | cons b bs ih => simp [takeBytes, ih]

/-- A packed code laid down is the code taken (R262, R264). -/
theorem takeBits_codeItems (msb : Bool) (width code : Nat) (r : List Item) :
    takeBits msb width (codeItems width code ++ r) = .ok (bitsOf code width, r) := by
  have h := takeBits_map msb (bitsOf code width) r
  rwa [bitsOf_length] at h

/-- A name laid down with its NUL is the name taken (R179). -/
theorem takeName_map (name : List Byte) (h : ∀ b ∈ name, b ≠ 0) (r : List Item) :
    takeName (name.map .byte ++ .byte 0 :: r) = .ok (name, r) := by
  induction name with
  | nil => rfl
  | cons b bs ih =>
    have hb : b ≠ 0 := h b (by simp)
    simp only [List.map_cons, List.cons_append, takeName, if_neg hb,
      ih (fun x hx => h x (by simp [hx]))]

/-- Elias-gamma bits that complete a value are all taken, whatever follows (R185). -/
theorem takeEg_map (invert : Bool) (limit : Option Nat) (bs : List Bool) (r : List Item) (v v' : Nat) (data : Bool)
    (h : scanEg invert limit v data bs = .done v' []) :
    takeEg invert limit v data (bs.map .bit ++ r) = .ok (v', r) := by
  induction bs generalizing v data with
  | nil => simp [scanEg] at h
  | cons b bs ih =>
    cases data with
    | false =>
      cases b with
      | true => simp only [scanEg, if_true, EgScan.done.injEq] at h; simp [takeEg, Item.bits, scanEg, h.1, h.2]
      | false => simp only [scanEg, Bool.false_eq_true, if_false] at h; simp [takeEg, Item.bits, scanEg, ih _ _ h]
    | true =>
      simp only [scanEg] at h
      split at h
      · cases h
      · next hl => simp [takeEg, Item.bits, scanEg, hl, ih _ _ h]

/-- A walk along bits that ends at a leaf takes them all, whatever follows (R182). -/
theorem takeLeaf_map (tree : Tab Int) (bs : List Bool) (r : List Item) (i : Nat) (c : Int) (hc : c < 0)
    (h : walkLeaf tree i bs = (c, [])) : takeLeaf tree i (bs.map .bit ++ r) = .ok (c, r) := by
  induction bs generalizing i with
  | nil => simp [walkLeaf] at h; omega
  | cons b bs ih =>
    simp only [walkLeaf] at h
    split at h
    · next hn => cases h; simp [takeLeaf, Item.bits, walkLeaf, hn]
    · next hn =>
      have hn' : ¬ (((Tab.get 0 tree (2 * i + b.toNat)).toNat : Int) < 0) := by omega
      have hg : ((Tab.get 0 tree (2 * i + b.toNat)).toNat : Int).toNat = (Tab.get 0 tree (2 * i + b.toNat)).toNat := by omega
      simp only [List.map_cons, List.cons_append, takeLeaf, Item.bits, walkLeaf, if_neg hn, if_neg hn']
      rw [hg]; exact ih _ h

/-- A 16-bit field is assembled from its two bytes (R127). -/
theorem u16le_bytes (h : Half) : u16le (loByte h) (hiByte h) = h := by
  apply BitVec.eq_of_getLsbD_eq
  intro i hi
  simp only [u16le, loByte, hiByte, BitVec.getLsbD_append, BitVec.getLsbD_setWidth, BitVec.getLsbD_ushiftRight]
  by_cases h8 : i < 8
  · simp [h8]
  · simp [h8, show i - 8 < 8 by omega, show 8 + (i - 8) = i by omega]

end Sys2Proof
end

