-- ==== Sys2Proof/Laws/State.lean ====
section
/-! SUPPORT. One lemma for each field of each update of State and Ctx. -/

namespace Sys2Proof.Machine

open Sys2Proof

/-! ### State -/

@[simp] theorem State.setCur_par (s : State) (c : Ctx) : (s.setCur c).par = s.par := rfl
@[simp] theorem State.setCur_ctxs (s : State) (c : Ctx) : (s.setCur c).ctxs = s.ctxs.set s.sel c := rfl
@[simp] theorem State.setCur_sel (s : State) (c : Ctx) : (s.setCur c).sel = s.sel := rfl
@[simp] theorem State.setCur_bus (s : State) (c : Ctx) : (s.setCur c).bus = s.bus := rfl
@[simp] theorem State.setCur_rdata (s : State) (c : Ctx) : (s.setCur c).rdata = s.rdata := rfl
@[simp] theorem State.setCur_free (s : State) (c : Ctx) : (s.setCur c).free = s.free := rfl

/-- The addressed context after it is replaced. -/
theorem State.cur_setCur {s : State} {c : Ctx} (h : s.cur = some c) (c' : Ctx) :
    (s.setCur c').cur = some c' := by
  obtain ⟨hs, -⟩ := List.getElem?_eq_some_iff.mp h
  simp [State.cur, hs]

/-- Replacing the addressed context by itself changes nothing. -/
theorem State.setCur_self {s : State} {c : Ctx} (h : s.cur = some c) : s.setCur c = s := by
  obtain ⟨hs, rfl⟩ := List.getElem?_eq_some_iff.mp h
  simp [State.setCur]

/-- The other contexts are as before. -/
theorem State.setCur_other {s : State} (c : Ctx) {k : Nat} (hk : k ≠ s.sel) :
    (s.setCur c).ctxs[k]? = s.ctxs[k]? := by
  simp [State.setCur, Ne.symm hk]

/-! ### warn -/

@[simp] theorem Ctx.warnTrail_st (c : Ctx) : (c.warnTrail).st = c.st := rfl
@[simp] theorem Ctx.warnTrail_engine (c : Ctx) : (c.warnTrail).engine = c.engine := rfl
@[simp] theorem Ctx.warnTrail_dir (c : Ctx) : (c.warnTrail).dir = c.dir := rfl
@[simp] theorem Ctx.warnTrail_dout (c : Ctx) : (c.warnTrail).dout = c.dout := rfl
@[simp] theorem Ctx.warnTrail_err (c : Ctx) : (c.warnTrail).err = c.err := rfl
@[simp] theorem Ctx.warnTrail_warn (c : Ctx) : (c.warnTrail).warn = c.warn ||| warnTrailing := rfl
@[simp] theorem Ctx.warnTrail_inCount (c : Ctx) : (c.warnTrail).inCount = c.inCount := rfl
@[simp] theorem Ctx.warnTrail_outCount (c : Ctx) : (c.warnTrail).outCount = c.outCount := rfl
@[simp] theorem Ctx.warnTrail_trailCount (c : Ctx) : (c.warnTrail).trailCount = c.trailCount := rfl
@[simp] theorem Ctx.warnTrail_cfgDelim (c : Ctx) : (c.warnTrail).cfgDelim = c.cfgDelim := rfl
@[simp] theorem Ctx.warnTrail_cfgVolume (c : Ctx) : (c.warnTrail).cfgVolume = c.cfgVolume := rfl
@[simp] theorem Ctx.warnTrail_cfgLzc (c : Ctx) : (c.warnTrail).cfgLzc = c.cfgLzc := rfl
@[simp] theorem Ctx.warnTrail_cfgSq (c : Ctx) : (c.warnTrail).cfgSq = c.cfgSq := rfl
@[simp] theorem Ctx.warnTrail_cfgZx0 (c : Ctx) : (c.warnTrail).cfgZx0 = c.cfgZx0 := rfl
@[simp] theorem Ctx.warnTrail_cfgExpect (c : Ctx) : (c.warnTrail).cfgExpect = c.cfgExpect := rfl
@[simp] theorem Ctx.warnTrail_namebuf (c : Ctx) : (c.warnTrail).namebuf = c.namebuf := rfl
@[simp] theorem Ctx.warnTrail_lcfg (c : Ctx) : (c.warnTrail).lcfg = c.lcfg := rfl
@[simp] theorem Ctx.warnTrail_inq (c : Ctx) : (c.warnTrail).inq = c.inq := rfl
@[simp] theorem Ctx.warnTrail_outq (c : Ctx) : (c.warnTrail).outq = c.outq := rfl
@[simp] theorem Ctx.warnTrail_ended (c : Ctx) : (c.warnTrail).ended = c.ended := rfl
@[simp] theorem Ctx.warnTrail_natend (c : Ctx) : (c.warnTrail).natend = c.natend := rfl
@[simp] theorem Ctx.warnTrail_eng (c : Ctx) : (c.warnTrail).eng = c.eng := rfl

/-! ### CLOSE -/

@[simp] theorem Ctx.close_st (c : Ctx) : (c.close).st = .idle := rfl
@[simp] theorem Ctx.close_engine (c : Ctx) : (c.close).engine = 0 := rfl
@[simp] theorem Ctx.close_dir (c : Ctx) : (c.close).dir = false := rfl
@[simp] theorem Ctx.close_dout (c : Ctx) : (c.close).dout = c.dout := rfl
@[simp] theorem Ctx.close_err (c : Ctx) : (c.close).err = c.err := rfl
@[simp] theorem Ctx.close_warn (c : Ctx) : (c.close).warn = c.warn := rfl
@[simp] theorem Ctx.close_inCount (c : Ctx) : (c.close).inCount = c.inCount := rfl
@[simp] theorem Ctx.close_outCount (c : Ctx) : (c.close).outCount = c.outCount := rfl
@[simp] theorem Ctx.close_trailCount (c : Ctx) : (c.close).trailCount = c.trailCount := rfl
@[simp] theorem Ctx.close_cfgDelim (c : Ctx) : (c.close).cfgDelim = c.cfgDelim := rfl
@[simp] theorem Ctx.close_cfgVolume (c : Ctx) : (c.close).cfgVolume = c.cfgVolume := rfl
@[simp] theorem Ctx.close_cfgLzc (c : Ctx) : (c.close).cfgLzc = c.cfgLzc := rfl
@[simp] theorem Ctx.close_cfgSq (c : Ctx) : (c.close).cfgSq = c.cfgSq := rfl
@[simp] theorem Ctx.close_cfgZx0 (c : Ctx) : (c.close).cfgZx0 = c.cfgZx0 := rfl
@[simp] theorem Ctx.close_cfgExpect (c : Ctx) : (c.close).cfgExpect = c.cfgExpect := rfl
@[simp] theorem Ctx.close_namebuf (c : Ctx) : (c.close).namebuf = c.namebuf := rfl
@[simp] theorem Ctx.close_lcfg (c : Ctx) : (c.close).lcfg = c.lcfg := rfl
@[simp] theorem Ctx.close_inq (c : Ctx) : (c.close).inq = [] := rfl
@[simp] theorem Ctx.close_outq (c : Ctx) : (c.close).outq = [] := rfl
@[simp] theorem Ctx.close_ended (c : Ctx) : (c.close).ended = false := rfl
@[simp] theorem Ctx.close_natend (c : Ctx) : (c.close).natend = false := rfl
@[simp] theorem Ctx.close_eng (c : Ctx) : (c.close).eng = {} := rfl

/-! ### OPEN, before its checks -/

@[simp] theorem Ctx.opened_st (c : Ctx) (e : BitVec 3) (d : Bool) : (c.opened e d).st = .active := rfl
@[simp] theorem Ctx.opened_engine (c : Ctx) (e : BitVec 3) (d : Bool) : (c.opened e d).engine = e := rfl
@[simp] theorem Ctx.opened_dir (c : Ctx) (e : BitVec 3) (d : Bool) : (c.opened e d).dir = d := rfl
@[simp] theorem Ctx.opened_dout (c : Ctx) (e : BitVec 3) (d : Bool) : (c.opened e d).dout = 0 := rfl
@[simp] theorem Ctx.opened_err (c : Ctx) (e : BitVec 3) (d : Bool) : (c.opened e d).err = 0 := rfl
@[simp] theorem Ctx.opened_warn (c : Ctx) (e : BitVec 3) (d : Bool) : (c.opened e d).warn = 0 := rfl
@[simp] theorem Ctx.opened_inCount (c : Ctx) (e : BitVec 3) (d : Bool) : (c.opened e d).inCount = 0 := rfl
@[simp] theorem Ctx.opened_outCount (c : Ctx) (e : BitVec 3) (d : Bool) : (c.opened e d).outCount = 0 := rfl
@[simp] theorem Ctx.opened_trailCount (c : Ctx) (e : BitVec 3) (d : Bool) : (c.opened e d).trailCount = 0 := rfl
@[simp] theorem Ctx.opened_cfgDelim (c : Ctx) (e : BitVec 3) (d : Bool) : (c.opened e d).cfgDelim = c.cfgDelim := rfl
@[simp] theorem Ctx.opened_cfgVolume (c : Ctx) (e : BitVec 3) (d : Bool) : (c.opened e d).cfgVolume = c.cfgVolume := rfl
@[simp] theorem Ctx.opened_cfgLzc (c : Ctx) (e : BitVec 3) (d : Bool) : (c.opened e d).cfgLzc = c.cfgLzc := rfl
@[simp] theorem Ctx.opened_cfgSq (c : Ctx) (e : BitVec 3) (d : Bool) : (c.opened e d).cfgSq = c.cfgSq := rfl
@[simp] theorem Ctx.opened_cfgZx0 (c : Ctx) (e : BitVec 3) (d : Bool) : (c.opened e d).cfgZx0 = c.cfgZx0 := rfl
@[simp] theorem Ctx.opened_cfgExpect (c : Ctx) (e : BitVec 3) (d : Bool) : (c.opened e d).cfgExpect = c.cfgExpect := rfl
@[simp] theorem Ctx.opened_namebuf (c : Ctx) (e : BitVec 3) (d : Bool) : (c.opened e d).namebuf = c.namebuf := rfl
@[simp] theorem Ctx.opened_lcfg (c : Ctx) (e : BitVec 3) (d : Bool) : (c.opened e d).lcfg = c.latch := rfl
@[simp] theorem Ctx.opened_inq (c : Ctx) (e : BitVec 3) (d : Bool) : (c.opened e d).inq = [] := rfl
@[simp] theorem Ctx.opened_outq (c : Ctx) (e : BitVec 3) (d : Bool) : (c.opened e d).outq = [] := rfl
@[simp] theorem Ctx.opened_ended (c : Ctx) (e : BitVec 3) (d : Bool) : (c.opened e d).ended = false := rfl
@[simp] theorem Ctx.opened_natend (c : Ctx) (e : BitVec 3) (d : Bool) : (c.opened e d).natend = false := rfl
@[simp] theorem Ctx.opened_eng (c : Ctx) (e : BitVec 3) (d : Bool) : (c.opened e d).eng = c.eng := rfl

/-! ### Error entry (R710) -/

/-- Error entry while IDLE only records the error (R710). -/
theorem Ctx.raise_idle {c : Ctx} (h : c.st = .idle) (e : Err) :
    c.raise e = { c with err := if errClass c.err = 0 then e.word else c.err } := by
  by_cases hc : errClass c.err = 0
  · simp only [Ctx.raise, if_pos hc]; exact if_pos h
  · simp only [Ctx.raise, if_neg hc]; exact if_pos h

/-- Error entry of an open instance (R710). -/
theorem Ctx.raise_open {c : Ctx} (h : c.st ≠ .idle) (e : Err) :
    c.raise e = { c with err := if errClass c.err = 0 then e.word else c.err, st := .error, outq := [], inq := [] } := by
  by_cases hc : errClass c.err = 0
  · simp only [Ctx.raise, if_pos hc]; exact if_neg h
  · simp only [Ctx.raise, if_neg hc]; exact if_neg h

@[simp] theorem Ctx.raise_engine (c : Ctx) (e : Err) : (c.raise e).engine = c.engine := by
  simp only [Ctx.raise]; split <;> split <;> rfl
@[simp] theorem Ctx.raise_dir (c : Ctx) (e : Err) : (c.raise e).dir = c.dir := by
  simp only [Ctx.raise]; split <;> split <;> rfl
@[simp] theorem Ctx.raise_dout (c : Ctx) (e : Err) : (c.raise e).dout = c.dout := by
  simp only [Ctx.raise]; split <;> split <;> rfl
@[simp] theorem Ctx.raise_warn (c : Ctx) (e : Err) : (c.raise e).warn = c.warn := by
  simp only [Ctx.raise]; split <;> split <;> rfl
@[simp] theorem Ctx.raise_inCount (c : Ctx) (e : Err) : (c.raise e).inCount = c.inCount := by
  simp only [Ctx.raise]; split <;> split <;> rfl
@[simp] theorem Ctx.raise_outCount (c : Ctx) (e : Err) : (c.raise e).outCount = c.outCount := by
  simp only [Ctx.raise]; split <;> split <;> rfl
@[simp] theorem Ctx.raise_trailCount (c : Ctx) (e : Err) : (c.raise e).trailCount = c.trailCount := by
  simp only [Ctx.raise]; split <;> split <;> rfl
@[simp] theorem Ctx.raise_cfgDelim (c : Ctx) (e : Err) : (c.raise e).cfgDelim = c.cfgDelim := by
  simp only [Ctx.raise]; split <;> split <;> rfl
@[simp] theorem Ctx.raise_cfgVolume (c : Ctx) (e : Err) : (c.raise e).cfgVolume = c.cfgVolume := by
  simp only [Ctx.raise]; split <;> split <;> rfl
@[simp] theorem Ctx.raise_cfgLzc (c : Ctx) (e : Err) : (c.raise e).cfgLzc = c.cfgLzc := by
  simp only [Ctx.raise]; split <;> split <;> rfl
@[simp] theorem Ctx.raise_cfgSq (c : Ctx) (e : Err) : (c.raise e).cfgSq = c.cfgSq := by
  simp only [Ctx.raise]; split <;> split <;> rfl
@[simp] theorem Ctx.raise_cfgZx0 (c : Ctx) (e : Err) : (c.raise e).cfgZx0 = c.cfgZx0 := by
  simp only [Ctx.raise]; split <;> split <;> rfl
@[simp] theorem Ctx.raise_cfgExpect (c : Ctx) (e : Err) : (c.raise e).cfgExpect = c.cfgExpect := by
  simp only [Ctx.raise]; split <;> split <;> rfl
@[simp] theorem Ctx.raise_namebuf (c : Ctx) (e : Err) : (c.raise e).namebuf = c.namebuf := by
  simp only [Ctx.raise]; split <;> split <;> rfl
@[simp] theorem Ctx.raise_lcfg (c : Ctx) (e : Err) : (c.raise e).lcfg = c.lcfg := by
  simp only [Ctx.raise]; split <;> split <;> rfl
@[simp] theorem Ctx.raise_ended (c : Ctx) (e : Err) : (c.raise e).ended = c.ended := by
  simp only [Ctx.raise]; split <;> split <;> rfl
@[simp] theorem Ctx.raise_natend (c : Ctx) (e : Err) : (c.raise e).natend = c.natend := by
  simp only [Ctx.raise]; split <;> split <;> rfl
@[simp] theorem Ctx.raise_eng (c : Ctx) (e : Err) : (c.raise e).eng = c.eng := by
  simp only [Ctx.raise]; split <;> split <;> rfl
@[simp] theorem Ctx.raise_err (c : Ctx) (e : Err) :
    (c.raise e).err = if errClass c.err = 0 then e.word else c.err := by
  simp only [Ctx.raise]; split <;> split <;> simp_all
@[simp] theorem Ctx.raise_st (c : Ctx) (e : Err) :
    (c.raise e).st = if c.st = .idle then .idle else .error := by
  simp only [Ctx.raise]; split <;> split <;> simp_all

/-! ### Trailing input (R236) -/

@[simp] theorem Ctx.trail_st (c : Ctx) (k : Nat) : (c.trail k).st = c.st := by
  simp only [Ctx.trail]; split <;> rfl
@[simp] theorem Ctx.trail_engine (c : Ctx) (k : Nat) : (c.trail k).engine = c.engine := by
  simp only [Ctx.trail]; split <;> rfl
@[simp] theorem Ctx.trail_dir (c : Ctx) (k : Nat) : (c.trail k).dir = c.dir := by
  simp only [Ctx.trail]; split <;> rfl
@[simp] theorem Ctx.trail_dout (c : Ctx) (k : Nat) : (c.trail k).dout = c.dout := by
  simp only [Ctx.trail]; split <;> rfl
@[simp] theorem Ctx.trail_err (c : Ctx) (k : Nat) : (c.trail k).err = c.err := by
  simp only [Ctx.trail]; split <;> rfl
@[simp] theorem Ctx.trail_inCount (c : Ctx) (k : Nat) : (c.trail k).inCount = c.inCount := by
  simp only [Ctx.trail]; split <;> rfl
@[simp] theorem Ctx.trail_outCount (c : Ctx) (k : Nat) : (c.trail k).outCount = c.outCount := by
  simp only [Ctx.trail]; split <;> rfl
@[simp] theorem Ctx.trail_cfgDelim (c : Ctx) (k : Nat) : (c.trail k).cfgDelim = c.cfgDelim := by
  simp only [Ctx.trail]; split <;> rfl
@[simp] theorem Ctx.trail_cfgVolume (c : Ctx) (k : Nat) : (c.trail k).cfgVolume = c.cfgVolume := by
  simp only [Ctx.trail]; split <;> rfl
@[simp] theorem Ctx.trail_cfgLzc (c : Ctx) (k : Nat) : (c.trail k).cfgLzc = c.cfgLzc := by
  simp only [Ctx.trail]; split <;> rfl
@[simp] theorem Ctx.trail_cfgSq (c : Ctx) (k : Nat) : (c.trail k).cfgSq = c.cfgSq := by
  simp only [Ctx.trail]; split <;> rfl
@[simp] theorem Ctx.trail_cfgZx0 (c : Ctx) (k : Nat) : (c.trail k).cfgZx0 = c.cfgZx0 := by
  simp only [Ctx.trail]; split <;> rfl
@[simp] theorem Ctx.trail_cfgExpect (c : Ctx) (k : Nat) : (c.trail k).cfgExpect = c.cfgExpect := by
  simp only [Ctx.trail]; split <;> rfl
@[simp] theorem Ctx.trail_namebuf (c : Ctx) (k : Nat) : (c.trail k).namebuf = c.namebuf := by
  simp only [Ctx.trail]; split <;> rfl
@[simp] theorem Ctx.trail_lcfg (c : Ctx) (k : Nat) : (c.trail k).lcfg = c.lcfg := by
  simp only [Ctx.trail]; split <;> rfl
@[simp] theorem Ctx.trail_inq (c : Ctx) (k : Nat) : (c.trail k).inq = c.inq := by
  simp only [Ctx.trail]; split <;> rfl
@[simp] theorem Ctx.trail_outq (c : Ctx) (k : Nat) : (c.trail k).outq = c.outq := by
  simp only [Ctx.trail]; split <;> rfl
@[simp] theorem Ctx.trail_ended (c : Ctx) (k : Nat) : (c.trail k).ended = c.ended := by
  simp only [Ctx.trail]; split <;> rfl
@[simp] theorem Ctx.trail_natend (c : Ctx) (k : Nat) : (c.trail k).natend = c.natend := by
  simp only [Ctx.trail]; split <;> rfl
@[simp] theorem Ctx.trail_eng (c : Ctx) (k : Nat) : (c.trail k).eng = c.eng := by
  simp only [Ctx.trail]; split <;> rfl

@[simp] theorem Ctx.trail_zero (c : Ctx) : c.trail 0 = c := rfl

theorem Ctx.trail_succ (c : Ctx) (k : Nat) :
    c.trail (k + 1) =
      { c with trailCount := c.trailCount + BitVec.ofNat 32 (k + 1), warn := c.warn ||| warnTrailing } := rfl

end Sys2Proof.Machine
end

