-- ==== Sys2Proof/Laws/Ops.lean ====
section
/-! SUPPORT. One lemma for each shared operation: all it can do. Later proofs cite these and do not unfold. -/

namespace Sys2Proof.Machine

open Sys2Proof

/-! ### The addressed context -/

/-- What `onCtx` answers where its action is accepted. -/
theorem State.onCtx_ok {s : State} {c : Ctx} {f : Ctx → Except Refusal (Ctx × Nat)} {r : Ctx × Nat}
    (h : s.cur = some c) (hf : f c = .ok r) :
    s.onCtx f = .next { s.setCur r.1 with free := r.2 } := by
  have h' : s.ctxs[s.sel]? = some c := h
  simp [State.onCtx, h', hf, State.setCur]

/-- `onCtx` answers a next state only where the context exists and its action is accepted. -/
theorem State.onCtx_next {s t : State} {f : Ctx → Except Refusal (Ctx × Nat)} (h : s.onCtx f = .next t) :
    ∃ c r, s.cur = some c ∧ f c = .ok r ∧ t = { s.setCur r.1 with free := r.2 } := by
  unfold State.onCtx at h
  split at h
  · cases h
  · next c hc =>
    split at h
    · cases h
    · next c' n hf => exact ⟨c, (c', n), hc, hf, by cases h; rfl⟩

/-- What `onCtxPure` answers. -/
theorem State.onCtxPure_eq {s : State} {c : Ctx} (f : Ctx → Ctx) (h : s.cur = some c) :
    s.onCtxPure f = .next (s.setCur (f c)) := by
  rw [State.onCtxPure, State.onCtx_ok h rfl]; rfl

/-- `onCtxPure` answers a next state only where the context exists. -/
theorem State.onCtxPure_next {s t : State} {f : Ctx → Ctx} (h : s.onCtxPure f = .next t) :
    ∃ c, s.cur = some c ∧ t = s.setCur (f c) := by
  obtain ⟨c, r, hc, hf, rfl⟩ := State.onCtx_next h
  cases hf
  exact ⟨c, hc, rfl⟩

/-- A context replaced, the counter of free values kept. -/
@[simp] theorem State.setCur_free_self (s : State) (c : Ctx) :
    ({ s.setCur c with free := s.free } : State) = s.setCur c := rfl

/-! ### Commit, guards and tokens -/

/-- A commit is accepted exactly where OUTQ has room. -/
theorem Ctx.commit_ok {par : Params} {r q : Ctx × Nat} (h : Ctx.commit par r = .ok q) :
    q = r ∧ hasRoom par r.1.outq.length = true := by
  unfold Ctx.commit at h
  split at h
  · next hr => cases h; exact ⟨rfl, hr⟩
  · cases h

theorem Ctx.commit_of_room {par : Params} {r : Ctx × Nat} (h : hasRoom par r.1.outq.length = true) :
    Ctx.commit par r = .ok r := if_pos h

/-- The state check of a command (R222). -/
theorem Ctx.guarded_ok {c : Ctx} {free : Nat} {ok : Bool} {f : Except Refusal (Ctx × Nat)} {q : Ctx × Nat}
    (h : c.guarded free ok f = .ok q) :
    (c.st = .error ∧ q = (c, free)) ∨ (c.st ≠ .error ∧ ok = true ∧ f = .ok q) ∨
      (c.st ≠ .error ∧ ok = false ∧ q = (c.raise .wrongState, free)) := by
  unfold Ctx.guarded at h
  split at h
  · next he => cases h; exact .inl ⟨he, rfl⟩
  · next he =>
    split at h
    · next ho => exact .inr (.inl ⟨he, ho, h⟩)
    · next ho => cases h; exact .inr (.inr ⟨he, by simpa using ho, rfl⟩)

/-- A token is accepted exactly where its decoder awaits it, its class holds and OUTQ has room. -/
theorem Ctx.token_ok {par : Params} {free : Nat} {c : Ctx} {awaited cls : Bool} {r : Run Engines}
    {q : Ctx × Nat} (h : c.token par free awaited cls r = .ok q) :
    c.expanding = true ∧ awaited = true ∧ cls = true ∧ q = (c.absorb r c.inq, free) ∧
      hasRoom par (c.absorb r c.inq).outq.length = true := by
  unfold Ctx.token at h
  split at h
  · cases h
  · next h1 =>
    split at h
    · cases h
    · next h2 =>
      obtain ⟨rfl, hr⟩ := Ctx.commit_ok h
      simp at h1 h2
      exact ⟨h1.1, h1.2, h2, rfl, hr⟩

theorem Ctx.token_of {par : Params} {free : Nat} {c : Ctx} {awaited cls : Bool} {r : Run Engines}
    (he : c.expanding = true) (ha : awaited = true) (hc : cls = true)
    (hr : hasRoom par (c.absorb r c.inq).outq.length = true) :
    c.token par free awaited cls r = .ok (c.absorb r c.inq, free) := by
  simp only [Ctx.token, he, ha, hc, Bool.and_self, Bool.not_true, Bool.false_eq_true, if_false]
  exact Ctx.commit_of_room hr

/-- An expand instance that can take a token (log entry 3). -/
theorem Ctx.Decoding.expanding {c : Ctx} {eng : BitVec 3} (h : c.Decoding eng) : c.expanding = true := by
  simp [Ctx.expanding, h.st, h.dir, h.natend]

/-! ### Absorbing a stretch of a procedure (R221, R125) -/

theorem Ctx.absorb_running (c : Ctx) (e : Engines) (o rest : List Byte) :
    c.absorb { st := e, out := o, sig := .running } rest =
      { c with eng := e, outq := c.outq ++ o, outCount := c.outCount + BitVec.ofNat 32 o.length, inq := rest } :=
  rfl

theorem Ctx.absorb_raised (c : Ctx) (e : Engines) (o rest : List Byte) (err : Err) :
    c.absorb { st := e, out := o, sig := .raised err } rest =
      { c with eng := e, outq := c.outq ++ o, outCount := c.outCount + BitVec.ofNat 32 o.length,
               inq := rest }.raise err :=
  rfl

theorem Ctx.absorb_returned (c : Ctx) (e : Engines) (o rest : List Byte) :
    c.absorb { st := e, out := o, sig := .returned } rest =
      { c with eng := e, outq := c.outq ++ o, outCount := c.outCount + BitVec.ofNat 32 o.length,
               inq := rest }.procReturned :=
  rfl

/-- A run gives the context after one stretch of the engine procedure, whatever its output is (R221). -/
theorem Ctx.run_eq (par : Params) (free : Nat) (c : Ctx) :
    ∃ r rest n, c.run par free = (c.absorb r rest, n) ∧ rest = (c.runProc par).2 ∧
      r.st = (c.runProc par).1.st ∧ r.sig = (c.runProc par).1.sig := by
  simp only [Ctx.run]
  split
  · exact ⟨_, _, _, rfl, rfl, rfl, rfl⟩
  · exact ⟨_, _, _, rfl, rfl, rfl, rfl⟩

/-! ### Addresses -/

/-- A located address names an existing context. -/
theorem State.locate_lt {s : State} {addr k off : Nat} (h : s.locate addr = some (k, off)) :
    k < s.ctxs.length := by
  unfold State.locate at h
  split at h
  · next hc => cases h; exact hc.2
  · cases h

/-! ### Stretches of a procedure -/

theorem Run.andThen_running {σ : Type} {r : Run σ} (f : σ → Run σ) (h : r.sig = .running) :
    r.andThen f = { st := (f r.st).st, out := r.out ++ (f r.st).out, sig := (f r.st).sig } := by
  unfold Run.andThen; rw [h]

theorem Run.andThen_stopped {σ : Type} {r : Run σ} (f : σ → Run σ) (h : r.sig ≠ .running) :
    r.andThen f = r := by
  unfold Run.andThen; split
  · next h' => exact absurd h' h
  · rfl

/-- A property of the engine state that `r` has and that `f` keeps holds after `r.andThen f`. -/
theorem Run.andThen_keeps {σ : Type} {P : σ → Prop} {r : Run σ} {f : σ → Run σ} (hr : P r.st)
    (hf : ∀ s, P s → P (f s).st) : P (r.andThen f).st := by
  by_cases h : r.sig = .running
  · rw [Run.andThen_running f h]; exact hf _ hr
  · rw [Run.andThen_stopped f h]; exact hr

/-- A property that a procedure's parts keep holds after every drive of it (R221). -/
theorem Proc.drive_keeps {σ : Type} {P : σ → Prop} (p : Proc σ) (hs : ∀ s, P s → P (p.settle s).st)
    (hb : ∀ s b, P s → P (p.byte s b).st) (he : ∀ s, P s → P (p.eof s).st) (ended : Bool) (inq : List Byte)
    {s : σ} (h : P s) : P (p.drive ended inq s).1.st := by
  have feed : ∀ (l : List Byte) (s : σ), P s → P (p.feed l s).1.st := by
    intro l
    induction l with
    | nil => intro s h; exact h
    | cons b bs ih =>
      intro s h
      simp only [Proc.feed]
      split
      · exact ih _ (hb s b h)
      · exact hb s b h
  simp only [Proc.drive]
  split
  · exact h
  · split
    · split
      · exact Run.andThen_keeps (feed _ _ (hs s h)) he
      · exact feed _ _ (hs s h)
    · exact hs s h

end Sys2Proof.Machine
end

