-- ==== Sys2Proof/Laws/PerInstr.lean ====
section
/-! SUPPORT. One lemma for each instruction: exactly the host commands have a command word, and the word
decodes to the command (R160, R161). -/

namespace Sys2Proof.Laws.CommandWord

open Sys2Proof

/-- An instruction has a command word exactly when it is a host command, and that word decodes to it. -/
def Statement (i : Instr) : Prop :=
  (encodeCmd i).isSome = i.isCommand ∧ ∀ w, encodeCmd i = some w → decodeCmd w = i

theorem cmdNop : Statement .cmdNop :=
  ⟨rfl, by intro w h; cases h; decide⟩

theorem cmdOpen (eng : BitVec 3) (dir : Bool) : Statement (Instr.cmdOpen eng dir) :=
  ⟨rfl, by intro w h; cases h; revert eng dir; decide +kernel⟩

theorem cmdFeed (b : Byte) : Statement (Instr.cmdFeed b) :=
  ⟨rfl, by intro w h; cases h; revert b; decide +kernel⟩

theorem cmdProduce : Statement .cmdProduce :=
  ⟨rfl, by intro w h; cases h; decide⟩

theorem cmdFinish : Statement .cmdFinish :=
  ⟨rfl, by intro w h; cases h; decide⟩

theorem cmdSeek : Statement .cmdSeek :=
  ⟨rfl, by intro w h; cases h; decide⟩

theorem cmdClose : Statement .cmdClose :=
  ⟨rfl, by intro w h; cases h; decide⟩

theorem cmdNameByte (b : Byte) : Statement (Instr.cmdNameByte b) :=
  ⟨rfl, by intro w h; cases h; revert b; decide +kernel⟩

theorem cmdNameClear : Statement .cmdNameClear :=
  ⟨rfl, by intro w h; cases h; decide⟩

theorem cmdReserved9 : Statement .cmdReserved9 :=
  ⟨rfl, by intro w h; cases h; decide⟩

theorem cmdReservedAB (lo : BitVec 1) : Statement (Instr.cmdReservedAB lo) :=
  ⟨rfl, by intro w h; cases h; revert lo; decide +kernel⟩

theorem cmdReservedCF (lo : BitVec 2) : Statement (Instr.cmdReservedCF lo) :=
  ⟨rfl, by intro w h; cases h; revert lo; decide +kernel⟩

theorem nufxLit (k : Byte) : Statement (Instr.nufxLit k) :=
  ⟨rfl, fun _ h => nomatch h⟩

theorem nufxClear : Statement .nufxClear :=
  ⟨rfl, fun _ h => nomatch h⟩

theorem nufxTable (k : BitVec 12) : Statement (Instr.nufxTable k) :=
  ⟨rfl, fun _ h => nomatch h⟩

theorem nufxKwkwk (k : BitVec 12) : Statement (Instr.nufxKwkwk k) :=
  ⟨rfl, fun _ h => nomatch h⟩

theorem nufxInvalid (k : BitVec 12) : Statement (Instr.nufxInvalid k) :=
  ⟨rfl, fun _ h => nomatch h⟩

theorem nufxRleRun (v n : Byte) : Statement (Instr.nufxRleRun v n) :=
  ⟨rfl, fun _ h => nomatch h⟩

theorem nufxRleLit (b : Byte) : Statement (Instr.nufxRleLit b) :=
  ⟨rfl, fun _ h => nomatch h⟩

theorem nufx1Hdr (crc : Half) (volume delim : Byte) : Statement (Instr.nufx1Hdr crc volume delim) :=
  ⟨rfl, fun _ h => nomatch h⟩

theorem nufx1Chunk (rlelen : Half) (flag : Byte) : Statement (Instr.nufx1Chunk rlelen flag) :=
  ⟨rfl, fun _ h => nomatch h⟩

theorem nufx2Hdr (volume delim : Byte) : Statement (Instr.nufx2Hdr volume delim) :=
  ⟨rfl, fun _ h => nomatch h⟩

theorem nufx2Chunk (w clen : Half) : Statement (Instr.nufx2Chunk w clen) :=
  ⟨rfl, fun _ h => nomatch h⟩

theorem lzcLit (k : Byte) : Statement (Instr.lzcLit k) :=
  ⟨rfl, fun _ h => nomatch h⟩

theorem lzcClear : Statement .lzcClear :=
  ⟨rfl, fun _ h => nomatch h⟩

theorem lzcTable (k : Half) : Statement (Instr.lzcTable k) :=
  ⟨rfl, fun _ h => nomatch h⟩

theorem lzcKwkwk (k : Half) : Statement (Instr.lzcKwkwk k) :=
  ⟨rfl, fun _ h => nomatch h⟩

theorem lzcInvalid (k : Half) : Statement (Instr.lzcInvalid k) :=
  ⟨rfl, fun _ h => nomatch h⟩

theorem lzcHdr (m0 m1 flags : Byte) : Statement (Instr.lzcHdr m0 m1 flags) :=
  ⟨rfl, fun _ h => nomatch h⟩

theorem lzcGroup (bytes : List Byte) : Statement (Instr.lzcGroup bytes) :=
  ⟨rfl, fun _ h => nomatch h⟩

theorem sqHdr (m0 m1 : Byte) (sum : Half) (name : List Byte) : Statement (Instr.sqHdr m0 m1 sum name) :=
  ⟨rfl, fun _ h => nomatch h⟩

theorem sqCount (numnodes : Half) : Statement (Instr.sqCount numnodes) :=
  ⟨rfl, fun _ h => nomatch h⟩

theorem sqNode (left right : Half) : Statement (Instr.sqNode left right) :=
  ⟨rfl, fun _ h => nomatch h⟩

theorem sqSym (s : Byte) : Statement (Instr.sqSym s) :=
  ⟨rfl, fun _ h => nomatch h⟩

theorem sqEof : Statement .sqEof :=
  ⟨rfl, fun _ h => nomatch h⟩

theorem sqPad (bits : List Bool) : Statement (Instr.sqPad bits) :=
  ⟨rfl, fun _ h => nomatch h⟩

theorem sqRleRun (v n : Byte) : Statement (Instr.sqRleRun v n) :=
  ⟨rfl, fun _ h => nomatch h⟩

theorem sqRleLit (b : Byte) : Statement (Instr.sqRleLit b) :=
  ⟨rfl, fun _ h => nomatch h⟩

theorem usqRun (n : Byte) : Statement (Instr.usqRun n) :=
  ⟨rfl, fun _ h => nomatch h⟩

theorem usqEsc : Statement .usqEsc :=
  ⟨rfl, fun _ h => nomatch h⟩

theorem zx0Literals (bytes : List Byte) : Statement (Instr.zx0Literals bytes) :=
  ⟨rfl, fun _ h => nomatch h⟩

theorem zx0Rep (len : Nat) : Statement (Instr.zx0Rep len) :=
  ⟨rfl, fun _ h => nomatch h⟩

theorem zx0New (msb b : Byte) (len : Nat) : Statement (Instr.zx0New msb b len) :=
  ⟨rfl, fun _ h => nomatch h⟩

theorem zx0End : Statement .zx0End :=
  ⟨rfl, fun _ h => nomatch h⟩

end Sys2Proof.Laws.CommandWord
end

