-- ==== Sys2Proof/Laws/Tokens.lean ====
section
/-! SUPPORT. What a stream token does to the state, once for each engine: where its rule goes on, returns or raises
(R221, R236, R710). -/

namespace Sys2Proof.Machine

open Sys2Proof

theorem hasRoom_zero (par : Params) : hasRoom par 0 = true := by simp [hasRoom]

theorem hasRoom_unbounded {par : Params} (h : par.outqCap = none) (n : Nat) : hasRoom par n = true := by
  simp [hasRoom, h]

theorem Ctx.expanding_st {c : Ctx} (h : c.expanding = true) : c.st = .active := by
  simp [Ctx.expanding] at h; exact h.1.1

/-- Error entry leaves no output, so it is never refused. -/
theorem Ctx.raise_room {par : Params} {c : Ctx} (h : c.st = .active) (e : Err) :
    hasRoom par (c.raise e).outq.length = true := by
  rw [Ctx.raise_open (by rw [h]; decide)]; exact hasRoom_zero _

/-- A token whose rule goes on. -/
theorem Ctx.token_go {par : Params} {free : Nat} {c : Ctx} {aw cls : Bool} {e : Engines} {o : List Byte}
    (he : c.expanding = true) (ha : aw = true) (hc : cls = true)
    (hr : hasRoom par (c.outq.length + o.length) = true) :
    c.token par free aw cls (.go e o) = .ok (c.emit o e, free) := by
  have h : c.absorb (.go e o) c.inq = c.emit o e := rfl
  rw [Ctx.token_of he ha hc (by rw [h]; simpa [Ctx.emit] using hr), h]

/-- A token whose rule raises, without output. -/
theorem Ctx.token_raise {par : Params} {free : Nat} {c : Ctx} {aw cls : Bool} {e : Engines} {err : Err}
    (he : c.expanding = true) (ha : aw = true) (hc : cls = true) :
    c.token par free aw cls (.fail e err) = .ok ({ c with eng := e }.raise err, free) := by
  have h : c.absorb (.fail e err) c.inq = { c with eng := e }.raise err := by
    simp [Ctx.absorb, Run.fail]
  rw [Ctx.token_of he ha hc (by rw [h]; refine Ctx.raise_room ?_ _; exact Ctx.expanding_st he), h]

/-- A token whose rule returns, without output. -/
theorem Ctx.token_ret {par : Params} {free : Nat} {c : Ctx} {aw cls : Bool} {e : Engines}
    (he : c.expanding = true) (ha : aw = true) (hc : cls = true) (hr : hasRoom par c.outq.length = true) :
    c.token par free aw cls (.ret e) = .ok ({ c with eng := e }.procReturned, free) := by
  have h : c.absorb (.ret e) c.inq = { c with eng := e }.procReturned := by
    simp [Ctx.absorb, Run.ret]
  refine (Ctx.token_of he ha hc ?_).trans (by rw [h])
  rw [h]; unfold Ctx.procReturned; split <;> simpa using hr

@[simp] theorem Run.map_go {σ τ : Type} (f : σ → τ) (x : σ) (o : List Byte) :
    (Run.go x o).map f = .go (f x) o := rfl
@[simp] theorem Run.map_fail {σ τ : Type} (f : σ → τ) (x : σ) (e : Err) :
    (Run.fail x e).map f = .fail (f x) e := rfl
@[simp] theorem Run.map_ret {σ τ : Type} (f : σ → τ) (x : σ) : (Run.ret x).map f = .ret (f x) := rfl

/-! ### NuFX -/

/-- The open instance is the NuFX variant a token asks for. -/
theorem Ctx.DecodingNufx.isNufx {c : Ctx} (h : c.DecodingNufx) :
    c.expanding = true ∧ (c.isNufx false || c.isNufx true) = true := by
  rcases h with h | h <;> refine ⟨h.expanding, ?_⟩ <;> simp [Ctx.isNufx, h.engine]

section
variable {s : State} {c : Ctx} {only : Option Bool} {aw cls : NufxDec → Bool} {f : NufxDec → Run NufxDec}
  {d : NufxDec} {o : List Byte} {err : Err}

theorem State.onNufx_go (h : s.cur = some c) (he : c.expanding = true)
    (ho : only.elim (c.isNufx false || c.isNufx true) c.isNufx = true) (ha : aw c.eng.nufxDec = true)
    (hc : cls c.eng.nufxDec = true) (hf : f c.eng.nufxDec = .go d o)
    (hr : hasRoom s.par (c.outq.length + o.length) = true) :
    s.onNufx only aw cls f = .next (s.setCur (c.emit o { c.eng with nufxDec := d })) := by
  rw [State.onNufx, State.onCtx_ok h (r := (c.emit o { c.eng with nufxDec := d }, s.free))]
  · rfl
  · rw [hf, Run.map_go]
    exact Ctx.token_go he (by cases only <;> simp_all [Option.elim]) hc hr

theorem State.onNufx_raise (h : s.cur = some c) (he : c.expanding = true)
    (ho : only.elim (c.isNufx false || c.isNufx true) c.isNufx = true) (ha : aw c.eng.nufxDec = true)
    (hc : cls c.eng.nufxDec = true) (hf : f c.eng.nufxDec = .fail d err) :
    s.onNufx only aw cls f = .next (s.setCur ({ c with eng := { c.eng with nufxDec := d } }.raise err)) := by
  rw [State.onNufx, State.onCtx_ok h (r := ({ c with eng := { c.eng with nufxDec := d } }.raise err, s.free))]
  · rfl
  · rw [hf, Run.map_fail]
    exact Ctx.token_raise he (by cases only <;> simp_all [Option.elim]) hc

end

/-! ### LZC -/

section
variable {s : State} {c : Ctx} {aw cls : LzcDec → Bool} {f : LzcDec → Run LzcDec}
  {d : LzcDec} {o : List Byte} {err : Err}

theorem State.onLzc_go (h : s.cur = some c) (hd : c.Decoding 2) (ha : aw c.eng.lzcDec = true)
    (hc : cls c.eng.lzcDec = true) (hf : f c.eng.lzcDec = .go d o)
    (hr : hasRoom s.par (c.outq.length + o.length) = true) :
    s.onLzc aw cls f = .next (s.setCur (c.emit o { c.eng with lzcDec := d })) := by
  rw [State.onLzc, State.onCtx_ok h (r := (c.emit o { c.eng with lzcDec := d }, s.free))]
  · rfl
  · rw [hf, Run.map_go]
    exact Ctx.token_go hd.expanding (by simp [hd.engine, ha]) hc hr

theorem State.onLzc_raise (h : s.cur = some c) (hd : c.Decoding 2) (ha : aw c.eng.lzcDec = true)
    (hc : cls c.eng.lzcDec = true) (hf : f c.eng.lzcDec = .fail d err) :
    s.onLzc aw cls f = .next (s.setCur ({ c with eng := { c.eng with lzcDec := d } }.raise err)) := by
  rw [State.onLzc, State.onCtx_ok h (r := ({ c with eng := { c.eng with lzcDec := d } }.raise err, s.free))]
  · rfl
  · rw [hf, Run.map_fail]
    exact Ctx.token_raise hd.expanding (by simp [hd.engine, ha]) hc

theorem State.onLzc_ret (h : s.cur = some c) (hd : c.Decoding 2) (ha : aw c.eng.lzcDec = true)
    (hc : cls c.eng.lzcDec = true) (hf : f c.eng.lzcDec = .ret d) (hr : hasRoom s.par c.outq.length = true) :
    s.onLzc aw cls f = .next (s.setCur { c with eng := { c.eng with lzcDec := d } }) := by
  rw [State.onLzc, State.onCtx_ok h
    (r := ({ c with eng := { c.eng with lzcDec := d } }.procReturned, s.free))]
  · have : Ctx.procReturned { c with eng := { c.eng with lzcDec := d } } =
        { c with eng := { c.eng with lzcDec := d } } := by
      unfold Ctx.procReturned; rw [if_neg (by simp [hd.engine])]
    rw [this]; rfl
  · rw [hf, Run.map_ret]
    exact Ctx.token_ret hd.expanding (by simp [hd.engine, ha]) hc hr

end

/-! ### Squeeze -/

section
variable {s : State} {c : Ctx} {aw cls : LCfg → SqDec → Bool} {f : LCfg → SqDec → Run SqDec}
  {d : SqDec} {o : List Byte} {err : Err}

theorem State.onSq_go (h : s.cur = some c) (hd : c.Decoding 3) (ha : aw c.lcfg c.eng.sqDec = true)
    (hc : cls c.lcfg c.eng.sqDec = true) (hf : f c.lcfg c.eng.sqDec = .go d o)
    (hr : hasRoom s.par (c.outq.length + o.length) = true) :
    s.onSq aw cls f = .next (s.setCur (c.emit o { c.eng with sqDec := d })) := by
  rw [State.onSq, State.onCtx_ok h (r := (c.emit o { c.eng with sqDec := d }, s.free))]
  · rfl
  · rw [hf, Run.map_go]
    exact Ctx.token_go hd.expanding (by simp [hd.engine, ha]) hc hr

theorem State.onSq_raise (h : s.cur = some c) (hd : c.Decoding 3) (ha : aw c.lcfg c.eng.sqDec = true)
    (hc : cls c.lcfg c.eng.sqDec = true) (hf : f c.lcfg c.eng.sqDec = .fail d err) :
    s.onSq aw cls f = .next (s.setCur ({ c with eng := { c.eng with sqDec := d } }.raise err)) := by
  rw [State.onSq, State.onCtx_ok h (r := ({ c with eng := { c.eng with sqDec := d } }.raise err, s.free))]
  · rfl
  · rw [hf, Run.map_fail]
    exact Ctx.token_raise hd.expanding (by simp [hd.engine, ha]) hc

theorem State.onSq_ret (h : s.cur = some c) (hd : c.Decoding 3) (ha : aw c.lcfg c.eng.sqDec = true)
    (hc : cls c.lcfg c.eng.sqDec = true) (hf : f c.lcfg c.eng.sqDec = .ret d)
    (hr : hasRoom s.par c.outq.length = true) :
    s.onSq aw cls f = .next (s.setCur { c.trail c.inq.length with
      natend := true, inq := [], eng := { c.eng with sqDec := d } }) := by
  rw [State.onSq, State.onCtx_ok h (r := ({ c with eng := { c.eng with sqDec := d } }.procReturned, s.free))]
  · have : Ctx.procReturned { c with eng := { c.eng with sqDec := d } } = { c.trail c.inq.length with
        natend := true, inq := [], eng := { c.eng with sqDec := d } } := by
      unfold Ctx.procReturned Ctx.trail
      rw [if_pos (by simp [hd.engine, hd.dir])]
      split <;> rfl
    rw [this]; rfl
  · rw [hf, Run.map_ret]
    exact Ctx.token_ret hd.expanding (by simp [hd.engine, ha]) hc hr

end

/-! ### ZX0 -/

section
variable {s : State} {c : Ctx} {aw cls : ZxDec → Bool} {f : ZxDec → Run ZxDec}
  {d : ZxDec} {o : List Byte} {err : Err}

theorem State.onZx_go (h : s.cur = some c) (hd : c.Decoding 4) (ha : aw c.eng.zxDec = true)
    (hc : cls c.eng.zxDec = true) (hf : f c.eng.zxDec = .go d o)
    (hr : hasRoom s.par (c.outq.length + o.length) = true) :
    s.onZx aw cls f = .next (s.setCur (c.emit o { c.eng with zxDec := d })) := by
  rw [State.onZx, State.onCtx_ok h (r := (c.emit o { c.eng with zxDec := d }, s.free))]
  · rfl
  · rw [hf, Run.map_go]
    exact Ctx.token_go hd.expanding (by simp [hd.engine, ha]) hc hr

theorem State.onZx_raise (h : s.cur = some c) (hd : c.Decoding 4) (ha : aw c.eng.zxDec = true)
    (hc : cls c.eng.zxDec = true) (hf : f c.eng.zxDec = .fail d err) :
    s.onZx aw cls f = .next (s.setCur ({ c with eng := { c.eng with zxDec := d } }.raise err)) := by
  rw [State.onZx, State.onCtx_ok h (r := ({ c with eng := { c.eng with zxDec := d } }.raise err, s.free))]
  · rfl
  · rw [hf, Run.map_fail]
    exact Ctx.token_raise hd.expanding (by simp [hd.engine, ha]) hc

theorem State.onZx_ret (h : s.cur = some c) (hd : c.Decoding 4) (ha : aw c.eng.zxDec = true)
    (hc : cls c.eng.zxDec = true) (hf : f c.eng.zxDec = .ret d) (hr : hasRoom s.par c.outq.length = true) :
    s.onZx aw cls f = .next (s.setCur { c.trail c.inq.length with
      natend := true, inq := [], eng := { c.eng with zxDec := d } }) := by
  rw [State.onZx, State.onCtx_ok h (r := ({ c with eng := { c.eng with zxDec := d } }.procReturned, s.free))]
  · have : Ctx.procReturned { c with eng := { c.eng with zxDec := d } } = { c.trail c.inq.length with
        natend := true, inq := [], eng := { c.eng with zxDec := d } } := by
      unfold Ctx.procReturned Ctx.trail
      rw [if_pos (by simp [hd.engine, hd.dir])]
      split <;> rfl
    rw [this]; rfl
  · rw [hf, Run.map_ret]
    exact Ctx.token_ret hd.expanding (by simp [hd.engine, ha]) hc hr

end

end Sys2Proof.Machine
end

