-- ==== Sys2Proof/Laws/Streams.lean ====
section
/-! SUPPORT. What the loops of the engines do: the chain of a string, the RLE tokens of a NuFX chunk, the probe of LZC
compress, and the input of the token port that ends in an error. -/

namespace Sys2Proof.Machine

open Sys2Proof

/-! ### Strings (R340, R447) -/

theorem NufxDec.stringOf_lit (d : NufxDec) (fuel : Nat) {k : Nat} (h : k < 0x100) :
    d.stringOf fuel k = [BitVec.ofNat 8 k] := by
  cases fuel <;> simp [NufxDec.stringOf, h]

/-- While every prefix is a smaller code, any fuel of at least `k` gives the string of `k` (log entry 17). -/
theorem NufxDec.stringOf_fuel {d : NufxDec} (hp : ∀ k, 0x100 ≤ k → Tab.get 0 d.pfx k < k) :
    ∀ {f g k : Nat}, k ≤ f → k ≤ g → d.stringOf f k = d.stringOf g k := by
  intro f
  induction f with
  | zero => intro g k hf _; rw [d.stringOf_lit _ (by omega), d.stringOf_lit _ (by omega)]
  | succ f ih =>
    intro g k hf hg
    by_cases h : k < 0x100
    · rw [d.stringOf_lit _ h, d.stringOf_lit _ h]
    · obtain ⟨g, rfl⟩ : ∃ n, g = n + 1 := ⟨g - 1, by omega⟩
      have := hp k (by omega)
      simp only [NufxDec.stringOf, h, if_false]
      rw [ih (g := g) (by omega) (by omega)]

theorem LzcDec.stringOf_lit (d : LzcDec) (fuel : Nat) {k : Nat} (acc : List Byte) (h : k < 256) :
    d.stringOf fuel k acc = BitVec.ofNat 8 k :: acc := by
  cases fuel <;> simp [LzcDec.stringOf, h]

/-- What follows a string does not change it. -/
theorem LzcDec.stringOf_append (d : LzcDec) : ∀ (f k : Nat) (acc : List Byte),
    d.stringOf f k acc = d.stringOf f k [] ++ acc := by
  intro f
  induction f with
  | zero => intro k acc; rfl
  | succ f ih =>
    intro k acc
    by_cases h : k < 256
    · rw [d.stringOf_lit _ _ h, d.stringOf_lit _ _ h]; rfl
    · simp only [LzcDec.stringOf, h, if_false]
      rw [ih _ (_ :: acc), ih _ [_], List.append_assoc]; rfl

/-- While every prefix is a smaller code, any fuel of at least `k` gives the string of `k` (log entry 17). -/
theorem LzcDec.stringOf_fuel {d : LzcDec} (hp : ∀ k, 256 ≤ k → Tab.get 0 d.tabPrefix k < k) :
    ∀ {f g k : Nat} {acc : List Byte}, k ≤ f → k ≤ g → d.stringOf f k acc = d.stringOf g k acc := by
  intro f
  induction f with
  | zero => intro g k acc hf _; rw [d.stringOf_lit _ _ (by omega), d.stringOf_lit _ _ (by omega)]
  | succ f ih =>
    intro g k acc hf hg
    by_cases h : k < 256
    · rw [d.stringOf_lit _ _ h, d.stringOf_lit _ _ h]
    · obtain ⟨g, rfl⟩ : ∃ n, g = n + 1 := ⟨g - 1, by omega⟩
      have := hp k (by omega)
      simp only [LzcDec.stringOf, h, if_false]
      rw [ih (g := g) (by omega) (by omega)]

/-! ### The RLE tokens of a chunk (R303) -/

theorem NufxDec.rleLit_go {d : NufxDec} (b : Byte) (h : d.chunk.length + 1 ≤ 4096) :
    d.rleLit b = .go { d with chunk := d.chunk ++ [b] } := by
  simp only [NufxDec.rleLit, Config.nufxChunk, List.length_append, List.length_singleton]
  rw [if_neg (by omega)]

theorem NufxDec.rleLit_overrun {d : NufxDec} (b : Byte) (h : 4096 < d.chunk.length + 1) :
    d.rleLit b = .fail { d with chunk := d.chunk ++ [b] } .rleOverrun := by
  simp only [NufxDec.rleLit, Config.nufxChunk, List.length_append, List.length_singleton]
  rw [if_pos h]

theorem NufxDec.rleRun_go {d : NufxDec} (v n : Byte) (h : d.chunk.length + (n.toNat + 1) ≤ 4096) :
    d.rleRun v n = .go { d with chunk := d.chunk ++ List.replicate (n.toNat + 1) v } := by
  simp only [NufxDec.rleRun, Config.nufxChunk, List.length_append, List.length_replicate]
  rw [if_neg (by omega)]

theorem NufxDec.rleRun_overrun {d : NufxDec} (v n : Byte) (h : 4096 < d.chunk.length + (n.toNat + 1)) :
    d.rleRun v n = .fail { d with chunk := d.chunk ++ List.replicate (n.toNat + 1) v } .rleOverrun := by
  simp only [NufxDec.rleRun, Config.nufxChunk, List.length_append, List.length_replicate]
  rw [if_pos h]

/-- One literal of `rle_decode`: the loop goes on with the byte in the chunk. -/
theorem NufxDec.rleLoop_lit (par : Params) (lzw2 : Bool) {d : NufxDec} {b : Byte} (hb : b ≠ d.delimIn)
    (h : d.chunk.length + 1 ≤ 4096) (ys : List Byte) :
    d.rleLoop par lzw2 (b :: ys) = { d with chunk := d.chunk ++ [b] }.rleLoop par lzw2 ys := by
  rw [NufxDec.rleLoop.eq_def]
  simp only [hb, if_false, NufxDec.rleLit_go b h, Run.go]

/-- One run of `rle_decode`: the loop goes on with the run in the chunk. -/
theorem NufxDec.rleLoop_run (par : Params) (lzw2 : Bool) {d : NufxDec} (v n : Byte)
    (h : d.chunk.length + (n.toNat + 1) ≤ 4096) (ys : List Byte) :
    d.rleLoop par lzw2 (d.delimIn :: v :: n :: ys) =
      { d with chunk := d.chunk ++ List.replicate (n.toNat + 1) v }.rleLoop par lzw2 ys := by
  rw [NufxDec.rleLoop.eq_def]
  simp only [if_true, NufxDec.rleRun_go v n h, Run.go]

/-- The end of the stage-1 data: a full chunk is emitted, a shorter one raises RLE_UNDERRUN (R349). -/
theorem NufxDec.rleLoop_nil (par : Params) (lzw2 : Bool) (d : NufxDec) :
    d.rleLoop par lzw2 [] = if d.chunk.length = 4096 then chunkDone par lzw2 { d with pc := .rle [] }
      else .fail { d with pc := .rle [] } .rleUnderrun := rfl

/-! ### The probe of LZC compress (R411) -/

/-- The secondary probe from slot `i` goes on to the `n + 1`-th slot of the sequence while every slot before it lets it,
and stops there on the key or on a slot that ends the probe. -/
theorem LzcEnc.probeFrom_along {quirk : Bool} {htab : Tab Int} {key : Int} {disp : Nat} {f : Nat → Nat}
    (hf : f = fun i => if i < disp then i + 69001 - disp else i - disp) :
    ∀ (n fuel i : Nat), n < fuel →
      (∀ m, m < n → Tab.get (-1) htab (f^[m + 1] i) ≠ key ∧
        continueProbe quirk (Tab.get (-1) htab (f^[m + 1] i)) = true) →
      (Tab.get (-1) htab (f^[n + 1] i) = key → probeFrom quirk htab key disp fuel i = .hit (f^[n + 1] i)) ∧
      (Tab.get (-1) htab (f^[n + 1] i) ≠ key → continueProbe quirk (Tab.get (-1) htab (f^[n + 1] i)) = false →
        probeFrom quirk htab key disp fuel i = .miss (f^[n + 1] i)) := by
  have one : ∀ i, f i = if i < disp then i + Config.lzcHsize - disp else i - disp := fun i => by rw [hf]
  intro n
  induction n with
  | zero =>
    intro fuel i hn _
    obtain ⟨g, rfl⟩ : ∃ g, fuel = g + 1 := ⟨fuel - 1, by omega⟩
    rw [show f^[0 + 1] i = _ from one i]
    refine ⟨fun h => ?_, fun h h' => ?_⟩
    · simp only [probeFrom]; rw [if_pos h]
    · simp only [probeFrom]; rw [if_neg h, h']; rfl
  | succ n ih =>
    intro fuel i hn hm
    obtain ⟨g, rfl⟩ : ∃ g, fuel = g + 1 := ⟨fuel - 1, by omega⟩
    have h0 : Tab.get (-1) htab (f i) ≠ key ∧ continueProbe quirk (Tab.get (-1) htab (f i)) = true := hm 0 (by omega)
    have e : probeFrom quirk htab key disp (g + 1) i = probeFrom quirk htab key disp g (f i) := by
      simp only [probeFrom]
      rw [← one, if_neg h0.1, if_pos h0.2]
    rw [e]
    exact ih g (f i) (by omega) (fun m hmn => hm (m + 1) (by omega))

/-! ### The group reads of LZC expand (R442) -/

/-- With GRP used up the procedure goes straight to a group read, and outputs nothing. -/
theorem LzcDec.settle_empty {d : LzcDec} {ph : LzcPhase} (hg : d.grp = []) (hpc : d.pc = .codes ph) :
    d.settle = .go { d.growWidth with grp := [], pc := .fetch ph } := by
  simp [LzcDec.settle, LzcDec.codesLoop, LzcDec.needGroup, hg, hpc]

/-! ### The token port (log entry 3) -/

/-- A stretch of the port that raises, without output, is error entry. -/
theorem Ctx.tokenRun_fail {par : Params} {free : Nat} {c : Ctx} (h : c.st = .active) (e : Engines) (err : Err) :
    c.tokenRun par free (.fail e err) = .ok ({ c with eng := e }.raise err, free) := by
  have hc : c.absorb (.fail e err) c.inq = { c with eng := e }.raise err := by simp [Ctx.absorb, Run.fail]
  rw [Ctx.tokenRun, hc]
  exact Ctx.commit_of_room (Ctx.raise_room (by exact h) _)

end Sys2Proof.Machine
end

