-- ==== Sys2Proof/Laws/Tab.lean ====
section
/-! SUPPORT. The laws of the sparse tables: read after write, and the canonical form. -/

namespace Sys2Proof

namespace Tab

variable {α : Type} [DecidableEq α] {d : α}

theorem get_of_lt {lo : Nat} {t : Tab α} (h : wfFrom d lo t = true) {k : Nat} (hk : k < lo) :
    get d t k = d := by
  cases t with
  | nil => rfl
  | cons p t =>
    obtain ⟨a, v⟩ := p
    simp only [wfFrom, Bool.and_eq_true, decide_eq_true_eq] at h
    simp only [get]
    rw [if_neg (by omega), if_pos (by omega)]

theorem wfFrom_mono {lo lo' : Nat} (hl : lo' ≤ lo) {t : Tab α} (h : wfFrom d lo t = true) :
    wfFrom d lo' t = true := by
  cases t with
  | nil => rfl
  | cons p t =>
    obtain ⟨a, v⟩ := p
    simp only [wfFrom, Bool.and_eq_true, decide_eq_true_eq] at h ⊢
    exact ⟨⟨by omega, h.1.2⟩, h.2⟩

theorem put_wfFrom {lo : Nat} {t : Tab α} (h : wfFrom d lo t = true) {k : Nat} (hk : lo ≤ k) (v : α) :
    wfFrom d lo (put d t k v) = true := by
  induction t generalizing lo with
  | nil =>
    simp only [put]
    split
    · rfl
    · next hv => simp [wfFrom, hk, hv]
  | cons p t ih =>
    obtain ⟨a, u⟩ := p
    simp only [wfFrom, Bool.and_eq_true, decide_eq_true_eq] at h
    obtain ⟨⟨ha, hu⟩, ht⟩ := h
    simp only [put]
    split
    · next hka =>
      split
      · simp [wfFrom, ha, hu, ht]
      · next hv => simp [wfFrom, hk, hv, hu, ht]; omega
    · next hka =>
      split
      · next hke =>
        split
        · exact wfFrom_mono (by omega) ht
        · next hv => subst hke; simp [wfFrom, hk, hv, ht]
      · next hke =>
        simp only [wfFrom, Bool.and_eq_true, decide_eq_true_eq]
        exact ⟨⟨ha, hu⟩, ih ht (by omega)⟩

/-- A write keeps the canonical form. -/
theorem put_wf {t : Tab α} (h : wf d t = true) (k : Nat) (v : α) : wf d (put d t k v) = true :=
  put_wfFrom h (Nat.zero_le k) v

/-- The empty table is in canonical form. -/
theorem nil_wf : wf d ([] : Tab α) = true := rfl

/-- A read after a write to the same index gives the value written. -/
theorem get_put_same {lo : Nat} {t : Tab α} (h : wfFrom d lo t = true) (k : Nat) (v : α) :
    get d (put d t k v) k = v := by
  induction t generalizing lo with
  | nil =>
    simp only [put]
    split
    · next hv => simp [get, hv]
    · simp [get]
  | cons p t ih =>
    obtain ⟨a, u⟩ := p
    simp only [wfFrom, Bool.and_eq_true, decide_eq_true_eq] at h
    obtain ⟨⟨ha, hu⟩, ht⟩ := h
    simp only [put]
    split
    · next hka =>
      split
      · next hv => simp only [get]; rw [if_neg (by omega), if_pos hka, hv]
      · simp [get]
    · next hka =>
      split
      · next hke =>
        split
        · next hv => rw [get_of_lt ht (by omega), hv]
        · simp [get]
      · next hke =>
        simp only [get]
        rw [if_neg hke, if_neg (by omega)]
        exact ih ht

/-- A write leaves every other index alone. -/
theorem get_put_ne {lo : Nat} {t : Tab α} (h : wfFrom d lo t = true) {k j : Nat} (hj : j ≠ k) (v : α) :
    get d (put d t k v) j = get d t j := by
  induction t generalizing lo with
  | nil =>
    simp only [put]
    split
    · rfl
    · simp [get, hj]
  | cons p t ih =>
    obtain ⟨a, u⟩ := p
    simp only [wfFrom, Bool.and_eq_true, decide_eq_true_eq] at h
    obtain ⟨⟨ha, hu⟩, ht⟩ := h
    simp only [put]
    split
    · next hka =>
      split
      · rfl
      · simp only [get]
        split
        · omega
        · split
          · next h1 h2 => rw [if_neg (by omega), if_pos (by omega)]
          · rfl
    · next hka =>
      split
      · next hke =>
        subst hke
        split
        · simp only [get]
          rw [if_neg hj]
          split
          · next h2 => exact get_of_lt ht (by omega)
          · rfl
        · simp [get, hj]
      · simp only [get]
        rw [ih ht]

theorem filter_wfFrom (f : Nat × α → Bool) {lo : Nat} {t : Tab α} (h : wfFrom d lo t = true) :
    wfFrom d lo (t.filter f) = true := by
  induction t generalizing lo with
  | nil => rfl
  | cons p t ih =>
    obtain ⟨a, u⟩ := p
    simp only [wfFrom, Bool.and_eq_true, decide_eq_true_eq] at h
    obtain ⟨⟨ha, hu⟩, ht⟩ := h
    rw [List.filter_cons]
    split
    · simp [wfFrom, ha, hu, ih ht]
    · exact wfFrom_mono (by omega) (ih ht)

/-- Dropping entries keeps the canonical form (R511 clears TDEPTH of the leaves so). -/
theorem filter_wf (f : Nat × α → Bool) {t : Tab α} (h : wf d t = true) : wf d (t.filter f) = true :=
  filter_wfFrom f h

end Tab

namespace Machine

/-- The working memories after reset are in canonical form. -/
theorem reset_memoryWf : State.reset.memoryWf = true := by decide

end Machine

end Sys2Proof
end

