-- ==== Sys2Proof/Tests/Slice0.lean ====
section
/-! SUPPORT. The model's own tests: ill-formed terms, words written out from the spec's encodings, single steps whose
results stand in 95_test_vectors.md (named by their V-, W- and P-numbers), and a witness for the hypotheses of each
obligation. -/

namespace Sys2Proof.Tests

open Sys2Proof Sys2Proof.Machine

/-! ### Helpers -/

/-- A core with the one context `c`. -/
abbrev one (c : Ctx) : State := { State.reset with ctxs := [c] }

/-- An ACTIVE instance, the rest as after reset. -/
abbrev opn (eng : BitVec 3) (dir : Bool) (e : Engines) : Ctx :=
  { Ctx.reset with st := .active, engine := eng, dir := dir, eng := e }

/-- The first context after an outcome that is a next state. -/
def ctxOf (r : Out) : Option Ctx :=
  match r with
  | .next s => s.ctxs[0]?
  | _ => none

/-- What the host can see of an instance: STATUS, ERR, OUT_COUNT and the output still queued. -/
def seen (r : Out) : Option (Word × Word × Word × List Byte) :=
  (ctxOf r).map (fun c => (c.status, c.err, c.outCount, c.outq))

/-- A MemWrite to CMD of context 0. -/
abbrev cmd (w : Word) : Event := .write 0 4 w

/-- A core with one context and one pending access. -/
abbrev at1 (c : Ctx) (e : Event) : State := { one c with bus := [e] }

/-- LZC expand at a code boundary, MAXBITS 16, block mode, codes of 9 bits. -/
abbrev lzcAt (f : Nat) (ph : LzcPhase) : LzcDec :=
  { maxbits := 16, block := true, maxmaxcode := 65536, freeEnt := f, oldcode := 0x41, finchar := 0x41,
    gsize := 64, pc := .codes ph }

/-- NuFX expand at a code boundary of a chunk with LZW data. -/
abbrev nufxAt (f : Nat) (prev : Option Nat) : NufxDec :=
  { expect := 1, rlelen := 100, useLzw := true, f := f, prev := prev, pc := .code }

/-- Squeeze expand after the tree section of V-S2: node 0 has the leaves 0x41 and EOF. -/
abbrev sqAt (r : RState) : SqDec :=
  { sumWant := 0x41, numnodes := 1, dnode := [(0, -66), (1, -257)], rstate := r, pc := .data }

/-- ZX0 expand before an indicator bit, with the output `41 42` so far. -/
abbrev zxAt (z : ZState) : ZxDec := { zstate := z, hist := [0x42, 0x41], pc := .indic }

/-- ACTIVE expand instances with the given decoder state. -/
abbrev nx (eng : BitVec 3) (d : NufxDec) : Ctx := opn eng true { nufxDec := d }
abbrev lz (d : LzcDec) : Ctx := opn 2 true { lzcDec := d }
abbrev sq (d : SqDec) : Ctx := opn 3 true { sqDec := d }
abbrev zx (d : ZxDec) : Ctx := opn 4 true { zxDec := d }

/-! ### Well-formedness: every check refuses an ill-formed term -/

theorem test_wf_nufxTable : (Instr.nufxTable 0x100).wellFormed = false := by decide
theorem test_wf_nufxKwkwk : (Instr.nufxKwkwk 0x0FF).wellFormed = false := by decide
theorem test_wf_nufxInvalid : (Instr.nufxInvalid 0x100).wellFormed = false := by decide
theorem test_wf_nufx2Chunk : (Instr.nufx2Chunk 0x1000 1).wellFormed = false := by decide
theorem test_wf_lzcTable : (Instr.lzcTable 0x00FF).wellFormed = false := by decide
theorem test_wf_lzcKwkwk : (Instr.lzcKwkwk 0x00FF).wellFormed = false := by decide
theorem test_wf_lzcInvalid : (Instr.lzcInvalid 0x00FF).wellFormed = false := by decide
theorem test_wf_lzcHdr_magic0 : (Instr.lzcHdr 0x1E 0x9D 0x90).wellFormed = false := by decide
theorem test_wf_lzcHdr_magic1 : (Instr.lzcHdr 0x1F 0x9E 0x90).wellFormed = false := by decide
theorem test_wf_lzcHdr_reserved : (Instr.lzcHdr 0x1F 0x9D 0xB0).wellFormed = false := by decide
theorem test_wf_lzcGroup_empty : (Instr.lzcGroup []).wellFormed = false := by decide
theorem test_wf_lzcGroup_long : (Instr.lzcGroup (List.replicate 17 0)).wellFormed = false := by decide
theorem test_wf_sqHdr_magic0 : (Instr.sqHdr 0x77 0xFF 0 []).wellFormed = false := by decide
theorem test_wf_sqHdr_magic1 : (Instr.sqHdr 0x76 0xFE 0 []).wellFormed = false := by decide
theorem test_wf_sqHdr_name : (Instr.sqHdr 0x76 0xFF 0 [0x41, 0]).wellFormed = false := by decide
theorem test_wf_sqPad : (Instr.sqPad (List.replicate 8 false)).wellFormed = false := by decide
theorem test_wf_usqRun : (Instr.usqRun 0).wellFormed = false := by decide
theorem test_wf_zx0Literals : (Instr.zx0Literals []).wellFormed = false := by decide
theorem test_wf_zx0Rep : (Instr.zx0Rep 0).wellFormed = false := by decide
theorem test_wf_zx0New_msb : (Instr.zx0New 0 0xFC 6).wellFormed = false := by decide
theorem test_wf_zx0New_len : (Instr.zx0New 1 0xFC 1).wellFormed = false := by decide
theorem test_wf_zx0New_first_bit : (Instr.zx0New 1 0xFC 2).wellFormed = false := by decide
theorem test_wf_zx0New_good : (Instr.zx0New 1 0xFC 6).wellFormed = true := by decide

/-! ### Decoding: words written out from the encodings -/

-- R160, R161: OP = w[3:0], ENGINE = w[6:4], DIR = w[7], BYTE = w[15:8]; the words of 95_test_vectors.md
theorem test_dec_cmd : decodeCmd 0x00000000 = .cmdNop ∧ decodeCmd 0x000000C1 = .cmdOpen 4 true ∧
    decodeCmd 0x0000D502 = .cmdFeed 0xD5 ∧ decodeCmd 0x00000003 = .cmdProduce ∧
    decodeCmd 0x00000004 = .cmdFinish ∧ decodeCmd 0x00000005 = .cmdSeek ∧ decodeCmd 0x00000006 = .cmdClose ∧
    decodeCmd 0x00005807 = .cmdNameByte 0x58 ∧ decodeCmd 0x00000008 = .cmdNameClear := by decide
theorem test_dec_reserved : decodeCmd 0x00000009 = .cmdReserved9 ∧ decodeCmd 0x0000000A = .cmdReservedAB 0 ∧
    decodeCmd 0x0000000B = .cmdReservedAB 1 ∧ decodeCmd 0x0000000C = .cmdReservedCF 0 ∧
    decodeCmd 0x0000000F = .cmdReservedCF 3 := by decide
-- V-C20: the ignored bits of a FEED
theorem test_dec_ignored : decodeCmd 0xFFFF4102 = decodeCmd 0x00004102 := by decide

abbrev zeros (n : Nat) : List Item := List.replicate n (.bit false)

-- R174: 9-bit codes, bit 0 first: c9:41, c9:100, c9:101
theorem test_dec_nufx : decode (.nufxCode 9 0x101 false)
      [.bit true, .bit false, .bit false, .bit false, .bit false, .bit false, .bit true, .bit false, .bit false]
      = .ok (.nufxLit 0x41, []) ∧
    decode (.nufxCode 9 0x101 false) (zeros 8 ++ [.bit true]) = .ok (.nufxClear, []) ∧
    decode (.nufxCode 9 0x102 false) (.bit true :: zeros 7 ++ [.bit true]) = .ok (.nufxTable 0x101, []) ∧
    decode (.nufxCode 9 0x101 true) (.bit true :: zeros 7 ++ [.bit true]) = .ok (.nufxKwkwk 0x101, []) ∧
    decode (.nufxCode 9 0x101 false) (.bit true :: zeros 7 ++ [.bit true]) = .ok (.nufxInvalid 0x101, []) := by
  decide
-- R175: DELIM v n, or any other byte
theorem test_dec_nufx_rle : decode (.nufxRle 0xDB) [.byte 0xDB, .byte 0x00, .byte 0xFF]
      = .ok (.nufxRleRun 0x00 0xFF, []) ∧
    decode (.nufxRle 0xDB) [.byte 0x41, .byte 0xDB] = .ok (.nufxRleLit 0x41, [.byte 0xDB]) := by decide
-- R170 to R173, the bytes of V-N2 and V-N9
theorem test_dec_nufx_headers : decode .nufx1Hdr [.byte 0x00, .byte 0x82, .byte 0x00, .byte 0xDB]
      = .ok (.nufx1Hdr 0x8200 0x00 0xDB, []) ∧
    decode .nufx1Chunk [.byte 0x31, .byte 0x00, .byte 0x01] = .ok (.nufx1Chunk 0x0031 0x01, []) ∧
    decode .nufx2Hdr [.byte 0x00, .byte 0xDB] = .ok (.nufx2Hdr 0x00 0xDB, []) ∧
    decode .nufx2Chunk [.byte 0x31, .byte 0x80, .byte 0x19, .byte 0x00] = .ok (.nufx2Chunk 0x8031 0x0019, []) ∧
    decode .nufx2Chunk [.byte 0x00, .byte 0x10, .byte 0xA5] = .ok (.nufx2Chunk 0x1000 0, [.byte 0xA5]) := by decide
-- R177: the same 9-bit codes in LZC
theorem test_dec_lzc : decode (.lzcCode 9 257 true true)
      [.bit true, .bit false, .bit false, .bit false, .bit false, .bit false, .bit true, .bit false, .bit false]
      = .ok (.lzcLit 0x41, []) ∧
    decode (.lzcCode 9 257 true false) (zeros 8 ++ [.bit true]) = .ok (.lzcClear, []) ∧
    decode (.lzcCode 9 258 true false) (.bit true :: zeros 7 ++ [.bit true]) = .ok (.lzcTable 0x101, []) ∧
    decode (.lzcCode 9 257 true false) (.bit true :: zeros 7 ++ [.bit true]) = .ok (.lzcKwkwk 0x101, []) ∧
    decode (.lzcCode 9 257 true true) (.bit true :: zeros 7 ++ [.bit true]) = .ok (.lzcInvalid 0x101, []) := by
  decide
-- R176, R178: V-L3's header and group
theorem test_dec_lzc_bytes : decode .lzcHdr [.byte 0x1F, .byte 0x9D, .byte 0x90]
      = .ok (.lzcHdr 0x1F 0x9D 0x90, []) ∧
    decode (.lzcGroup 9) [.byte 0x41, .byte 0x84, .byte 0x00] = .ok (.lzcGroup [0x41, 0x84, 0x00], []) := by decide
-- R179 to R181: the fields of V-S8
theorem test_dec_sq_bytes :
    decode .sqHdr [.byte 0x76, .byte 0xFF, .byte 0x41, .byte 0x00, .byte 0x58, .byte 0x00]
      = .ok (.sqHdr 0x76 0xFF 0x0041 [0x58], []) ∧
    decode .sqCount [.byte 0x01, .byte 0x00] = .ok (.sqCount 1, []) ∧
    decode .sqNode [.byte 0xBE, .byte 0xFF, .byte 0xFF, .byte 0xFE] = .ok (.sqNode (-66) (-257), []) := by decide
-- R182: V-S2's tree; code 0 is 0x41, code 1 is EOF, the rest is padding
theorem test_dec_sq_bits : decode (.sqCode [(0, -66), (1, -257)]) [.bit false] = .ok (.sqSym 0x41, []) ∧
    decode (.sqCode [(0, -66), (1, -257)]) [.bit true] = .ok (.sqEof, []) ∧
    decode (.sqPad 6) (zeros 6) = .ok (.sqPad (List.replicate 6 false), []) := by decide
-- R183, V-S11: `90 41 FF` of DOC, `90 FF` of USQ, and `90 00` of V-S12
theorem test_dec_sq_rle : decode (.sqRle .doc 0x90) [.byte 0x90, .byte 0x41, .byte 0xFF]
      = .ok (.sqRleRun 0x41 0xFF, []) ∧
    decode (.sqRle .doc 0x90) [.byte 0x41] = .ok (.sqRleLit 0x41, []) ∧
    decode (.sqRle .usq 0x90) [.byte 0x90, .byte 0xFF] = .ok (.usqRun 0xFF, []) ∧
    decode (.sqRle .usq 0x90) [.byte 0x90, .byte 0x00] = .ok (.usqEsc, []) := by decide
-- R184 to R186: EG(1) = 1, EG(3) = 011, EGi(1) = 1; V-Z5's NEW(2,6): byte FC, EG(5) = 00011, its first bit in FC
theorem test_dec_zx0 : decode (.zx0 true false false) [.bit true, .byte 0x41] = .ok (.zx0Literals [0x41], []) ∧
    decode (.zx0 false true false) [.bit false, .bit false, .bit true, .bit true] = .ok (.zx0Rep 3, []) ∧
    decode (.zx0 false true false)
      [.bit true, .bit true, .byte 0xFC, .bit false, .bit false, .bit true, .bit true]
      = .ok (.zx0New 1 0xFC 6, []) := by decide
-- V-B16: EGi(256) = 01010101010101011 (current edition), EG(256) = 16 zeros and a 1 (classic)
theorem test_dec_zx0_end : decode (.zx0 false false false) (.bit true ::
      ((List.replicate 8 [Item.bit false, Item.bit true]).flatten ++ [.bit true])) = .ok (.zx0End, []) ∧
    decode (.zx0 false false true) (.bit true :: (zeros 16 ++ [.bit true])) = .ok (.zx0End, []) := by decide
-- R273: the MSB of a new offset passes 256 (V-Z15)
theorem test_dec_zx0_bad : decode (.zx0 false false true)
    (.bit true :: (zeros 15 ++ [.bit true, .bit true])) = .error .badElias := by decide

-- the table's rows at nbits 32, 24, 16 and 9
theorem test_tableWord : decodeTableWord 32 0x21 = some (.cmdOpen 2 false) ∧
    decodeTableWord 24 0x1F9D90 = some (.lzcHdr 0x1F 0x9D 0x90) ∧
    decodeTableWord 16 0x76FF = some (.sqHdr 0x76 0xFF 0 []) ∧
    decodeTableWord 16 0x0100 = some .lzcClear ∧ decodeTableWord 9 0x100 = some .nufxClear ∧
    decodeTableWord 12 0x041 = some (.nufxLit 0x41) := by decide

-- the next step after reset runs exactly the placed instruction
theorem test_fetch_cmd : seen (step (State.reset.withFetchWord 32 0x21)) =
    some (0x121, 0, 3, [0x1F, 0x9D, 0x90]) := by decide
theorem test_fetch_hdr : (ctxOf (step (State.reset.withFetchWord 24 0x1F9D89))).map (fun c => c.eng.lzcDec.maxbits)
    = some 9 := by decide
theorem test_fetch_code : (ctxOf (step (State.reset.withFetchWord 12 0x041))).map (fun c => c.eng.nufxDec.seg)
    = some [0x41] := by decide

/-! ### Bit I/O -/

-- V-B1: put_code(0x101,9); put_code(0x41,9); flush()
theorem test_writer : (let a := ({} : LsbWriter).putCode 0x101 9
    let b := a.1.putCode 0x41 9
    a.2 ++ b.2 ++ b.1.flush.2) = [0x01, 0x83, 0x00] := by decide
-- V-B6: the standard check value of CRC-16/XMODEM over "123456789"
theorem test_crc : crc16Xmodem 0 [0x31, 0x32, 0x33, 0x34, 0x35, 0x36, 0x37, 0x38, 0x39] = 0x31C3 := by decide +kernel
-- V-B16: EGi(256) gives ZOUT 55 55 80
theorem test_eg : (({ backtrack := false } : ZxWriter).writeEg 256 true).zout = [0x55, 0x55, 0x80] := by decide
-- V-S14 and V-N8a: three equal bytes are a run in Squeeze, not in NuFX
theorem test_rle : rleEncode [0x41, 0x41, 0x41] 0x90 3 = [0x90, 0x41, 0x02] ∧
    rleEncode [0x41, 0x41, 0x41] 0xDB 4 = [0x41, 0x41, 0x41] ∧
    rleEncode [0xDB] 0xDB 4 = [0xDB, 0xDB, 0x00] := by decide
-- V-S13 and V-S14 in layout USQ
theorem test_rle_usq : SqEnc.rleEncodeUsq 0x90 [0x90, 0x90, 0x90] = [0x90, 0, 0x90, 0, 0x90, 0] ∧
    SqEnc.rleEncodeUsq 0x90 [0x41, 0x41, 0x41] = [0x41, 0x90, 0x03] := by decide

/-! ### Commands: one step from a small state -/

-- V-C2
theorem test_nop : (ctxOf (step (at1 Ctx.reset (cmd 0)))) = some Ctx.reset := by decide
-- V-C8: OPEN with ENGINE 5
theorem test_open_bad : seen (step (at1 Ctx.reset (cmd 0x51))) = some (0x253, 0x101, 0, []) := by decide
-- V-C16, P1: OPEN LZC, C
theorem test_open_lzc : seen (step (at1 Ctx.reset (cmd 0x21))) = some (0x121, 0, 3, [0x1F, 0x9D, 0x90]) := by decide
-- V-C3
theorem test_feed_idle : seen (step (at1 Ctx.reset (cmd 0x4102))) = some (0, 0x205, 0, []) := by decide
-- P2: the FEED of 60 reaches END
theorem test_feed_end : seen (exec (.cmdFeed 0x60)
    (one { opn 4 true {} with inq := [0xD5, 0x41, 0x55] })) = some (0x545, 0, 1, [0x41]) := by decide
-- V-C16: DOUT after PRODUCE; V-C18
theorem test_produce : (ctxOf (exec .cmdProduce (one { opn 2 false {} with outq := [0x1F, 0x9D] }))).map
    (fun c => (c.dout, c.outq)) = some (0x11F, [0x9D]) := by decide
theorem test_produce_idle : seen (step (at1 Ctx.reset (cmd 3))) = some (0, 0x205, 0, []) := by decide
-- V-S2 and V-Z4: FINISH of the whole-file engines
theorem test_finish_sq : seen (exec .cmdFinish
    (one { opn 3 false { sqEnc := { whole := [0x41] } } with lcfg := { sq := 0x190 } })) =
    some (0x132, 0, 12, [0x76, 0xFF, 0x41, 0, 0, 1, 0, 0xBE, 0xFF, 0xFF, 0xFE, 0x02]) := by decide +kernel
theorem test_finish_zx : seen (exec .cmdFinish
    (one (opn 4 false { zxEnc := { whole := [0x41, 0x41, 0x41, 0x41] } }))) =
    some (0x142, 0, 4, [0x9D, 0x41, 0x55, 0x56]) := by decide +kernel
-- V-C7
theorem test_seek : seen (step (at1 Ctx.reset (cmd 5))) = some (0, 0x104, 0, []) := by decide
-- V-C19: no output appears at CLOSE
theorem test_close : seen (exec .cmdClose (one { opn 4 false { zxEnc := { whole := [0x41] } } with inCount := 1 }))
    = some (0, 0, 0, []) := by decide
-- V-C13
theorem test_name : (ctxOf (step (at1 Ctx.reset (cmd 0x5807)))).map (fun c => c.namebuf) = some [0x58] := by decide
theorem test_name_nul : seen (step (at1 Ctx.reset (cmd 7))) = some (0, 0x501, 0, []) := by decide
theorem test_name_clear : (ctxOf (exec .cmdNameClear (one { Ctx.reset with namebuf := [0x58] }))).map
    (fun c => c.namebuf) = some [] := by decide
-- V-C4, V-C5
theorem test_reserved9 : seen (step (at1 Ctx.reset (cmd 9))) = some (0, 0x105, 0, []) := by decide
theorem test_reservedCF : seen (exec (.cmdReservedCF 3)
    (one { opn 2 false {} with outq := [0x1F, 0x9D, 0x90], outCount := 3 })) = some (0x223, 0x105, 3, []) := by decide
theorem test_reservedAB : seen (step (at1 Ctx.reset (cmd 0xA))) = some (0, 0x105, 0, []) := by decide
-- V-C23: a write to ERR has no effect, and 0x3C reads 0
theorem test_write_err : ctxOf (step (at1 Ctx.reset (.write 0x0C 4 1))) = some Ctx.reset := by decide
-- R50: bits [6:5] and [31:8] of CFG_LZC are not stored
theorem test_write_cfg : (ctxOf (step (at1 Ctx.reset (.write 0x28 4 0xFFFFFFFF)))).map (fun c => c.cfgLzc)
    = some 0x9F := by decide

/-! ### Whole streams, the last byte fed or FINISH given, INQ holding what precedes it -/

-- V-L5: KwKwK in both directions
theorem test_lzc_compress : seen (exec .cmdFinish (one { opn 2 false
      { lzcEnc := { maxbits := 16, block := true, maxmaxcode := 65536, freeEnt := 257 } } with
      inq := [0x41, 0x42, 0x41, 0x42, 0x41, 0x42, 0x41] })) =
    some (0x122, 0, 5, [0x41, 0x84, 0x04, 0x1C, 0x08]) := by decide +kernel
theorem test_lzc_expand : seen (exec .cmdFinish (one { opn 2 true {} with
      inq := [0x1F, 0x9D, 0x90, 0x41, 0x84, 0x04, 0x1C, 0x08] })) =
    some (0x126, 0, 7, [0x41, 0x42, 0x41, 0x42, 0x41, 0x42, 0x41]) := by decide +kernel
-- V-S3
theorem test_sq_expand : seen (exec (.cmdFeed 0x19) (one { opn 3 true {} with lcfg := { sq := 0x190 }, inq :=
      [0x76, 0xFF, 0x83, 0, 0, 2, 0, 0xBD, 0xFF, 1, 0, 0xBE, 0xFF, 0xFF, 0xFE] })) =
    some (0x535, 0, 2, [0x41, 0x42]) := by decide +kernel
-- V-Z6
theorem test_zx_expand : seen (exec .cmdFinish (one { opn 4 true {} with inq :=
      [0x79, 0x41, 0x42, 0x43, 0xFA, 0xBB, 0x58, 0xF8, 0x55, 0x55, 0x80] })) =
    some (0x546, 0, 13, [0x41, 0x42, 0x43, 0x41, 0x42, 0x43, 0x41, 0x42, 0x43, 0x58, 0x41, 0x42, 0x43]) := by
  decide +kernel
-- V-N27: a first code that names no entry; V-N28: RLE data that ends inside a run
theorem test_nufx_bad_code : seen (exec (.cmdFeed 0x01) (one { nx 1 ({ expect := 3 }) with inq :=
      [0x00, 0xDB, 0x03, 0x80, 0x06, 0x00, 0x01] })) = some (0x217, 0x502, 0, []) := by decide +kernel
theorem test_nufx_rle_truncated : seen (exec (.cmdFeed 0x00) (one { nx 1 ({ expect := 1 }) with
      inq := [0x00, 0xDB, 0x02, 0x00, 0xDB] })) = some (0x217, 0x802, 0, []) := by decide +kernel

/-! ### Stream tokens: one token from a small state -/

-- R360: a literal after a previous code makes the entry PREFIX = PREV, SUFFIX = k
theorem test_nufxLit : (ctxOf (exec (.nufxLit 0x42) (one (nx 0 (nufxAt 0x101 (some 0x41)))))).map
    (fun c => (c.eng.nufxDec.seg, c.eng.nufxDec.f, c.eng.nufxDec.prev)) = some ([0x42], 0x102, some 0x42) := by decide
theorem test_nufxLit_entry : (ctxOf (exec (.nufxLit 0x42) (one (nx 0 (nufxAt 0x101 (some 0x41)))))).map
    (fun c => c.eng.nufxDec.string 0x101) = some [0x41, 0x42] := by decide
-- R361
theorem test_nufxClear : (ctxOf (exec .nufxClear (one (nx 0 (nufxAt 0x0FFE (some 0x41)))))).map
    (fun c => (c.eng.nufxDec.f, c.eng.nufxDec.prev)) = some (0x101, none) := by decide
-- R362: entry 0x101 is `41 42`
theorem test_nufxTable : (ctxOf (exec (.nufxTable 0x101) (one (nx 1 ({ nufxAt 0x102 none with pfx := [(0x101, 0x41)], sfx := [(0x101, 0x42)] }))))).map
    (fun c => (c.eng.nufxDec.seg, c.eng.nufxDec.f, c.eng.nufxDec.prev)) =
    some ([0x41, 0x42], 0x102, some 0x101) := by decide
-- R363: `41` then its first byte again
theorem test_nufxKwkwk : (ctxOf (exec (.nufxKwkwk 0x101) (one (nx 1 (nufxAt 0x101 (some 0x41)))))).map (fun c => (c.eng.nufxDec.seg, c.eng.nufxDec.f)) =
    some ([0x41, 0x41], 0x102) := by decide
-- R364
theorem test_nufxInvalid : seen (exec (.nufxInvalid 0x041) (one (nx 0 (nufxAt 0x0FFE (some 0x41))))) = some (0x207, 0x602, 0, []) := by decide
-- R365, R366
theorem test_nufxRleRun : (ctxOf (exec (.nufxRleRun 0x41 0x02) (one (nx 0 ({ delimIn := 0xDB, pc := .rle [] }))))).map (fun c => c.eng.nufxDec.chunk) = some [0x41, 0x41, 0x41] := by decide
theorem test_nufxRleLit : (ctxOf (exec (.nufxRleLit 0x41) (one (nx 0 ({ delimIn := 0xDB, chunk := [0x40], pc := .rle [] }))))).map (fun c => c.eng.nufxDec.chunk) =
    some [0x40, 0x41] := by decide
-- R367 to R370
theorem test_nufx1Hdr : (ctxOf (exec (.nufx1Hdr 0x8200 0 0xDB) (one (opn 0 true {})))).map
    (fun c => (c.eng.nufxDec.crcWant, c.eng.nufxDec.delimIn, c.eng.nufxDec.pc)) = some (0x8200, 0xDB, .loop) := by decide
theorem test_nufx1Chunk : seen (exec (.nufx1Chunk 0x1001 1) (one (nx 0 ({ pc := .chunkHdr [] }))))
    = some (0x207, 0x402, 0, []) := by decide
theorem test_nufx2Hdr : (ctxOf (exec (.nufx2Hdr 0 0xDB) (one (opn 1 true {})))).map
    (fun c => (c.eng.nufxDec.delimIn, c.eng.nufxDec.f)) = some (0xDB, 0x101) := by decide
theorem test_nufx2Chunk : (ctxOf (exec (.nufx2Chunk 0x8031 0x0019) (one (nx 1 ({ f := 0x200, pc := .chunkHdr [] }))))).map
    (fun c => (c.eng.nufxDec.rlelen, c.eng.nufxDec.f, c.eng.nufxDec.pc)) = some (0x31, 0x200, .code) := by decide
-- R345, R346: what the headers that have come in part have written; R370's example chunk word `30 80` is RLELEN 48, LZW
theorem test_nufxHdr_inPart :
    (NufxDec.byte {} true (NufxDec.start {} {}) 0x5A).st.volumeIn = 0x5A ∧
    ((nufxDecProc {} false).feed [0x34, 0x12] (NufxDec.start {} {})).1.st.crcWant = 0x1234 ∧
    ((nufxDecProc {} false).feed [0x34, 0x12, 0x5A] (NufxDec.start {} {})).1.st.volumeIn = 0x5A := by decide
theorem test_nufx2Chunk_inPart :
    (let d := ((nufxDecProc {} true).feed [0x30, 0x80] ({ pc := .chunkHdr [] } : NufxDec)).1.st
     (d.rlelen, d.useLzw, d.pc) = (48, true, .clen 0x8030 [])) := by decide
-- R460: the entry made by `41 42` is 257
theorem test_lzcLit : (ctxOf (exec (.lzcLit 0x42) (one (lz (lzcAt 257 .next))))).map
    (fun c => (c.outq, c.eng.lzcDec.tabPrefix, c.eng.lzcDec.tabSuffix, c.eng.lzcDec.freeEnt)) =
    some ([0x42], [(257, 0x41)], [(257, 0x42)], 258) := by decide
-- R461
theorem test_lzcClear : (ctxOf (exec .lzcClear (one (lz (lzcAt 300 .next))))).map
    (fun c => (c.eng.lzcDec.freeEnt, c.eng.lzcDec.clearFlg)) = some (256, true) := by decide
-- R462, R463
theorem test_lzcTable : (ctxOf (exec (.lzcTable 257) (one (lz ({ lzcAt 258 .next with tabPrefix := [(257, 0x41)], tabSuffix := [(257, 0x42)] }))))).map (fun c => c.outq) =
    some [0x41, 0x42] := by decide
theorem test_lzcKwkwk : (ctxOf (exec (.lzcKwkwk 257) (one (lz (lzcAt 257 .next))))).map
    (fun c => c.outq) = some [0x41, 0x41] := by decide
-- V-L30
theorem test_lzcInvalid : seen (exec (.lzcInvalid 0x105) (one { lz (lzcAt 257 .next) with
      outq := [0x41], outCount := 1 })) = some (0x227, 0x502, 1, []) := by decide
-- V-L27, V-L29: MAXBITS 8, and flags bits 6:5 = 01
theorem test_lzcHdr : seen (exec (.lzcHdr 0x1F 0x9D 0x88) (one (opn 2 true {}))) = some (0x227, 0x302, 0, []) ∧
    seen (exec (.lzcHdr 0x1F 0x9D 0xB0) (one (opn 2 true {}))) = some (0x227, 0x302, 0, []) := by decide
-- V-L22: a group of one byte holds no whole code
theorem test_lzcGroup : (ctxOf (exec (.lzcGroup [0x41]) (one (lz ({ lzcAt 257 .first with pc := .fetch .first }))))).map (fun c => (c.eng.lzcDec.pc, c.natend)) =
    some (.done, false) := by decide
-- V-S20
theorem test_sqHdr : seen (exec (.sqHdr 0x76 0xFE 0x41 []) (one (opn 3 true {}))) = some (0x237, 0x202, 0, []) := by
  decide
-- V-S22: NUMNODES = 257
theorem test_sqCount : seen (exec (.sqCount 257) (one (sq ({ pc := .count [] })))) =
    some (0x237, 0xC02, 0, []) := by decide
-- V-S23: the child reference 5 is not below NUMNODES = 1
theorem test_sqNode : seen (exec (.sqNode 5 (-257)) (one (sq ({ numnodes := 1, pc := .node 0 [] }))))
    = some (0x237, 0xC02, 0, []) := by decide
theorem test_sqSym : (ctxOf (exec (.sqSym 0x41) (one { sq (sqAt .normal) with
      lcfg := { sq := 0x190 } }))).map (fun c => (c.outq, c.eng.sqDec.sum)) = some ([0x41], 0x41) := by decide
-- V-S21: the sum is not the header's
theorem test_sqEof : seen (exec .sqEof (one { sq (sqAt .normal) with
      lcfg := { sq := 0x190 }, outq := [0x41], outCount := 1 })) = some (0x237, 0xB02, 1, []) := by decide
theorem test_sqPad : (ctxOf (exec (.sqPad [true]) (one (sq ({ rd := { rbyte := 0x80, ravail := 1 }, pc := .done }))))).map (fun c => c.eng.sqDec.rd.ravail) = some 0 := by
  decide
-- V-S11: `90 41 2B` is 44 bytes
theorem test_sqRleRun : (ctxOf (exec (.sqRleRun 0x41 0x2B) (one (sq (sqAt .normal))))).map
    (fun c => c.outq) = some (List.replicate 44 0x41) := by decide +kernel
theorem test_sqRleLit : (ctxOf (exec (.sqRleLit 0x41) (one { sq (sqAt .normal) with
      lcfg := { sq := 0x190 } }))).map (fun c => c.outq) = some [0x41] := by decide
-- R503: the USQ expander outputs 41 41 41 41 for `41 90 04` and 41 41 for `41 90 01`
theorem test_usqRun : (ctxOf (exec (.usqRun 4) { one (sq ({ sqAt .normal with rval := 0x41 }))
      with par := { sqLayout := .usq } })).map (fun c => c.outq) = some [0x41, 0x41, 0x41] ∧
    (ctxOf (exec (.usqRun 1) { one (sq ({ sqAt .normal with rval := 0x41 }))
      with par := { sqLayout := .usq } })).map (fun c => c.outq) = some [0x41] := by decide
theorem test_usqEsc : (ctxOf (exec .usqEsc { one { sq (sqAt .normal) with
      lcfg := { sq := 0x190 } } with par := { sqLayout := .usq } })).map (fun c => c.outq) = some [0x90] := by decide
-- V-Z2, V-Z5 and V-Z4 by tokens
theorem test_zx0Literals : (ctxOf (exec (.zx0Literals [0x41, 0x42]) (one (opn 4 true {})))).map
    (fun c => (c.outq, c.eng.zxDec.pc)) = some ([0x41, 0x42], .indic) := by decide
theorem test_zx0New : (ctxOf (exec (.zx0New 1 0xFC 6) (one (zx (zxAt .copyLiterals))))).map
    (fun c => c.outq) = some [0x41, 0x42, 0x41, 0x42, 0x41, 0x42] := by decide
theorem test_zx0Rep : (ctxOf (exec (.zx0Rep 3) (one (zx ({ zxAt .copyLiterals with hist := [0x41] }))))).map (fun c => c.outq) = some [0x41, 0x41, 0x41] := by decide
theorem test_zx0End : seen (exec .zx0End (one (zx (zxAt .copyLiterals)))) =
    some (0x445, 0, 0, []) := by decide
-- V-Z13: offset 2 with 1 byte of history
theorem test_zx0New_far : seen (exec (.zx0New 1 0xFD 2) (one (zx ({ zxAt .copyLiterals with hist := [0x41] })))) = some (0x247, 0xE02, 0, []) := by decide

-- V-Z15 by items; R272: one bit, then no more input; R303: a delimiter, then no more stage-1 data
theorem test_port_errors :
    seen (step (at1 (zx (zxAt .copyLiterals)) (.token .stream (.bit true ::
      (List.replicate 8 [Item.bit false, Item.bit true]).flatten ++ [.bit false, .bit true])))) =
      some (0x247, 0xD02, 0, []) ∧
    seen (step (at1 (zx (zxAt .copyLiterals)) (.token .stream [.bit true]))) = some (0x247, 0x102, 0, []) ∧
    seen (step (at1 (nx 0 { delimIn := 0xDB, pc := .rle [] }) (.token .rle [.byte 0xDB]))) =
      some (0x207, 0x802, 0, []) := by decide +kernel

-- R540, R713: the bytes `77` of a header, and `05 00` of a node entry with NUMNODES 1, fail before the input ends
theorem test_port_early_checks :
    seen (step (at1 (opn 3 true {}) (.token .stream [.byte 0x77]))) = some (0x237, 0x202, 0, []) ∧
    seen (step (at1 (sq { numnodes := 1, pc := .node 0 [] }) (.token .stream [.byte 5, .byte 0]))) =
      some (0x237, 0xC02, 0, []) ∧
    seen (step (at1 (opn 3 true {}) (.token .stream [.byte 0x76]))) = some (0x237, 0x102, 0, []) := by decide
-- R442: the codes c9:41 and CLEAR in a group with padding, then c9:42 from a new group, and nothing more
theorem test_lzc_code_after_clear :
    seen (outThen (step { one (lz { lzcAt 257 .first with gsize := 0, pc := .fetch .first }) with
      bus := [.token .group [.byte 0x41, .byte 0, .byte 2, .byte 0, .byte 0, .byte 0, .byte 0, .byte 0, .byte 0],
        .token .stream [.bit false, .bit true, .bit false, .bit false, .bit false, .bit false, .bit true, .bit false,
          .bit false]] }) step) = some (0x125, 0, 2, [0x41, 0x42]) := by decide +kernel

/-! ### Witnesses: for each obligation with hypotheses, concrete states that meet them; where it has several clauses,
one for each clause at the ends of its range -/

theorem dec (eng : BitVec 3) (e : Engines) : (opn eng true e).Decoding eng := ⟨rfl, rfl, rfl, rfl⟩

theorem wit_ResetLeavesEveryContextIdle : (at1 (opn 2 true {}) .reset).bus = .reset :: [] := rfl

theorem wit_ReadReturnsRegisterAndChangesNothing : ∀ off ∈ [0x00, 0x04, 0x08, 0x0C, 0x10, 0x14, 0x18, 0x1C, 0x20,
      0x24, 0x28, 0x2C, 0x30, 0x34, 0x38, 0x3C],
    let s := at1 Ctx.reset (.read off 4)
    s.par.base % 64 = 0 ∧ s.ctxs[0]? = some Ctx.reset ∧ off < 64 ∧ off % 4 = 0 ∧
      s.bus = .read (s.par.base + 64 * 0 + off) 4 :: [] := by decide

theorem wit_WriteStoresConfigFieldsOnly : ∀ off ∈ [0x04, 0x1C, 0x20, 0x24, 0x28, 0x2C, 0x30, 0x34, 0x38, 0x3C],
    let s := at1 Ctx.reset (.write off 4 0xFFFFFFFF)
    s.par.base % 64 = 0 ∧ s.ctxs[0]? = some Ctx.reset ∧ off < 64 ∧ off % 4 = 0 ∧ off ≠ 0 ∧
      s.bus = .write (s.par.base + 64 * 0 + off) 4 0xFFFFFFFF :: [] := by decide

/-- Width 2, offset 2, and the first addresses after the last block and before the first. -/
theorem wit_StrayAccessesStop :
    ((at1 Ctx.reset (.write 0 2 0)).bus = .write 0 2 0 :: [] ∧ (2 ≠ 4 ∨ 0 % 4 ≠ 0)) ∧
    ((at1 Ctx.reset (.read 2 4)).bus = .read 2 4 :: [] ∧ (4 ≠ 4 ∨ 2 % 4 ≠ 0)) ∧
    (let s := at1 Ctx.reset (.write 64 4 0)
     64 % 4 = 0 ∧ s.par.base + 64 * s.ctxs.length ≤ 64 ∧ s.bus = .write 64 4 0 :: []) ∧
    (let s := { at1 Ctx.reset (.read 60 4) with par := { base := 64 } }
     60 % 4 = 0 ∧ 60 < s.par.base ∧ s.bus = .read 60 4 :: []) := by decide

theorem wit_StepRunsTheWrittenCommand :
    (let s := { State.reset with ctxs := [Ctx.reset, Ctx.reset], bus := [.write 64 4 0x21] }
     s.par.base % 64 = 0 ∧ 1 < s.ctxs.length ∧ s.bus = .write (s.par.base + 64 * 1) 4 0x21 :: []) ∧
    State.reset.bus = [] := by decide

/-- In each token space: the token stands alone, or items are left over. -/
theorem wit_StepRunsTheDecodedToken :
    (let c := opn 1 true {}
     let items := [Item.byte 0, .byte 0xDB, .byte 0x31]
     { one c with bus := [.token .stream items] }.cur = some c ∧
       c.readPoint {} .stream items.length = some .nufx2Hdr ∧
       decode .nufx2Hdr items = .ok (.nufx2Hdr 0 0xDB, [.byte 0x31])) ∧
    (let c := lz { lzcAt 257 .first with pc := .fetch .first }
     let items := List.replicate 9 (Item.byte 0)
     (one c).cur = some c ∧ c.readPoint {} .group items.length = some (.lzcGroup 9) ∧
       decode (.lzcGroup 9) items = .ok (.lzcGroup (List.replicate 9 0), [])) ∧
    (let c := nx 0 { delimIn := 0xDB, pc := .rle [] }
     (one c).cur = some c ∧ c.readPoint {} .rle 1 = some (.nufxRle 0xDB) ∧
       decode (.nufxRle 0xDB) [.byte 0x41] = .ok (.nufxRleLit 0x41, [])) ∧
    (let c := sq { pc := .done }
     (one c).cur = some c ∧ c.readPoint {} .pad 0 = some (.sqPad 0) ∧
       decode (.sqPad 0) [] = .ok (.sqPad [], [])) := by decide

/-- Items that are no token: an MSB of 257 (R273), the first half of an LZW/2 header, of the header of LZC, a run that
ends after its delimiter, and one bit of a 9-bit LZC code. -/
theorem wit_StepRunsTheDecodedToken_errors :
    (let c := zx (zxAt .copyLiterals)
     let items := Item.bit true :: (List.replicate 8 [Item.bit false, Item.bit true]).flatten ++ [.bit false, .bit true]
     c.readPoint {} .stream items.length = some (.zx0 false true false) ∧ (one c).cur = some c ∧
       decode (.zx0 false true false) items = .error .badElias) ∧
    (let c := opn 1 true {}
     c.readPoint {} .stream 1 = some .nufx2Hdr ∧ decode .nufx2Hdr [.byte 0] = .error .truncated ∧ c.engine ≠ 2) ∧
    (let c := opn 2 true {}
     c.readPoint {} .stream 1 = some .lzcHdr ∧ decode .lzcHdr [.byte 0x1F] = .error .truncated) ∧
    (let c := nx 0 { delimIn := 0xDB, pc := .rle [] }
     c.readPoint {} .rle 1 = some (.nufxRle 0xDB) ∧ decode (.nufxRle 0xDB) [.byte 0xDB] = .error .truncated) ∧
    (let c := lz { lzcAt 257 .next with pc := .fetch .next }
     c.readPoint {} .stream 1 = some (.lzcCode 9 257 true false) ∧
       decode (.lzcCode 9 257 true false) [.bit true] = .error .truncated ∧ c.engine = 2 ∧
       hasRoom ({} : Params) c.outq.length = true) := by decide

/-- Of a Squeeze header a right and a wrong first byte; of a node entry one byte, and the references -257 and -258, 0 and
1 with NUMNODES 1. -/
theorem wit_StepRunsTheDecodedToken_squeeze :
    (let c := opn 3 true {}
     c.readPoint {} .stream 1 = some .sqHdr ∧ decode .sqHdr [.byte 0x76] = .error .truncated ∧
       decode .sqHdr [.byte 0x77] = .error .truncated ∧ (0x77 : Byte) ≠ 0x76 ∧ c.engine ≠ 2) ∧
    (let c := sq { numnodes := 1, pc := .node 0 [] }
     c.readPoint {} .stream 2 = some .sqNode ∧ decode .sqNode [.byte 0] = .error .truncated ∧ c.engine ≠ 2) ∧
    (∀ l0 ∈ [(0 : Byte), 1, 0xFF, 0xFE], ∀ l1 ∈ [(0 : Byte), 0xFE],
      decode .sqNode [.byte l0, .byte l1] = .error .truncated) ∧
    ((u16le 0xFF 0xFE).toInt = -257 ∧ (u16le 0xFE 0xFE).toInt = -258 ∧ (u16le 0 0).toInt = 0 ∧ (u16le 1 0).toInt = 1) :=
  ⟨by decide, by decide, by decide, by decide⟩

/-- At least one instruction at every read point, with operands at the ends of their ranges. -/
theorem wit_DecodeInvertsEncode :
    (ReadPoint.cmd.admits (.cmdOpen 7 true) = true ∧ ReadPoint.cmd.admits (.cmdReservedCF 3) = true) ∧
    ((ReadPoint.nufxCode 12 0xFFD true).admits (.nufxKwkwk 0xFFD) = true ∧
      (ReadPoint.nufxCode 9 0x101 false).admits (.nufxInvalid 0x1FF) = true) ∧
    ((ReadPoint.nufxRle 0xDB).admits (.nufxRleLit 0xDC) = true) ∧
    (ReadPoint.nufx1Hdr.admits (.nufx1Hdr 0xFFFF 0xFF 0xFF) = true ∧
      ReadPoint.nufx1Chunk.admits (.nufx1Chunk 0xFFFF 0xFF) = true ∧
      ReadPoint.nufx2Hdr.admits (.nufx2Hdr 0 0) = true ∧
      ReadPoint.nufx2Chunk.admits (.nufx2Chunk 0x8000 0xFFFF) = true) ∧
    (ReadPoint.lzcHdr.admits (.lzcHdr 0x1F 0x9D 0x9F) = true ∧
      (ReadPoint.lzcGroup 16).admits (.lzcGroup (List.replicate 16 0xFF)) = true ∧
      (ReadPoint.lzcCode 16 0xFFFF true false).admits (.lzcKwkwk 0xFFFF) = true) ∧
    (ReadPoint.sqHdr.admits (.sqHdr 0x76 0xFF 0xFFFF [0xFF]) = true ∧
      ReadPoint.sqCount.admits (.sqCount 0xFFFF) = true ∧ ReadPoint.sqNode.admits (.sqNode 0x7FFF 0x8000) = true ∧
      (ReadPoint.sqCode [(0, -66), (1, -257)]).admits (.sqSym 0x41) = true ∧
      (ReadPoint.sqCode [(0, -66), (1, -257)]).admits .sqEof = true ∧
      (ReadPoint.sqPad 7).admits (.sqPad (List.replicate 7 true)) = true ∧
      (ReadPoint.sqRle .usq 0x90).admits (.usqRun 0xFF) = true) ∧
    ((ReadPoint.zx0 true false false).admits (.zx0Literals [0]) = true ∧
      (ReadPoint.zx0 false true true).admits (.zx0New 0xFF 0xFF 2) = true ∧
      (ReadPoint.zx0 false true false).admits (.zx0Rep 1) = true ∧
      (ReadPoint.zx0 false false false).admits .zx0End = true) := by decide +kernel

theorem wit_ErrorEntryDiscardsAndRecords : Ctx.reset.st = .idle ∧ (opn 2 true {}).st ≠ .idle ∧
    Ctx.reset.err.extractLsb' 0 4 = 0 ∧ ({ Ctx.reset with err := 0x502 }).err.extractLsb' 0 4 ≠ 0 := by decide

/-- An instruction that answers a next state, for the statements over all instructions. -/
theorem wit_next (c : Ctx) : ∃ t c', (one c).cur = some c ∧ exec .cmdClose (one c) = .next t ∧ t.cur = some c' :=
  ⟨one c.closeCmd, c.closeCmd, rfl, rfl, rfl⟩

theorem wit_OnlyListedErrorWords : ∃ t c', (one (opn 2 true {})).cur = some (opn 2 true {}) ∧
    exec .cmdClose (one (opn 2 true {})) = .next t ∧ t.cur = some c' := wit_next _

theorem wit_FirstErrorWins : ∃ t c', let c := { Ctx.reset with err := 0x201 }
    (one c).cur = some c ∧ exec (.cmdNameByte 0) (one c) = .next t ∧ t.cur = some c' ∧
    c.err.extractLsb' 0 4 ≠ 0 ∧ (c.st = .idle → ∀ e d, Instr.cmdNameByte 0 ≠ .cmdOpen e d) :=
  ⟨one { Ctx.reset with err := 0x201 }, { Ctx.reset with err := 0x201 }, rfl, rfl, rfl, by decide, by intros; simp⟩

theorem wit_CorruptOnlyInExpand :
    ((opn 2 false {}).dir = false ∧ (opn 2 false {}).err.extractLsb' 0 4 ≠ 2) ∧
    ((opn 2 true {}).dir = true ∧ (opn 2 true {}).err.extractLsb' 0 4 ≠ 3) ∧
    (∃ t c', (one (opn 2 false {})).cur = some (opn 2 false {}) ∧
      exec .cmdClose (one (opn 2 false {})) = .next t ∧ t.cur = some c') :=
  ⟨by decide, by decide, wit_next _⟩

theorem wit_ErrorStateIgnoresCommands : let c := { opn 2 true {} with st := .error }
    (one c).cur = some c ∧ c.st = .error ∧ (Instr.cmdFeed 0).isCommand = true ∧ Instr.cmdFeed 0 ≠ .cmdProduce ∧
      Instr.cmdFeed 0 ≠ .cmdClose := by decide

theorem wit_WrongStateRaises : (one Ctx.reset).cur = some Ctx.reset ∧ Ctx.reset.st = .idle ∧
    (opn 2 true {}).st = .active ∧ ({ opn 2 true {} with st := .finished }).st = .finished := by decide

theorem wit_SeekAndReservedRaise : (one Ctx.reset).cur = some Ctx.reset ∧ Ctx.reset.st ≠ .error ∧
    (let c := { opn 2 true {} with st := .error }
     (one c).cur = some c ∧ c.st = .error) := by decide

/-- LZC compress at MAXBITS 9 and 16; an expand direction at the largest expected length; the widest ENG. -/
theorem wit_OpenStartsAnInstance :
    let c (w x : Word) : Ctx := { Ctx.reset with cfgLzc := w, cfgExpect := x }
    (∀ w x, (one (c w x)).cur = some (c w x) ∧ (c w x).st = .idle ∧ hasRoom (one (c w x)).par 3 = true) ∧
    9 ≤ ((0x09 : Word).extractLsb' 0 5).toNat ∧ ((0x90 : Word).extractLsb' 0 5).toNat ≤ 16 ∧
    (0x7FFFFFFF : Word).getLsbD 31 = false ∧ (1 : BitVec 3).toNat ≤ 1 ∧ (4 : BitVec 3).toNat ≤ 4 :=
  ⟨fun _ _ => ⟨rfl, rfl, rfl⟩, by decide, by decide, by decide, by decide, by decide⟩

theorem wit_OpenRejectsBadConfiguration : (one Ctx.reset).cur = some Ctx.reset ∧ Ctx.reset.st = .idle ∧
    4 < (5 : BitVec 3).toNat ∧ 4 < (7 : BitVec 3).toNat ∧
    ((0x08 : Word).extractLsb' 0 5).toNat < 9 ∧ 16 < ((0x11 : Word).extractLsb' 0 5).toNat ∧
    (0 : BitVec 3).toNat ≤ 1 ∧ (1 : BitVec 3).toNat ≤ 1 ∧ (0x80000000 : Word).getLsbD 31 = true := by decide

theorem wit_FeedCompletes : let c := opn 2 true {}
    (one c).cur = some c ∧ c.st = .active ∧ (one c).par.outqCap = none ∧ (one c).par.maxWhole = none := by decide

theorem wit_FeedAfterNaturalEndCountsTrailing : let c := { opn 4 true {} with natend := true }
    (one c).cur = some c ∧ c.st = .active ∧ c.natend = true := by decide

/-- MAX_WHOLE_FILE unbounded, not reached by one byte, and reached. -/
theorem wit_WholeFileEnginesStoreTheByte : ∀ eng ∈ [(3 : BitVec 3), 4],
    let c := opn eng false { sqEnc := { whole := [0] }, zxEnc := { whole := [0] } }
    (one c).cur = some c ∧ c.st = .active ∧ c.dir = false ∧ c.natend = false ∧ c.inq = [] ∧ c.ended = false ∧
    hasRoom (one c).par c.outq.length = true ∧ c.eng.sqEnc.returned = false ∧ c.eng.zxEnc.returned = false ∧
    (none : Option Nat).all (fun n => decide (c.eng.sqEnc.whole.length < n)) = true ∧
    (some 2).all (fun n => decide (c.eng.sqEnc.whole.length < n)) = true ∧
    (some 1).any (fun n => decide (n ≤ c.eng.zxEnc.whole.length)) = true := by decide

/-- LZC compress at MAXBITS 16 in block mode after the byte `41`, with the given hash table. For the byte `42` the key is
0x420041, the primary slot 0x4241 = 16961, and the next slot 16961 + 69001 - 52040 = 33922. -/
abbrev lzcEncAt (htab : Tab Int) : LzcEnc :=
  { maxbits := 16, block := true, maxmaxcode := 65536, freeEnt := 258, htab := htab, ent := 0x41, haveEnt := true }

/-- The slots of the probe for `42` after `41` (R411). -/
abbrev slot42 (n : Nat) : Nat := (fun i => if i < 52040 then i + 69001 - 52040 else i - 52040)^[n] 0x4241

/-- The first byte; hits and misses in the primary slot and the next one, with the key 0 in it under either quirk; the
table full before the check, and with both outcomes of it. -/
theorem wit_LzcCompressFollowsTheTrie :
    let c := opn 2 false { lzcEnc := lzcEncAt [] }
    ((one c).cur = some c ∧ c.st = .active ∧ c.engine = 2 ∧ c.dir = false ∧ c.natend = false ∧ c.inq = [] ∧
      c.ended = false ∧ c.eng.lzcEnc.returned = false ∧ hasRoom (one c).par c.outq.length = true) ∧
    (({} : LzcEnc).haveEnt = false ∧ ({} : LzcEnc).inCnt ≤ (one c).par.lzcMaxIn) ∧
    (c.eng.lzcEnc.haveEnt = true ∧ c.eng.lzcEnc.inCnt < (one c).par.lzcMaxIn ∧
      (0x42 * 2 ^ c.eng.lzcEnc.maxbits + c.eng.lzcEnc.ent = 0x420041) ∧
      ((0x42 * 2 ^ c.eng.lzcEnc.hshift) ^^^ c.eng.lzcEnc.ent = slot42 0) ∧ slot42 1 = 33922) ∧
    (Tab.get (-1) [(16961, 0x420041)] (slot42 0) = (0x420041 : Int) ∧
      Tab.get (-1) [(16961, 5), (33922, 0x420041)] (slot42 0) = (5 : Int) ∧
      Tab.get (-1) [(16961, 5), (33922, 0x420041)] (slot42 1) = (0x420041 : Int) ∧
      Tab.get (-1) [] (slot42 0) = (-1 : Int) ∧
      Tab.get (-1) [(16961, 5), (33922, 0)] (slot42 1) = (0 : Int)) ∧
    (let e1 := fun (f n : Nat) => (({ lzcEncAt [] with freeEnt := f, inCnt := n + 1 }).output .stale 0x41).1
     (e1 258 1).freeEnt < (e1 258 1).maxmaxcode ∧
     (e1 65536 1).maxmaxcode ≤ (e1 65536 1).freeEnt ∧ (e1 65536 1).inCnt < (e1 65536 1).checkpoint ∧
     (e1 65536 10000).checkpoint ≤ (e1 65536 10000).inCnt ∧ (e1 65536 10000).block = true ∧
     (e1 65536 10000).ratio < (e1 65536 10000).inCnt * 256 / (e1 65536 10000).bytesOut) := by decide +kernel

-- R412: a slot with the key 0 ends the secondary probe only under the quirk
theorem test_lzc_zero_key : let e := lzcEncAt [(16961, 5), (33922, 0), (50883, 0x420041)]
    e.lookup true 0x42 = .miss 33922 ∧ e.lookup false 0x42 = .hit 50883 := by decide +kernel

theorem wit_LzcPastMaximumOutputsFreeBytes :
    let c := opn 2 false { lzcEnc := { haveEnt := true, inCnt := 2147483647 } }
    (one c).cur = some c ∧ c.st = .active ∧ c.engine = 2 ∧ c.dir = false ∧ c.natend = false ∧ c.inq = [] ∧
    c.ended = false ∧ c.eng.lzcEnc.returned = false ∧ c.eng.lzcEnc.haveEnt = true ∧
    (one c).par.lzcMaxIn ≤ c.eng.lzcEnc.inCnt ∧ (one c).par.outqCap = none := by decide

theorem wit_FinishCompletes : let c := opn 3 false {}
    (one c).cur = some c ∧ c.st = .active ∧ (one c).par.outqCap = none := by decide

/-- Each engine in each direction right after OPEN. -/
theorem wit_FinishOnEmptyInput :
    (∀ eng ∈ [(0 : BitVec 3), 1, 2, 3, 4], ∀ dir ∈ [false, true], let c := opn eng dir {}
      (one c).cur = some c ∧ c.st = .active ∧ c.natend = false ∧ c.inq = [] ∧ (one c).par.outqCap = none ∧
      c.eng.nufxEnc = { crc := (one c).par.crcSeed } ∧ c.eng.lzcEnc.haveEnt = false ∧ c.eng.lzcEnc.returned = false ∧
      c.eng.sqEnc = {} ∧ c.eng.zxEnc = {} ∧ c.eng.nufxDec.pc = .hdr [] ∧ c.eng.lzcDec.pc = .hdr [] ∧
      c.eng.sqDec.pc = .hdr [] ∧ c.eng.zxDec = {}) ∧
    (sq { pc := .count [] }).eng.sqDec.pc = .count [] := by decide

theorem wit_ProduceTakesAByte :
    (let c := { opn 2 false {} with outq := [0x1F] }
     (one c).cur = some c ∧ c.st ≠ .idle ∧ c.outq = 0x1F :: []) ∧
    ((opn 2 false {}).outq = [] ∧ (opn 2 false {}).st = .active) ∧
    (let c := { opn 2 false {} with st := .finished }
     (one c).cur = some c ∧ c.st ≠ .idle ∧ c.outq = [] ∧ c.st = .finished) ∧
    (let c := { opn 2 false {} with st := .error }
     (one c).cur = some c ∧ c.st ≠ .idle ∧ c.outq = [] ∧ c.st = .error) := by decide

/-- IDLE, ACTIVE, and ERROR with a FEED. -/
theorem wit_CloseEndsTheInstance : (one Ctx.reset).cur = some Ctx.reset ∧ Ctx.reset.st = .idle ∧
    (one (opn 2 true {})).cur = some (opn 2 true {}) ∧ (opn 2 true {}).st ≠ .idle ∧
    (let c := { opn 2 true {} with st := .error }
     (one c).cur = some c ∧ c.st = .error ∧ Instr.cmdFeed 0 ≠ .cmdClose ∧ exec (.cmdFeed 0) (one c) = .next (one c)) :=
  ⟨rfl, rfl, rfl, by decide, rfl, rfl, by decide, rfl⟩

theorem wit_NameCommandsEditTheName :
    let c := fun n => { Ctx.reset with namebuf := List.replicate n 0x41 }
    ((one (c 254)).cur = some (c 254) ∧ (c 254).st = .idle ∧ (0x41 : Byte) ≠ 0 ∧ (c 254).namebuf.length < 255) ∧
    ((one (c 255)).cur = some (c 255) ∧ (c 255).st = .idle ∧ (c 255).namebuf.length = 255) ∧
    (∀ st ∈ [CState.active, .finished, .error], let c' := { opn 2 true {} with st := st }
      (one c').cur = some c' ∧ c'.st = st) := by
  decide +kernel

/-! NuFX tokens -/

theorem wit_NufxLiteralAndClear : let c := nx 1 (nufxAt 0x101 none)
    ((one c).cur = some c ∧ c.DecodingNufx ∧ c.eng.nufxDec.AtCode ∧ hasRoom (one c).par c.outq.length = true ∧
      c.eng.nufxDec.prev = none) ∧
    ((nufxAt 0xFFD (some 0)).prev = some 0 ∧ (nufxAt 0xFFD (some 0)).f ≤ 0xFFD) :=
  ⟨⟨rfl, .inr (dec _ _), ⟨rfl, rfl⟩, rfl, rfl⟩, rfl, by decide⟩

/-- A table code below F and F itself, with and without a previous code; one entry, 0x101, with the prefix 0x41. -/
theorem wit_NufxTableAndKwkwk : let c := nx 0 (nufxAt 0x102 none)
    ((one c).cur = some c ∧ c.DecodingNufx ∧ c.eng.nufxDec.AtCode ∧ hasRoom (one c).par c.outq.length = true ∧
      0x101 ≤ (0x101 : BitVec 12).toNat ∧ (0x101 : BitVec 12).toNat < c.eng.nufxDec.f ∧
      c.eng.nufxDec.prev = none) ∧
    ((0xFFC : BitVec 12).toNat < (nufxAt 0xFFD (some 0)).f ∧ (nufxAt 0xFFD (some 0)).prev = some 0 ∧
      (nufxAt 0xFFD (some 0)).f ≤ 0xFFD ∧ (0xFFD : BitVec 12).toNat = (nufxAt 0xFFD (some 0)).f) ∧
    (∀ k, 0x100 ≤ k → Tab.get 0 [(0x101, 0x41)] k < k) :=
  ⟨⟨rfl, .inl (dec _ _), ⟨rfl, rfl⟩, rfl, by decide⟩, by decide, fun k hk => by
    simp only [Tab.get]; repeat' split
    all_goals omega⟩

theorem wit_NufxInvalidCodeRaises : let c := nx 0 (nufxAt 0xFFE (some 0))
    ((one c).cur = some c ∧ c.DecodingNufx ∧ c.eng.nufxDec.AtCode ∧ (0 : BitVec 12) ≠ 0x100 ∧
      c.eng.nufxDec.prev ≠ none ∧ 0xFFD < c.eng.nufxDec.f) ∧
    ((nufxAt 0xFFD (some 0)).prev ≠ none ∧ (nufxAt 0xFFD (some 0)).f ≤ 0xFFD ∧
      (nufxAt 0xFFD (some 0)).f < (0xFFE : BitVec 12).toNat ∧ 0x100 ≤ (0xFFE : BitVec 12).toNat) ∧
    ((nufxAt 0x101 none).prev = none ∧ (nufxAt 0x101 none).f ≤ (0x101 : BitVec 12).toNat ∧
      0x100 ≤ (0x101 : BitVec 12).toNat) :=
  ⟨⟨rfl, .inl (dec _ _), ⟨rfl, rfl⟩, by decide⟩, by decide, by decide⟩

/-- A full chunk of 4096 bytes, and one byte more, by a run of 256 and by a literal. -/
theorem wit_NufxRleTokensFillTheChunk : let c := nx 1 { delimIn := 0xDB, pc := .rle [] }
    ((one c).cur = some c ∧ c.DecodingNufx ∧ c.eng.nufxDec.pc = .rle [] ∧
      hasRoom (one c).par c.outq.length = true ∧ (0xDC : Byte) ≠ c.eng.nufxDec.delimIn) ∧
    ((List.replicate 3840 (0 : Byte)).length + ((0xFF : Byte).toNat + 1) ≤ 4096 ∧
      4096 < (List.replicate 3841 (0 : Byte)).length + ((0xFF : Byte).toNat + 1) ∧
      (List.replicate 4095 (0 : Byte)).length + 1 ≤ 4096 ∧
      4096 < (List.replicate 4096 (0 : Byte)).length + 1) :=
  ⟨⟨rfl, .inr (dec _ _), rfl, rfl, by decide⟩, by simp only [List.length_replicate]; decide⟩

/-- NuFX expand one byte before the end of a chunk of stored stage-1 data. -/
abbrev nufxStored (seg : List Byte) (len : Nat) : NufxDec :=
  { expect := 4096, delimIn := 0xDB, rlelen := len, seg := seg, pc := .stored }

/-- Sixteen runs of 256; seventeen; one literal; a run cut after its delimiter and after its value; 4096 raw bytes. -/
theorem wit_NufxChunkEndsWithItsLastByte :
    let run : List Byte := [0xDB, 0x41, 0xFF]
    let runs := fun n => List.replicate n ((0x41 : Byte), some (0xFF : Byte))
    let enc := fun (ts : List (Byte × Option Byte)) =>
      ts.flatMap (fun t => match t.2 with | none => [t.1] | some n => [0xDB, t.1, n])
    let dec := fun (ts : List (Byte × Option Byte)) =>
      ts.flatMap (fun t => match t.2 with | none => [t.1] | some n => List.replicate (n.toNat + 1) t.1)
    let seg16 := (List.replicate 15 run).flatten ++ [0xDB, 0x41]
    let seg17 := (List.replicate 16 run).flatten ++ [0xDB, 0x41]
    (let c := nx 0 (nufxStored seg16 48)
     (one c).cur = some c ∧ c.DecodingNufx ∧ c.inq = [] ∧ c.ended = false ∧ c.eng.nufxDec.pc = .stored ∧
       (one c).par.outqCap = none ∧ c.eng.nufxDec.rlelen = c.eng.nufxDec.seg.length + 1 ∧
       c.eng.nufxDec.rlelen < 4096 ∧ (∀ t ∈ runs 16, t.2 = none → t.1 ≠ c.eng.nufxDec.delimIn)) ∧
    (seg16 ++ [0xFF] = enc (runs 16) ++ [] ∧ (dec (runs 16)).length = 4096) ∧
    (seg17 ++ [0xFF] = enc (runs 17) ++ [] ∧ 4096 < (dec (runs 17)).length) ∧
    ([0x41] = enc [(0x41, none)] ++ [] ∧ (dec [(0x41, none)]).length < 4096 ∧ (0x41 : Byte) ≠ 0xDB) ∧
    ([0x41, 0xDB] = enc [(0x41, none)] ++ [0xDB] ∧ [0x41, 0xDB, 0x42] = enc [(0x41, none)] ++ [0xDB, 0x42]) ∧
    (List.replicate 4095 (0xDB : Byte) ++ [0xDB]).length = 4096 ∧
    -- the data go on (expect 4097), and end (expect 4096), where no CRC value equals both 0 and 1
    (0 + min 4096 (4097 - 0) < 4097 ∧ 4096 ≤ 0 + min 4096 (4096 - 0)) ∧ ∀ crc : Half, crc ≠ 0 ∨ crc ≠ 1 :=
  ⟨⟨rfl, .inl (dec _ _), rfl, rfl, rfl, rfl, rfl, show 48 < 4096 by decide,
      fun t ht h => by rw [List.eq_of_mem_replicate ht] at h; cases h⟩, by decide +kernel, by decide +kernel,
    by decide, by decide, by rw [List.length_append, List.length_replicate, List.length_singleton],
    by decide, fun crc => (em (crc = 0)).elim (fun h => .inr (by rw [h]; decide)) .inl⟩

-- R350, R345 in LZW/2: sixteen runs of 256, stored, of which 3 bytes are data; then the natural end
theorem test_nufx_chunk : seen (exec (.cmdFeed 0xFF) (one (nx 1 { nufxStored
      ((List.replicate 15 [0xDB, 0x41, 0xFF]).flatten ++ [0xDB, 0x41]) 48 with expect := 3 }))) =
    some (0x515, 0, 3, [0x41, 0x41, 0x41]) := by decide +kernel

theorem wit_NufxStreamHeaders : ∀ eng ∈ [(0 : BitVec 3), 1], let c := nx eng {}
    (one c).cur = some c ∧ c.eng.nufxDec.pc = .hdr [] ∧ hasRoom (one c).par c.outq.length = true ∧
      c.Decoding eng := fun eng _ => ⟨rfl, rfl, rfl, dec eng _⟩

theorem wit_NufxChunkHeaders : (∀ eng ∈ [(0 : BitVec 3), 1], let c := nx eng { pc := .chunkHdr [] }
      (one c).cur = some c ∧ c.eng.nufxDec.pc = .chunkHdr [] ∧ hasRoom (one c).par c.outq.length = true ∧
      c.Decoding eng) ∧
    ((1 : Byte).toNat ≤ 1 ∧ (0x1000 : Half).toNat ≤ 4096) ∧
    (1 < (2 : Byte).toNat ∧ 4096 < (0x1001 : Half).toNat) ∧
    (((0xF000 : Half).extractLsb' 0 13).toNat ≤ 4096 ∧ 4096 < ((0x1001 : Half).extractLsb' 0 13).toNat) :=
  ⟨fun eng _ => ⟨rfl, rfl, rfl, dec eng _⟩, by decide, by decide, by decide⟩

/-! LZC tokens -/

theorem wit_LzcLiteralOutputsItsByte : (∀ ph ∈ [LzcPhase.first, .afterClear, .next], let c := lz (lzcAt 257 ph)
      (one c).cur = some c ∧ c.Decoding 2 ∧ c.eng.lzcDec.AtPhase ph ∧
      hasRoom (one c).par (c.outq.length + 1) = true) ∧
    ((lzcAt 65535 .next).freeEnt < (lzcAt 65535 .next).maxmaxcode ∧
      (lzcAt 65536 .next).maxmaxcode ≤ (lzcAt 65536 .next).freeEnt) ∧
    (∀ ph ∈ [LzcPhase.first, .afterClear, .next], let c := lz { lzcAt 257 ph with pc := .fetch ph }
      c.eng.lzcDec.AtPhase ph ∧ c.eng.lzcDec.pc = .fetch ph ∧ c.inq = [] ∧ c.ended = false ∧
      ∃ c', exec (.lzcLit 0x42) (one c) = .next ((one c).setCur c')) :=
  ⟨fun _ _ => ⟨rfl, dec _ _, .inl rfl, rfl⟩, by decide, fun ph h => ⟨.inr ⟨rfl, rfl⟩, rfl, rfl, rfl, by
    fin_cases h <;> exact ⟨_, rfl⟩⟩⟩

theorem wit_LzcClearStartsANewGroup : let c := lz { lzcAt 257 .next with pc := .fetch .next }
    (one c).cur = some c ∧ c.Decoding 2 ∧ c.eng.lzcDec.AtPhase .next ∧ c.eng.lzcDec.block = true ∧
      hasRoom (one c).par c.outq.length = true := ⟨rfl, dec _ _, .inr ⟨rfl, rfl⟩, rfl, rfl⟩

/-- Codes 257 (block mode) and 256 (without it), below and at FREE_ENT. -/
theorem wit_LzcTableAndKwkwk : let c := lz (lzcAt 258 .next)
    let c' := lz { lzcAt 257 .next with block := false }
    ((one c).cur = some c ∧ c.Decoding 2 ∧ c.eng.lzcDec.AtPhase .next ∧ 256 ≤ (257 : Half).toNat ∧
      ¬ ((257 : Half) = 256 ∧ c.eng.lzcDec.block = true) ∧ (257 : Half).toNat < c.eng.lzcDec.freeEnt ∧
      (258 : Half).toNat = c.eng.lzcDec.freeEnt ∧
      hasRoom (one c).par (c.outq.length + ((c.eng.lzcDec.string 0x41).length + 1)) = true) ∧
    (c'.Decoding 2 ∧ c'.eng.lzcDec.AtPhase .next ∧ ¬ ((256 : Half) = 256 ∧ c'.eng.lzcDec.block = true) ∧
      (256 : Half).toNat < c'.eng.lzcDec.freeEnt) ∧
    (∀ k, 256 ≤ k → Tab.get 0 [(257, 0x41)] k < k) :=
  ⟨⟨rfl, dec _ _, .inl rfl, by decide⟩, ⟨dec _ _, .inl rfl, by decide⟩, fun k hk => by
    simp only [Tab.get]; repeat' split
    all_goals omega⟩

theorem wit_LzcInvalidCodeRaises :
    (∀ ph ∈ [LzcPhase.first, .afterClear], let c := lz (lzcAt 257 ph)
      (one c).cur = some c ∧ c.Decoding 2 ∧ c.eng.lzcDec.AtPhase ph ∧ 256 ≤ (256 : Half).toNat) ∧
    (LzcPhase.first ≠ .next ∧ LzcPhase.afterClear ≠ .next) ∧
    (let c := lz (lzcAt 257 .next)
     (one c).cur = some c ∧ c.Decoding 2 ∧ c.eng.lzcDec.AtPhase .next ∧ 256 ≤ (258 : Half).toNat ∧
      c.eng.lzcDec.freeEnt < (258 : Half).toNat ∧ ¬ ((258 : Half) = 256 ∧ c.eng.lzcDec.block = true)) :=
  ⟨fun _ _ => ⟨rfl, dec _ _, .inl rfl, by decide⟩, by decide, rfl, dec _ _, .inl rfl, by decide⟩

theorem wit_LzcHeaderIsChecked : let c := lz {}
    ((one c).cur = some c ∧ c.Decoding 2 ∧ c.eng.lzcDec.pc = .hdr [] ∧ hasRoom (one c).par c.outq.length = true) ∧
    (∀ flags ∈ [(0x89 : Byte), 0x10], flags.extractLsb' 5 2 = 0 ∧ 9 ≤ (flags.extractLsb' 0 5).toNat ∧
      (flags.extractLsb' 0 5).toNat ≤ 16) ∧
    (((0x88 : Byte).extractLsb' 0 5).toNat < 9 ∧ 16 < ((0x91 : Byte).extractLsb' 0 5).toNat ∧
      (0xB0 : Byte).extractLsb' 5 2 ≠ 0 ∧ (0x1E : Byte) ≠ 0x1F ∧ (0x9E : Byte) ≠ 0x9D) :=
  ⟨⟨rfl, dec _ _, rfl, rfl⟩, by decide, by decide⟩

/-- One byte of a 9-bit group (no whole code), two bytes (one code) and all nine. -/
theorem wit_LzcGroupIsRead : let c := lz { lzcAt 257 .next with pc := .fetch .next }
    ((one c).cur = some c ∧ c.Decoding 2 ∧ c.eng.lzcDec.pc = .fetch .next ∧ c.eng.lzcDec.grp = [] ∧
      hasRoom (one c).par c.outq.length = true) ∧
    ∀ n ∈ [1, 2, 9], 1 ≤ (List.replicate n (0 : Byte)).length ∧
      (List.replicate n (0 : Byte)).length ≤ c.eng.lzcDec.nBits :=
  ⟨⟨rfl, dec _ _, rfl, rfl, rfl⟩, by decide⟩

/-! Squeeze tokens -/

theorem wit_SqueezeHeaderAndCount : let c := sq {}
    ((one c).cur = some c ∧ c.Decoding 3 ∧ hasRoom (one c).par c.outq.length = true ∧ c.eng.sqDec.pc = .hdr []) ∧
    (sq { pc := .count [] }).eng.sqDec.pc = .count [] ∧
    (0 < (1 : Half).toNat ∧ (256 : Half).toNat ≤ 256 ∧ 256 < (257 : Half).toNat ∧ (0x77 : Byte) ≠ 0x76 ∧
      (0xFE : Byte) ≠ 0xFF) :=
  ⟨⟨rfl, dec _ _, rfl, rfl⟩, rfl, by decide⟩

/-- Of two nodes the first and the last; references -257, -1, 0 and NUMNODES - 1, and just outside. -/
theorem wit_SqueezeNodeIsChecked : let c := sq { numnodes := 2, pc := .node 0 [] }
    ((one c).cur = some c ∧ c.Decoding 3 ∧ c.eng.sqDec.pc = .node 0 [] ∧
      hasRoom (one c).par c.outq.length = true ∧ c.eng.sqDec.numnodes = 2) ∧
    (0 + 1 < 2 ∧ 1 + 1 = 2) ∧
    (-257 ≤ (-257 : Half).toInt ∧ (-257 : Half).toInt ≤ -1 ∧ (-1 : Half).toInt ≤ -1) ∧
    (0 ≤ (0 : Half).toInt ∧ (1 : Half).toInt < 2) ∧
    ((-258 : Half).toInt < -257 ∧ ¬ (2 : Half).toInt < 2) :=
  ⟨⟨rfl, dec _ _, rfl, rfl, rfl⟩, by decide, by simp, by simp, by simp⟩

theorem wit_SqueezeSymbolFeedsTheRleExpander : ∀ r ∈ [RState.normal, .haveDelim, .haveValue],
    let c := sq { sqAt r with dnode := [(0, -66), (1, -145)] }
    (one c).cur = some c ∧ c.Decoding 3 ∧ c.eng.sqDec.AtCode ∧
      c.eng.sqDec.hasLeaf (0x41 : Byte).toNat = true ∧ c.eng.sqDec.hasLeaf (0x90 : Byte).toNat = true ∧
      c.eng.sqDec.rstate = r ∧ hasRoom (one c).par (c.outq.length + 256) = true :=
  fun r _ => ⟨rfl, dec _ _, ⟨rfl, rfl⟩, by simp [SqDec.hasLeaf, sqLeafRef], by simp [SqDec.hasLeaf, sqLeafRef],
    rfl, hasRoom_unbounded rfl _⟩

theorem wit_SqueezeEofEndsTheStream : (∀ r ∈ [RState.normal, .haveDelim, .haveValue], let c := sq (sqAt r)
      (one c).cur = some c ∧ c.Decoding 3 ∧ c.eng.sqDec.AtCode ∧ c.eng.sqDec.hasLeaf 256 = true ∧
      hasRoom (one c).par c.outq.length = true ∧ c.eng.sqDec.rstate = r) ∧
    (0x190 : Word).getLsbD 8 = true ∧ (0x90 : Word).getLsbD 8 = false ∧
    (sqAt .normal).sum ≠ (sqAt .normal).sumWant ∧
    ({ sqAt .normal with sum := 0x41 }).sum = ({ sqAt .normal with sum := 0x41 }).sumWant :=
  ⟨fun _ _ => ⟨rfl, dec _ _, ⟨rfl, rfl⟩, rfl, rfl, rfl⟩, by decide, by decide, by decide, rfl⟩

theorem wit_SqueezePaddingIsDiscarded : let c := { sq { pc := .done } with natend := true }
    (one c).cur = some c ∧ c.st = .active ∧ c.dir = true ∧ c.engine = 3 ∧ c.eng.sqDec.pc = .done ∧
      ([] : List Bool).length ≤ 7 ∧ (List.replicate 7 true).length ≤ 7 := by decide

theorem wit_SqueezeRleTokens : ∀ ly ∈ [SqLayout.doc, .usq],
    let s := { one (sq (sqAt .normal)) with par := { sqLayout := ly } }
    let c := sq (sqAt .normal)
    s.cur = some c ∧ c.Decoding 3 ∧ c.eng.sqDec.pc = .data ∧ c.eng.sqDec.rstate = .normal ∧ s.par.sqLayout = ly ∧
      (0x41 : Byte) ≠ c.lcfg.sq.setWidth 8 ∧ (1 : Byte) ≠ 0 ∧ hasRoom s.par (c.outq.length + 256) = true :=
  fun _ _ => ⟨rfl, dec _ _, rfl, rfl, rfl, by decide, by decide, rfl⟩

/-! ZX0 tokens -/

theorem wit_Zx0LiteralsAndEnd : (let c := zx {}
      (one c).cur = some c ∧ c.Decoding 4 ∧ c.eng.zxDec.pc = .start ∧ 1 ≤ [(0 : Byte)].length ∧
      hasRoom (one c).par (c.outq.length + 1) = true) ∧
    (let c := zx (zxAt .copyFromNewOffset)
     (one c).cur = some c ∧ c.Decoding 4 ∧ c.eng.zxDec.pc = .indic ∧ c.eng.zxDec.zstate ≠ .copyLiterals) :=
  ⟨⟨rfl, dec _ _, rfl, by decide, rfl⟩, rfl, dec _ _, rfl, by decide⟩

/-- Offsets at the length of the history, and past it. -/
theorem wit_Zx0CopiesFromHistory : let c := zx (zxAt .copyLiterals)
    ((one c).cur = some c ∧ c.Decoding 4 ∧ c.eng.zxDec.pc = .indic ∧ c.eng.zxDec.zstate = .copyLiterals ∧
      hasRoom (one c).par (c.outq.length + 2) = true) ∧
    (c.eng.zxDec.lastOffset ≤ c.eng.zxDec.hist.length ∧
      ({ zxAt .copyLiterals with lastOffset := 3 }).hist.length < 3) ∧
    ((1 : Byte) ≠ 0 ∧ 2 ≤ 2 ∧ ((0xFD : Byte).getLsbD 0 = true ↔ 2 = 2) ∧ ((0xFC : Byte).getLsbD 0 = true ↔ 3 = 2) ∧
      (1 : Byte).toNat * 128 - (0xFD : Byte).toNat / 2 ≤ c.eng.zxDec.hist.length ∧
      c.eng.zxDec.hist.length < (1 : Byte).toNat * 128 - (0xFB : Byte).toNat / 2) :=
  ⟨⟨rfl, dec _ _, rfl, rfl, rfl⟩, by decide, by decide⟩

/-! Invariants and frames -/

theorem reset_ok : Ctx.reset.Ok := by constructor <;> decide

/-- The pending OPEN LZC, C of P1. -/
theorem wit_StepKeepsStateWellKept : (at1 Ctx.reset (cmd 0x21)).Ok ∧ ∃ t, step (at1 Ctx.reset (cmd 0x21)) = .next t :=
  ⟨⟨by decide, fun _ h => by rw [List.mem_singleton.mp h]; exact reset_ok⟩, _, rfl⟩

theorem wit_StepKeepsMemoryCanonical : (at1 Ctx.reset (cmd 0x21)).memoryWf = true ∧
    ∃ t, step (at1 Ctx.reset (cmd 0x21)) = .next t := ⟨by decide, _, rfl⟩

/-- OUTQ_CAP 0, and a FEED that outputs nothing. -/
theorem wit_BoundedOutputQueueIsNeverPassed :
    let s := { one (opn 2 true {}) with par := { outqCap := some 0 } }
    ∃ t c', s.cur = some (opn 2 true {}) ∧ s.par.outqCap = some 0 ∧ (opn 2 true {}).outq.length ≤ 0 ∧
      exec (.cmdFeed 0x1F) s = .next t ∧ t.cur = some c' ∧ s.par.maxWhole = none ∧
      (one (opn 2 true {})).par.outqCap = none := ⟨_, _, rfl, rfl, by decide, rfl, rfl, rfl, rfl⟩

theorem wit_OtherContextsAreUntouched : ∃ t, exec .cmdClose (one (opn 2 true {})) = .next t ∧
    1 ≠ (one (opn 2 true {})).sel := ⟨_, rfl, by decide⟩

theorem wit_RegistersChangeOnlyWhereNamed : ∃ t c', (one (opn 2 true {})).cur = some (opn 2 true {}) ∧
    exec .cmdClose (one (opn 2 true {})) = .next t ∧ t.cur = some c' ∧
    ((∀ b, Instr.cmdClose ≠ .cmdNameByte b) ∧ Instr.cmdClose ≠ .cmdNameClear ∧
      (∀ e d, Instr.cmdClose ≠ .cmdOpen e d) ∧ Instr.cmdClose ≠ .cmdProduce ∧ Instr.cmdClose ≠ .cmdFinish ∧
      ∀ b, Instr.cmdClose ≠ .cmdFeed b) ∧ Instr.cmdSeek ≠ .cmdClose := by
  obtain ⟨t, c', h⟩ := wit_next (opn 2 true {})
  exact ⟨t, c', h.1, h.2.1, h.2.2, by simp⟩

/-- A FEED into LZC expand. -/
theorem wit_OnlyTheOpenEngineChanges : ∃ t c', (one (opn 2 true {})).cur = some (opn 2 true {}) ∧
    exec (.cmdFeed 0x1F) (one (opn 2 true {})) = .next t ∧ t.cur = some c' ∧
    (∀ e d, Instr.cmdFeed 0x1F ≠ .cmdOpen e d) ∧ Instr.cmdFeed 0x1F ≠ .cmdClose ∧
    ¬ ((2 : BitVec 3).toNat ≤ 1) ∧ ¬ ((2 : BitVec 3) = 3) ∧ ¬ ((2 : BitVec 3) = 4) ∧ ¬ (true = false) :=
  ⟨_, _, rfl, rfl, rfl, by simp⟩

theorem wit_SqueezeRleRoundTrip : ({} : SqDec).rstate = .normal := rfl

theorem wit_Zx0CopyReadsItsOwnOutput : 1 ≤ 1 ∧ 1 ≤ [(0x41 : Byte)].length ∧ 2 ≤ [(0x42 : Byte), 0x41].length := by decide

end Sys2Proof.Tests
end

section
/-! PROOFS. The state family: reset, STATUS, and the write to CMD. -/

namespace Sys2Proof.Machine

open Sys2Proof

/-! ### Hardware reset (R78, R800) -/

/-- One step with a pending reset (R800). -/
theorem step_reset {s : State} {rest : List Event} (h : s.bus = .reset :: rest) :
    step s = .next { s with ctxs := s.ctxs.map Ctx.hardReset, bus := rest } := by
  simp only [step, h]

/-- After hardware reset every context is the reset context. -/
theorem eq_reset_of_mem_map_hardReset {l : List Ctx} {c : Ctx} (h : c ∈ l.map Ctx.hardReset) :
    c = Ctx.reset := by
  obtain ⟨_, _, rfl⟩ := List.mem_map.mp h
  rfl

/-- Settles O1: every context of `State.reset` and of the state after a reset event is `Ctx.reset`. -/
theorem resetLeavesEveryContextIdle : Obligations.ResetLeavesEveryContextIdle := by
  unfold Obligations.ResetLeavesEveryContextIdle
  intro R
  have hR : R Ctx.reset := by simp [R, Ctx.reset, Ctx.nameLen]
  constructor
  · intro c hc
    rwa [List.mem_singleton.mp hc]
  · intro s rest hbus
    refine ⟨_, step_reset hbus, List.length_map _, ?_, rfl, rfl, rfl⟩
    intro c hc
    rwa [eq_reset_of_mem_map_hardReset hc]

/-- The reset context is well kept. -/
theorem Ctx.reset_ok : Ctx.reset.Ok := by
  constructor <;> decide

/-- Settles O51: the one context of `State.reset` is well kept, and its memories are empty tables. -/
theorem resetIsWellKept : Obligations.ResetIsWellKept := by
  constructor
  · refine ⟨by decide, fun c hc => ?_⟩
    rw [List.mem_singleton.mp hc]
    exact Ctx.reset_ok
  · decide

/-! ### STATUS (R43) -/

/-- A word is not 0 exactly where one of its bits is set. -/
theorem Ctx.warnAny_iff (c : Ctx) : c.warnAny = true ↔ ∃ i, i < 32 ∧ c.warn.getLsbD i = true := by
  simp only [Ctx.warnAny, decide_eq_true_eq]
  constructor
  · intro h
    by_contra hn
    push Not at hn
    exact h (BitVec.eq_of_getLsbD_eq fun i hi => by simpa using hn i hi)
  · rintro ⟨i, -, hi⟩ h0
    simp [h0] at hi

theorem Ctx.outAvail_iff (c : Ctx) : c.outAvail = true ↔ 0 < c.outq.length := by
  simp [Ctx.outAvail, List.length_pos_iff]

theorem Ctx.outEnd_iff (c : Ctx) : c.outEnd = true ↔ (c.st = .finished ∧ c.outq = []) ∨ c.st = .error := by
  simp [Ctx.outEnd]

/-- Each bit of STATUS, as the fields are laid side by side (R43). -/
theorem Ctx.status_getLsbD (c : Ctx) (i : Nat) :
    c.status.getLsbD i =
      if i < 2 then c.st.code.getLsbD i
      else if i = 2 then c.statusDir
      else if 4 ≤ i ∧ i < 7 then c.statusEngine.getLsbD (i - 4)
      else if i = 8 then c.outAvail
      else if i = 9 then c.outEnd
      else if i = 10 then c.natend
      else if i = 11 then c.warnAny
      else false := by
  change BitVec.getLsbD (w := 20 + 1 + 1 + 1 + 1 + 1 + 3 + 1 + 1 + 2) _ i = _
  simp only [Ctx.status, BitVec.getLsbD_append, BitVec.getLsbD_zero, BitVec.getLsbD_ofBool]
  grind (splits := 16)

/-- The bits of ENGINE (R43). -/
theorem Ctx.status_getLsbD_engine (c : Ctx) {i : Nat} (hi : i < 3) :
    c.status.getLsbD (4 + i) = c.statusEngine.getLsbD i := by
  simp (disch := omega) only [Ctx.status_getLsbD, if_neg, if_pos, Nat.add_sub_cancel_left]

/-- The reserved bits above the fields (R43). -/
theorem Ctx.status_getLsbD_reserved (c : Ctx) (i : Nat) : c.status.getLsbD (12 + i) = false := by
  simp (disch := omega) only [Ctx.status_getLsbD, if_neg]

/-- Settles O3: the fields are laid side by side, so each is read off the concatenation. -/
theorem statusShowsState : Obligations.StatusShowsState := by
  intro c
  refine ⟨?state, ?dir, ?bit3, ?engine, ?bit7, ?outAvail, ?outEnd, ?natEnd, ?warnAny, ?reserved⟩
  case state =>
    have hst : c.status.extractLsb' 0 2 = c.st.code := by
      ext i hi
      simp [Ctx.status_getLsbD, hi]
    rw [hst]; cases c.st <;> rfl
  case engine =>
    have heng : c.status.extractLsb' 4 3 = c.statusEngine := by
      ext i hi
      rw [BitVec.getElem_extractLsb', Ctx.status_getLsbD_engine c hi]
      rfl
    exact heng
  case reserved =>
    ext i hi
    simp [Ctx.status_getLsbD_reserved]
  all_goals rw [Ctx.status_getLsbD]
  case dir => cases h : c.st <;> simp [Ctx.statusDir, h]
  case bit3 | bit7 => rfl
  case outAvail => exact c.outAvail_iff
  case outEnd => exact c.outEnd_iff
  case natEnd => rfl
  case warnAny => exact c.warnAny_iff

/-! ### The write to CMD (R42, R220) -/

/-- A core without a pending event holds its state (R724). -/
theorem step_idle {s : State} (h : s.bus = []) : step s = .next s := by
  simp only [step, h]

/-- One step with a pending MemWrite (R122). -/
theorem step_write {s : State} {addr size : Nat} {v : Word} {rest : List Event}
    (h : s.bus = .write addr size v :: rest) :
    step s = stepWrite { s with bus := rest } addr size v := by
  simp only [step, h]

/-- The address of a register offset in the block of context `k` (R130). -/
theorem State.locate_block (s : State) {k off : Nat} (hk : k < s.ctxs.length) (hoff : off < 64) :
    s.locate (s.par.base + 64 * k + off) = some (k, off) := by
  have hsub : s.par.base + 64 * k + off - s.par.base = 64 * k + off := by omega
  have hdiv : (64 * k + off) / 64 = k := by omega
  have hmod : (64 * k + off) % 64 = off := by omega
  rw [State.locate, hsub, hdiv, hmod, if_pos ⟨by omega, hk⟩]

/-- Settles O6: the address of CMD is located at offset 0 of the context's block. -/
theorem stepRunsTheWrittenCommand : Obligations.StepRunsTheWrittenCommand := by
  refine ⟨fun s k v rest hbase hk hbus => ?_, fun s hbus => step_idle hbus⟩
  have hok : State.accessOk (s.par.base + 64 * k) 4 = true := by
    have : (s.par.base + 64 * k) % 4 = 0 := by omega
    simp [State.accessOk, this]
  have hloc : State.locate { s with bus := rest } (s.par.base + 64 * k) = some (k, 0) :=
    State.locate_block { s with bus := rest } (off := 0) hk (by decide)
  rw [step_write hbus, stepWrite, hok, hloc]
  rfl

end Sys2Proof.Machine
end

section
/-! PROOFS. What an instruction that answers a next state does to the addressed context, and the frame of every
instruction that follows from it. -/

namespace Sys2Proof.Machine

open Sys2Proof

/-! ### The inversion of `exec` -/

/-- The error of a command that only raises (R231, R232). -/
def raisedError : Instr → Option Err
  | .cmdSeek => some .seek
  | .cmdReserved9 | .cmdReservedAB _ | .cmdReservedCF _ => some .reservedOp
  | _ => none

/-- Engine state that differs from the context's in the decoder of the engine that is open only. -/
inductive Ctx.DecoderMoved (c : Ctx) : Engines → Prop
  | nufx (d : NufxDec) : c.engine.toNat ≤ 1 → c.DecoderMoved { c.eng with nufxDec := d }
  | lzc (d : LzcDec) : c.engine = 2 → c.DecoderMoved { c.eng with lzcDec := d }
  | sq (d : SqDec) : c.engine = 3 → c.DecoderMoved { c.eng with sqDec := d }
  | zx (d : ZxDec) : c.engine = 4 → c.DecoderMoved { c.eng with zxDec := d }

/-- All that an instruction, NOP apart, can do to the context `c` it addresses: the context after it, with the
counter of free values. -/
inductive Ctx.Acts (par : Params) (free : Nat) (c : Ctx) : Instr → Ctx × Nat → Prop
  | cmdOpen {eng dir q} : c.openCmd par free eng dir = .ok q → Acts par free c (.cmdOpen eng dir) q
  | cmdFeed {b q} : c.feedCmd par free b = .ok q → Acts par free c (.cmdFeed b) q
  | cmdProduce : Acts par free c .cmdProduce (c.produceCmd, free)
  | cmdFinish {q} : c.finishCmd par free = .ok q → Acts par free c .cmdFinish q
  | cmdClose : Acts par free c .cmdClose (c.closeCmd, free)
  | cmdNameByte {b q} : c.nameByteCmd free b = .ok q → Acts par free c (.cmdNameByte b) q
  | cmdNameClear {q} : c.nameClearCmd free = .ok q → Acts par free c .cmdNameClear q
  | raised {i e} : raisedError i = some e → Acts par free c i (c.raiseCmd e, free)
  | token {i} {r : Run Engines} : i.isCommand = false → c.expanding = true → c.DecoderMoved r.st →
      Acts par free c i (c.absorb r c.inq, free)
  | sqPad {bits} : c.st = .active → c.dir = true → c.engine = 3 →
      Acts par free c (.sqPad bits) ({ c with eng := { c.eng with sqDec := c.eng.sqDec.padBits } }, free)

/-- Instruction `i` takes `s` to `t` by what it does to the addressed context. -/
def ActsOn (i : Instr) (s t : State) : Prop :=
  ∃ c q, s.cur = some c ∧ c.Acts s.par s.free i q ∧ t = { s.setCur q.1 with free := q.2 }

section
variable {i : Instr} {s t : State}

theorem State.onCtx_acts {f : Ctx → Except Refusal (Ctx × Nat)} (h : s.onCtx f = .next t)
    (hf : ∀ c q, f c = .ok q → c.Acts s.par s.free i q) : ActsOn i s t := by
  obtain ⟨c, q, hc, hq, ht⟩ := State.onCtx_next h
  exact ⟨c, q, hc, hf c q hq, ht⟩

theorem State.onCtxPure_acts {f : Ctx → Ctx} (h : s.onCtxPure f = .next t)
    (hf : ∀ c : Ctx, c.Acts s.par s.free i (f c, s.free)) : ActsOn i s t := by
  obtain ⟨c, hc, rfl⟩ := State.onCtxPure_next h
  exact ⟨c, _, hc, hf c, rfl⟩

/-- An accepted token acts where its decoder is the open one. -/
theorem Ctx.token_acts {par : Params} {free : Nat} {c : Ctx} {aw cls : Bool} {r : Run Engines} {q : Ctx × Nat}
    (hi : i.isCommand = false) (hd : aw = true → c.DecoderMoved r.st)
    (h : c.token par free aw cls r = .ok q) : c.Acts par free i q := by
  obtain ⟨hexp, haw, -, rfl, -⟩ := Ctx.token_ok h
  exact .token hi hexp (hd haw)

theorem State.onNufx_acts {only : Option Bool} {aw cls : NufxDec → Bool} {f : NufxDec → Run NufxDec}
    (hi : i.isCommand = false) (h : s.onNufx only aw cls f = .next t) : ActsOn i s t := by
  refine State.onCtx_acts h fun c q => Ctx.token_acts hi fun haw => .nufx _ ?_
  have hne : c.engine = 0 ∨ c.engine = 1 := by
    cases only with
    | none => simp_all [Ctx.isNufx]
    | some lzw2 => cases lzw2 <;> simp_all [Ctx.isNufx]
  rcases hne with h0 | h1
  · simp [h0]
  · simp [h1]

theorem State.onLzc_acts {aw cls : LzcDec → Bool} {f : LzcDec → Run LzcDec}
    (hi : i.isCommand = false) (h : s.onLzc aw cls f = .next t) : ActsOn i s t :=
  State.onCtx_acts h fun _ _ => Ctx.token_acts hi fun haw => .lzc _ (by simp_all)

theorem State.onSq_acts {aw cls : LCfg → SqDec → Bool} {f : LCfg → SqDec → Run SqDec}
    (hi : i.isCommand = false) (h : s.onSq aw cls f = .next t) : ActsOn i s t :=
  State.onCtx_acts h fun _ _ => Ctx.token_acts hi fun haw => .sq _ (by simp_all)

theorem State.onZx_acts {aw cls : ZxDec → Bool} {f : ZxDec → Run ZxDec}
    (hi : i.isCommand = false) (h : s.onZx aw cls f = .next t) : ActsOn i s t :=
  State.onCtx_acts h fun _ _ => Ctx.token_acts hi fun haw => .zx _ (by simp_all)

theorem execSqPad_acts {bits : List Bool} (h : execSqPad bits s = .next t) : ActsOn (.sqPad bits) s t := by
  refine State.onCtx_acts h fun c q hq => ?_
  split at hq
  · next hg =>
    simp only [Bool.and_eq_true, decide_eq_true_eq] at hg
    obtain ⟨⟨⟨hst, hdir⟩, heng⟩, -⟩ := hg
    split at hq
    · cases hq
      exact .sqPad hst hdir heng
    · cases hq
  · cases hq

/-- An instruction that answers a next state is NOP, or acts on the addressed context. -/
theorem exec_next (h : exec i s = .next t) : (i = .cmdNop ∧ t = s) ∨ ActsOn i s t := by
  cases i
  case cmdNop => cases h; exact .inl ⟨rfl, rfl⟩
  all_goals simp only [exec] at h; right
  case cmdOpen => exact State.onCtx_acts h fun _ _ hq => .cmdOpen hq
  case cmdFeed => exact State.onCtx_acts h fun _ _ hq => .cmdFeed hq
  case cmdProduce => exact State.onCtxPure_acts h fun _ => .cmdProduce
  case cmdFinish => exact State.onCtx_acts h fun _ _ hq => .cmdFinish hq
  case cmdClose => exact State.onCtxPure_acts h fun _ => .cmdClose
  case cmdNameByte => exact State.onCtx_acts h fun _ _ hq => .cmdNameByte hq
  case cmdNameClear => exact State.onCtx_acts h fun _ _ hq => .cmdNameClear hq
  case cmdSeek | cmdReserved9 | cmdReservedAB | cmdReservedCF => exact State.onCtxPure_acts h fun _ => .raised rfl
  case nufxLit | nufxClear | nufxTable | nufxKwkwk | nufxInvalid | nufxRleRun | nufxRleLit | nufx1Hdr |
      nufx1Chunk | nufx2Hdr | nufx2Chunk => exact State.onNufx_acts rfl h
  case lzcLit | lzcClear | lzcTable | lzcKwkwk | lzcInvalid | lzcHdr | lzcGroup =>
    exact State.onLzc_acts rfl h
  case sqHdr | sqCount | sqNode | sqSym | sqEof | sqRleRun | sqRleLit | usqRun | usqEsc =>
    exact State.onSq_acts rfl h
  case sqPad => exact execSqPad_acts h
  case zx0Literals | zx0Rep | zx0New | zx0End => exact State.onZx_acts rfl h

end

/-- Settles O55: an instruction acts on the addressed context and the counter of free values alone. -/
theorem otherContextsAreUntouched : Obligations.OtherContextsAreUntouched := by
  intro i s t h
  rcases exec_next h with ⟨-, rfl⟩ | ⟨c, q, -, -, rfl⟩
  · exact ⟨rfl, rfl, rfl, rfl, rfl, fun _ _ => rfl⟩
  · exact ⟨rfl, rfl, rfl, rfl, List.length_set, fun k hk => State.setCur_other q.1 hk⟩

/-! ### The registers that an engine run and error entry keep -/

/-- `c'` has the registers of `c` that neither an engine run nor error entry writes; WARN may have gained
TRAILING_INPUT (R46). -/
structure Ctx.KeepsRegisters (c c' : Ctx) : Prop where
  cfg : c'.cfgDelim = c.cfgDelim ∧ c'.cfgVolume = c.cfgVolume ∧ c'.cfgLzc = c.cfgLzc ∧ c'.cfgSq = c.cfgSq ∧
    c'.cfgZx0 = c.cfgZx0 ∧ c'.cfgExpect = c.cfgExpect
  namebuf : c'.namebuf = c.namebuf
  lcfg : c'.lcfg = c.lcfg
  engine : c'.engine = c.engine
  dir : c'.dir = c.dir
  dout : c'.dout = c.dout
  inCount : c'.inCount = c.inCount
  ended : c'.ended = c.ended
  warn : c'.warn = c.warn ∨ c'.warn = c.warn ||| 1

namespace Ctx

theorem KeepsRegisters.refl (c : Ctx) : c.KeepsRegisters c := by
  constructor <;> simp

theorem KeepsRegisters.trans {a b c : Ctx} (hab : a.KeepsRegisters b) (hbc : b.KeepsRegisters c) :
    a.KeepsRegisters c := by
  have hwarn : c.warn = a.warn ∨ c.warn = a.warn ||| 1 := by
    rcases hab.warn with h | h <;> rcases hbc.warn with h' | h' <;> simp [h, h', BitVec.or_assoc]
  exact ⟨by simp [hab.cfg, hbc.cfg], hbc.namebuf.trans hab.namebuf, hbc.lcfg.trans hab.lcfg,
    hbc.engine.trans hab.engine, hbc.dir.trans hab.dir, hbc.dout.trans hab.dout, hbc.inCount.trans hab.inCount,
    hbc.ended.trans hab.ended, hwarn⟩

theorem raise_keepsRegisters (c : Ctx) (e : Err) : c.KeepsRegisters (c.raise e) := by
  constructor <;> simp

theorem trail_keepsRegisters (c : Ctx) (k : Nat) : c.KeepsRegisters (c.trail k) := by
  have hwarn : (c.trail k).warn = c.warn ∨ (c.trail k).warn = c.warn ||| 1 := by
    cases k with
    | zero => exact .inl rfl
    | succ k => exact .inr rfl
  constructor
  case warn => exact hwarn
  all_goals simp

theorem procReturned_keepsRegisters (c : Ctx) : c.KeepsRegisters c.procReturned := by
  unfold procReturned
  split
  · exact (c.trail_keepsRegisters c.inq.length).trans (by constructor <;> simp)
  · exact .refl c

theorem absorb_keepsRegisters (c : Ctx) (r : Run Engines) (rest : List Byte) :
    c.KeepsRegisters (c.absorb r rest) := by
  have hout : c.KeepsRegisters { c with
      eng := r.st, outq := c.outq ++ r.out, outCount := c.outCount + BitVec.ofNat 32 r.out.length, inq := rest } := by
    constructor <;> simp
  unfold absorb
  split
  · exact hout
  · exact hout.trans (procReturned_keepsRegisters _)
  · exact hout.trans (raise_keepsRegisters _ _)

theorem run_keepsRegisters (par : Params) (free : Nat) (c : Ctx) : c.KeepsRegisters (c.run par free).1 := by
  obtain ⟨r, rest, n, h, -⟩ := c.run_eq par free
  rw [h]
  exact c.absorb_keepsRegisters r rest

theorem take_keepsRegisters (c : Ctx) : { c with dout := c.take.dout }.KeepsRegisters c.take := by
  unfold take
  split <;> constructor <;> simp

theorem finished_keepsRegisters (r : Ctx × Nat) : r.1.KeepsRegisters (finished r).1 := by
  unfold finished
  split
  · constructor <;> simp
  · exact .refl r.1

theorem openRun_keepsRegisters {par : Params} {free : Nat} {c : Ctx} {q : Ctx × Nat}
    (h : c.openRun par free = .ok q) : c.KeepsRegisters q.1 := by
  unfold openRun at h
  split at h
  · cases h; exact c.raise_keepsRegisters _
  · obtain ⟨rfl, -⟩ := commit_ok h
    exact (c.absorb_keepsRegisters _ _).trans (run_keepsRegisters _ _ _)

theorem feedRun_keepsRegisters {par : Params} {free : Nat} {b : Byte} {c : Ctx} {q : Ctx × Nat}
    (h : c.feedRun par free b = .ok q) : { c with inCount := c.inCount + 1 }.KeepsRegisters q.1 := by
  unfold feedRun at h
  split at h
  · cases h; exact trail_keepsRegisters { c with inCount := c.inCount + 1 } 1
  · split at h
    · cases h
    · obtain ⟨rfl, -⟩ := commit_ok h
      refine KeepsRegisters.trans ?_ (run_keepsRegisters _ _ _)
      constructor <;> simp

theorem finishRun_keepsRegisters {par : Params} {free : Nat} {c : Ctx} {q : Ctx × Nat}
    (h : c.finishRun par free = .ok q) : { c with ended := true }.KeepsRegisters q.1 := by
  obtain ⟨rfl, -⟩ := commit_ok h
  exact (run_keepsRegisters _ _ _).trans (finished_keepsRegisters _)

/-! ### The registers that an instruction writes -/

/-- The register writes that the rules name for an instruction: the context `c` with the registers written, or
unchanged where the instruction is refused by its state check or has no such register. -/
inductive Writes (c : Ctx) : Instr → Ctx → Prop
  | nothing (i : Instr) : c.Writes i c
  | cmdOpen (eng : BitVec 3) (dir : Bool) : c.Writes (.cmdOpen eng dir) (c.opened eng dir)
  | cmdFeed (b : Byte) : c.Writes (.cmdFeed b) { c with inCount := c.inCount + 1 }
  | cmdProduce (w : Word) : c.Writes .cmdProduce { c with dout := w }
  | cmdFinish : c.Writes .cmdFinish { c with ended := true }
  | cmdClose : c.Writes .cmdClose c.close
  | cmdNameByte (b : Byte) : c.Writes (.cmdNameByte b) { c with namebuf := c.namebuf ++ [b] }
  | cmdNameClear : c.Writes .cmdNameClear { c with namebuf := [] }

/-- `c'` has the registers that instruction `i` writes, and keeps all others of `c`. -/
def OnlyWrites (c : Ctx) (i : Instr) (c' : Ctx) : Prop := ∃ w, c.Writes i w ∧ w.KeepsRegisters c'

theorem onlyWrites_nothing {c c' : Ctx} (i : Instr) (h : c.KeepsRegisters c') : c.OnlyWrites i c' :=
  ⟨c, .nothing i, h⟩

theorem guarded_onlyWrites {c : Ctx} {free : Nat} {ok : Bool} {f : Except Refusal (Ctx × Nat)} {i : Instr}
    {q : Ctx × Nat} (h : c.guarded free ok f = .ok q) (hf : f = .ok q → c.OnlyWrites i q.1) :
    c.OnlyWrites i q.1 := by
  rcases guarded_ok h with ⟨-, rfl⟩ | ⟨-, -, hq⟩ | ⟨-, -, rfl⟩
  · exact onlyWrites_nothing i (.refl c)
  · exact hf hq
  · exact onlyWrites_nothing i (c.raise_keepsRegisters _)

theorem produceCmd_onlyWrites (c : Ctx) : c.OnlyWrites .cmdProduce c.produceCmd := by
  unfold produceCmd
  split
  · exact onlyWrites_nothing _ (c.raise_keepsRegisters _)
  · exact ⟨_, .cmdProduce _, c.take_keepsRegisters⟩

theorem closeCmd_onlyWrites (c : Ctx) : c.OnlyWrites .cmdClose c.closeCmd := by
  unfold closeCmd
  split
  · exact onlyWrites_nothing _ (.refl c)
  · exact ⟨_, .cmdClose, .refl _⟩

theorem nameRun_onlyWrites (c : Ctx) (b : Byte) : c.OnlyWrites (.cmdNameByte b) (c.nameRun b) := by
  unfold nameRun
  split
  · exact onlyWrites_nothing _ (c.raise_keepsRegisters _)
  · split
    · exact onlyWrites_nothing _ (c.raise_keepsRegisters _)
    · exact ⟨_, .cmdNameByte b, .refl _⟩

theorem raiseCmd_keepsRegisters (c : Ctx) (e : Err) : c.KeepsRegisters (c.raiseCmd e) := by
  unfold raiseCmd
  split
  · exact .refl c
  · exact c.raise_keepsRegisters e

/-- Every instruction writes only the registers the rules name for it. -/
theorem Acts.onlyWrites {par : Params} {free : Nat} {c : Ctx} {i : Instr} {q : Ctx × Nat}
    (h : c.Acts par free i q) : c.OnlyWrites i q.1 := by
  cases h with
  | cmdOpen h => exact guarded_onlyWrites h fun hq => ⟨_, .cmdOpen _ _, openRun_keepsRegisters hq⟩
  | cmdFeed h => exact guarded_onlyWrites h fun hq => ⟨_, .cmdFeed _, feedRun_keepsRegisters hq⟩
  | cmdProduce => exact c.produceCmd_onlyWrites
  | cmdFinish h => exact guarded_onlyWrites h fun hq => ⟨_, .cmdFinish, finishRun_keepsRegisters hq⟩
  | cmdClose => exact c.closeCmd_onlyWrites
  | cmdNameByte h => exact guarded_onlyWrites h fun hq => by cases hq; exact c.nameRun_onlyWrites _
  | cmdNameClear h => exact guarded_onlyWrites h fun hq => by cases hq; exact ⟨_, .cmdNameClear, .refl _⟩
  | raised => exact onlyWrites_nothing i (c.raiseCmd_keepsRegisters _)
  | token => exact onlyWrites_nothing i (c.absorb_keepsRegisters _ _)
  | sqPad => exact onlyWrites_nothing _ (by constructor <;> simp)

end Ctx

/-- The addressed context after an instruction. -/
theorem exec_onlyWrites {i : Instr} {s t : State} {c c' : Ctx} (hc : s.cur = some c) (h : exec i s = .next t)
    (hc' : t.cur = some c') : c.OnlyWrites i c' := by
  rcases exec_next h with ⟨-, rfl⟩ | ⟨d, q, hd, hq, rfl⟩
  · cases hc.symm.trans hc'
    exact Ctx.onlyWrites_nothing i (.refl c)
  · cases hc.symm.trans hd
    cases (State.cur_setCur hc q.1).symm.trans hc'
    exact hq.onlyWrites

/-- Settles O56: each register is the one an instruction's named write leaves, and the named writes are few. -/
theorem registersChangeOnlyWhereNamed : Obligations.RegistersChangeOnlyWhereNamed := by
  intro i s t c c' hc h hc'
  obtain ⟨w, hw, hcfg, hname, hlcfg, heng, hdir, hdout, hin, hended, hwarn⟩ := exec_onlyWrites hc h hc'
  rw [hname, hlcfg, heng, hdir, hdout, hin, hended]
  cases hw
  case cmdOpen eng dir => exact ⟨hcfg, by simp, fun hi => absurd rfl (hi eng dir)⟩
  all_goals exact ⟨hcfg, by simp, fun _ => ⟨rfl, by simp, by simp, by simp, by simp, hwarn⟩⟩

end Sys2Proof.Machine
end

section
/-! PROOFS. The accesses that reach no register (R123, R130). -/

namespace Sys2Proof.Machine

open Sys2Proof

/-- One step with a pending MemRead (R122). -/
theorem step_read {s : State} {addr size : Nat} {rest : List Event} (h : s.bus = .read addr size :: rest) :
    step s = stepRead { s with bus := rest } addr size := by
  simp only [step, h]

theorem State.accessOk_eq_false {addr size : Nat} (h : size ≠ 4 ∨ addr % 4 ≠ 0) :
    State.accessOk addr size = false := by
  rcases h with h | h <;> simp [State.accessOk, h]

theorem State.accessOk_eq_true {addr size : Nat} (hsize : size = 4) (halign : addr % 4 = 0) :
    State.accessOk addr size = true := by
  simp [State.accessOk, hsize, halign]

/-- An address before the first block or past the last one is in no block (R130). -/
theorem State.locate_stray {s : State} {addr : Nat}
    (h : addr < s.par.base ∨ s.par.base + 64 * s.ctxs.length ≤ addr) : s.locate addr = none := by
  have hout : ¬ (s.par.base ≤ addr ∧ (addr - s.par.base) / 0x40 < s.ctxs.length) := by omega
  exact if_neg hout

/-- Settles O5: a MemWrite and a MemRead check the access, and then the block, before anything else. -/
theorem strayAccessesStop : Obligations.StrayAccessesStop := by
  intro s addr size v rest hbus
  have hstep : step s = stepWrite { s with bus := rest } addr size v ∨
      step s = stepRead { s with bus := rest } addr size := hbus.imp step_write step_read
  constructor
  · intro hbad
    have hok := State.accessOk_eq_false hbad
    rcases hstep with h | h
    · rw [h, stepWrite, hok]; rfl
    · rw [h, stepRead, hok]; rfl
  · intro hsize halign hstray
    have hok := State.accessOk_eq_true hsize halign
    have hloc : State.locate { s with bus := rest } addr = none := State.locate_stray hstray
    rcases hstep with h | h
    · rw [h, stepWrite, hok, hloc]; rfl
    · rw [h, stepRead, hok, hloc]; rfl

end Sys2Proof.Machine
end

section
/-! PROOFS. What an instruction does to the engine state of the addressed context (R140). -/

namespace Sys2Proof.Machine

open Sys2Proof

namespace Ctx

/-! ### The engine state after the shared operations -/

@[simp] theorem procReturned_eng (c : Ctx) : c.procReturned.eng = c.eng := by
  unfold procReturned
  split
  · exact c.trail_eng c.inq.length
  · rfl

/-- A stretch of the procedure leaves the engine state it ends in, however it ended (R221). -/
@[simp] theorem absorb_eng (c : Ctx) (r : Run Engines) (rest : List Byte) : (c.absorb r rest).eng = r.st := by
  unfold absorb
  split <;> simp

@[simp] theorem run_eng (par : Params) (free : Nat) (c : Ctx) :
    (c.run par free).1.eng = (c.runProc par).1.st := by
  obtain ⟨r, rest, n, hrun, -, hst, -⟩ := c.run_eq par free
  rw [hrun, absorb_eng, hst]

@[simp] theorem take_eng (c : Ctx) : c.take.eng = c.eng := by
  unfold take; split <;> rfl

@[simp] theorem finished_eng (r : Ctx × Nat) : (finished r).1.eng = r.1.eng := by
  unfold finished; split <;> rfl

@[simp] theorem nameRun_eng (c : Ctx) (b : Byte) : (c.nameRun b).eng = c.eng := by
  unfold nameRun
  split
  · simp
  · split <;> simp

@[simp] theorem raiseCmd_eng (c : Ctx) (e : Err) : (c.raiseCmd e).eng = c.eng := by
  unfold raiseCmd; split <;> simp

@[simp] theorem produceCmd_eng (c : Ctx) : c.produceCmd.eng = c.eng := by
  unfold produceCmd; split <;> simp

@[simp] theorem writeReg_eng (c : Ctx) (off : Nat) (v : Word) : (c.writeReg off v).eng = c.eng := by
  unfold writeReg; split <;> rfl

/-! ### The engine state that an instruction leaves -/

/-- All that an instruction can make of the engine state of `c`. -/
inductive MovesEngines (par : Params) (c : Ctx) : Instr → Engines → Prop
  | kept (i : Instr) : c.MovesEngines par i c.eng
  | run {i : Instr} (d : Ctx) : d.eng = c.eng → d.engine = c.engine → d.dir = c.dir →
      c.MovesEngines par i (d.runProc par).1.st
  | cmdOpen {eng : BitVec 3} {dir : Bool} (d : Ctx) : d.eng = ((c.opened eng dir).startEngine par).st →
      c.MovesEngines par (.cmdOpen eng dir) (d.runProc par).1.st
  | cmdClose : c.MovesEngines par .cmdClose {}
  | token {i : Instr} {e : Engines} : i.isCommand = false → c.dir = true → c.DecoderMoved e →
      c.MovesEngines par i e

section
variable {par : Params} {free : Nat} {c : Ctx} {i : Instr} {q : Ctx × Nat}

theorem movesEngines_of_eq {e : Engines} (h : e = c.eng) : c.MovesEngines par i e := h ▸ .kept i

theorem guarded_movesEngines {ok : Bool} {f : Except Refusal (Ctx × Nat)} (h : c.guarded free ok f = .ok q)
    (hf : f = .ok q → c.MovesEngines par i q.1.eng) : c.MovesEngines par i q.1.eng := by
  rcases guarded_ok h with ⟨-, rfl⟩ | ⟨-, -, hq⟩ | ⟨-, -, rfl⟩
  · exact .kept i
  · exact hf hq
  · exact movesEngines_of_eq (c.raise_eng _)

theorem openRun_movesEngines {eng : BitVec 3} {dir : Bool} (h : (c.opened eng dir).openRun par free = .ok q) :
    c.MovesEngines par (.cmdOpen eng dir) q.1.eng := by
  unfold openRun at h
  split at h
  · cases h
    exact movesEngines_of_eq (by simp)
  · obtain ⟨rfl, -⟩ := commit_ok h
    rw [run_eng]
    exact .cmdOpen _ (absorb_eng _ _ _)

theorem feedRun_movesEngines {b : Byte} (h : c.feedRun par free b = .ok q) : c.MovesEngines par i q.1.eng := by
  unfold feedRun at h
  split at h
  · cases h
    exact movesEngines_of_eq (trail_eng _ _)
  · split at h
    · cases h
    · obtain ⟨rfl, -⟩ := commit_ok h
      rw [run_eng]
      exact .run _ rfl rfl rfl

theorem finishRun_movesEngines (h : c.finishRun par free = .ok q) : c.MovesEngines par i q.1.eng := by
  obtain ⟨rfl, -⟩ := commit_ok h
  rw [finished_eng, run_eng]
  exact .run _ rfl rfl rfl

theorem closeCmd_movesEngines : c.MovesEngines par .cmdClose c.closeCmd.eng := by
  unfold closeCmd
  split
  · exact .kept _
  · exact .cmdClose

theorem Acts.movesEngines (h : c.Acts par free i q) : c.MovesEngines par i q.1.eng := by
  cases h with
  | cmdOpen h => exact guarded_movesEngines h openRun_movesEngines
  | cmdFeed h => exact guarded_movesEngines h feedRun_movesEngines
  | cmdProduce => exact movesEngines_of_eq c.produceCmd_eng
  | cmdFinish h => exact guarded_movesEngines h finishRun_movesEngines
  | cmdClose => exact closeCmd_movesEngines
  | cmdNameByte h => exact guarded_movesEngines h fun hq => by cases hq; exact movesEngines_of_eq (c.nameRun_eng _)
  | cmdNameClear h => exact guarded_movesEngines h fun hq => by cases hq; exact .kept _
  | raised => exact movesEngines_of_eq (c.raiseCmd_eng _)
  | token hi hexp hmoved =>
    rw [absorb_eng]
    simp only [expanding, Bool.and_eq_true] at hexp
    exact .token hi hexp.1.2 hmoved
  | sqPad _ hdir heng => exact .token rfl hdir (.sq _ heng)

end

/-! ### The engines that are not open -/

/-- `e'` has the records of `e` for every engine and direction other than the given ones. -/
def OthersKept (engine : BitVec 3) (dir : Bool) (e e' : Engines) : Prop :=
  (¬ (engine.toNat ≤ 1 ∧ dir = false) → e'.nufxEnc = e.nufxEnc) ∧
  (¬ (engine.toNat ≤ 1 ∧ dir = true) → e'.nufxDec = e.nufxDec) ∧
  (¬ (engine = 2 ∧ dir = false) → e'.lzcEnc = e.lzcEnc) ∧
  (¬ (engine = 2 ∧ dir = true) → e'.lzcDec = e.lzcDec) ∧
  (¬ (engine = 3 ∧ dir = false) → e'.sqEnc = e.sqEnc) ∧
  (¬ (engine = 3 ∧ dir = true) → e'.sqDec = e.sqDec) ∧
  (¬ (engine = 4 ∧ dir = false) → e'.zxEnc = e.zxEnc) ∧
  (¬ (engine = 4 ∧ dir = true) → e'.zxDec = e.zxDec)

theorem OthersKept.refl (engine : BitVec 3) (dir : Bool) (e : Engines) : OthersKept engine dir e e := by
  simp [OthersKept]

/-- A token's rule changes the open decoder only. -/
theorem DecoderMoved.othersKept {c : Ctx} {e : Engines} (hdir : c.dir = true) (h : c.DecoderMoved e) :
    OthersKept c.engine c.dir c.eng e := by
  cases h <;> simp_all [OthersKept]

/-- The run of the open engine's procedure changes that engine only (R237). -/
theorem runProc_othersKept (par : Params) (c : Ctx) :
    OthersKept c.engine c.dir c.eng (c.runProc par).1.st := by
  have hengine (n : Nat) (hn : n < 8) (h : c.engine.toNat = n) : c.engine = BitVec.ofNat 3 n :=
    BitVec.eq_of_toNat_eq (by simpa [Nat.mod_eq_of_lt hn] using h)
  unfold runProc
  split
  case h_11 => exact .refl _ _ _
  all_goals
    next hn hdir => simp [OthersKept, hengine _ (by decide) hn, hdir, liftRun, Run.map]

/-- Only OPEN and CLOSE touch the record of an engine that is not open. -/
theorem MovesEngines.othersKept {par : Params} {c : Ctx} {i : Instr} {e : Engines}
    (h : c.MovesEngines par i e) (hopen : ∀ eng dir, i ≠ .cmdOpen eng dir) (hclose : i ≠ .cmdClose) :
    OthersKept c.engine c.dir c.eng e := by
  cases h with
  | kept => exact .refl _ _ _
  | run d heng hengine hdir =>
    rw [← heng, ← hengine, ← hdir]
    exact d.runProc_othersKept par
  | cmdOpen => exact absurd rfl (hopen _ _)
  | cmdClose => exact absurd rfl hclose
  | token _ hdir hmoved => exact hmoved.othersKept hdir

end Ctx

/-- The engine state of the addressed context after an instruction. -/
theorem exec_movesEngines {i : Instr} {s t : State} {c c' : Ctx} (hc : s.cur = some c) (h : exec i s = .next t)
    (hc' : t.cur = some c') : c.MovesEngines s.par i c'.eng := by
  rcases exec_next h with ⟨-, rfl⟩ | ⟨d, q, hd, hq, rfl⟩
  · cases hc.symm.trans hc'
    exact .kept i
  · cases hc.symm.trans hd
    cases (State.cur_setCur hc q.1).symm.trans hc'
    exact hq.movesEngines

/-- Settles O57: an instruction runs the open engine's procedure or one rule of its decoder, and nothing else
moves engine state but OPEN and CLOSE. -/
theorem onlyTheOpenEngineChanges : Obligations.OnlyTheOpenEngineChanges := by
  intro i s t c c' hc h hc' hopen hclose
  exact (exec_movesEngines hc h hc').othersKept hopen hclose

end Sys2Proof.Machine
end

section
/-! PROOFS. The canonical form of the working memories (log entry 15) of NuFX. Here and for the other engines: a table
changes by `Tab.put`, is emptied, or is filtered, and an operation that changes other registers only keeps the form by
`h` itself. -/

namespace Sys2Proof.Machine

open Sys2Proof

/-- A property that a procedure keeps at each byte holds after it has taken the bytes of a list. -/
theorem Proc.feed_keeps {σ : Type} {P : σ → Prop} (p : Proc σ) (hbyte : ∀ s b, P s → P (p.byte s b).st)
    (bs : List Byte) {s : σ} (h : P s) : P (p.feed bs s).1.st := by
  induction bs generalizing s with
  | nil => exact h
  | cons b bs ih =>
    simp only [Proc.feed]
    split
    · exact ih (hbyte s b h)
    · exact hbyte s b h

/-! ### NuFX compress -/

namespace NufxEnc

/-- DICT is in canonical form. -/
def Canonical (e : NufxEnc) : Prop := Tab.wf 0 e.dict = true

variable {e : NufxEnc}

theorem tableReset_canonical (e : NufxEnc) : e.tableReset.Canonical := Tab.nil_wf

theorem scan_canonical (h : e.Canonical) (c : Byte) : (e.scan c).Canonical := by
  simp only [scan]
  split
  · exact h
  · split
    · exact Tab.nil_wf
    · exact Tab.put_wf h _ _

theorem lzwEncodeChunk_canonical (h : e.Canonical) (s : List Byte) : (e.lzwEncodeChunk s).Canonical := by
  cases s with
  | nil => exact h
  | cons s0 s =>
    exact List.foldlRecOn (motive := Canonical) s scan h fun _ he c _ => scan_canonical he c

theorem encodeChunk_canonical (h : e.Canonical) (delim : Byte) : (e.encodeChunk delim).2.Canonical := by
  simp only [encodeChunk]
  split
  · exact lzwEncodeChunk_canonical (by exact h) _
  · exact tableReset_canonical _

theorem closeChunk_canonical (h : e.Canonical) (par : Params) (lzw2 : Bool) (delim : Byte) :
    (e.closeChunk par lzw2 delim).st.Canonical := by
  unfold closeChunk
  split
  · exact encodeChunk_canonical h delim
  · exact encodeChunk_canonical (tableReset_canonical _) delim

theorem byte_canonical (h : e.Canonical) (par : Params) (lzw2 : Bool) (l : LCfg) (b : Byte) :
    (e.byte par lzw2 l b).st.Canonical := by
  simp only [byte]
  split
  · exact h
  · exact closeChunk_canonical (by exact h) _ _ _

theorem eof_canonical (h : e.Canonical) (par : Params) (lzw2 : Bool) (l : LCfg) :
    (e.eof par lzw2 l).st.Canonical := by
  unfold eof
  split
  · exact h
  · exact Run.andThen_keeps (P := Canonical) (closeChunk_canonical h _ _ _) fun _ h => h

theorem drive_canonical (h : e.Canonical) (par : Params) (lzw2 : Bool) (l : LCfg) (ended : Bool) (inq : List Byte) :
    ((nufxEncProc par lzw2 l).drive ended inq e).1.st.Canonical :=
  Proc.drive_keeps (P := Canonical) _ (fun _ h => h) (fun _ b h => byte_canonical h par lzw2 l b)
    (fun _ h => eof_canonical h par lzw2 l) ended inq h

end NufxEnc

/-! ### NuFX expand -/

namespace NufxDec

/-- PREFIX and SUFFIX are in canonical form. -/
def Canonical (d : NufxDec) : Prop := Tab.wf 0 d.pfx = true ∧ Tab.wf 0 d.sfx = true

variable {d : NufxDec}

theorem addEntry_canonical (h : d.Canonical) (prev : Nat) (c : Byte) : (d.addEntry prev c).Canonical :=
  ⟨Tab.put_wf h.1 _ _, Tab.put_wf h.2 _ _⟩

theorem define_canonical (h : d.Canonical) (c : Byte) : (d.define c).Canonical := by
  unfold define
  split
  · exact h
  · exact addEntry_canonical h _ _

theorem lit_canonical (h : d.Canonical) (k : Byte) : (d.lit k).Canonical := define_canonical h k

theorem table_canonical (h : d.Canonical) (k : Nat) : (d.table k).Canonical := define_canonical h _

theorem kwkwk_canonical (h : d.Canonical) (k : Nat) : (d.kwkwk k).Canonical := by
  unfold kwkwk
  split
  · exact h
  · exact addEntry_canonical h _ _

theorem applyCode_canonical (h : d.Canonical) (code : Nat) : (d.applyCode code).st.Canonical := by
  unfold applyCode
  split
  · exact lit_canonical h _
  · exact h
  · exact table_canonical h code
  · exact kwkwk_canonical h code
  · exact h

theorem rleRun_canonical (h : d.Canonical) (v n : Byte) : (d.rleRun v n).st.Canonical := by
  simp only [rleRun]
  split <;> exact h

theorem rleLit_canonical (h : d.Canonical) (b : Byte) : (d.rleLit b).st.Canonical := by
  simp only [rleLit]
  split <;> exact h

theorem chunk1_canonical (h : d.Canonical) (rlelen : Half) (flag : Byte) : (d.chunk1 rlelen flag).st.Canonical := by
  simp only [chunk1]
  split <;> exact h

theorem chunk2_canonical (h : d.Canonical) (w clen : Half) : (d.chunk2 w clen).st.Canonical := by
  simp only [chunk2]
  split
  · exact h
  · split <;> exact h

theorem loopHead_canonical (h : d.Canonical) (lzw2 : Bool) : (d.loopHead lzw2).st.Canonical := by
  unfold loopHead
  split
  · exact h
  · split <;> exact h

variable (par : Params) (lzw2 : Bool)

theorem chunkDone_canonical (h : d.Canonical) : (d.chunkDone par lzw2).st.Canonical :=
  Run.andThen_keeps (P := Canonical) (by exact h) fun _ h => loopHead_canonical h lzw2

theorem rleLoop_canonical (h : d.Canonical) (ys : List Byte) : (d.rleLoop par lzw2 ys).st.Canonical := by
  induction d, ys using rleLoop.induct with
  | case1 d hfull =>
    rw [rleLoop_nil, if_pos hfull]
    exact chunkDone_canonical par lzw2 (by exact h)
  | case2 d hshort =>
    rw [rleLoop_nil, if_neg hshort]
    exact h
  | case3 d v n rest d1 out hrun ih =>
    have hd1 := rleRun_canonical h v n
    rw [hrun] at hd1
    rw [rleLoop.eq_def]
    simp only [if_true, hrun]
    exact ih hd1
  | case4 d v n rest hstop =>
    rw [rleLoop.eq_def]
    simp only [if_true]
    exact rleRun_canonical h v n
  | case5 d bs hshort =>
    rw [rleLoop.eq_def]
    simp only [if_true]
    exact h
  | case6 d b bs hb d1 out hlit ih =>
    have hd1 := rleLit_canonical h b
    rw [hlit] at hd1
    rw [rleLoop.eq_def]
    simp only [hb, if_false, hlit]
    exact ih hd1
  | case7 d b bs hb hstop =>
    rw [rleLoop.eq_def]
    simp only [hb, if_false]
    exact rleLit_canonical h b

theorem stage1Done_canonical (h : d.Canonical) : (d.stage1Done par lzw2).st.Canonical := by
  simp only [stage1Done]
  split
  · exact chunkDone_canonical par lzw2 (by exact h)
  · exact rleLoop_canonical par lzw2 (by exact h) _

theorem settle_canonical (h : d.Canonical) : (d.settle par lzw2).st.Canonical := by
  unfold settle
  split
  · exact loopHead_canonical h lzw2
  · split
    · exact h
    · split
      · exact stage1Done_canonical par lzw2 h
      · exact h
  · split
    · exact stage1Done_canonical par lzw2 h
    · exact h
  · exact rleLoop_canonical par lzw2 h _
  · exact h

/-- An operation that keeps the form, and what the procedure then goes on with, keep it. -/
theorem andThen_settle_canonical {r : Run NufxDec} (h : r.st.Canonical) :
    (r.andThen (settle par lzw2)).st.Canonical :=
  Run.andThen_keeps (P := Canonical) h fun _ h => settle_canonical par lzw2 h

theorem bit_canonical (h : d.Canonical) : (d.bit par lzw2).st.Canonical := by
  simp only [bit]
  split
  · exact h
  · exact andThen_settle_canonical par lzw2 (applyCode_canonical (by exact h) _)

theorem bits_canonical (n : Nat) (h : d.Canonical) : (bits par lzw2 n d).st.Canonical := by
  induction n generalizing d with
  | zero => exact h
  | succ n ih =>
    unfold bits
    split
    · exact Run.andThen_keeps (P := Canonical) (bit_canonical par lzw2 h) fun _ h => ih h
    · exact h

theorem hdrBytes_canonical (h : d.Canonical) (got : List Byte) : (d.hdrBytes par lzw2 got).st.Canonical := by
  unfold hdrBytes
  split
  case h_4 | h_5 => exact andThen_settle_canonical par _ (by exact h)
  all_goals exact h

theorem chunkHdrBytes_canonical (h : d.Canonical) (got : List Byte) :
    (d.chunkHdrBytes par lzw2 got).st.Canonical := by
  unfold chunkHdrBytes
  split
  · exact andThen_settle_canonical par _ (chunk1_canonical h _ _)
  · split
    · exact h
    · exact andThen_settle_canonical par _ (chunk2_canonical h _ _)
  · exact h

theorem clenBytes_canonical (h : d.Canonical) (w : Half) (got : List Byte) :
    (d.clenBytes par lzw2 w got).st.Canonical := by
  unfold clenBytes
  split
  · exact andThen_settle_canonical par lzw2 (chunk2_canonical h _ _)
  · exact h

theorem byte_canonical (h : d.Canonical) (b : Byte) : (d.byte par lzw2 b).st.Canonical := by
  unfold byte
  split
  · exact hdrBytes_canonical par lzw2 h _
  · exact chunkHdrBytes_canonical par lzw2 h _
  · exact clenBytes_canonical par lzw2 h _ _
  · exact andThen_settle_canonical par lzw2 (by exact h)
  · exact bits_canonical par lzw2 8 (by exact h)
  · exact h

theorem eof_canonical (h : d.Canonical) : d.eof.st.Canonical := by
  unfold eof
  split <;> exact h

theorem drive_canonical (h : d.Canonical) (ended : Bool) (inq : List Byte) :
    ((nufxDecProc par lzw2).drive ended inq d).1.st.Canonical :=
  Proc.drive_keeps (P := Canonical) _ (fun _ h => settle_canonical par lzw2 h)
    (fun _ b h => byte_canonical par lzw2 h b) (fun _ h => eof_canonical h) ended inq h

theorem cut_canonical (h : d.Canonical) (sp : Space) (items : List Item) :
    (Ctx.cutNufx par lzw2 sp items d).st.Canonical := by
  unfold Ctx.cutNufx
  split
  · split
    · exact rleLoop_canonical par lzw2 h []
    · exact h
  · split
    · exact eof_canonical h
    · exact Run.andThen_keeps (P := Canonical)
        (Proc.feed_keeps (P := Canonical) _ (fun _ b h => byte_canonical par lzw2 h b) _ h) fun _ h => eof_canonical h

end NufxDec

end Sys2Proof.Machine
end

section
/-! PROOFS. The canonical form of the working memories of LZC. -/

namespace Sys2Proof.Machine

open Sys2Proof

/-! ### LZC compress -/

namespace LzcEnc

/-- HTAB and CODETAB are in canonical form. -/
def Canonical (e : LzcEnc) : Prop := Tab.wf (-1) e.htab = true ∧ Tab.wf 0 e.codetab = true

variable {e : LzcEnc}

theorem nextWidth_canonical (h : e.Canonical) : e.nextWidth.Canonical := by
  unfold nextWidth
  split <;> exact h

theorem widthChangeFlush_canonical (h : e.Canonical) (pad : FlushPad) : (e.widthChangeFlush pad).1.Canonical := by
  unfold widthChangeFlush
  split <;> exact nextWidth_canonical (by exact h)

theorem groupFull_canonical (h : e.Canonical) : e.groupFull.1.Canonical := by
  unfold groupFull
  split <;> exact h

theorem output_canonical (h : e.Canonical) (pad : FlushPad) (code : Nat) : (e.output pad code).1.Canonical := by
  simp only [output]
  split
  · exact widthChangeFlush_canonical (groupFull_canonical (by exact h)) pad
  · exact groupFull_canonical (by exact h)

theorem clBlock_canonical (h : e.Canonical) (pad : FlushPad) : (e.clBlock pad).1.Canonical := by
  simp only [clBlock]
  split
  · exact h
  · exact output_canonical (by exact ⟨Tab.nil_wf, h.2⟩) pad _

theorem afterMiss_canonical (h : e.Canonical) (pad : FlushPad) (i fcode : Nat) :
    (e.afterMiss pad i fcode).1.Canonical := by
  unfold afterMiss
  split
  · exact ⟨Tab.put_wf h.1 _ _, Tab.put_wf h.2 _ _⟩
  · split
    · exact clBlock_canonical h pad
    · exact h

theorem next_canonical (h : e.Canonical) (par : Params) (c : Byte) : (e.next par c).1.Canonical := by
  have hout := output_canonical (e := { e with inCnt := e.inCnt + 1 }) h par.flushPad e.ent
  simp only [next]
  split
  · exact h
  · exact afterMiss_canonical (by exact hout) _ _ _

theorem byte_canonical (h : e.Canonical) (par : Params) (b : Byte) : (e.byte par b).st.Canonical := by
  unfold byte
  split
  · exact next_canonical h par b
  · exact h

theorem eof_canonical (h : e.Canonical) (par : Params) : (e.eof par).st.Canonical := by
  unfold eof
  split
  · exact output_canonical h par.flushPad e.ent
  · exact h

theorem drive_canonical (h : e.Canonical) (par : Params) (ended : Bool) (inq : List Byte) :
    ((lzcEncProc par).drive ended inq e).1.st.Canonical :=
  Proc.drive_keeps (P := Canonical) _ (fun _ h => h) (fun _ b h => byte_canonical h par b)
    (fun _ h => eof_canonical h par) ended inq h

end LzcEnc

/-! ### LZC expand -/

namespace LzcDec

/-- TAB_PREFIX and TAB_SUFFIX are in canonical form. -/
def Canonical (d : LzcDec) : Prop := Tab.wf 0 d.tabPrefix = true ∧ Tab.wf 0 d.tabSuffix = true

variable {d : LzcDec}

theorem addEntry_canonical (h : d.Canonical) (k : Nat) : (d.addEntry k).Canonical := by
  unfold addEntry
  split
  · exact ⟨Tab.put_wf h.1 _ _, Tab.put_wf h.2 _ _⟩
  · exact h

theorem emit_canonical (h : d.Canonical) (s : List Byte) (k : Nat) : (d.emit s k).st.Canonical :=
  addEntry_canonical (d := { d with finchar := s.headD 0 }) h k

theorem lit_canonical (h : d.Canonical) (first : Bool) (k : Byte) : (d.lit first k).st.Canonical := by
  unfold lit
  split
  · exact h
  · exact emit_canonical h _ _

theorem applyCode_canonical (h : d.Canonical) (ph : LzcPhase) (code : Nat) :
    (d.applyCode ph code).st.Canonical := by
  unfold applyCode
  split
  · exact lit_canonical h _ _
  · exact h
  · exact emit_canonical h _ _
  · exact emit_canonical h _ _
  · exact h

theorem hdr_canonical (h : d.Canonical) (m0 m1 flags : Byte) : (d.hdr m0 m1 flags).st.Canonical := by
  simp only [hdr]
  split
  · exact h
  · split <;> exact h

theorem growWidth_canonical (h : d.Canonical) : d.growWidth.Canonical := by
  simp only [growWidth]
  split
  · dsimp only
    split <;> exact h
  · split <;> exact h

theorem codesLoop_canonical (fuel : Nat) (h : d.Canonical) : (codesLoop fuel d).st.Canonical := by
  induction fuel generalizing d with
  | zero => exact h
  | succ fuel ih =>
    unfold codesLoop
    split
    · split
      · exact growWidth_canonical h
      · exact Run.andThen_keeps (P := Canonical) (applyCode_canonical (by exact h) _ _) fun _ h => ih h
    · exact h

theorem settle_canonical (h : d.Canonical) : d.settle.st.Canonical := codesLoop_canonical _ h

/-- An operation that keeps the form, and what the procedure then goes on with, keep it. -/
theorem andThen_settle_canonical {r : Run LzcDec} (h : r.st.Canonical) : (r.andThen settle).st.Canonical :=
  Run.andThen_keeps (P := Canonical) h fun _ h => settle_canonical h

theorem group_canonical (h : d.Canonical) (ph : LzcPhase) (bytes : List Byte) :
    (d.group ph bytes).st.Canonical := by
  simp only [group]
  split <;> exact h

theorem byte_canonical (h : d.Canonical) (b : Byte) : (d.byte b).st.Canonical := by
  unfold byte
  split
  · exact andThen_settle_canonical (hdr_canonical h _ _ _)
  · exact h
  · split
    · exact h
    · exact andThen_settle_canonical (group_canonical h _ _)
  · exact h

theorem atEnd_canonical (h : d.Canonical) : d.atEnd.st.Canonical := by
  unfold atEnd
  split <;> exact h

theorem eof_canonical (h : d.Canonical) : d.eof.st.Canonical := by
  unfold eof
  split
  · exact h
  · split
    · exact h
    · exact Run.andThen_keeps (P := Canonical) (andThen_settle_canonical (group_canonical h _ _))
        fun _ h => atEnd_canonical h
  · exact h

theorem drive_canonical (h : d.Canonical) (ended : Bool) (inq : List Byte) :
    (lzcDecProc.drive ended inq d).1.st.Canonical :=
  Proc.drive_keeps (P := Canonical) _ (fun _ h => settle_canonical h) (fun _ b h => byte_canonical h b)
    (fun _ h => eof_canonical h) ended inq h

end LzcDec

end Sys2Proof.Machine
end

section
/-! PROOFS. The canonical form of the working memories of Squeeze. -/

namespace Sys2Proof.Machine

open Sys2Proof

/-! ### Squeeze compress -/

namespace SqEnc

/-- The tables of the tree and of the codes are in canonical form. -/
def Canonical (e : SqEnc) : Prop :=
  Tab.wf 0 e.weight = true ∧ Tab.wf 0 e.tdepth = true ∧ Tab.wf (-1) e.lchild = true ∧
    Tab.wf (-1) e.rchild = true ∧ Tab.wf 0 e.code = true ∧ Tab.wf 0 e.codelen = true

variable {e : SqEnc} {t : Tab Nat}

theorem count_canonical (h : e.Canonical) : e.count.Canonical := by
  have hbytes : Tab.wf 0 (e.rleout.foldl countByte e.weight) = true :=
    List.foldlRecOn (motive := fun t => Tab.wf 0 t = true) _ _ h.1 fun _ ht _ _ => Tab.put_wf ht _ _
  exact ⟨Tab.put_wf hbytes _ _, h.2⟩

theorem raise1_wf (h : Tab.wf 0 t = true) (d c : Nat) : Tab.wf 0 (raise1 d t c) = true := by
  unfold raise1
  split
  · exact Tab.put_wf h _ _
  · exact h

theorem scaleLoop_wf (m ceil fuel : Nat) (h : Tab.wf 0 t = true) : Tab.wf 0 (scaleLoop m ceil fuel t) = true := by
  induction fuel generalizing t with
  | zero => exact h
  | succ fuel ih =>
    have hraise : Tab.wf 0 (leaves.foldl (raise1 (divisor m ceil t)) t) = true :=
      List.foldlRecOn (motive := fun t => Tab.wf 0 t = true) _ _ h fun _ ht c _ => raise1_wf ht _ c
    have hdivide : Tab.wf 0 (leaves.foldl (divide1 (divisor m ceil t)) t) = true :=
      List.foldlRecOn (motive := fun t => Tab.wf 0 t = true) _ _ h fun _ ht _ _ => Tab.put_wf ht _ _
    simp only [scaleLoop]
    split
    · split
      · exact hdivide
      · exact h
    · exact ih hraise

theorem setWeight_canonical (h : e.Canonical) (ht : Tab.wf 0 t = true) : Canonical { e with weight := t } :=
  ⟨ht, h.2⟩

theorem scale_canonical (h : e.Canonical) (arith : SqArith) : (e.scale arith).Canonical := by
  unfold scale
  exact setWeight_canonical h (scaleLoop_wf _ _ _ h.1)

theorem heapifyFrom_canonical (i : Nat) (h : e.Canonical) : (heapifyFrom i e).Canonical := by
  induction i generalizing e with
  | zero => exact h
  | succ i ih => exact ih (e := e.adjustList (i + 1) (e.list.length - 1)) h

theorem merge_canonical (h : e.Canonical) (arith : SqArith) (n freenode : Nat) :
    (e.merge arith n freenode).Canonical := by
  obtain ⟨hweight, htdepth, hlchild, hrchild, hcode, hcodelen⟩ := h
  exact ⟨Tab.put_wf hweight _ _, Tab.put_wf htdepth _ _, Tab.put_wf hlchild _ _, Tab.put_wf hrchild _ _,
    hcode, hcodelen⟩

theorem bldTree_canonical (arith : SqArith) (n freenode : Nat) (h : e.Canonical) :
    (bldTree arith n freenode e).Canonical := by
  induction n, freenode, e using bldTree.induct arith with
  | case1 | case2 => exact h
  | case3 n freenode e ih => exact ih (merge_canonical h arith _ _)

theorem buildencFrom_canonical {fuel nd level path : Nat} {e' : SqEnc} (h : e.Canonical)
    (hbuild : buildencFrom fuel e nd level path = some e') : e'.Canonical := by
  induction fuel generalizing e e' nd level path with
  | zero => cases hbuild
  | succ fuel ih =>
    unfold buildencFrom at hbuild
    split at hbuild
    · cases hbuild
      obtain ⟨hweight, htdepth, hlchild, hrchild, hcode, hcodelen⟩ := h
      exact ⟨hweight, htdepth, hlchild, hrchild, Tab.put_wf hcode _ _, Tab.put_wf hcodelen _ _⟩
    · split at hbuild
      · cases hbuild
      · next hleft => exact ih (ih h hleft) hbuild

theorem tryTree_canonical (h : e.Canonical) (arith : SqArith) : (e.tryTree arith).Canonical := by
  have hscale := scale_canonical h arith
  unfold tryTree
  generalize e.scale arith = e1 at hscale ⊢
  obtain ⟨hweight, htdepth, hrest⟩ := hscale
  exact bldTree_canonical arith _ _ (heapifyFrom_canonical _ ⟨hweight, Tab.filter_wf _ htdepth, hrest⟩)

theorem build_canonical (arith : SqArith) (fuel : Nat) (h : e.Canonical) : (build arith fuel e).1.Canonical := by
  induction fuel generalizing e with
  | zero => exact h
  | succ fuel ih =>
    have htry := tryTree_canonical h arith
    simp only [build]
    split
    · exact h
    · split
      · next hbuild => exact buildencFrom_canonical htry hbuild
      · exact ih htry

theorem putSyms_canonical (ss : List Nat) (h : e.Canonical) : (e.putSyms ss).1.Canonical := by
  induction ss generalizing e with
  | nil => exact h
  | cons s ss ih => exact ih (e := (e.putSym s).1) h

theorem writeData_canonical (h : e.Canonical) : e.writeData.1.Canonical :=
  putSyms_canonical (e := { e with wr := {} }) _ h

theorem eof_canonical (h : e.Canonical) (par : Params) (l : LCfg) : (e.eof par l).st.Canonical := by
  have hbuild (e1 : SqEnc) (h1 : e1.Canonical) : (build par.sqArith 17 { e1 with ceiling := 65535 }).1.Canonical :=
    build_canonical _ _ h1
  have h2 := hbuild _ (count_canonical (e := { e with
    sum := sumBytes 0 e.whole, rleout := rlePass par.sqLayout (sqDelim l) e.whole }) h)
  simp only [eof]
  split
  · next heq =>
    rw [heq] at h2
    exact h2
  · next heq =>
    rw [heq] at h2
    exact writeData_canonical h2

theorem drive_canonical (h : e.Canonical) (par : Params) (l : LCfg) (ended : Bool) (inq : List Byte) :
    ((sqEncProc par l).drive ended inq e).1.st.Canonical :=
  Proc.drive_keeps (P := Canonical) _ (fun _ h => h) (fun _ _ h => h) (fun _ h => eof_canonical h par l) ended inq h

end SqEnc

/-! ### Squeeze expand -/

namespace SqDec

/-- DNODE is in canonical form. -/
def Canonical (d : SqDec) : Prop := Tab.wf 0 d.dnode = true

variable {d : SqDec}

theorem rleLit_canonical (h : d.Canonical) (layout : SqLayout) (b : Byte) : (d.rleLit layout b).st.Canonical := by
  cases layout <;> exact h

theorem rleStep_canonical (h : d.Canonical) (layout : SqLayout) (delim s : Byte) :
    (d.rleStep layout delim s).st.Canonical := by
  unfold rleStep
  split
  · split
    · exact h
    · exact rleLit_canonical h _ _
  · split
    · exact h
    · split <;> exact h
  · exact h

theorem finish_canonical (h : d.Canonical) (full : Bool) : (d.finish full).st.Canonical := by
  unfold finish
  split
  · exact h
  · split <;> exact h

theorem hdr_canonical (h : d.Canonical) (m0 m1 : Byte) (sum : Half) : (d.hdr m0 m1 sum).st.Canonical := by
  unfold hdr
  split <;> exact h

theorem count_canonical (h : d.Canonical) (n : Half) : (d.count n).st.Canonical := by
  simp only [count]
  split
  · exact h
  · split <;> exact h

theorem setRef_canonical (h : d.Canonical) (i side : Nat) (r : Half) : (d.setRef i side r).st.Canonical := by
  unfold setRef
  split
  · exact Tab.put_wf h _ _
  · exact h

theorem nextNode_canonical (h : d.Canonical) (i : Nat) : (d.nextNode i).st.Canonical := by
  simp only [nextNode, Run.go]
  split <;> exact h

theorem node1_canonical (h : d.Canonical) (i : Nat) (left right : Half) : (d.node1 i left right).st.Canonical := by
  have hrefs := Run.andThen_keeps (P := Canonical) (setRef_canonical h i 0 left)
    fun _ h => setRef_canonical h i 1 right
  exact Run.andThen_keeps (P := Canonical) hrefs fun _ h => nextNode_canonical h i

theorem bit_canonical (h : d.Canonical) (par : Params) (l : LCfg) : (d.bit par l).st.Canonical := by
  simp only [bit]
  split
  · exact h
  · split
    · exact finish_canonical (by exact h) _
    · exact rleStep_canonical (by exact h) _ _ _

theorem bits_canonical (par : Params) (l : LCfg) (n : Nat) (h : d.Canonical) : (bits par l n d).st.Canonical := by
  induction n generalizing d with
  | zero => exact h
  | succ n ih =>
    unfold bits
    split
    · exact Run.andThen_keeps (P := Canonical) (bit_canonical h par l) fun _ h => ih h
    · exact h

theorem settle_canonical (h : d.Canonical) (l : LCfg) : (settle l d).st.Canonical := by
  unfold settle
  split
  · exact finish_canonical h _
  · exact h

/-- An operation that keeps the form, and what the procedure then goes on with, keep it. -/
theorem andThen_settle_canonical {r : Run SqDec} (h : r.st.Canonical) (l : LCfg) :
    (r.andThen (settle l)).st.Canonical :=
  Run.andThen_keeps (P := Canonical) h fun _ h => settle_canonical h l

theorem hdrByte_canonical (h : d.Canonical) (got : List Byte) (b : Byte) : (d.hdrByte got b).st.Canonical := by
  unfold hdrByte
  split
  case h_1 | h_2 => split <;> exact h
  case h_3 | h_4 => exact h
  case h_5 =>
    split
    · exact hdr_canonical h _ _ _
    · exact h

theorem nodeByte_canonical (h : d.Canonical) (l : LCfg) (i : Nat) (got : List Byte) (b : Byte) :
    (nodeByte l d i got b).st.Canonical := by
  unfold nodeByte
  split
  · exact Run.andThen_keeps (P := Canonical) (setRef_canonical h _ _ _) fun _ h => h
  · exact andThen_settle_canonical
      (Run.andThen_keeps (P := Canonical) (setRef_canonical h _ _ _) fun _ h => nextNode_canonical h i) l
  · exact h

theorem byte_canonical (h : d.Canonical) (par : Params) (l : LCfg) (b : Byte) : (d.byte par l b).st.Canonical := by
  unfold byte
  split
  · exact hdrByte_canonical h _ b
  · exact andThen_settle_canonical (count_canonical h _) l
  · exact h
  · exact nodeByte_canonical h l _ _ b
  · exact bits_canonical par l 8 (by exact h)
  · exact h

theorem eof_canonical (h : d.Canonical) : d.eof.st.Canonical := by
  unfold eof
  split <;> exact h

theorem drive_canonical (h : d.Canonical) (par : Params) (l : LCfg) (ended : Bool) (inq : List Byte) :
    ((sqDecProc par l).drive ended inq d).1.st.Canonical :=
  Proc.drive_keeps (P := Canonical) _ (fun _ h => settle_canonical h l) (fun _ b h => byte_canonical h par l b)
    (fun _ h => eof_canonical h) ended inq h

theorem cut_canonical (h : d.Canonical) (par : Params) (l : LCfg) (sp : Space) (items : List Item) :
    (Ctx.cutSq par l sp items d).st.Canonical := by
  unfold Ctx.cutSq
  split
  · split
    · exact finish_canonical h _
    · exact h
  · split
    · exact eof_canonical h
    · exact Run.andThen_keeps (P := Canonical)
        (Proc.feed_keeps (P := Canonical) _ (fun _ b h => byte_canonical h par l b) _ h) fun _ h => eof_canonical h

end SqDec

end Sys2Proof.Machine
end

section
/-! PROOFS. The canonical form of the working memory of ZX0 compress. ZX0 expand has none. -/

namespace Sys2Proof.Machine

open Sys2Proof

/-! ### ZX0 compress -/

namespace ZxEnc

/-- BEST_LENGTH is in canonical form. -/
def Canonical (e : ZxEnc) : Prop := Tab.wf 0 e.bestLength = true

/-- BEST_LENGTH is in canonical form while one position is tried. -/
def Pos.Canonical (p : Pos) : Prop := Tab.wf 0 p.bestLength = true

variable {e : ZxEnc} {p : Pos}

theorem Pos.offer_canonical (h : p.Canonical) (b : ParseBlock) : (p.offer b).Canonical := by
  unfold offer
  split
  · exact h
  · split <;> exact h

theorem repCandidate_canonical (h : p.Canonical) (index offset : Nat) (r : OffRec) :
    (repCandidate index offset r p).2.Canonical := by
  unfold repCandidate
  split
  · exact h
  · exact Pos.offer_canonical h _

theorem literalCandidate_canonical (h : p.Canonical) (index : Nat) (r : OffRec) :
    (literalCandidate index r p).2.Canonical := by
  unfold literalCandidate
  split
  · exact h
  · exact Pos.offer_canonical h _

theorem extendBest_canonical (optimal : List ParseBlock) (n : Nat) (bits : Int) (h : p.Canonical) :
    (extendBest optimal n bits p).Canonical := by
  induction n generalizing bits p with
  | zero => exact h
  | succ n ih =>
    simp only [extendBest]
    split <;> exact ih _ (Tab.put_wf h _ _)

theorem newCandidate_canonical (h : p.Canonical) (optimal : List ParseBlock) (index offset : Nat) (r : OffRec) :
    (newCandidate optimal index offset r p).2.Canonical := by
  have hfill : (fillBest optimal r.matchLength p).Canonical := extendBest_canonical optimal _ _ h
  simp only [newCandidate]
  split
  · exact Pos.offer_canonical hfill _
  · exact hfill

theorem stepOffset_canonical (h : p.Canonical) (optimal : List ParseBlock) (index offset : Nat) (same : Bool)
    (r : OffRec) : (stepOffset optimal index offset same r p).2.Canonical := by
  have hrep := repCandidate_canonical h index offset r
  simp only [stepOffset]
  split
  · split
    · exact newCandidate_canonical hrep _ _ _ _
    · exact hrep
  · exact literalCandidate_canonical h _ _

theorem stepOffsets_canonical (optimal : List ParseBlock) (index : Nat) (x : Byte) (left offset : Nat)
    (prev : List Byte) (rs : List OffRec) (h : p.Canonical) :
    (stepOffsets optimal index x left offset prev rs p).2.Canonical := by
  induction left, offset, prev, rs, p using stepOffsets.induct optimal index x with
  | case1 | case2 => exact h
  | case3 left offset prev r rs p a ih => exact ih (stepOffset_canonical h _ _ _ _ _)

theorem step_canonical {quick : Bool} {index : Nat} {prev : List Byte} {x : Byte} {e' : ZxEnc} (h : e.Canonical)
    (hstep : e.step quick index prev x = some e') : e'.Canonical := by
  simp only [step] at hstep
  split at hstep
  · cases hstep
  · cases hstep
    exact stepOffsets_canonical _ _ _ _ _ _ _ (by exact h)

theorem steps_canonical {quick : Bool} {xs : List Byte} {index : Nat} {prev : List Byte} {e' : ZxEnc}
    (h : e.Canonical) (hsteps : e.steps quick index prev xs = some e') : e'.Canonical := by
  induction xs generalizing e index prev with
  | nil => cases hsteps; exact h
  | cons x xs ih =>
    simp only [steps] at hsteps
    split at hsteps
    · cases hsteps
    · next hstep => exact ih (step_canonical h hstep) hsteps

theorem initParse_canonical (quick : Bool) (e : ZxEnc) (n : Nat) : (e.initParse quick n).Canonical := by
  simp only [Canonical, initParse]
  split <;> rfl

theorem optimize_canonical {quick : Bool} {e' : ZxEnc} (h : e.optimize quick = some e') : e'.Canonical :=
  steps_canonical (initParse_canonical quick e _) h

theorem emitBlocks_canonical {classic : Bool} {rest : List Byte} {bs : List (Nat × Nat)} {e' : ZxEnc}
    (h : e.Canonical) (hemit : emitBlocks classic e rest bs = some e') : e'.Canonical := by
  induction bs generalizing e rest with
  | nil => cases hemit; exact h
  | cons b bs ih =>
    simp only [emitBlocks] at hemit
    split at hemit
    · exact ih (by exact h) hemit
    · split at hemit
      · split at hemit
        · exact ih (by exact h) hemit
        · cases hemit
      · exact ih (by exact h) hemit

theorem eof_canonical (h : e.Canonical) (l : LCfg) : (e.eof l).st.Canonical := by
  unfold eof
  split
  · exact h
  · split
    · exact h
    · next hopt =>
      have h1 := optimize_canonical hopt
      split
      · exact h1
      · next hemit =>
        have h2 := emitBlocks_canonical (by exact h1) hemit
        exact h2

theorem drive_canonical (h : e.Canonical) (l : LCfg) (ended : Bool) (inq : List Byte) :
    ((zxEncProc l).drive ended inq e).1.st.Canonical :=
  Proc.drive_keeps (P := Canonical) _ (fun _ h => h) (fun _ _ h => h) (fun _ h => eof_canonical h l) ended inq h

end ZxEnc

end Sys2Proof.Machine
end

section
/-! PROOFS. Every step keeps the canonical form of the working memories: what a step does to a context's engine state
is one of the operations that keep it. -/

namespace Sys2Proof.Machine

open Sys2Proof

/-- Every working memory of an engine state is in canonical form. ZX0 expand has no table. -/
structure Engines.Canonical (e : Engines) : Prop where
  nufxEnc : e.nufxEnc.Canonical
  nufxDec : e.nufxDec.Canonical
  lzcEnc : e.lzcEnc.Canonical
  lzcDec : e.lzcDec.Canonical
  sqEnc : e.sqEnc.Canonical
  sqDec : e.sqDec.Canonical
  zxEnc : e.zxEnc.Canonical

theorem Engines.memoryWf_iff (e : Engines) : e.memoryWf = true ↔ e.Canonical := by
  simp only [Engines.memoryWf, Bool.and_eq_true, and_assoc]
  constructor
  · rintro ⟨hdict, hpfx, hsfx, hhtab, hcodetab, htabPrefix, htabSuffix, hweight, htdepth, hlchild, hrchild, hcode,
      hcodelen, hdnode, hbest⟩
    exact ⟨hdict, ⟨hpfx, hsfx⟩, ⟨hhtab, hcodetab⟩, ⟨htabPrefix, htabSuffix⟩,
      ⟨hweight, htdepth, hlchild, hrchild, hcode, hcodelen⟩, hdnode, hbest⟩
  · rintro ⟨hdict, ⟨hpfx, hsfx⟩, ⟨hhtab, hcodetab⟩, ⟨htabPrefix, htabSuffix⟩,
      ⟨hweight, htdepth, hlchild, hrchild, hcode, hcodelen⟩, hdnode, hbest⟩
    exact ⟨hdict, hpfx, hsfx, hhtab, hcodetab, htabPrefix, htabSuffix, hweight, htdepth, hlchild, hrchild, hcode,
      hcodelen, hdnode, hbest⟩

/-- The engine state after CLOSE and after reset is in canonical form. -/
theorem Engines.empty_canonical : ({} : Engines).Canonical := (Engines.memoryWf_iff _).mp (by decide)

/-! ### The engine procedures -/

namespace Ctx

variable {c : Ctx}

theorem runProc_canonical (par : Params) (h : c.eng.Canonical) : (c.runProc par).1.st.Canonical := by
  unfold runProc
  split
  case h_1 | h_3 => exact { h with nufxEnc := NufxEnc.drive_canonical h.nufxEnc _ _ _ _ _ }
  case h_2 | h_4 => exact { h with nufxDec := NufxDec.drive_canonical _ _ h.nufxDec _ _ }
  case h_5 => exact { h with lzcEnc := LzcEnc.drive_canonical h.lzcEnc _ _ _ }
  case h_6 => exact { h with lzcDec := LzcDec.drive_canonical h.lzcDec _ _ }
  case h_7 => exact { h with sqEnc := SqEnc.drive_canonical h.sqEnc _ _ _ _ }
  case h_8 => exact { h with sqDec := SqDec.drive_canonical h.sqDec _ _ _ _ }
  case h_9 => exact { h with zxEnc := ZxEnc.drive_canonical h.zxEnc _ _ _ }
  case h_10 => exact { h with }
  case h_11 => exact h

/-- OPEN starts an engine with empty tables (R79). -/
theorem startEngine_canonical (par : Params) (h : c.eng.Canonical) : (c.startEngine par).st.Canonical := by
  unfold startEngine
  split
  case h_1 | h_3 => exact { h with nufxEnc := Tab.nil_wf }
  case h_2 | h_4 => exact { h with nufxDec := ⟨Tab.nil_wf, Tab.nil_wf⟩ }
  case h_5 => exact { h with lzcEnc := ⟨Tab.nil_wf, Tab.nil_wf⟩ }
  case h_6 => exact { h with lzcDec := Engines.empty_canonical.lzcDec }
  case h_7 => exact { h with sqEnc := Engines.empty_canonical.sqEnc }
  case h_8 => exact { h with sqDec := Tab.nil_wf }
  case h_9 => exact { h with zxEnc := Engines.empty_canonical.zxEnc }
  case h_10 => exact { h with }
  case h_11 => exact h

/-- Where the items of a token event are no token, the procedure meets the end of its input (log entry 3). -/
theorem tokenError_canonical (par : Params) (sp : Space) (items : List Item) (e : DecodeError)
    (h : c.eng.Canonical) : (c.tokenError par sp items e).st.Canonical := by
  unfold tokenError
  split
  · exact h
  · split
    · exact { h with nufxDec := NufxDec.cut_canonical _ _ h.nufxDec _ _ }
    · exact { h with nufxDec := NufxDec.cut_canonical _ _ h.nufxDec _ _ }
    · exact { h with lzcDec := LzcDec.eof_canonical h.lzcDec }
    · exact { h with sqDec := SqDec.cut_canonical h.sqDec _ _ _ _ }
    · exact { h with }

/-- A command keeps the canonical form. -/
theorem MovesEngines.canonical {par : Params} {i : Instr} {e : Engines} (hi : i.isCommand = true)
    (h : c.eng.Canonical) (hmoves : c.MovesEngines par i e) : e.Canonical := by
  cases hmoves with
  | kept => exact h
  | run d heng => exact runProc_canonical par (heng ▸ h)
  | cmdOpen d heng => exact runProc_canonical par (heng ▸ startEngine_canonical par h)
  | cmdClose => exact Engines.empty_canonical
  | token htoken => simp [hi] at htoken

end Ctx

/-! ### The state -/

/-- Every working memory of every context is in canonical form. -/
def State.Canonical (s : State) : Prop := ∀ c ∈ s.ctxs, c.eng.Canonical

theorem State.memoryWf_iff (s : State) : s.memoryWf = true ↔ s.Canonical := by
  simp only [State.memoryWf, State.Canonical, List.all_eq_true, Engines.memoryWf_iff]

section
variable {s t : State}

theorem State.Canonical.cur {c : Ctx} (hs : s.Canonical) (hc : s.cur = some c) : c.eng.Canonical :=
  hs c (List.mem_of_getElem? hc)

theorem State.Canonical.setCur {c : Ctx} (hs : s.Canonical) (hc : c.eng.Canonical) : (s.setCur c).Canonical := by
  intro x hx
  rcases List.mem_or_eq_of_mem_set hx with hmem | rfl
  · exact hs x hmem
  · exact hc

theorem State.onCtx_canonical {f : Ctx → Except Refusal (Ctx × Nat)} (hs : s.Canonical)
    (h : s.onCtx f = .next t) (hf : ∀ c q, c.eng.Canonical → f c = .ok q → q.1.eng.Canonical) : t.Canonical := by
  obtain ⟨c, q, hc, hq, rfl⟩ := State.onCtx_next h
  exact hs.setCur (hf c q (hs.cur hc) hq)

/-! ### The stream tokens -/

theorem Ctx.token_canonical {par : Params} {free : Nat} {c : Ctx} {aw cls : Bool} {r : Run Engines} {q : Ctx × Nat}
    (hr : r.st.Canonical) (h : c.token par free aw cls r = .ok q) : q.1.eng.Canonical := by
  obtain ⟨-, -, -, rfl, -⟩ := Ctx.token_ok h
  rwa [Ctx.absorb_eng]

theorem State.onNufx_canonical {only : Option Bool} {aw cls : NufxDec → Bool} {f : NufxDec → Run NufxDec}
    (hs : s.Canonical) (h : s.onNufx only aw cls f = .next t)
    (hf : ∀ d : NufxDec, d.Canonical → (f d).st.Canonical) : t.Canonical :=
  State.onCtx_canonical hs h fun _ _ hc => Ctx.token_canonical { hc with nufxDec := hf _ hc.nufxDec }

theorem State.onLzc_canonical {aw cls : LzcDec → Bool} {f : LzcDec → Run LzcDec} (hs : s.Canonical)
    (h : s.onLzc aw cls f = .next t) (hf : ∀ d : LzcDec, d.Canonical → (f d).st.Canonical) : t.Canonical :=
  State.onCtx_canonical hs h fun _ _ hc => Ctx.token_canonical { hc with lzcDec := hf _ hc.lzcDec }

theorem State.onSq_canonical {aw cls : LCfg → SqDec → Bool} {f : LCfg → SqDec → Run SqDec} (hs : s.Canonical)
    (h : s.onSq aw cls f = .next t) (hf : ∀ l (d : SqDec), d.Canonical → (f l d).st.Canonical) : t.Canonical :=
  State.onCtx_canonical hs h fun _ _ hc => Ctx.token_canonical { hc with sqDec := hf _ _ hc.sqDec }

theorem State.onZx_canonical {aw cls : ZxDec → Bool} {f : ZxDec → Run ZxDec} (hs : s.Canonical)
    (h : s.onZx aw cls f = .next t) : t.Canonical :=
  State.onCtx_canonical hs h fun _ _ hc => Ctx.token_canonical { hc with }

theorem execSqPad_canonical {bits : List Bool} (hs : s.Canonical) (h : execSqPad bits s = .next t) :
    t.Canonical := by
  refine State.onCtx_canonical hs h fun c q hc hq => ?_
  split at hq
  · split at hq
    · cases hq; exact { hc with }
    · cases hq
  · cases hq

/-! ### One step -/

theorem exec_command_canonical {i : Instr} (hi : i.isCommand = true) (hs : s.Canonical) (h : exec i s = .next t) :
    t.Canonical := by
  rcases exec_next h with ⟨-, rfl⟩ | ⟨c, q, hc, hq, rfl⟩
  · exact hs
  · exact hs.setCur (hq.movesEngines.canonical hi (hs.cur hc))

theorem exec_canonical {i : Instr} (hs : s.Canonical) (h : exec i s = .next t) : t.Canonical := by
  cases i
  case cmdNop | cmdOpen | cmdFeed | cmdProduce | cmdFinish | cmdSeek | cmdClose | cmdNameByte | cmdNameClear |
      cmdReserved9 | cmdReservedAB | cmdReservedCF => exact exec_command_canonical rfl hs h
  all_goals simp only [exec] at h
  case nufxLit k => exact State.onNufx_canonical hs h fun _ hd => NufxDec.lit_canonical hd k
  case nufxTable k => exact State.onNufx_canonical hs h fun _ hd => NufxDec.table_canonical hd k.toNat
  case nufxKwkwk k => exact State.onNufx_canonical hs h fun _ hd => NufxDec.kwkwk_canonical hd k.toNat
  case nufxRleRun v n => exact State.onNufx_canonical hs h fun _ hd => NufxDec.rleRun_canonical hd v n
  case nufxRleLit b => exact State.onNufx_canonical hs h fun _ hd => NufxDec.rleLit_canonical hd b
  case nufx1Chunk rlelen flag => exact State.onNufx_canonical hs h fun _ hd => NufxDec.chunk1_canonical hd _ flag
  case nufx2Chunk w clen => exact State.onNufx_canonical hs h fun _ hd => NufxDec.chunk2_canonical hd w clen
  case nufxClear | nufxInvalid | nufx1Hdr | nufx2Hdr => exact State.onNufx_canonical hs h fun _ hd => hd
  case lzcLit k => exact State.onLzc_canonical hs h fun _ hd => LzcDec.lit_canonical hd _ k
  case lzcTable | lzcKwkwk => exact State.onLzc_canonical hs h fun _ hd => LzcDec.emit_canonical hd _ _
  case lzcHdr m0 m1 flags => exact State.onLzc_canonical hs h fun _ hd => LzcDec.hdr_canonical hd m0 m1 flags
  case lzcGroup bytes => exact State.onLzc_canonical hs h fun _ hd => LzcDec.group_canonical hd _ bytes
  case lzcClear | lzcInvalid => exact State.onLzc_canonical hs h fun _ hd => hd
  case sqHdr m0 m1 sum _ => exact State.onSq_canonical hs h fun _ _ hd => SqDec.hdr_canonical hd m0 m1 sum
  case sqCount n => exact State.onSq_canonical hs h fun _ _ hd => SqDec.count_canonical hd n
  case sqNode left right => exact State.onSq_canonical hs h fun _ _ hd => SqDec.node1_canonical hd _ left right
  case sqSym b => exact State.onSq_canonical hs h fun _ _ hd => SqDec.rleStep_canonical (by exact hd) _ _ b
  case sqEof => exact State.onSq_canonical hs h fun _ _ hd => SqDec.finish_canonical (by exact hd) _
  case sqRleLit b => exact State.onSq_canonical hs h fun _ _ hd => SqDec.rleLit_canonical hd _ b
  case sqRleRun | usqRun | usqEsc => exact State.onSq_canonical hs h fun _ _ hd => hd
  case sqPad => exact execSqPad_canonical hs h
  case zx0Literals | zx0Rep | zx0New | zx0End => exact State.onZx_canonical hs h

theorem stepWrite_canonical {addr size : Nat} {v : Word} (hs : s.Canonical)
    (h : stepWrite s addr size v = .next t) : t.Canonical := by
  unfold stepWrite at h
  split at h
  · cases h
  · split at h
    · cases h
    · split at h
      · exact exec_canonical (by exact hs) h
      · refine State.onCtx_canonical (by exact hs) h fun c q hc hq => ?_
        cases hq
        rwa [Ctx.writeReg_eng]

theorem stepRead_canonical {addr size : Nat} (hs : s.Canonical) (h : stepRead s addr size = .next t) :
    t.Canonical := by
  unfold stepRead at h
  split at h
  · cases h
  · split at h
    · cases h
    · split at h
      · cases h
      · cases h; exact hs

/-- The engine procedure that goes on after a token (R221). -/
theorem resumeToken_canonical {sp : Space} (hs : s.Canonical) (h : resumeToken sp s = .next t) : t.Canonical := by
  unfold resumeToken at h
  split at h
  · refine State.onCtx_canonical hs h fun c q hc hq => ?_
    unfold Ctx.resume at hq
    split at hq
    · obtain ⟨rfl, -⟩ := Ctx.commit_ok hq
      rw [Ctx.run_eng]
      exact Ctx.runProc_canonical _ hc
    · cases hq; exact hc
  · cases h; exact hs

theorem outThen_next {r : Out} {f : State → Out} (h : outThen r f = .next t) :
    ∃ u, r = .next u ∧ f u = .next t := by
  cases r with
  | next u => exact ⟨u, rfl, h⟩
  | fault => cases h
  | refused => cases h

theorem stepToken_canonical {sp : Space} {items : List Item} (hs : s.Canonical)
    (h : stepToken s sp items = .next t) : t.Canonical := by
  unfold stepToken at h
  split at h
  · cases h
  · split at h
    · cases h
    · split at h
      · refine State.onCtx_canonical hs h fun c q hc hq => ?_
        obtain ⟨rfl, -⟩ := Ctx.commit_ok hq
        rw [Ctx.absorb_eng]
        exact Ctx.tokenError_canonical _ _ _ _ hc
      · obtain ⟨u, hexec, hresume⟩ := outThen_next h
        exact resumeToken_canonical (exec_canonical (by exact hs) hexec) hresume

/-- Hardware reset empties every working memory (R78). -/
theorem reset_canonical (s : State) (rest : List Event) :
    State.Canonical { s with ctxs := s.ctxs.map Ctx.hardReset, bus := rest } := by
  intro c hc
  rw [eq_reset_of_mem_map_hardReset hc]
  exact Engines.empty_canonical

theorem step_canonical (hs : s.Canonical) (h : step s = .next t) : t.Canonical := by
  unfold step at h
  split at h
  · cases h; exact hs
  · cases h; exact reset_canonical s _
  · exact stepWrite_canonical (by exact hs) h
  · exact stepRead_canonical (by exact hs) h
  · exact stepToken_canonical (by exact hs) h

end

/-- Settles O53: each pending event acts on a context by operations that keep the canonical form. -/
theorem stepKeepsMemoryCanonical : Obligations.StepKeepsMemoryCanonical := by
  intro s t hs h
  rw [State.memoryWf_iff] at hs ⊢
  exact step_canonical hs h

end Sys2Proof.Machine
end

section
/-! PROOFS. The command words: the fields of R160 select the command of every word (R161, R164), and a command's own
word decodes to it again. -/

namespace Sys2Proof

/-- OP put together from two parts of it, the upper one of a reserved row and its operand (R161). -/
theorem cmdOp_eq_of_parts {w : Word} {m n : Nat} {hi : BitVec n} (hmn : n + m = 4) (h : w.extractLsb' m n = hi) :
    cmdOp w = (hi ++ w.extractLsb' 0 m).toNat := by
  rw [← h, BitVec.extractLsb'_append_extractLsb'_eq_extractLsb' (Nat.zero_add m).symm, cmdOp, hmn]

/-- The two OP values of the row RESERVED 0xA to 0xB (R161). -/
theorem decodeCmd_of_reservedAB {w : Word} (h : w.extractLsb' 1 3 = 5#3) :
    decodeCmd w = .cmdReservedAB (w.extractLsb' 0 1) := by
  have hop := cmdOp_eq_of_parts rfl h
  obtain hlo | hlo := BitVec.eq_zero_or_eq_one (w.extractLsb' 0 1) <;>
    · rw [hlo] at hop ⊢
      simp [decodeCmd, hop]

/-- The four OP values of the row RESERVED 0xC to 0xF (R161). -/
theorem decodeCmd_of_reservedCF {w : Word} (h : w.extractLsb' 2 2 = 3#2) :
    decodeCmd w = .cmdReservedCF (w.extractLsb' 0 2) := by
  have hle : ∀ lo : BitVec 2, 12 ≤ (3#2 ++ lo).toNat := by decide
  have hop : 12 ≤ cmdOp w := cmdOp_eq_of_parts rfl h ▸ hle _
  unfold decodeCmd
  split <;> try omega
  rfl

/-- Settles O9: OP of the word picks the arm of `decodeCmd`. -/
theorem commandWordDecodesByOpcode : Obligations.CommandWordDecodesByOpcode := by
  intro w
  refine ⟨?_, ?_, ?_, ?_, ?_, ?_, ?_, ?_, ?_, ?_, decodeCmd_of_reservedAB, decodeCmd_of_reservedCF⟩ <;>
    · intro hop
      simp [decodeCmd, cmdOp, hop, cmdEngine, cmdDir, cmdByte]

/-- The BYTE field of a word laid out by R160. -/
theorem cmdByte_append (b : Byte) (op : BitVec 4) : cmdByte (0#16 ++ b ++ 0#4 ++ op) = b :=
  (BitVec.extractLsb'_append_eq_of_le (by decide)).trans <|
    (BitVec.extractLsb'_append_eq_of_le (by decide)).trans BitVec.extractLsb'_append_eq_right

/-- The OP field of a word laid out by R160. -/
theorem cmdOp_append (hi : BitVec 28) (op : BitVec 4) : cmdOp (hi ++ op) = op.toNat :=
  congrArg BitVec.toNat BitVec.extractLsb'_append_eq_right

/-- Exactly the host commands have a word (R2, R160). -/
theorem encodeCmd_isSome (i : Instr) : (encodeCmd i).isSome = i.isCommand := by
  cases i <;> rfl

/-- A command's own word, its ignored bits 0, decodes to the command (R160, R164). -/
theorem decodeCmd_encodeCmd {i : Instr} {w : Word} (h : encodeCmd i = some w) : decodeCmd w = i := by
  cases i with
  | cmdOpen eng dir =>
    cases h
    revert eng dir
    decide
  | cmdFeed b =>
    cases h
    have hop : cmdOp (0#16 ++ b ++ 0#4 ++ 2#4) = 2 := cmdOp_append _ _
    simp only [decodeCmd, hop, cmdByte_append]
  | cmdNameByte b =>
    cases h
    have hop : cmdOp (0#16 ++ b ++ 0#4 ++ 7#4) = 7 := cmdOp_append _ _
    simp only [decodeCmd, hop, cmdByte_append]
  | cmdReservedAB lo => cases h; revert lo; decide
  | cmdReservedCF lo => cases h; revert lo; decide
  | _ => cases h <;> rfl

end Sys2Proof
end

section
/-! PROOFS. Decode inverts encode. First the codes whose length is not fixed (Elias-gamma, Huffman), then each read
point, then all of them. -/

namespace Sys2Proof

/-! ### Elias-gamma codes (R185) -/

/-- A data bit doubles the value and adds the bit, below the limit of R273. -/
theorem scanEg_dataBit {invert : Bool} {limit : Option Nat} {v : Nat} (hlim : ∀ m ∈ limit, v ≤ m)
    (bs : List Bool) : scanEg invert limit (v / 2) false (false :: xor (decide (v % 2 = 1)) invert :: bs) =
      scanEg invert limit v false bs := by
  have hval : 2 * (v / 2) + (decide (v % 2 = 1)).toNat = v := by
    obtain h | h := Nat.mod_two_eq_zero_or_one v <;> simp [h] <;> omega
  have hbelow : limit.any (fun m => decide (m < v)) = false := by
    cases limit with
    | none => rfl
    | some m => simpa using hlim m rfl
  simp [scanEg, hval, hbelow]

/-- The data bits of the `n` low bits of `v` bring the value from `v / 2 ^ n` to `v`. -/
theorem scanEg_dataBits {invert : Bool} {limit : Option Nat} (n v : Nat) (hlim : ∀ m ∈ limit, v ≤ m)
    (bs : List Bool) : scanEg invert limit (v / 2 ^ n) false
        ((bitsOf v n).reverse.flatMap (fun b => [false, xor b invert]) ++ bs) =
      scanEg invert limit v false bs := by
  induction n generalizing v bs with
  | zero => simp [bitsOf]
  | succ n ih =>
    have hhalf : ∀ m ∈ limit, v / 2 ≤ m := fun m hm => (Nat.div_le_self v 2).trans (hlim m hm)
    have hstep := ih (v / 2) hhalf (false :: xor (decide (v % 2 = 1)) invert :: bs)
    rw [scanEg_dataBit hlim, Nat.div_div_eq_div_mul, ← Nat.pow_succ'] at hstep
    simpa [bitsOf] using hstep

/-- `EG(v)` is read back as `v`, whatever follows. -/
theorem takeEg_egBits {invert : Bool} {limit : Option Nat} {v : Nat} (hv : 1 ≤ v) (hlim : ∀ m ∈ limit, v ≤ m)
    (r : List Item) : takeEg invert limit 1 false ((egBits invert v).map .bit ++ r) = .ok (v, r) := by
  have hlead : v / 2 ^ Nat.log2 v = 1 :=
    Nat.div_eq_of_lt_le (by simpa using Nat.log2_self_le (by omega))
      (by simpa [← Nat.pow_succ'] using Nat.lt_log2_self)
  have hscan := scanEg_dataBits (invert := invert) (Nat.log2 v) v hlim [true]
  rw [hlead] at hscan
  exact takeEg_map invert limit _ r 1 v false (by rw [egBits, egData, hscan]; rfl)

/-- A length, whose code has no limit, is read back (R641, R642). -/
theorem takeEg_egBits_length {len : Nat} (hlen : 1 ≤ len) (r : List Item) :
    takeEg false none 1 false ((egBits false len).map .bit ++ r) = .ok (len, r) :=
  takeEg_egBits hlen (by simp) r

/-- The first bit of `EG(v)` is 1 exactly when `v` is 1. -/
theorem egBits_eq_cons {invert : Bool} {v : Nat} (hv : 1 ≤ v) :
    egBits invert v = decide (v = 1) :: (egBits invert v).tail := by
  have hdata : egData v = [] ↔ v = 1 := by
    rw [egData, List.reverse_eq_nil_iff, ← List.length_eq_zero_iff, bitsOf_length]
    constructor
    · intro hlog
      have hlt := Nat.lt_log2_self (n := v)
      rw [hlog] at hlt
      omega
    · rintro rfl
      rfl
  rw [egBits]
  cases hd : egData v with
  | nil => simp [hdata.mp hd]
  | cons b bs =>
    have hne : v ≠ 1 := fun h => by simp [hdata.mpr h] at hd
    simp [hne]

/-! ### Huffman codes (R182) -/

/-- The path that the encoder finds leads the walk to the leaf. -/
theorem walkLeaf_sqPath {tree : Tab Int} {target : Int} (ht : target < 0) {fuel i : Nat} {p : List Bool}
    (h : sqPath tree target fuel i = some p) : walkLeaf tree i p = (target, []) := by
  induction fuel generalizing i p with
  | zero => cases h
  | succ fuel ih =>
    simp only [sqPath] at h
    split at h
    · next hl => cases h; simp [walkLeaf, hl, ht]
    split at h
    · next hr => cases h; simp [walkLeaf, hr, ht]
    split at h
    · next q hq =>
      cases h
      split at hq
      · cases hq
      · next hl => simp [walkLeaf, hl, ih hq]
    split at h
    · next q hq =>
      cases h
      split at hq
      · cases hq
      · next hr => simp [walkLeaf, hr, ih hq]
    · cases h

/-- The Huffman code of a symbol is read back as the symbol's leaf, whatever follows. -/
theorem takeLeaf_sqCodeItems {tree : Tab Int} {s : Nat} {items : List Item} (h : sqCodeItems tree s = some items)
    (r : List Item) : takeLeaf tree 0 (items ++ r) = .ok (sqLeafRef s, r) := by
  have hneg : sqLeafRef s < 0 := by simp only [sqLeafRef]; omega
  obtain ⟨p, hp, rfl⟩ := Option.map_eq_some_iff.mp h
  exact takeLeaf_map tree p r 0 _ hneg (walkLeaf_sqPath hneg hp)

/-! ### ZX0 tokens (R184 to R186) -/

/-- A literal run is read back (R641). -/
theorem decodeZx0Literals_encoded {bs : List Byte} (hpos : 1 ≤ bs.length) (rest : List Item) :
    decodeZx0Literals ((egBits false bs.length).map .bit ++ (bs.map .byte ++ rest)) = .ok (.zx0Literals bs, rest) := by
  simp only [decodeZx0Literals, takeEg_egBits_length hpos, takeBytes_map]

/-- A new-offset match is read back: bit 0 of its raw byte is the first bit of the length's code (R643). -/
theorem decodeZx0New_encoded {classic : Bool} {msb b : Byte} {len : Nat} (hmsb : msb ≠ 0) (hlen : 2 ≤ len)
    (hb : b.getLsbD 0 = decide (len = 2)) (rest : List Item) :
    decodeZx0New classic ((egBits (zx0Invert classic) msb.toNat).map .bit ++
      .byte b :: ((egBits false (len - 1)).tail.map .bit ++ rest)) = .ok (.zx0New msb b len, rest) := by
  have hpos : 1 ≤ msb.toNat := Nat.one_le_iff_ne_zero.mpr fun h => hmsb (BitVec.eq_of_toNat_eq h)
  have hlt : msb.toNat < Config.zx0EndMarker := msb.isLt
  have hmsbCode := takeEg_egBits (invert := zx0Invert classic) (limit := some Config.zx0EndMarker) hpos
    (by rintro m ⟨⟩; exact hlt.le)
  have hfirst : egBits false (len - 1) = b.getLsbD 0 :: (egBits false (len - 1)).tail := by
    rw [hb, egBits_eq_cons (by omega), List.tail_cons, decide_eq_decide.mpr (by omega : len - 1 = 1 ↔ len = 2)]
  have hlenCode := takeEg_egBits_length (len := len - 1) (by omega) rest
  rw [hfirst, List.map_cons, List.cons_append] at hlenCode
  simp only [decodeZx0New, hmsbCode, hlt.ne, if_false, takeBytes, hlenCode, BitVec.ofNat_toNat, BitVec.setWidth_eq,
    Nat.sub_add_cancel (by omega : 1 ≤ len)]

/-- The end marker is read back (R644). -/
theorem decodeZx0New_end (classic : Bool) (rest : List Item) :
    decodeZx0New classic ((egBits (zx0Invert classic) Config.zx0EndMarker).map .bit ++ rest) = .ok (.zx0End, rest) := by
  have hcode := takeEg_egBits (invert := zx0Invert classic) (limit := some Config.zx0EndMarker)
    (v := Config.zx0EndMarker) (by decide) (by rintro m ⟨⟩; exact le_rfl) rest
  simp only [decodeZx0New, hcode, if_true]

/-- A token that is not the first of its stream: the indicator bit 1 tells NEW and END from the others, and a bit 0
is a REP after LITERALS (R184). -/
theorem decodeZx0_indicator (afterLit classic indic : Bool) (items : List Item) :
    decodeZx0 false afterLit classic (.bit indic :: items) =
      if indic then decodeZx0New classic items
      else if afterLit then (takeEg false none 1 false items).map (fun q => (.zx0Rep q.1, q.2))
      else decodeZx0Literals items := by
  cases indic with
  | true => simp [decodeZx0, takeBits, Item.bits]
  | false =>
    cases hlen : takeEg false none 1 false items <;> simp [decodeZx0, takeBits, Item.bits, hlen, Except.map]

/-! ### Packed codes and groups (R178, R262) -/

/-- A value that fits in `n` bits is assembled from them. -/
theorem ofBits_bitsOf_of_lt {v n : Nat} (h : v < 2 ^ n) : ofBits (bitsOf v n) = v := by
  rw [ofBits_bitsOf, Nat.mod_eq_of_lt h]

/-- All the bytes laid down stand ahead, whatever follows. -/
theorem bytesAhead_map (bs : List Byte) (r : List Item) : bytesAhead bs.length (bs.map .byte ++ r) = bs.length := by
  induction bs with
  | nil => rfl
  | cons b bs ih => simp [bytesAhead, ih]

/-! ### The read points -/

namespace ReadPoint

/-- The instruction has an encoding at the point, and decoding it, whatever follows, gives the instruction back. -/
def RoundTrips (p : ReadPoint) (i : Instr) : Prop :=
  ∃ items, encode p i = some items ∧ ∀ rest, decode p (items ++ rest) = .ok (i, rest)

variable {i : Instr}

/-- A command (R160, R161). -/
theorem cmd_roundTrips (h : cmd.admits i = true) : cmd.RoundTrips i := by
  obtain ⟨-, hcmd⟩ := Bool.and_eq_true_iff.mp h
  obtain ⟨w, hw⟩ := Option.isSome_iff_exists.mp ((encodeCmd_isSome i).trans hcmd)
  refine ⟨codeItems 32 w.toNat, by simp [encode, hw], fun rest => ?_⟩
  simp only [decode, takeBits_codeItems, ofBits_bitsOf_of_lt w.isLt, BitVec.ofNat_toNat, BitVec.setWidth_eq,
    decodeCmd_encodeCmd hw]

/-- A packed NuFX code (R174). -/
theorem nufxCode_roundTrips {width f : Nat} {havePrev : Bool} (h : (nufxCode width f havePrev).admits i = true) :
    (nufxCode width f havePrev).RoundTrips i := by
  cases hk : nufxCodeOf i with
  | none => simp [admits, hk] at h
  | some k =>
    simp only [admits, hk, Bool.and_eq_true, decide_eq_true_eq] at h
    obtain ⟨-, ⟨-, hlt⟩, hi⟩ := h
    refine ⟨codeItems width k, by simp [encode, hk], fun rest => ?_⟩
    simp only [decode, takeBits_codeItems, ofBits_bitsOf_of_lt hlt, hi]

/-- A packed LZC code (R177). -/
theorem lzcCode_roundTrips {nBits freeEnt : Nat} {block mustLit : Bool}
    (h : (lzcCode nBits freeEnt block mustLit).admits i = true) :
    (lzcCode nBits freeEnt block mustLit).RoundTrips i := by
  cases hk : lzcCodeOf i with
  | none => simp [admits, hk] at h
  | some k =>
    simp only [admits, hk, Bool.and_eq_true, decide_eq_true_eq] at h
    obtain ⟨-, ⟨-, hlt⟩, hi⟩ := h
    refine ⟨codeItems nBits k, by simp [encode, hk], fun rest => ?_⟩
    simp only [decode, takeBits_codeItems, ofBits_bitsOf_of_lt hlt, hi]

/-- A NuFX RLE token (R175). -/
theorem nufxRle_roundTrips {delim : Byte} (h : (nufxRle delim).admits i = true) : (nufxRle delim).RoundTrips i := by
  cases i with
  | nufxRleRun v n => exact ⟨_, rfl, fun rest => by simp [decode, decodeNufxRle, takeBytes]⟩
  | nufxRleLit b =>
    have hb : b ≠ delim := by simpa [admits, Instr.wellFormed] using h
    exact ⟨_, rfl, fun rest => by simp [decode, decodeNufxRle, takeBytes, hb]⟩
  | _ => simp [admits] at h

/-- An LZW/1 stream header (R367). -/
theorem nufx1Hdr_roundTrips (h : nufx1Hdr.admits i = true) : nufx1Hdr.RoundTrips i := by
  cases i with
  | nufx1Hdr crc v d => exact ⟨_, rfl, fun rest => by simp [decode, leBytes, takeBytes, u16le_bytes]⟩
  | _ => simp [admits] at h

/-- An LZW/1 chunk header (R368). -/
theorem nufx1Chunk_roundTrips (h : nufx1Chunk.admits i = true) : nufx1Chunk.RoundTrips i := by
  cases i with
  | nufx1Chunk rlelen f => exact ⟨_, rfl, fun rest => by simp [decode, leBytes, takeBytes, u16le_bytes]⟩
  | _ => simp [admits] at h

/-- An LZW/2 stream header (R369). -/
theorem nufx2Hdr_roundTrips (h : nufx2Hdr.admits i = true) : nufx2Hdr.RoundTrips i := by
  cases i with
  | nufx2Hdr v d => exact ⟨_, rfl, fun rest => by simp [decode, takeBytes]⟩
  | _ => simp [admits] at h

/-- An LZW/2 chunk word: CLEN follows exactly where W[15] is 1 (R173). -/
theorem nufx2Chunk_roundTrips (h : nufx2Chunk.admits i = true) : nufx2Chunk.RoundTrips i := by
  cases i with
  | nufx2Chunk w clen =>
    refine ⟨_, rfl, fun rest => ?_⟩
    by_cases hlzw : chunkUseLzw w = true
    · simp [decode, decodeNufx2Chunk, leBytes, takeBytes, u16le_bytes, hlzw]
    · have hform : w.getLsbD 15 = true ∨ clen = 0 := by simpa [admits, Instr.wellFormed] using h
      have hclen : clen = 0 := hform.resolve_left hlzw
      simp [decode, decodeNufx2Chunk, leBytes, takeBytes, u16le_bytes, hlzw, hclen]
  | _ => simp [admits] at h

/-- An LZC header (R176). -/
theorem lzcHdr_roundTrips (h : lzcHdr.admits i = true) : lzcHdr.RoundTrips i := by
  cases i with
  | lzcHdr m0 m1 f => exact ⟨_, rfl, fun rest => by simp [decode, takeBytes]⟩
  | _ => simp [admits] at h

/-- A whole LZC group (R178). -/
theorem lzcGroup_roundTrips {nBits : Nat} (h : (lzcGroup nBits).admits i = true) : (lzcGroup nBits).RoundTrips i := by
  cases i with
  | lzcGroup bs =>
    simp only [admits, Instr.wellFormed, Bool.and_eq_true, decide_eq_true_eq] at h
    obtain ⟨⟨hpos, -⟩, rfl⟩ := h
    refine ⟨_, rfl, fun rest => ?_⟩
    cases bs with
    | nil => simp at hpos
    | cons b bs =>
      have hahead := bytesAhead_map (b :: bs) rest
      have htake := takeBytes_map false (b :: bs) rest
      simp only [List.length_cons, List.map_cons, List.cons_append] at hahead htake
      simp [decode, Item.isBit, hahead, htake]
  | _ => simp [admits] at h

/-- A Squeeze standalone header (R179). -/
theorem sqHdr_roundTrips (h : sqHdr.admits i = true) : sqHdr.RoundTrips i := by
  cases i with
  | sqHdr m0 m1 sum name =>
    simp only [admits, Instr.wellFormed, Bool.and_eq_true, decide_eq_true_eq, List.all_eq_true, and_true] at h
    obtain ⟨⟨rfl, rfl⟩, hname⟩ := h
    refine ⟨_, rfl, fun rest => ?_⟩
    have hback : takeName (name.map .byte ++ .byte 0#8 :: rest) = .ok (name, rest) := takeName_map name hname rest
    simp [decode, decodeSqHdr, leBytes, takeBytes, u16le_bytes, hback]
  | _ => simp [admits] at h

/-- The node count of a Squeeze tree (R561). -/
theorem sqCount_roundTrips (h : sqCount.admits i = true) : sqCount.RoundTrips i := by
  cases i with
  | sqCount n => exact ⟨_, rfl, fun rest => by simp [decode, leBytes, takeBytes, u16le_bytes]⟩
  | _ => simp [admits] at h

/-- A Squeeze tree entry (R181). -/
theorem sqNode_roundTrips (h : sqNode.admits i = true) : sqNode.RoundTrips i := by
  cases i with
  | sqNode l r => exact ⟨_, rfl, fun rest => by simp [decode, leBytes, takeBytes, u16le_bytes]⟩
  | _ => simp [admits] at h

/-- A Huffman code: the leaf reference -257 is the end code, any other the symbol's (R181, R182). -/
theorem sqCode_roundTrips {tree : Tab Int} (h : (sqCode tree).admits i = true) : (sqCode tree).RoundTrips i := by
  cases i with
  | sqSym s =>
    obtain ⟨items, hitems⟩ : ∃ items, sqCodeItems tree s.toNat = some items := by
      simpa [admits, Instr.wellFormed, Option.isSome_iff_exists] using h
    refine ⟨items, hitems, fun rest => ?_⟩
    have hsym : sqLeafRef s.toNat ≠ -257 := by simp only [sqLeafRef]; omega
    have hback : (-(sqLeafRef s.toNat + 1)).toNat = s.toNat := by simp only [sqLeafRef]; omega
    simp only [decode, takeLeaf_sqCodeItems hitems, hsym, if_false, hback, BitVec.ofNat_toNat, BitVec.setWidth_eq]
  | sqEof =>
    obtain ⟨items, hitems⟩ : ∃ items, sqCodeItems tree Config.sqEof = some items := by
      simpa [admits, Instr.wellFormed, Option.isSome_iff_exists] using h
    exact ⟨items, hitems, fun rest => by simp [decode, takeLeaf_sqCodeItems hitems, sqLeafRef]⟩
  | _ => simp [admits] at h

/-- The padding bits after the end code (R182). -/
theorem sqPad_roundTrips {n : Nat} (h : (sqPad n).admits i = true) : (sqPad n).RoundTrips i := by
  cases i with
  | sqPad bits =>
    obtain ⟨-, rfl⟩ : bits.length ≤ 7 ∧ bits.length = n := by simpa [admits, Instr.wellFormed] using h
    exact ⟨_, rfl, fun rest => by simp [decode, takeBits_map]⟩
  | _ => simp [admits] at h

/-- A Squeeze RLE token of either layout (R183, R502, R503). -/
theorem sqRle_roundTrips {layout : SqLayout} {delim : Byte} (h : (sqRle layout delim).admits i = true) :
    (sqRle layout delim).RoundTrips i := by
  cases i with
  | sqRleRun v n =>
    cases layout with
    | doc => exact ⟨_, rfl, fun rest => by simp [decode, decodeSqRle, takeBytes]⟩
    | usq => simp [admits] at h
  | sqRleLit b =>
    have hb : b ≠ delim := by cases layout <;> simpa [admits, Instr.wellFormed] using h
    refine ⟨[.byte b], by cases layout <;> rfl, fun rest => by simp [decode, decodeSqRle, takeBytes, hb]⟩
  | usqRun n =>
    cases layout with
    | doc => simp [admits] at h
    | usq =>
      have hn : n ≠ 0#8 := by simpa [admits, Instr.wellFormed] using h
      exact ⟨_, rfl, fun rest => by simp [decode, decodeSqRle, takeBytes, hn]⟩
  | usqEsc =>
    cases layout with
    | doc => simp [admits] at h
    | usq => exact ⟨_, rfl, fun rest => by simp [decode, decodeSqRle, takeBytes]⟩
  | _ => cases layout <;> simp [admits] at h

/-- A ZX0 token (R184). -/
theorem zx0_roundTrips {first afterLit classic : Bool} (h : (zx0 first afterLit classic).admits i = true) :
    (zx0 first afterLit classic).RoundTrips i := by
  simp only [admits, Bool.and_eq_true, Option.isSome_iff_exists] at h
  obtain ⟨hwf, items, hitems⟩ := h
  refine ⟨items, hitems, fun rest => ?_⟩
  change decodeZx0 first afterLit classic (items ++ rest) = _
  cases i with
  | zx0Literals bs =>
    have hback := decodeZx0Literals_encoded (bs := bs) (by simpa [Instr.wellFormed] using hwf) rest
    cases first with
    | true => cases hitems; simpa [decodeZx0] using hback
    | false =>
      cases afterLit with
      | true => cases hitems
      | false => cases hitems; simpa [decodeZx0_indicator] using hback
  | zx0Rep len =>
    have hlen : 1 ≤ len := by simpa [Instr.wellFormed] using hwf
    cases first with
    | true => cases hitems
    | false =>
      cases afterLit with
      | true => cases hitems; simp [decodeZx0_indicator, takeEg_egBits_length hlen, Except.map]
      | false => cases hitems
  | zx0New msb b len =>
    simp only [Instr.wellFormed, Bool.and_eq_true, decide_eq_true_eq, beq_iff_eq] at hwf
    obtain ⟨⟨hmsb, hlen⟩, hb⟩ := hwf
    cases first with
    | true => cases hitems
    | false => cases hitems; simpa [decodeZx0_indicator] using decodeZx0New_encoded hmsb hlen hb rest
  | zx0End =>
    cases first with
    | true => cases hitems
    | false => cases hitems; simpa [decodeZx0_indicator] using decodeZx0New_end classic rest
  | _ => cases hitems

/-- Every instruction that a read point admits round-trips there. -/
theorem roundTrips_of_admits {p : ReadPoint} (h : p.admits i = true) : p.RoundTrips i := by
  cases p with
  | cmd => exact cmd_roundTrips h
  | nufxCode => exact nufxCode_roundTrips h
  | nufxRle => exact nufxRle_roundTrips h
  | nufx1Hdr => exact nufx1Hdr_roundTrips h
  | nufx1Chunk => exact nufx1Chunk_roundTrips h
  | nufx2Hdr => exact nufx2Hdr_roundTrips h
  | nufx2Chunk => exact nufx2Chunk_roundTrips h
  | lzcHdr => exact lzcHdr_roundTrips h
  | lzcGroup => exact lzcGroup_roundTrips h
  | lzcCode => exact lzcCode_roundTrips h
  | sqHdr => exact sqHdr_roundTrips h
  | sqCount => exact sqCount_roundTrips h
  | sqNode => exact sqNode_roundTrips h
  | sqCode => exact sqCode_roundTrips h
  | sqPad => exact sqPad_roundTrips h
  | sqRle => exact sqRle_roundTrips h
  | zx0 => exact zx0_roundTrips h

end ReadPoint

/-- Settles O10, by cases on the read point. -/
theorem decodeInvertsEncode : Obligations.DecodeInvertsEncode := by
  intro p i rest h
  obtain ⟨items, hencode, hdecode⟩ := ReadPoint.roundTrips_of_admits h
  exact ⟨items, hencode, hdecode rest⟩

/-- Settles O8: each word or item list evaluates to its instruction. -/
theorem specWordsDecode : Obligations.SpecWordsDecode := by
  unfold Obligations.SpecWordsDecode
  decide

end Sys2Proof
end

section
/-! PROOFS. Every step keeps every context well kept (R43, R44, R46, R48 to R52, R61, R222, R236, R706, R710): the clauses
of `Ctx.Ok` that name no STATE hold during a run too, and where the run ends STATE is ACTIVE, FINISHED or ERROR. -/

namespace Sys2Proof.Machine

open Sys2Proof

/-! ### The clauses that name no STATE -/

/-- The clauses of `Ctx.Ok` that name no STATE. -/
structure Ctx.Kept (c : Ctx) : Prop where
  err : c.err = 0 ∨ c.err ∈ errWords
  warn : c.warn = 0 ∨ c.warn = 1
  dout : c.dout.extractLsb' 10 22 = 0 ∧ (c.dout.getLsbD 8 = false → c.dout.extractLsb' 0 8 = 0)
  name : c.namebuf.length ≤ 255 ∧ 0#8 ∉ c.namebuf
  cfg : c.cfgDelim &&& 0xFFFFFF00 = 0 ∧ c.cfgVolume &&& 0xFFFFFF00 = 0 ∧ c.cfgLzc &&& 0xFFFFFF60 = 0 ∧
    c.cfgSq &&& 0xFFFFFE00 = 0 ∧ c.cfgZx0 &&& 0xFFFFFFFC = 0
  natend : c.natend = true → c.dir = true ∧ c.engine ≠ 2 ∧ c.inq = []

/-- An instance that is ACTIVE, whether or not FINISH has set ENDED. -/
structure Ctx.Live (c : Ctx) : Prop where
  st : c.st = .active
  engine : c.engine.toNat ≤ 4
  kept : c.Kept

/-- Every error of the core has its word in the table of R706. -/
theorem Err.word_mem_errWords (e : Err) : e.word ∈ errWords := by
  cases e <;> decide

theorem Err.word_ne_zero (e : Err) : e.word ≠ 0 := by
  cases e <;> decide

/-- TRAILING_INPUT is the only bit of WARN (R46). -/
theorem warn_or_trailing {w : Word} (h : w = 0 ∨ w = 1) : w ||| warnTrailing = 0 ∨ w ||| warnTrailing = 1 := by
  rcases h with rfl | rfl <;> decide

/-- Each bit of a value of DOUT, as the fields are laid side by side (R44). -/
theorem doutWord_getLsbD (fin valid : Bool) (b : Byte) (i : Nat) :
    (doutWord fin valid b).getLsbD i =
      if i < 8 then b.getLsbD i else if i = 8 then valid else if i = 9 then fin else false := by
  change BitVec.getLsbD (w := 22 + 1 + 1 + 8) _ i = _
  simp only [doutWord, BitVec.getLsbD_append, BitVec.getLsbD_zero, BitVec.getLsbD_ofBool]
  grind

theorem doutWord_reserved (fin valid : Bool) (b : Byte) : (doutWord fin valid b).extractLsb' 10 22 = 0 := by
  ext i hi
  rw [BitVec.getElem_extractLsb', doutWord_getLsbD, if_neg (by omega), if_neg (by omega), if_neg (by omega)]
  simp

theorem doutWord_byte (fin valid : Bool) (b : Byte) : (doutWord fin valid b).extractLsb' 0 8 = b := by
  ext i hi
  simp [doutWord_getLsbD, hi]

namespace Ctx

variable {c : Ctx}

theorem Ok.kept (h : c.Ok) : c.Kept := ⟨h.err, h.warn, h.dout, h.name, h.cfg, h.natend⟩

theorem Ok.live (h : c.Ok) (hst : c.st = .active) : c.Live := ⟨hst, h.engine (.inl hst), h.kept⟩

theorem Live.ok (h : c.Live) (hended : c.ended = false) : c.Ok :=
  { h.kept with
    idle := by simp [h.st]
    engine := fun _ => h.engine
    active := fun _ => hended
    finished := by simp [h.st]
    error := by simp [h.st] }

/-- FINISH ends a run that did not raise in FINISHED (R227). -/
theorem Live.finished_ok (h : c.Live) (hended : c.ended = true) : Ok { c with st := .finished } :=
  { h.kept with
    idle := by simp
    engine := fun _ => h.engine
    active := by simp
    finished := fun _ => hended
    error := by simp }

/-! ### Error entry (R710) -/

theorem Kept.raise_err (h : c.Kept) (e : Err) : (c.raise e).err = 0 ∨ (c.raise e).err ∈ errWords := by
  rw [Ctx.raise_err]
  split
  · exact .inr e.word_mem_errWords
  · exact h.err

/-- ERR names an error after error entry (R712). -/
theorem raise_err_ne_zero (c : Ctx) (e : Err) : (c.raise e).err ≠ 0 := by
  rw [Ctx.raise_err]
  split
  · exact e.word_ne_zero
  · next hcls => intro h0; exact hcls (by rw [h0]; rfl)

/-- Error entry of an open instance, in whatever STATE it is. -/
theorem Kept.raise_ok (h : c.Kept) (hst : c.st ≠ .idle) (e : Err) : (c.raise e).Ok := by
  have herr := h.raise_err e
  have hne := c.raise_err_ne_zero e
  rw [Ctx.raise_open hst] at herr hne ⊢
  exact { h with
    err := herr
    idle := by simp
    engine := by simp
    active := by simp
    finished := by simp
    error := fun _ => ⟨rfl, rfl, hne⟩
    natend := fun hn => ⟨(h.natend hn).1, (h.natend hn).2.1, rfl⟩ }

theorem Ok.raise (h : c.Ok) (e : Err) : (c.raise e).Ok := by
  by_cases hst : c.st = .idle
  · have herr := h.kept.raise_err e
    rw [Ctx.raise_idle hst] at herr ⊢
    exact { h with err := herr, error := by simp [hst] }
  · exact h.kept.raise_ok hst e

/-! ### Runs of the engine procedure (R221) -/

/-- The natural end (R236). -/
theorem Live.procReturned (h : c.Live) : c.procReturned.Live := by
  unfold Ctx.procReturned
  split
  · next hd =>
    have hwarn : (c.trail c.inq.length).warn = 0 ∨ (c.trail c.inq.length).warn = 1 := by
      unfold Ctx.trail
      split
      · exact h.kept.warn
      · exact warn_or_trailing h.kept.warn
    refine ⟨by simp [h.st], by simpa using h.engine, ?_⟩
    constructor
    case warn => exact hwarn
    case natend => exact fun _ => ⟨by simpa using hd.1, by simpa using hd.2, rfl⟩
    case err => simpa using h.kept.err
    case dout => simpa using h.kept.dout
    case name => simpa using h.kept.name
    case cfg => simpa using h.kept.cfg
  · exact h

/-- A stretch of the procedure ends in ACTIVE, or in ERROR. -/
theorem Live.absorb (h : c.Live) (r : Run Engines) {rest : List Byte} (hrest : c.natend = true → rest = []) :
    (c.absorb r rest).Live ∨ (c.absorb r rest).st = .error ∧ (c.absorb r rest).Ok := by
  have hout : Live { c with
      eng := r.st, outq := c.outq ++ r.out, outCount := c.outCount + BitVec.ofNat 32 r.out.length, inq := rest } :=
    ⟨h.st, h.engine, { h.kept with
      natend := fun hn => ⟨(h.kept.natend hn).1, (h.kept.natend hn).2.1, hrest hn⟩ }⟩
  unfold Ctx.absorb
  split
  · exact .inl hout
  · exact .inl hout.procReturned
  · exact .inr ⟨by simp [h.st], hout.kept.raise_ok (by simp [h.st]) _⟩

end Ctx

/-- Without input a procedure leaves no input (R124). -/
theorem Proc.drive_nil_rest {σ : Type} (p : Proc σ) (ended : Bool) (s : σ) : (p.drive ended [] s).2 = [] := by
  simp only [Proc.drive, Proc.feed]
  split
  · rfl
  · split <;> rfl

namespace Ctx

variable {c : Ctx}

theorem runProc_nil_rest (par : Params) (h : c.inq = []) : (c.runProc par).2 = [] := by
  unfold runProc
  split <;> simp [h, liftRun, Proc.drive_nil_rest]

theorem Live.run (h : c.Live) (par : Params) (free : Nat) :
    (c.run par free).1.Live ∨ (c.run par free).1.st = .error ∧ (c.run par free).1.Ok := by
  obtain ⟨r, rest, n, hrun, hrest, -⟩ := c.run_eq par free
  rw [hrun]
  exact h.absorb r fun hn => hrest.trans (runProc_nil_rest par (h.kept.natend hn).2.2)

theorem Live.run_ok (h : c.Live) (hended : c.ended = false) (par : Params) (free : Nat) :
    (c.run par free).1.Ok := by
  rcases h.run par free with hlive | ⟨-, hok⟩
  · exact hlive.ok ((c.run_keepsRegisters par free).ended.trans hended)
  · exact hok

/-! ### The commands -/

theorem guarded_keepsOk {free : Nat} {ok : Bool} {f : Except Refusal (Ctx × Nat)} {q : Ctx × Nat} (h : c.Ok)
    (hq : c.guarded free ok f = .ok q) (hf : ok = true → f = .ok q → q.1.Ok) : q.1.Ok := by
  rcases guarded_ok hq with ⟨-, rfl⟩ | ⟨-, hok, hq⟩ | ⟨-, -, rfl⟩
  · exact h
  · exact hf hok hq
  · exact h.raise _

/-- OPEN checks ENGINE first (R224). -/
theorem engine_le_of_openError_none (h : c.openError = none) : c.engine.toNat ≤ 4 := by
  by_contra hgt
  rw [openError, if_pos (by omega)] at h
  cases h

/-- The first steps of an engine wait for input (R79). -/
theorem startEngine_running (par : Params) (c : Ctx) : (c.startEngine par).sig = .running := by
  unfold startEngine
  split <;> rfl

/-- The registers of an instance that OPEN has just accepted (R224). -/
theorem Ok.opened_kept (h : c.Ok) (eng : BitVec 3) (dir : Bool) : (c.opened eng dir).Kept where
  err := .inl rfl
  warn := .inl rfl
  dout := by simp
  name := h.name
  cfg := h.cfg
  natend := by simp

theorem Kept.openRun_ok (h : c.Kept) (hst : c.st = .active) (hended : c.ended = false) {par : Params} {free : Nat}
    {q : Ctx × Nat} (hq : c.openRun par free = .ok q) : q.1.Ok := by
  unfold openRun at hq
  split at hq
  · cases hq
    exact h.raise_ok (by simp [hst]) _
  · next hnone =>
    obtain ⟨rfl, -⟩ := commit_ok hq
    have hlive : c.Live := ⟨hst, engine_le_of_openError_none hnone, h⟩
    rcases hlive.absorb (c.startEngine par) (rest := []) (fun _ => rfl) with hstart | ⟨herror, -⟩
    · exact hstart.run_ok ((c.absorb_keepsRegisters _ _).ended.trans hended) par free
    · simp [absorb, startEngine_running, hst] at herror

theorem Ok.feedRun_ok (h : c.Ok) (hst : c.st = .active) {par : Params} {free : Nat} {b : Byte} {q : Ctx × Nat}
    (hq : c.feedRun par free b = .ok q) : q.1.Ok := by
  unfold feedRun at hq
  split at hq
  · cases hq
    exact { h with warn := warn_or_trailing h.warn }
  · next hnatend =>
    split at hq
    · cases hq
    · obtain ⟨rfl, -⟩ := commit_ok hq
      have hlive : Live { c with inCount := c.inCount + 1, inq := c.inq ++ [b] } :=
        ⟨hst, h.engine (.inl hst), { h.kept with natend := fun hn => absurd hn hnatend }⟩
      exact hlive.run_ok (h.active hst) par free

theorem Ok.finishRun_ok (h : c.Ok) (hst : c.st = .active) {par : Params} {free : Nat} {q : Ctx × Nat}
    (hq : c.finishRun par free = .ok q) : q.1.Ok := by
  obtain ⟨rfl, -⟩ := commit_ok hq
  have hlive : Live { c with ended := true } := ⟨hst, h.engine (.inl hst), { h.kept with }⟩
  unfold Ctx.finished
  rcases hlive.run par free with hrun | ⟨herror, hok⟩
  · rw [if_pos hrun.st]
    exact hrun.finished_ok (run_keepsRegisters par free _).ended
  · rw [if_neg (by simp [herror])]
    exact hok

/-- The DOUT of PRODUCE has BYTE only with VALID (R44, R226). -/
theorem Ok.take (h : c.Ok) (hst : c.st ≠ .idle) : c.take.Ok := by
  unfold Ctx.take
  split
  · next b rest hq =>
    exact { h with
      dout := ⟨doutWord_reserved _ _ _, by simp [doutWord_getLsbD]⟩
      idle := fun hi => absurd hi hst
      error := fun he => by simp [(h.error he).2.1] at hq }
  · exact { h with dout := ⟨doutWord_reserved _ _ _, fun _ => doutWord_byte _ _ _⟩ }

theorem Ok.produceCmd (h : c.Ok) : c.produceCmd.Ok := by
  unfold Ctx.produceCmd
  split
  · exact h.raise _
  · next hst => exact h.take hst

theorem Ok.closeCmd (h : c.Ok) : c.closeCmd.Ok := by
  unfold Ctx.closeCmd
  split
  · exact h
  · exact { h with
      idle := fun _ => ⟨rfl, rfl, rfl, rfl, rfl, rfl⟩
      engine := by simp
      active := by simp
      finished := by simp
      error := by simp
      natend := by simp }

/-- A name byte is appended where there is room for it and it is not NUL (R229). -/
theorem Ok.nameRun (h : c.Ok) (b : Byte) : (c.nameRun b).Ok := by
  unfold Ctx.nameRun
  split
  · exact h.raise _
  · next hb =>
    split
    · exact h.raise _
    · next hlen =>
      obtain ⟨hmax, hnul⟩ := h.name
      refine { h with name := ⟨?_, ?_⟩ }
      · rw [List.length_append, List.length_singleton]
        exact Nat.lt_of_le_of_ne hmax hlen
      · simpa [hnul] using Ne.symm hb

theorem Ok.raiseCmd (h : c.Ok) (e : Err) : (c.raiseCmd e).Ok := by
  unfold Ctx.raiseCmd
  split
  · exact h
  · exact h.raise e

/-- A stretch of the open decoder, through the token port, keeps the context well kept. -/
theorem Ok.absorb_inq (h : c.Ok) (hst : c.st = .active) (r : Run Engines) : (c.absorb r c.inq).Ok := by
  rcases (h.live hst).absorb r fun hn => (h.natend hn).2.2 with hlive | ⟨-, hok⟩
  · exact hlive.ok ((c.absorb_keepsRegisters r _).ended.trans (h.active hst))
  · exact hok

/-- Every instruction keeps the addressed context well kept. -/
theorem Acts.ok {par : Params} {free : Nat} {i : Instr} {q : Ctx × Nat} (h : c.Ok) (hacts : c.Acts par free i q) :
    q.1.Ok := by
  cases hacts with
  | cmdOpen hq => exact guarded_keepsOk h hq fun _ => (h.opened_kept _ _).openRun_ok rfl rfl
  | cmdFeed hq => exact guarded_keepsOk h hq fun hst => h.feedRun_ok (by simpa using hst)
  | cmdProduce => exact h.produceCmd
  | cmdFinish hq => exact guarded_keepsOk h hq fun hst => h.finishRun_ok (by simpa using hst)
  | cmdClose => exact h.closeCmd
  | cmdNameByte hq => exact guarded_keepsOk h hq fun _ hq => by cases hq; exact h.nameRun _
  | cmdNameClear hq => exact guarded_keepsOk h hq fun _ hq => by cases hq; exact { h with name := by simp }
  | raised => exact h.raiseCmd _
  | token _ hexp => exact h.absorb_inq (expanding_st hexp) _
  | sqPad => exact { h with }

/-- A write to a CFG register stores its defined fields only (R48 to R52). -/
theorem Ok.writeReg (h : c.Ok) (off : Nat) (v : Word) : (c.writeReg off v).Ok := by
  obtain ⟨hdelim, hvolume, hlzc, hsq, hzx⟩ := h.cfg
  unfold Ctx.writeReg
  split
  · exact { h with cfg := ⟨by simp [BitVec.and_assoc], hvolume, hlzc, hsq, hzx⟩ }
  · exact { h with cfg := ⟨hdelim, by simp [BitVec.and_assoc], hlzc, hsq, hzx⟩ }
  · exact { h with cfg := ⟨hdelim, hvolume, by simp [BitVec.and_assoc], hsq, hzx⟩ }
  · exact { h with cfg := ⟨hdelim, hvolume, hlzc, by simp [BitVec.and_assoc], hzx⟩ }
  · exact { h with cfg := ⟨hdelim, hvolume, hlzc, hsq, by simp [BitVec.and_assoc]⟩ }
  · exact { h with }
  · exact h

/-- A read point exists for an ACTIVE expand instance only. -/
theorem readPoint_active {par : Params} {sp : Space} {n : Nat} {p : ReadPoint}
    (h : c.readPoint par sp n = some p) : c.st = .active ∧ c.dir = true := by
  unfold readPoint at h
  split at h
  · next hexp => simpa using hexp
  · cases h

/-- The procedure that goes on after a token (R221). -/
theorem Ok.resume {par : Params} {free : Nat} {q : Ctx × Nat} (h : c.Ok) (hq : c.resume par free = .ok q) :
    q.1.Ok := by
  unfold Ctx.resume at hq
  split at hq
  · next hactive =>
    simp only [Bool.and_eq_true, decide_eq_true_eq] at hactive
    obtain ⟨rfl, -⟩ := commit_ok hq
    exact (h.live hactive.1).run_ok (h.active hactive.1) par free
  · cases hq
    exact h

end Ctx

/-! ### One step -/

section
variable {s t : State}

theorem State.Ok.cur {c : Ctx} (hs : s.Ok) (hc : s.cur = some c) : c.Ok := hs.ctxs c (List.mem_of_getElem? hc)

theorem State.Ok.setCur {c : Ctx} (hs : s.Ok) (hc : c.Ok) : (s.setCur c).Ok where
  sel := by simpa using hs.sel
  ctxs := by
    intro x hx
    rcases List.mem_or_eq_of_mem_set hx with hmem | rfl
    · exact hs.ctxs x hmem
    · exact hc

theorem State.Ok.withBus (hs : s.Ok) (bus : List Event) : State.Ok { s with bus := bus } := { hs with }

theorem State.onCtx_keepsOk {f : Ctx → Except Refusal (Ctx × Nat)} (hs : s.Ok) (h : s.onCtx f = .next t)
    (hf : ∀ c q, s.cur = some c → c.Ok → f c = .ok q → q.1.Ok) : t.Ok := by
  obtain ⟨c, q, hc, hq, rfl⟩ := State.onCtx_next h
  exact { hs.setCur (hf c q hc (hs.cur hc) hq) with }

theorem exec_keepsOk {i : Instr} (hs : s.Ok) (h : exec i s = .next t) : t.Ok := by
  rcases exec_next h with ⟨-, rfl⟩ | ⟨c, q, hc, hq, rfl⟩
  · exact hs
  · exact { hs.setCur (hq.ok (hs.cur hc)) with }

theorem stepWrite_keepsOk {addr size : Nat} {v : Word} (hs : s.Ok) (h : stepWrite s addr size v = .next t) :
    t.Ok := by
  unfold stepWrite at h
  split at h
  · cases h
  · split at h
    · cases h
    · next k off hloc =>
      have hsel : State.Ok { s with sel := k } := { hs with sel := State.locate_lt hloc }
      split at h
      · exact exec_keepsOk hsel h
      · refine State.onCtx_keepsOk hsel h fun c q _ hc hq => ?_
        cases hq
        exact hc.writeReg off v

theorem stepRead_keepsOk {addr size : Nat} (hs : s.Ok) (h : stepRead s addr size = .next t) : t.Ok := by
  unfold stepRead at h
  split at h
  · cases h
  · split at h
    · cases h
    · split at h
      · cases h
      · cases h; exact { hs with }

theorem resumeToken_keepsOk {sp : Space} (hs : s.Ok) (h : resumeToken sp s = .next t) : t.Ok := by
  unfold resumeToken at h
  split at h
  · exact State.onCtx_keepsOk hs h fun _ _ _ hc => hc.resume
  · cases h; exact hs

theorem stepToken_keepsOk {sp : Space} {items : List Item} (hs : s.Ok) (h : stepToken s sp items = .next t) :
    t.Ok := by
  unfold stepToken at h
  split at h
  · cases h
  · next c hcur =>
    split at h
    · cases h
    · next p hpoint =>
      split at h
      · refine State.onCtx_keepsOk hs h fun d q hd hok hq => ?_
        obtain rfl : c = d := Option.some.inj (hcur.symm.trans hd)
        obtain ⟨rfl, -⟩ := Ctx.commit_ok hq
        exact hok.absorb_inq (Ctx.readPoint_active hpoint).1 _
      · obtain ⟨u, hexec, hresume⟩ := outThen_next h
        exact resumeToken_keepsOk (exec_keepsOk (hs.withBus _) hexec) hresume

/-- Hardware reset gives every context its reset value, which is well kept (R78). -/
theorem reset_keepsOk (hs : s.Ok) (rest : List Event) :
    State.Ok { s with ctxs := s.ctxs.map Ctx.hardReset, bus := rest } where
  sel := by simpa using hs.sel
  ctxs := by
    intro c hc
    rw [eq_reset_of_mem_map_hardReset hc]
    exact Ctx.reset_ok

theorem step_keepsOk (hs : s.Ok) (h : step s = .next t) : t.Ok := by
  unfold step at h
  split at h
  · cases h; exact hs
  · cases h; exact reset_keepsOk hs _
  · exact stepWrite_keepsOk (hs.withBus _) h
  · exact stepRead_keepsOk (hs.withBus _) h
  · exact stepToken_keepsOk (hs.withBus _) h

end

/-- Settles O52: each pending event acts on a context by operations that keep it well kept. -/
theorem stepKeepsStateWellKept : Obligations.StepKeepsStateWellKept :=
  fun _ _ => step_keepsOk

end Sys2Proof.Machine
end

section
/-! PROOFS. The registers as a host access reads and writes them (R41, R122, R233, R234). -/

namespace Sys2Proof.Machine

open Sys2Proof

section
variable {s : State} {k off : Nat} {c : Ctx} {rest : List Event}

theorem State.accessOk_block (hbase : s.par.base % 64 = 0) (halign : off % 4 = 0) :
    State.accessOk (s.par.base + 64 * k + off) 4 = true :=
  State.accessOk_eq_true rfl (by omega)

/-- One step with a MemRead of a register of context `k`. -/
theorem step_read_block (hbase : s.par.base % 64 = 0) (hc : s.ctxs[k]? = some c) (hoff : off < 64)
    (halign : off % 4 = 0) (hbus : s.bus = .read (s.par.base + 64 * k + off) 4 :: rest) :
    step s = .next { s with bus := rest, rdata := c.readReg off } := by
  have hloc : State.locate { s with bus := rest } (s.par.base + 64 * k + off) = some (k, off) :=
    State.locate_block { s with bus := rest } (List.getElem?_eq_some_iff.mp hc).1 hoff
  rw [step_read hbus, stepRead, State.accessOk_block hbase halign, hloc]
  simp [hc]

/-- One step with a MemWrite to a register of context `k` other than CMD. -/
theorem step_write_block {v : Word} (hbase : s.par.base % 64 = 0) (hc : s.ctxs[k]? = some c) (hoff : off < 64)
    (halign : off % 4 = 0) (hcmd : off ≠ 0) (hbus : s.bus = .write (s.par.base + 64 * k + off) 4 v :: rest) :
    step s = .next { s with bus := rest, sel := k, ctxs := s.ctxs.set k (c.writeReg off v) } := by
  have hloc : State.locate { s with bus := rest } (s.par.base + 64 * k + off) = some (k, off) :=
    State.locate_block { s with bus := rest } (List.getElem?_eq_some_iff.mp hc).1 hoff
  have hcur : State.cur { s with bus := rest, sel := k } = some c := hc
  rw [step_write hbus, stepWrite, State.accessOk_block hbase halign, hloc]
  simp only [Bool.not_true, Bool.false_eq_true, if_false, if_neg hcmd]
  exact State.onCtxPure_eq _ hcur

end

/-- Settles O2: the read is located in the context's block and answers `readReg`, which lists the offsets. -/
theorem readReturnsRegisterAndChangesNothing : Obligations.ReadReturnsRegisterAndChangesNothing := by
  intro s k off rest c hbase hc hoff halign hbus
  refine ⟨c.readReg off, step_read_block hbase hc hoff halign hbus, ?_⟩
  refine ⟨?_, ?_, ?_, ?_, ?_, ?_, ?_, ?_, ?_, ?_, ?_, ?_, ?_, ?_, ?_, ?_⟩ <;>
    · rintro rfl
      rfl

/-- A write to a word offset outside the CFG registers has no effect (R233). -/
theorem Ctx.writeReg_other (c : Ctx) {off : Nat} (v : Word) (h : off < 0x20 ∨ 0x34 < off) : c.writeReg off v = c := by
  unfold Ctx.writeReg
  split
  case h_7 => rfl
  all_goals omega

/-- Settles O4: the write is located in the context's block and stores `writeReg`, which lists the CFG registers. -/
theorem writeStoresConfigFieldsOnly : Obligations.WriteStoresConfigFieldsOnly := by
  intro s k off v rest c hbase hc hoff halign hcmd hbus
  refine ⟨c.writeReg off v, step_write_block hbase hc hoff halign hcmd hbus, ?_⟩
  refine ⟨?_, ?_, ?_, ?_, ?_, ?_, c.writeReg_other v⟩ <;>
    · rintro rfl
      rfl

end Sys2Proof.Machine
end

section
/-! PROOFS. The commands whose whole effect the rules give: what the state checks answer (R222), CLOSE, PRODUCE, the
name, and the commands that only raise. -/

namespace Sys2Proof.Machine

open Sys2Proof

/-! ### The state checks (R222) -/

section
variable {s : State} {c c' : Ctx}

/-- A command that answers the context `c'` and draws no free value. -/
theorem State.onCtx_setCur {f : Ctx → Except Refusal (Ctx × Nat)} (hc : s.cur = some c) (hf : f c = .ok (c', s.free)) :
    s.onCtx f = .next (s.setCur c') :=
  State.onCtx_ok hc hf

/-- A command that leaves its context as it is changes nothing. -/
theorem State.onCtx_self {f : Ctx → Except Refusal (Ctx × Nat)} (hc : s.cur = some c) (hf : f c = .ok (c, s.free)) :
    s.onCtx f = .next s := by
  rw [State.onCtx_setCur hc hf, State.setCur_self hc]

theorem State.onCtxPure_self {f : Ctx → Ctx} (hc : s.cur = some c) (hf : f c = c) : s.onCtxPure f = .next s := by
  rw [State.onCtxPure_eq f hc, hf, State.setCur_self hc]

end

namespace Ctx

variable {c : Ctx} {free : Nat} {ok : Bool} {f : Except Refusal (Ctx × Nat)}

/-- In ERROR a guarded command has no effect. -/
theorem guarded_error (hst : c.st = .error) (free : Nat) (ok : Bool) (f : Except Refusal (Ctx × Nat)) :
    c.guarded free ok f = .ok (c, free) := if_pos hst

/-- A command in a STATE where it is legal. -/
theorem guarded_legal (hst : c.st ≠ .error) (hok : ok = true) : c.guarded free ok f = f := by
  rw [guarded, if_neg hst, if_pos hok]

/-- A command in a STATE where it is illegal. -/
theorem guarded_illegal (hst : c.st ≠ .error) (hok : ok = false) :
    c.guarded free ok f = .ok (c.raise .wrongState, free) := by
  simp [guarded, hst, hok]

theorem raiseCmd_error (hst : c.st = .error) (e : Err) : c.raiseCmd e = c := if_pos hst

theorem raiseCmd_of_ne (hst : c.st ≠ .error) (e : Err) : c.raiseCmd e = c.raise e := if_neg hst

end Ctx

/-- Settles O15: every command but PRODUCE and CLOSE checks for ERROR first. -/
theorem errorStateIgnoresCommands : Obligations.ErrorStateIgnoresCommands := by
  refine ⟨fun _ => rfl, fun i s c hc hst hcommand hproduce hclose => ?_⟩
  cases i
  case cmdNop => rfl
  case cmdProduce => exact absurd rfl hproduce
  case cmdClose => exact absurd rfl hclose
  case cmdOpen | cmdFeed | cmdFinish | cmdNameByte | cmdNameClear =>
    exact State.onCtx_self hc (Ctx.guarded_error hst _ _ _)
  case cmdSeek | cmdReserved9 | cmdReservedAB | cmdReservedCF =>
    exact State.onCtxPure_self hc (Ctx.raiseCmd_error hst _)
  all_goals cases hcommand

/-- Settles O16: the state check of each command fails there. -/
theorem wrongStateRaises : Obligations.WrongStateRaises := by
  intro s c hc
  constructor
  · intro hst e d
    refine State.onCtx_setCur hc (Ctx.guarded_illegal ?_ ?_) <;> rcases hst with h | h <;> simp [h]
  · intro hst b
    have herror : c.st ≠ .error := by rcases hst with h | h <;> simp [h]
    have hactive : decide (c.st = .active) = false := by rcases hst with h | h <;> simp [h]
    exact ⟨State.onCtx_setCur hc (Ctx.guarded_illegal herror hactive),
      State.onCtx_setCur hc (Ctx.guarded_illegal herror hactive)⟩

/-- Settles O17: the commands that only raise check for ERROR, and for nothing else. -/
theorem seekAndReservedRaise : Obligations.SeekAndReservedRaise := by
  intro s c hc
  constructor
  · intro hst
    have hraise (e : Err) : s.onCtxPure (Ctx.raiseCmd e) = .next (s.setCur (c.raise e)) := by
      rw [State.onCtxPure_eq _ hc, Ctx.raiseCmd_of_ne hst]
    exact ⟨hraise .seek, hraise .reservedOp, fun _ => hraise .reservedOp, fun _ => hraise .reservedOp⟩
  · intro hst
    have hself (e : Err) : s.onCtxPure (Ctx.raiseCmd e) = .next s :=
      State.onCtxPure_self hc (Ctx.raiseCmd_error hst e)
    exact ⟨hself .seek, hself .reservedOp, fun _ => hself .reservedOp, fun _ => hself .reservedOp⟩

/-! ### PRODUCE (R226) -/

/-- The value of DOUT that shows a byte (R44). -/
theorem doutWord_of_byte (b : Byte) : doutWord false true b = 0x100 ||| b.setWidth 32 := by
  revert b
  decide +kernel

namespace Ctx

variable {c : Ctx}

theorem take_cons {b : Byte} {rest : List Byte} (h : c.outq = b :: rest) :
    c.take = { c with dout := doutWord false true b, outq := rest } := by
  simp only [take, h]

theorem take_nil (h : c.outq = []) :
    c.take = { c with dout := doutWord (decide (c.st = .finished) || decide (c.st = .error)) false 0 } := by
  simp only [take, h]

@[simp] theorem take_st (c : Ctx) : c.take.st = c.st := by
  unfold take; split <;> rfl

theorem produceCmd_idle (hst : c.st = .idle) : c.produceCmd = c.raise .wrongState := if_pos hst

theorem produceCmd_open (hst : c.st ≠ .idle) : c.produceCmd = c.take := if_neg hst

end Ctx

/-- Settles O27: PRODUCE takes the head of OUTQ, or reports by STATE that there is none. -/
theorem produceTakesAByte : Obligations.ProduceTakesAByte := by
  intro s c hc
  have hexec : exec .cmdProduce s = .next (s.setCur c.produceCmd) := State.onCtxPure_eq _ hc
  rw [hexec]
  refine ⟨fun hst => ?idle, fun hst b rest hq => ?byte, fun hq hst => ?ended, fun hq hst => ?waiting⟩
  case idle => rw [Ctx.produceCmd_idle hst]
  case byte => rw [Ctx.produceCmd_open hst, Ctx.take_cons hq, doutWord_of_byte]
  case ended =>
    have hopen : c.st ≠ .idle := by rcases hst with h | h <;> simp [h]
    have hend : (decide (c.st = .finished) || decide (c.st = .error)) = true := by simpa using hst
    rw [Ctx.produceCmd_open hopen, Ctx.take_nil hq, hend]
    rfl
  case waiting =>
    rw [Ctx.produceCmd_open (by simp [hst]), Ctx.take_nil hq]
    simp only [hst]
    rfl

/-! ### CLOSE (R228) -/

/-- Only CLOSE leaves ERROR (R714). -/
theorem Ctx.Acts.stays_error {par : Params} {free : Nat} {c : Ctx} {i : Instr} {q : Ctx × Nat} (hst : c.st = .error)
    (hi : i ≠ .cmdClose) (h : c.Acts par free i q) : q.1.st = .error := by
  have hguarded {ok : Bool} {f : Except Refusal (Ctx × Nat)} {q : Ctx × Nat} (hq : c.guarded free ok f = .ok q) :
      q.1.st = .error := by
    rw [Ctx.guarded_error hst] at hq
    cases hq
    exact hst
  cases h with
  | cmdOpen hq | cmdFeed hq | cmdFinish hq | cmdNameByte hq | cmdNameClear hq => exact hguarded hq
  | cmdProduce => simp [Ctx.produceCmd_open, hst]
  | cmdClose => exact absurd rfl hi
  | raised => simpa [Ctx.raiseCmd_error hst] using hst
  | token _ hexp => simp [Ctx.expanding_st hexp] at hst
  | sqPad hactive => simp [hactive] at hst

/-- Settles O28: CLOSE acts outside IDLE only, and every other instruction stays in ERROR. -/
theorem closeEndsTheInstance : Obligations.CloseEndsTheInstance := by
  intro s c hc
  refine ⟨fun hst => ?idle, fun hst => ?ends, fun i t c' hst hi h hc' => ?error⟩
  case idle => exact State.onCtxPure_self hc (if_pos hst)
  case ends =>
    have hclose : c.closeCmd = c.close := if_neg hst
    exact ⟨{}, by rw [exec, execCmdClose, State.onCtxPure_eq _ hc, hclose]; rfl⟩
  case error =>
    rcases exec_next h with ⟨-, rfl⟩ | ⟨d, q, hd, hq, rfl⟩
    · cases hc.symm.trans hc'
      exact hst
    · cases hc.symm.trans hd
      cases (State.cur_setCur hc q.1).symm.trans hc'
      exact hq.stays_error hst hi

/-! ### The file name (R229, R230) -/

namespace Ctx

variable {c : Ctx} {b : Byte}

theorem nameRun_append (hb : b ≠ 0) (hlen : c.namebuf.length < 255) :
    c.nameRun b = { c with namebuf := c.namebuf ++ [b] } := by
  rw [nameRun, if_neg hb, if_neg hlen.ne]

theorem nameRun_nul (hb : b = 0) : c.nameRun b = c.raise .nameNul := if_pos hb

theorem nameRun_tooLong (hb : b ≠ 0) (hlen : c.namebuf.length = 255) : c.nameRun b = c.raise .nameTooLong := by
  rw [nameRun, if_neg hb, if_pos hlen]

end Ctx

/-- Settles O29: the state check, then the checks of NAMEBYTE in their order. -/
theorem nameCommandsEditTheName : Obligations.NameCommandsEditTheName := by
  intro s c b hc
  refine ⟨fun hst => ?idle, fun hst => ?opened, fun hst => ?error⟩
  case idle =>
    have hbyte : exec (.cmdNameByte b) s = .next (s.setCur (c.nameRun b)) :=
      State.onCtx_setCur hc (Ctx.guarded_legal (by simp [hst]) (by simp [hst]))
    have hclear : exec .cmdNameClear s = .next (s.setCur { c with namebuf := [] }) :=
      State.onCtx_setCur hc (Ctx.guarded_legal (by simp [hst]) (by simp [hst]))
    rw [hbyte]
    exact ⟨fun hb hlen => by rw [Ctx.nameRun_append hb hlen], fun hb => by rw [Ctx.nameRun_nul hb],
      fun hb hlen => by rw [Ctx.nameRun_tooLong hb hlen], hclear⟩
  case opened =>
    have herror : c.st ≠ .error := by rcases hst with h | h <;> simp [h]
    have hidle : decide (c.st = .idle) = false := by rcases hst with h | h <;> simp [h]
    exact ⟨State.onCtx_setCur hc (Ctx.guarded_illegal herror hidle),
      State.onCtx_setCur hc (Ctx.guarded_illegal herror hidle)⟩
  case error =>
    exact ⟨State.onCtx_self hc (Ctx.guarded_error hst _ _ _), State.onCtx_self hc (Ctx.guarded_error hst _ _ _)⟩

end Sys2Proof.Machine
end

section
/-! PROOFS. OPEN, FEED and FINISH (R224, R225, R227): the run that each of them starts, what it leaves of the registers,
and its result where one byte or the end of the input is all that the procedure meets. -/

namespace Sys2Proof.Machine

open Sys2Proof

/-! ### Drives of a procedure that waits for input (R221) -/

section
variable {σ : Type} {p : Proc σ} {s : σ} {r : Run σ} {ended : Bool} {inq : List Byte}

/-- Without input and without FINISH the procedure goes on waiting. -/
theorem Proc.drive_waits (hdone : p.done s = false) (hsettle : p.settle s = .go s) :
    p.drive false [] s = (.go s, []) := by
  simp [Proc.drive, hdone, hsettle, Proc.feed, Run.go]

/-- One byte is the whole input. -/
theorem Proc.drive_byte {b : Byte} (hended : ended = false) (hinq : inq = []) (hdone : p.done s = false)
    (hsettle : p.settle s = .go s) (hbyte : p.byte s b = r) : p.drive ended (inq ++ [b]) s = (r, []) := by
  have hfeed : p.feed [b] s = (r, []) := by
    simp only [Proc.feed, Run.go, List.append_nil, hbyte]
    split
    · next hsig => rw [← hsig]
    · rfl
  simp [Proc.drive, hdone, hsettle, hfeed, hended, hinq, Run.go]

/-- The end of the input is all that the procedure meets. -/
theorem Proc.drive_eof (hended : ended = true) (hinq : inq = []) (hdone : p.done s = false)
    (hsettle : p.settle s = .go s) (heof : p.eof s = r) : p.drive ended inq s = (r, []) := by
  simp [Proc.drive, hdone, hsettle, Proc.feed, hended, hinq, heof, Run.go, Run.andThen]

end

namespace Ctx

variable {c : Ctx}

/-! ### The procedure of the open instance (R237) -/

theorem liftRun_mk {σ : Type} (f : σ → Engines) (r : Run σ) (rest : List Byte) :
    liftRun f (r, rest) = (r.map f, rest) := rfl

section
variable {par : Params} {lzw2 : Bool} {rest : List Byte}

theorem runProc_nufxEnc {r : Run NufxEnc} (heng : c.engine = if lzw2 then 1 else 0) (hdir : c.dir = false)
    (hdrive : (nufxEncProc par lzw2 c.lcfg).drive c.ended c.inq c.eng.nufxEnc = (r, rest)) :
    c.runProc par = (r.map (fun x => { c.eng with nufxEnc := x }), rest) := by
  cases lzw2 <;> (rw [runProc, heng, hdir, ← liftRun_mk, ← hdrive]; rfl)

theorem runProc_nufxDec {r : Run NufxDec} (heng : c.engine = if lzw2 then 1 else 0) (hdir : c.dir = true)
    (hdrive : (nufxDecProc par lzw2).drive c.ended c.inq c.eng.nufxDec = (r, rest)) :
    c.runProc par = (r.map (fun x => { c.eng with nufxDec := x }), rest) := by
  cases lzw2 <;> (rw [runProc, heng, hdir, ← liftRun_mk, ← hdrive]; rfl)

theorem runProc_lzcEnc {r : Run LzcEnc} (heng : c.engine = 2) (hdir : c.dir = false)
    (hdrive : (lzcEncProc par).drive c.ended c.inq c.eng.lzcEnc = (r, rest)) :
    c.runProc par = (r.map (fun x => { c.eng with lzcEnc := x }), rest) := by
  rw [runProc, heng, hdir, ← liftRun_mk, ← hdrive]; rfl

theorem runProc_lzcDec {r : Run LzcDec} (heng : c.engine = 2) (hdir : c.dir = true)
    (hdrive : lzcDecProc.drive c.ended c.inq c.eng.lzcDec = (r, rest)) :
    c.runProc par = (r.map (fun x => { c.eng with lzcDec := x }), rest) := by
  rw [runProc, heng, hdir, ← liftRun_mk, ← hdrive]; rfl

theorem runProc_sqEnc {r : Run SqEnc} (heng : c.engine = 3) (hdir : c.dir = false)
    (hdrive : (sqEncProc par c.lcfg).drive c.ended c.inq c.eng.sqEnc = (r, rest)) :
    c.runProc par = (r.map (fun x => { c.eng with sqEnc := x }), rest) := by
  rw [runProc, heng, hdir, ← liftRun_mk, ← hdrive]; rfl

theorem runProc_sqDec {r : Run SqDec} (heng : c.engine = 3) (hdir : c.dir = true)
    (hdrive : (sqDecProc par c.lcfg).drive c.ended c.inq c.eng.sqDec = (r, rest)) :
    c.runProc par = (r.map (fun x => { c.eng with sqDec := x }), rest) := by
  rw [runProc, heng, hdir, ← liftRun_mk, ← hdrive]; rfl

theorem runProc_zxEnc {r : Run ZxEnc} (heng : c.engine = 4) (hdir : c.dir = false)
    (hdrive : (zxEncProc c.lcfg).drive c.ended c.inq c.eng.zxEnc = (r, rest)) :
    c.runProc par = (r.map (fun x => { c.eng with zxEnc := x }), rest) := by
  rw [runProc, heng, hdir, ← liftRun_mk, ← hdrive]; rfl

theorem runProc_zxDec {r : Run ZxDec} (heng : c.engine = 4) (hdir : c.dir = true)
    (hdrive : (zxDecProc c.lcfg).drive c.ended c.inq c.eng.zxDec = (r, rest)) :
    c.runProc par = (r.map (fun x => { c.eng with zxDec := x }), rest) := by
  rw [runProc, heng, hdir, ← liftRun_mk, ← hdrive]; rfl

end

/-- Only LZC compress can pass LZC_MAX_IN (R425). -/
theorem lzcPastMax_of_engine (h : c.engine ≠ 2) (par : Params) (e : Engines) : c.lzcPastMax par e = false := by
  rw [lzcPastMax, decide_eq_false h]
  rfl

theorem lzcPastMax_of_noEnt {e : Engines} (h : e.lzcEnc.haveEnt = false) (par : Params) (c : Ctx) :
    c.lzcPastMax par e = false := by
  simp [lzcPastMax, h]

theorem lzcPastMax_of_expand (h : c.dir = true) (par : Params) (e : Engines) : c.lzcPastMax par e = false := by
  simp [lzcPastMax, h]

/-! ### What a run leaves of the registers -/

@[simp] theorem procReturned_st (c : Ctx) : c.procReturned.st = c.st := by
  unfold procReturned; split <;> simp

@[simp] theorem procReturned_outq (c : Ctx) : c.procReturned.outq = c.outq := by
  unfold procReturned; split <;> simp

@[simp] theorem procReturned_outCount (c : Ctx) : c.procReturned.outCount = c.outCount := by
  unfold procReturned; split <;> simp

/-- The natural end where no input is left over (R236). -/
theorem procReturned_expand (hdir : c.dir = true) (heng : c.engine ≠ 2) (hinq : c.inq = []) :
    c.procReturned = { c with natend := true } := by
  rw [procReturned, if_pos ⟨hdir, heng⟩, hinq, List.length_nil, trail_zero]

theorem procReturned_compress (hdir : c.dir = false) : c.procReturned = c := by
  rw [procReturned, if_neg (by simp [hdir])]

/-- The output of `c'` is that of `c` with bytes appended, which OUT_COUNT counts (R125). -/
def Appends (c c' : Ctx) : Prop :=
  ∃ out, c'.outq = c.outq ++ out ∧ c'.outCount = c.outCount + BitVec.ofNat 32 out.length

theorem Appends.refl (c : Ctx) : c.Appends c := ⟨[], by simp, by simp⟩

/-- A stretch of the procedure appends output, or raises. -/
theorem absorb_appends (hst : c.st = .active) (r : Run Engines) (rest : List Byte) :
    (c.absorb r rest).st = .active ∧ c.Appends (c.absorb r rest) ∨ (c.absorb r rest).st = .error := by
  unfold absorb
  split
  · exact .inl ⟨hst, r.out, rfl, rfl⟩
  · exact .inl ⟨by simpa using hst, r.out, by simp, by simp⟩
  · exact .inr (by simp [hst])

theorem run_appends (hst : c.st = .active) (par : Params) (free : Nat) :
    (c.run par free).1.st = .active ∧ c.Appends (c.run par free).1 ∨ (c.run par free).1.st = .error := by
  obtain ⟨r, rest, n, hrun, -⟩ := c.run_eq par free
  rw [hrun]
  exact absorb_appends hst r rest

/-- A run whose stretch of the procedure is known, where LZC_MAX_IN is not passed. -/
theorem run_of_runProc {par : Params} {r : Run Engines} {rest : List Byte} (hrun : c.runProc par = (r, rest))
    (hpast : c.lzcPastMax par r.st = false) (free : Nat) : c.run par free = (c.absorb r rest, free) := by
  simp [run, hrun, hpast]

/-- A stretch without input or output, before which INQ is empty. -/
theorem absorb_waits (h : c.inq = []) : c.absorb (.go c.eng) [] = c := by
  simp only [absorb, Run.go, List.append_nil, List.length_nil]
  rw [← h]
  simp

/-! ### OPEN (R224) -/

theorem flagsMaxbits_setWidth (w : Word) : flagsMaxbits (w.setWidth 8) = (w.extractLsb' 0 5).toNat := by
  have h : (w.setWidth 8).extractLsb' 0 5 = w.extractLsb' 0 5 := by
    ext i hi
    simp [show i < 8 by omega]
  exact congrArg BitVec.toNat h

theorem flagsBlock_setWidth (w : Word) : flagsBlock (w.setWidth 8) = w.getLsbD 7 := by
  simp [flagsBlock]

/-- A new instance that fails a check of OPEN: ERR is clear, so the error is recorded (R712). -/
theorem opened_raise (c : Ctx) (eng : BitVec 3) (dir : Bool) (e : Err) :
    (c.opened eng dir).raise e = { c with
      err := e.word, warn := 0, dout := 0, inCount := 0, outCount := 0, trailCount := 0, inq := [], outq := [],
      ended := false, natend := false, engine := eng, dir := dir, lcfg := c.latch, st := .error } := by
  rw [Ctx.raise_open (by simp)]
  rfl

theorem openRun_of_error {e : Err} (h : c.openError = some e) (par : Params) (free : Nat) :
    c.openRun par free = .ok (c.raise e, free) := by
  simp only [openRun, h]

/-- The record of an LZC compress engine that OPEN starts has no ENT (R402). -/
theorem startEngine_lzcPastMax (par : Params) (c : Ctx) : c.lzcPastMax par (c.startEngine par).st = false := by
  by_cases hcompress : c.engine = 2 ∧ c.dir = false
  · have hhave : (c.startEngine par).st.lzcEnc.haveEnt = false := by
      simp [startEngine, hcompress, LzcEnc.start, Run.map]
    exact lzcPastMax_of_noEnt hhave _ _
  · by_cases hengine : c.engine = 2
    · exact lzcPastMax_of_expand (by simpa [hengine] using hcompress) _ _
    · exact lzcPastMax_of_engine hengine _ _

end Ctx

/-- In a stream header the NuFX procedure waits for input. -/
theorem NufxDec.settle_hdr (par : Params) (lzw2 : Bool) {d : NufxDec} {got : List Byte} (h : d.pc = .hdr got) :
    d.settle par lzw2 = .go d := by
  simp only [NufxDec.settle, h]

theorem LzcDec.settle_hdr {d : LzcDec} {got : List Byte} (h : d.pc = .hdr got) : d.settle = .go d := by
  simp only [LzcDec.settle, LzcDec.codesLoop, h]

/-- At the start of its stream the Squeeze procedure waits for input. -/
theorem SqDec.settle_start (l : LCfg) {d : SqDec} (h : d.pc = .hdr [] ∨ d.pc = .count []) : d.settle l = .go d := by
  rcases h with h | h <;> simp only [SqDec.settle, h]

theorem SqDec.start_pc (l : LCfg) : (start l).pc = .hdr [] ∨ (start l).pc = .count [] := by
  unfold start
  split
  · exact .inl rfl
  · exact .inr rfl

theorem SqDec.not_done_of_start {d : SqDec} (h : d.pc = .hdr [] ∨ d.pc = .count []) :
    decide (d.pc = .done) = false := by
  rcases h with h | h <;> simp [h]

namespace Ctx

variable {c : Ctx}

/-- After its first steps an engine waits for input (R79). -/
theorem startEngine_waits (par : Params) (hinq : c.inq = []) (hended : c.ended = false) (out : List Byte) :
    (c.emit out (c.startEngine par).st).runProc par = (.go (c.startEngine par).st, []) := by
  unfold startEngine
  split
  case h_11 =>
    unfold runProc
    split <;> simp_all [emit]
  case h_8 hengine hdir =>
    have hpc := SqDec.start_pc c.lcfg
    simp only [runProc, emit, hengine, hdir, hinq, hended]
    rw [Proc.drive_waits (SqDec.not_done_of_start hpc) (SqDec.settle_start _ hpc)]
    rfl
  all_goals
    next hengine hdir =>
    simp only [runProc, emit, hengine, hdir, hinq, hended]
    rw [Proc.drive_waits rfl rfl]
    rfl

/-- OPEN without a configuration error: the context after the first steps of the engine, which then waits. -/
theorem openRun_started {par : Params} (herror : c.openError = none) (hinq : c.inq = []) (hended : c.ended = false)
    (houtq : c.outq = []) (hroom : hasRoom par (c.startEngine par).out.length = true) (free : Nat) :
    c.openRun par free = .ok (c.emit (c.startEngine par).out (c.startEngine par).st, free) := by
  have hstart : c.absorb (c.startEngine par) [] = c.emit (c.startEngine par).out (c.startEngine par).st := by
    simp only [absorb, startEngine_running, ← hinq, emit]
  have hrun : (c.emit (c.startEngine par).out (c.startEngine par).st).run par free =
      (c.emit (c.startEngine par).out (c.startEngine par).st, free) := by
    rw [run_of_runProc (startEngine_waits par hinq hended _) (startEngine_lzcPastMax par c)]
    exact congrArg (·, free) (absorb_waits hinq)
  simp only [openRun, herror]
  rw [hstart, hrun, commit_of_room]
  simpa [emit, houtq] using hroom

end Ctx

/-- The engine codes of NuFX (R237). -/
theorem engine_of_le_one : ∀ {eng : BitVec 3}, eng.toNat ≤ 1 → eng = 0 ∨ eng = 1 := by
  decide

/-- The variant of NuFX that an engine code names. -/
theorem engine_nufx {eng : BitVec 3} (h : eng.toNat ≤ 1) : ∃ lzw2 : Bool, eng = if lzw2 then 1 else 0 := by
  rcases engine_of_le_one h with h | h
  · exact ⟨false, h⟩
  · exact ⟨true, h⟩

/-- Settles O19: the first check that fails raises, in a new instance whose ERR is clear. -/
theorem openRejectsBadConfiguration : Obligations.OpenRejectsBadConfiguration := by
  intro s c eng dir hc hst m failed
  have hraise {e : Err} (he : (c.opened eng dir).openError = some e) :
      exec (.cmdOpen eng dir) s = .next (s.setCur (failed e.word)) := by
    refine State.onCtx_setCur hc ?_
    rw [Ctx.openCmd, Ctx.guarded_legal (by simp [hst]) (by simp [hst]), Ctx.openRun_of_error he, Ctx.opened_raise]
  refine ⟨fun heng => hraise (e := .badEngine) ?_, fun heng hdir hm => hraise (e := .badMaxbits) ?_,
    fun heng hdir hexpect => hraise (e := .negExpectLen) ?_⟩
  · simp [Ctx.openError, heng]
  · subst heng hdir
    have hrange : ¬ (9 ≤ m ∧ m ≤ 16) := by omega
    have hmaxbits : flagsMaxbits ((c.opened 2 false).lcfg.lzc.setWidth 8) = m := Ctx.flagsMaxbits_setWidth _
    rw [Ctx.openError, if_neg (show ¬ 4 < (c.opened 2 false).engine.toNat by simp), hmaxbits, if_pos ⟨rfl, rfl, hrange⟩]
  · subst hdir
    have hne : (c.opened eng true).engine ≠ 2 := by rintro rfl; exact absurd heng (by decide)
    have hnufx : (c.opened eng true).engine = 0 ∨ (c.opened eng true).engine = 1 := engine_of_le_one heng
    rw [Ctx.openError, if_neg (show ¬ 4 < (c.opened eng true).engine.toNat from Nat.not_lt.mpr (heng.trans (by decide))),
      if_neg (fun h => hne h.1), if_pos ⟨hnufx, rfl, hexpect⟩]

/-- OPEN finds no error in a configuration that passes the checks of R224. -/
theorem Ctx.openError_eq_none {c : Ctx} (heng : c.engine.toNat ≤ 4)
    (hmaxbits : c.engine = 2 → c.dir = false →
      9 ≤ flagsMaxbits (c.lcfg.lzc.setWidth 8) ∧ flagsMaxbits (c.lcfg.lzc.setWidth 8) ≤ 16)
    (hexpect : c.engine.toNat ≤ 1 → c.dir = true → c.lcfg.expect.getLsbD 31 = false) : c.openError = none := by
  rw [openError, if_neg (Nat.not_lt.mpr heng), if_neg fun h => h.2.2 (hmaxbits h.1 h.2.1), if_neg]
  rintro ⟨hnufx, hdir, hneg⟩
  have hle : c.engine.toNat ≤ 1 := by rcases hnufx with h | h <;> simp [h]
  rw [hexpect hle hdir] at hneg
  cases hneg

/-- The flags byte of the LZC header holds the defined bits of CFG_LZC (R401). -/
theorem LzcEnc.header_flags (w : Word) :
    BitVec.ofNat 8 (flagsMaxbits (w.setWidth 8)) ||| (if flagsBlock (w.setWidth 8) then 0x80 else 0) =
      (w &&& 0x9F).setWidth 8 := by
  have hmaxbits : BitVec.ofNat 8 (flagsMaxbits (w.setWidth 8)) = (w.extractLsb' 0 5).setWidth 8 := by
    rw [Ctx.flagsMaxbits_setWidth, BitVec.ofNat_toNat]
  rw [hmaxbits, Ctx.flagsBlock_setWidth]
  refine BitVec.eq_of_getLsbD_eq fun i hi => ?_
  cases hblock : w.getLsbD 7 <;> interval_cases i <;> simp_all

/-- The header that is known at OPEN (R401, R326). -/
theorem Ctx.startEngine_out (par : Params) (c : Ctx) : (c.startEngine par).out =
    if c.engine = 2 ∧ c.dir = false then [0x1F, 0x9D, (c.lcfg.lzc &&& 0x9F).setWidth 8]
    else if c.engine = 1 ∧ c.dir = false then [c.lcfg.volume.setWidth 8, c.lcfg.delim.setWidth 8] else [] := by
  have h1 : c.engine = 1 ↔ c.engine.toNat = 1 := BitVec.toNat_eq
  have h2 : c.engine = 2 ↔ c.engine.toNat = 2 := BitVec.toNat_eq
  simp only [h1, h2]
  unfold startEngine
  split
  case h_5 hengine hdir =>
    rw [hengine, hdir, ← LzcEnc.header_flags]
    rfl
  all_goals simp_all [Run.map, Run.go, NufxEnc.start]

/-- An instance that OPEN has accepted, with the header that its engine outputs. -/
theorem Ctx.opened_emit (c : Ctx) (eng : BitVec 3) (dir : Bool) (out : List Byte) (e : Engines) :
    (c.opened eng dir).emit out e = { c with
      err := 0, warn := 0, dout := 0, inCount := 0, outCount := BitVec.ofNat 32 out.length, trailCount := 0,
      inq := [], outq := out, ended := false, natend := false, engine := eng, dir := dir, lcfg := c.latch,
      st := .active, eng := e } := by
  simp only [emit, opened_outCount, opened_outq, zero_add, List.nil_append]
  rfl

/-- Settles O18: the checks pass, the first steps of the engine give the header, and the engine then waits. -/
theorem openStartsAnInstance : Obligations.OpenStartsAnInstance := by
  intro s c eng dir hc hst heng hmaxbits hexpect m block hdr hroom l
  have hhdr : ((c.opened eng dir).startEngine s.par).out = hdr := Ctx.startEngine_out s.par _
  have herror : (c.opened eng dir).openError = none :=
    Ctx.openError_eq_none heng (by rw [Ctx.flagsMaxbits_setWidth]; exact hmaxbits) hexpect
  refine ⟨((c.opened eng dir).startEngine s.par).st, ?exec, ?_⟩
  case exec =>
    refine State.onCtx_setCur hc ?_
    rw [Ctx.openCmd, Ctx.guarded_legal (by simp [hst]) (by simp [hst]),
      Ctx.openRun_started herror rfl rfl rfl (by rwa [hhdr]), hhdr, Ctx.opened_emit]
    rfl
  refine ⟨fun hle hdir => ?_, fun hle hdir => ?_, fun h hdir => ?_, fun h hdir => ?_, fun h hdir => ?_, fun h hdir => ?_,
    fun h hdir => ?_, fun h hdir => ?_⟩
  · subst hdir
    rcases engine_of_le_one hle with rfl | rfl <;> rfl
  · subst hdir
    rcases engine_of_le_one hle with rfl | rfl <;> rfl
  · subst h hdir
    have hstart : LzcEnc.start l =
        { st := { maxbits := m, block := block, maxmaxcode := 2 ^ m, freeEnt := if block then 257 else 256 },
          out := LzcEnc.header m block } := by
      simp only [LzcEnc.start, Ctx.flagsMaxbits_setWidth, Ctx.flagsBlock_setWidth]
      rfl
    exact congrArg (fun r : Run LzcEnc => { c.eng with lzcEnc := r.st }) hstart
  all_goals
    subst h hdir
    rfl

/-! ### FEED (R225) -/

section
variable {s : State} {c : Ctx} {b : Byte}

theorem Ctx.feedCmd_active (hst : c.st = .active) (par : Params) (free : Nat) (b : Byte) :
    c.feedCmd par free b = c.feedRun par free b :=
  Ctx.guarded_legal (by simp [hst]) (by simp [hst])

theorem Ctx.feedRun_natend (h : c.natend = true) (par : Params) (free : Nat) (b : Byte) :
    c.feedRun par free b = .ok ({ c with inCount := c.inCount + 1 }.trail 1, free) := if_pos h

theorem Ctx.feedRun_full {par : Params} (h : c.natend = false) (hfull : c.wholeFull par = true) (free : Nat)
    (b : Byte) :
    c.feedRun par free b = .error .wholeFileFull := by
  simp [feedRun, h, hfull]

theorem Ctx.feedRun_run {par : Params} (h : c.natend = false) (hfull : c.wholeFull par = false) (free : Nat)
    (b : Byte) :
    c.feedRun par free b =
      commit par (({ c with inCount := c.inCount + 1, inq := c.inq ++ [b] } : Ctx).run par free) := by
  simp [feedRun, h, hfull]

/-- FEED where the stretch of the procedure that the byte starts is known. -/
theorem exec_feed {r : Run Engines} {rest : List Byte} {c1 : Ctx} (hc : s.cur = some c) (hst : c.st = .active)
    (hnatend : c.natend = false) (hfull : c.wholeFull s.par = false)
    (hc1 : c1 = { c with inCount := c.inCount + 1, inq := c.inq ++ [b] }) (hrun : c1.runProc s.par = (r, rest))
    (hpast : c1.lzcPastMax s.par r.st = false) (hroom : hasRoom s.par (c1.absorb r rest).outq.length = true) :
    exec (.cmdFeed b) s = .next (s.setCur (c1.absorb r rest)) := by
  subst hc1
  refine State.onCtx_setCur hc ?_
  rw [Ctx.feedCmd_active hst, Ctx.feedRun_run hnatend hfull, Ctx.run_of_runProc hrun hpast, Ctx.commit_of_room hroom]

end

/-- Settles O21: after the natural end FEED runs no procedure. -/
theorem feedAfterNaturalEndCountsTrailing : Obligations.FeedAfterNaturalEndCountsTrailing := by
  intro s c b hc hst hnatend
  refine State.onCtx_setCur hc ?_
  rw [Ctx.feedCmd_active hst, Ctx.feedRun_natend hnatend]
  rfl

/-- Without a bound on WHOLE no whole-file engine is full (R816). -/
theorem Ctx.wholeFull_unbounded {par : Params} (h : par.maxWhole = none) (c : Ctx) : c.wholeFull par = false := by
  simp [wholeFull, h]

/-- FEED in ACTIVE with unbounded capacities appends output, or raises. -/
theorem Ctx.feedRun_completes {par : Params} {c : Ctx} (hst : c.st = .active) (hcap : par.outqCap = none)
    (hwhole : par.maxWhole = none) (free : Nat) (b : Byte) :
    ∃ q, c.feedRun par free b = .ok q ∧ (q.1.st = .active ∧ c.Appends q.1 ∨ q.1.st = .error) := by
  cases hnatend : c.natend with
  | true =>
    refine ⟨_, feedRun_natend hnatend _ _ _, .inl ⟨by simpa using hst, [], ?_, ?_⟩⟩ <;> simp
  | false =>
    refine ⟨_, (feedRun_run hnatend (c.wholeFull_unbounded hwhole) _ _).trans
      (commit_of_room (hasRoom_unbounded hcap _)), ?_⟩
    exact run_appends (c := { c with inCount := c.inCount + 1, inq := c.inq ++ [b] }) hst par free

/-- Settles O20: the byte only counts as trailing input, or starts a run, which appends output or raises. -/
theorem feedCompletes : Obligations.FeedCompletes := by
  intro s c b hc hst hcap hwhole
  obtain ⟨q, hq, houtcome⟩ := Ctx.feedRun_completes hst hcap hwhole s.free b
  have hkeeps := Ctx.feedRun_keepsRegisters hq
  refine ⟨q.1, q.2, State.onCtx_ok hc ((Ctx.feedCmd_active hst _ _ _).trans hq), hkeeps.inCount, ?state, hkeeps.engine,
    hkeeps.dir, hkeeps.lcfg, hkeeps.dout, hkeeps.namebuf, hkeeps.ended, ?output⟩
  case state => exact houtcome.imp And.left id
  case output =>
    intro hactive
    rcases houtcome with ⟨-, happends⟩ | herror
    · exact happends
    · cases hactive.symm.trans herror

/-! ### Whole-file compress (R510, R610) -/

/-- A bound that is not reached yet. -/
theorem any_le_of_all_lt {bound : Option Nat} {k : Nat} (h : bound.all (fun n => decide (k < n)) = true) :
    bound.any (fun n => decide (n ≤ k)) = false := by
  cases bound with
  | none => rfl
  | some n => simpa using h

/-- Settles O22: the engine waits, so the one byte of INQ is all that its procedure takes. -/
theorem wholeFileEnginesStoreTheByte : Obligations.WholeFileEnginesStoreTheByte := by
  intro s c b hc hst hdir hnatend hinq hended hroom
  have hrefused (hfull : c.wholeFull s.par = true) : exec (.cmdFeed b) s = .refused .wholeFileFull := by
    have hcur : s.ctxs[s.sel]? = some c := hc
    have hfeed : c.feedCmd s.par s.free b = .error .wholeFileFull :=
      (Ctx.feedCmd_active hst _ _ _).trans (Ctx.feedRun_full hnatend hfull _ _)
    simp [exec, execCmdFeed, State.onCtx, hcur, hfeed]
  have hstored (e : Engines) (hfull : c.wholeFull s.par = false) (hengine : c.engine ≠ 2)
      (hrun : Ctx.runProc s.par { c with inCount := c.inCount + 1, inq := c.inq ++ [b] } = (.go e, [])) :
      exec (.cmdFeed b) s = .next (s.setCur { c with inCount := c.inCount + 1, eng := e }) := by
    have habsorb : Ctx.absorb { c with inCount := c.inCount + 1, inq := c.inq ++ [b] } (.go e) [] =
        { c with inCount := c.inCount + 1, eng := e } := by
      simp [Ctx.absorb, Run.go, hinq]
    rw [exec_feed hc hst hnatend hfull rfl hrun (Ctx.lzcPastMax_of_engine hengine _ _) (by rwa [habsorb]), habsorb]
  constructor
  · intro heng hreturned
    have hfull : c.wholeFull s.par = s.par.maxWhole.any (fun n => decide (n ≤ c.eng.sqEnc.whole.length)) := by
      simp [Ctx.wholeFull, hdir, heng]
    refine ⟨fun hbound => hstored _ ?_ (by simp [heng]) ?_, fun hbound => hrefused (hfull.trans hbound)⟩
    · rw [hfull, any_le_of_all_lt hbound]
    · exact Ctx.runProc_sqEnc (c := { c with inCount := c.inCount + 1, inq := c.inq ++ [b] }) heng hdir
        (Proc.drive_byte hended hinq hreturned rfl rfl)
  · intro heng hreturned
    have hfull : c.wholeFull s.par = s.par.maxWhole.any (fun n => decide (n ≤ c.eng.zxEnc.whole.length)) := by
      simp [Ctx.wholeFull, hdir, heng]
    refine ⟨fun hbound => hstored _ ?_ (by simp [heng]) ?_, fun hbound => hrefused (hfull.trans hbound)⟩
    · rw [hfull, any_le_of_all_lt hbound]
    · exact Ctx.runProc_zxEnc (c := { c with inCount := c.inCount + 1, inq := c.inq ++ [b] }) heng hdir
        (Proc.drive_byte hended hinq hreturned rfl rfl)

/-! ### FINISH (R227) -/

theorem Ctx.finishCmd_active {c : Ctx} (hst : c.st = .active) (par : Params) (free : Nat) :
    c.finishCmd par free = c.finishRun par free :=
  Ctx.guarded_legal (by simp [hst]) (by simp [hst])

/-- FINISH in ACTIVE with unbounded OUTQ appends output and ends in FINISHED, or raises. -/
theorem Ctx.finishRun_completes {par : Params} {c : Ctx} (hst : c.st = .active) (hcap : par.outqCap = none)
    (free : Nat) :
    ∃ q, c.finishRun par free = .ok q ∧ (q.1.st = .finished ∧ c.Appends q.1 ∨ q.1.st = .error) := by
  refine ⟨_, commit_of_room (hasRoom_unbounded hcap _), ?_⟩
  rcases run_appends (c := { c with ended := true }) hst par free with ⟨hactive, happends⟩ | herror
  · rw [finished, if_pos hactive]
    exact .inl ⟨rfl, happends⟩
  · rw [finished, if_neg (by simp [herror])]
    exact .inr herror

/-- Settles O25: the run that FINISH starts appends output or raises, and without an error FINISHED is entered. -/
theorem finishCompletes : Obligations.FinishCompletes := by
  intro s c hc hst hcap
  obtain ⟨q, hq, houtcome⟩ := Ctx.finishRun_completes hst hcap s.free
  have hkeeps := Ctx.finishRun_keepsRegisters hq
  refine ⟨q.1, q.2, State.onCtx_ok hc ((Ctx.finishCmd_active hst _ _).trans hq), ?state, hkeeps.ended, hkeeps.engine,
    hkeeps.dir, hkeeps.lcfg, hkeeps.dout, hkeeps.namebuf, hkeeps.inCount, ?output⟩
  case state => exact houtcome.imp And.left id
  case output =>
    intro hfinished
    rcases houtcome with ⟨-, happends⟩ | herror
    · exact happends
    · cases hfinished.symm.trans herror

/-! ### FINISH on empty input (R327, R423, R522, R624, R646) -/

section
variable {s : State} {c : Ctx} {e : Engines}

/-- FINISH where the stretch of the procedure up to the end of the input is known. -/
theorem exec_finish {r : Run Engines} {rest : List Byte} {c1 : Ctx} (hc : s.cur = some c) (hst : c.st = .active)
    (hcap : s.par.outqCap = none) (hrun : Ctx.runProc s.par { c with ended := true } = (r, rest))
    (hpast : c.lzcPastMax s.par r.st = false)
    (hend : Ctx.finished (Ctx.absorb { c with ended := true } r rest, s.free) = (c1, s.free)) :
    exec .cmdFinish s = .next (s.setCur c1) := by
  refine State.onCtx_setCur hc ((Ctx.finishCmd_active hst _ _).trans ?_)
  rw [Ctx.finishRun, Ctx.run_of_runProc hrun hpast, hend, Ctx.commit_of_room (hasRoom_unbounded hcap _)]

/-- A procedure that returns at the end of its input. -/
theorem exec_finish_returned {out : List Byte} {c1 : Ctx} (hc : s.cur = some c) (hst : c.st = .active)
    (hinq : c.inq = []) (hcap : s.par.outqCap = none)
    (hrun : Ctx.runProc s.par { c with ended := true } = ({ st := e, out := out, sig := .returned }, []))
    (hpast : c.lzcPastMax s.par e = false) (hreturned : Ctx.procReturned { (c.emit out e) with ended := true } = c1) :
    exec .cmdFinish s = .next (s.setCur { c1 with st := .finished }) := by
  have habsorb : Ctx.absorb { c with ended := true } { st := e, out := out, sig := .returned } [] = c1 := by
    rw [← hreturned, Ctx.absorb_returned]
    simp only [Ctx.emit, hinq]
  have hactive : c1.st = .active := by
    rw [← hreturned, Ctx.procReturned_st]
    exact hst
  refine exec_finish hc hst hcap hrun hpast ?_
  rw [habsorb]
  exact if_pos hactive

/-- A procedure that raises, without output, at the end of its input. -/
theorem exec_finish_raised (hc : s.cur = some c) (hst : c.st = .active) (hinq : c.inq = [])
    (hcap : s.par.outqCap = none) {err : Err}
    (hrun : Ctx.runProc s.par { c with ended := true } = (.fail e err, [])) (hpast : c.lzcPastMax s.par e = false) :
    exec .cmdFinish s = .next (s.setCur ({ c with ended := true, eng := e }.raise err)) := by
  have habsorb : Ctx.absorb { c with ended := true } (.fail e err) [] = { c with ended := true, eng := e }.raise err := by
    simp [Ctx.absorb, Run.fail, hinq]
  refine exec_finish hc hst hcap hrun hpast ?_
  rw [habsorb]
  exact if_neg (by simp [hst])

end

/-- The tree of no input: the EOF leaf alone (R522). -/
theorem SqEnc.build_eofLeaf (arith : SqArith) :
    build arith 17 { weight := [(256, 1)], ceiling := 65535 } =
      ({ weight := [(256, 1)], list := [256], ceiling := 32767 }, some 256) := by
  cases arith <;> decide +kernel

theorem SqEnc.rlePass_nil (layout : SqLayout) (delim : Byte) : rlePass layout delim [] = [] := by
  cases layout <;> rfl

/-- Squeeze compress without input outputs its header with checksum 0 and the count 0 (R522). -/
theorem SqEnc.eof_start (par : Params) (l : LCfg) {e : SqEnc} (h : e = {}) : ∃ e', SqEnc.eof par l e =
    { st := e', out := (if sqFullHdr l then writeHeader 0 l.name else []) ++ [0, 0], sig := .returned } := by
  have hcount : ({ sum := sumBytes 0 [], rleout := rlePass par.sqLayout (sqDelim l) [] } : SqEnc).count =
      { weight := [(256, 1)] } := by
    rw [rlePass_nil]
    rfl
  have hdata : ({ weight := [(256, 1)], list := [256], ceiling := 32767 } : SqEnc).writeData.2 = [] := by decide
  subst h
  refine ⟨{ ({ weight := [(256, 1)], list := [256], ceiling := 32767 } : SqEnc).writeData.1 with returned := true }, ?_⟩
  simp only [SqEnc.eof, hcount, build_eofLeaf, hdata, List.append_nil]
  rfl

/-- NuFX compress without input: LZW/1 outputs its header, LZW/2 nothing further (R327). -/
theorem NufxEnc.eof_start (par : Params) (lzw2 : Bool) (l : LCfg) {e : NufxEnc} {crc : Half} (h : e = { crc := crc }) :
    NufxEnc.eof par lzw2 l e =
      { st := { crc := crc, returned := true },
        out := if lzw2 then [] else leBytes crc ++ [l.volume.setWidth 8, l.delim.setWidth 8], sig := .returned } := by
  subst h
  cases lzw2 <;> rfl

/-- LZC compress without input outputs nothing (R423). -/
theorem LzcEnc.eof_start (par : Params) {e : LzcEnc} (h : e.haveEnt = false) :
    e.eof par = .ret { e with returned := true } := by
  simp [LzcEnc.eof, h]

/-- ZX0 compress without input outputs nothing (R624). -/
theorem ZxEnc.eof_start (l : LCfg) {e : ZxEnc} (h : e = {}) : e.eof l = .ret { returned := true } := by
  subst h
  rfl

theorem NufxDec.not_done_of_hdr {d : NufxDec} {got : List Byte} (h : d.pc = .hdr got) :
    decide (d.pc = .done) = false := by
  simp [h]

theorem NufxDec.eof_hdr {d : NufxDec} {got : List Byte} (h : d.pc = .hdr got) : d.eof = .fail d .truncated := by
  simp only [NufxDec.eof, h]

theorem LzcDec.not_done_of_hdr {d : LzcDec} {got : List Byte} (h : d.pc = .hdr got) :
    decide (d.pc = .done) = false := by
  simp [h]

theorem LzcDec.eof_hdr {d : LzcDec} {got : List Byte} (h : d.pc = .hdr got) : d.eof = .fail d .truncated := by
  simp only [LzcDec.eof, h]

theorem SqDec.eof_start {d : SqDec} (h : d.pc = .hdr [] ∨ d.pc = .count []) : d.eof = .fail d .truncated := by
  rcases h with h | h <;> simp only [SqDec.eof, h]

theorem ZxDec.not_done_of_start {d : ZxDec} (h : d.pc = .start) : decide (d.pc = .done) = false := by
  simp [h]

theorem ZxDec.settle_start (l : LCfg) {d : ZxDec} (h : d.pc = .start) : d.settle l = .go d := by
  simp [ZxDec.settle, ZxDec.bits, ZxDec.wantsBit, h]

theorem ZxDec.eof_start {d : ZxDec} (h : d.pc = .start) : d.eof = .ret { d with zstate := .done, pc := .done } := by
  simp only [ZxDec.eof, h]

theorem Ctx.emit_nil (c : Ctx) (e : Engines) : c.emit [] e = { c with eng := e } := by
  simp [emit]

/-- Settles O26: the engine waits at its first control point, so the end of the input is all that its procedure
meets. -/
theorem finishOnEmptyInput : Obligations.FinishOnEmptyInput := by
  intro s c hc hst hnatend hinq hcap done cut
  let c1 : Ctx := { c with ended := true }
  constructor
  · intro hdir
    have hdone {out : List Byte} {e : Engines} (hpast : c.lzcPastMax s.par e = false)
        (hrun : c1.runProc s.par = ({ st := e, out := out, sig := .returned }, [])) : done out :=
      ⟨e, exec_finish_returned hc hst hinq hcap hrun hpast (Ctx.procReturned_compress hdir)⟩
    have hdoneOther {out : List Byte} {e : Engines} (heng : c.engine ≠ 2)
        (hrun : c1.runProc s.par = ({ st := e, out := out, sig := .returned }, [])) : done out :=
      hdone (Ctx.lzcPastMax_of_engine heng _ _) hrun
    refine ⟨fun heng hstart => ?nufx1, fun heng hstart => ?nufx2, fun heng hent hreturned => ?lzc, fun heng hstart => ?sq,
      fun heng hstart => ?zx⟩
    case nufx1 =>
      exact hdoneOther (by simp [heng]) (Ctx.runProc_nufxEnc (c := c1) (lzw2 := false) heng hdir
        (Proc.drive_eof rfl hinq (congrArg NufxEnc.returned hstart) rfl (NufxEnc.eof_start _ _ _ hstart)))
    case nufx2 =>
      exact hdoneOther (by simp [heng]) (Ctx.runProc_nufxEnc (c := c1) (lzw2 := true) heng hdir
        (Proc.drive_eof rfl hinq (congrArg NufxEnc.returned hstart) rfl (NufxEnc.eof_start _ _ _ hstart)))
    case lzc =>
      refine hdone (Ctx.lzcPastMax_of_noEnt ?_ _ _) (Ctx.runProc_lzcEnc (c := c1) heng hdir
        (Proc.drive_eof rfl hinq hreturned rfl (LzcEnc.eof_start _ hent)))
      exact hent
    case sq =>
      obtain ⟨e, heof⟩ := SqEnc.eof_start s.par c.lcfg hstart
      exact hdoneOther (by simp [heng]) (Ctx.runProc_sqEnc (c := c1) heng hdir
        (Proc.drive_eof rfl hinq (congrArg SqEnc.returned hstart) rfl heof))
    case zx =>
      exact hdoneOther (by simp [heng]) (Ctx.runProc_zxEnc (c := c1) heng hdir
        (Proc.drive_eof rfl hinq (congrArg ZxEnc.returned hstart) rfl (ZxEnc.eof_start _ hstart)))
  · intro hdir
    have hpast (e : Engines) : c.lzcPastMax s.par e = false := Ctx.lzcPastMax_of_expand hdir _ _
    have hcut {e : Engines} (hrun : c1.runProc s.par = (.fail e .truncated, [])) : cut :=
      ⟨e, exec_finish_raised hc hst hinq hcap hrun (hpast e)⟩
    refine ⟨fun hle hpc => ?nufx, fun heng hpc => ?lzc, fun heng hpc => ?sq, fun heng hstart => ?zx⟩
    case nufx =>
      obtain ⟨lzw2, heng⟩ := engine_nufx hle
      exact hcut (Ctx.runProc_nufxDec (c := c1) heng hdir
        (Proc.drive_eof rfl hinq (NufxDec.not_done_of_hdr hpc) (NufxDec.settle_hdr _ _ hpc) (NufxDec.eof_hdr hpc)))
    case lzc =>
      exact hcut (Ctx.runProc_lzcDec (c := c1) heng hdir
        (Proc.drive_eof rfl hinq (LzcDec.not_done_of_hdr hpc) (LzcDec.settle_hdr hpc) (LzcDec.eof_hdr hpc)))
    case sq =>
      exact hcut (Ctx.runProc_sqDec (c := c1) heng hdir
        (Proc.drive_eof rfl hinq (SqDec.not_done_of_start hpc) (SqDec.settle_start _ hpc) (SqDec.eof_start hpc)))
    case zx =>
      have hpc : c.eng.zxDec.pc = .start := congrArg ZxDec.pc hstart
      let e : Engines := { c.eng with zxDec := { c.eng.zxDec with zstate := .done, pc := .done } }
      have hrun : c1.runProc s.par = (.ret e, []) := Ctx.runProc_zxDec (c := c1) heng hdir
        (Proc.drive_eof rfl hinq (ZxDec.not_done_of_start hpc) (ZxDec.settle_start _ hpc) (ZxDec.eof_start hpc))
      have hend : Ctx.procReturned { c.emit [] e with ended := true } =
          { c.emit [] e with ended := true, natend := true } :=
        Ctx.procReturned_expand hdir (by simp [Ctx.emit, heng]) hinq
      refine ⟨e, (exec_finish_returned hc hst hinq hcap hrun (hpast e) hend).trans ?_⟩
      rw [Ctx.emit_nil]

end Sys2Proof.Machine
end

section
/-! PROOFS. The end of a NuFX chunk of stored stage-1 data (R303, R349 to R351). -/

namespace Sys2Proof.Machine

open Sys2Proof

/-! ### The RLE tokens of the stage-1 data (R303) -/

/-- The bytes an RLE token stands for: a literal, or a run of `n + 1` bytes. -/
def rleData (t : Byte × Option Byte) : List Byte :=
  match t.2 with
  | none => [t.1]
  | some n => List.replicate (n.toNat + 1) t.1

/-- An RLE token in the stage-1 data. -/
def rleBytes (delim : Byte) (t : Byte × Option Byte) : List Byte :=
  match t.2 with
  | none => [t.1]
  | some n => [delim, t.1, n]

namespace NufxDec
variable (par : Params) (lzw2 : Bool)

/-- One token: it goes to the chunk where it fits. -/
theorem rleLoop_token {d : NufxDec} {t : Byte × Option Byte} (ht : t.2 = none → t.1 ≠ d.delimIn) (ys : List Byte)
    (hfit : d.chunk.length + (rleData t).length ≤ 4096) :
    d.rleLoop par lzw2 (rleBytes d.delimIn t ++ ys) = { d with chunk := d.chunk ++ rleData t }.rleLoop par lzw2 ys := by
  obtain ⟨v, n⟩ := t
  cases n with
  | none => exact rleLoop_lit par lzw2 (ht rfl) hfit ys
  | some n => exact rleLoop_run par lzw2 v n (by simpa [rleData] using hfit) ys

/-- One token that does not fit raises RLE_OVERRUN. -/
theorem rleLoop_token_overrun {d : NufxDec} {t : Byte × Option Byte} (ht : t.2 = none → t.1 ≠ d.delimIn)
    (ys : List Byte) (hover : 4096 < d.chunk.length + (rleData t).length) :
    d.rleLoop par lzw2 (rleBytes d.delimIn t ++ ys) = .fail { d with chunk := d.chunk ++ rleData t } .rleOverrun := by
  obtain ⟨v, n⟩ := t
  cases n with
  | none =>
    rw [rleLoop.eq_def]
    simp only [rleBytes, List.cons_append, ht rfl, if_false, rleLit_overrun v hover, Run.fail]
    rfl
  | some n =>
    have hover : 4096 < d.chunk.length + (n.toNat + 1) := by simpa [rleData] using hover
    rw [rleLoop.eq_def]
    simp only [rleBytes, List.cons_append, if_true, rleRun_overrun v n hover, Run.fail]
    rfl

/-- Tokens that fit go to the chunk one by one. -/
theorem rleLoop_tokens (ys : List Byte) : ∀ (ts : List (Byte × Option Byte)) (d : NufxDec),
    (∀ t ∈ ts, t.2 = none → t.1 ≠ d.delimIn) → d.chunk.length + (ts.flatMap rleData).length ≤ 4096 →
    d.rleLoop par lzw2 (ts.flatMap (rleBytes d.delimIn) ++ ys) =
      { d with chunk := d.chunk ++ ts.flatMap rleData }.rleLoop par lzw2 ys
  | [], d, _, _ => by simp
  | t :: ts, d, hts, hfit => by
    simp only [List.flatMap_cons, List.length_append] at hfit ⊢
    rw [List.append_assoc, rleLoop_token par lzw2 (hts t List.mem_cons_self) _ (by omega),
      ← List.append_assoc]
    exact rleLoop_tokens ys ts { d with chunk := d.chunk ++ rleData t }
      (fun u hu => hts u (List.mem_cons_of_mem _ hu)) (by simp only [List.length_append]; omega)

/-- Tokens for more than a chunk raise RLE_OVERRUN, whatever follows them. -/
theorem rleLoop_tokens_overrun (ys : List Byte) : ∀ (ts : List (Byte × Option Byte)) (d : NufxDec),
    (∀ t ∈ ts, t.2 = none → t.1 ≠ d.delimIn) → d.chunk.length ≤ 4096 →
    4096 < d.chunk.length + (ts.flatMap rleData).length →
    ∃ d', d.rleLoop par lzw2 (ts.flatMap (rleBytes d.delimIn) ++ ys) = .fail d' .rleOverrun
  | [], _, _, hfull, hover => absurd hover (Nat.not_lt.mpr hfull)
  | t :: ts, d, hts, hfull, hover => by
    have ht := hts t List.mem_cons_self
    simp only [List.flatMap_cons, List.length_append, List.append_assoc] at hover ⊢
    by_cases hfit : d.chunk.length + (rleData t).length ≤ 4096
    · rw [rleLoop_token par lzw2 ht _ hfit]
      exact rleLoop_tokens_overrun ys ts { d with chunk := d.chunk ++ rleData t }
        (fun u hu => hts u (List.mem_cons_of_mem _ hu)) (by simpa using hfit)
        (by simp only [List.length_append]; omega)
    · exact ⟨_, rleLoop_token_overrun par lzw2 ht _ (Nat.lt_of_not_le hfit)⟩

/-- A run that is cut short raises RLE_TRUNCATED. -/
theorem rleLoop_cut (d : NufxDec) {ys : List Byte} (hys : ys = [d.delimIn] ∨ ∃ v, ys = [d.delimIn, v]) :
    d.rleLoop par lzw2 ys = .fail { d with pc := .rle ys } .rleTruncated := by
  rcases hys with rfl | ⟨v, rfl⟩ <;> rw [rleLoop.eq_def] <;> simp only [if_true]

/-! ### The chunk is decoded (R345, R350, R351) -/

/-- The number of bytes the chunk outputs. -/
def chunkOut (d : NufxDec) : Nat := min 4096 (d.expect - d.produced)

/-- The running CRC after the chunk. -/
def chunkCrc (d : NufxDec) : Half :=
  if lzw2 then d.crc else crc16Xmodem d.crc (crcSpanBytes par.crcSpan d d.chunkOut)

/-- The decoder after `emit(n)`. -/
def emitted (d : NufxDec) : NufxDec :=
  { d with crc := d.chunkCrc par lzw2, produced := d.produced + d.chunkOut, pc := .loop }

theorem chunkDone_eq (d : NufxDec) :
    d.chunkDone par lzw2 = (Run.go (d.emitted par lzw2) (d.chunk.take d.chunkOut)).andThen (loopHead lzw2) := rfl

/-- Data remain: the decoder awaits the next chunk header. -/
theorem chunkDone_more {d : NufxDec} (h : d.produced + d.chunkOut < d.expect) :
    d.chunkDone par lzw2 = .go { d.emitted par lzw2 with pc := .chunkHdr [] } (d.chunk.take d.chunkOut) := by
  rw [chunkDone_eq, Run.andThen_running _ rfl]
  simp only [loopHead, emitted, Run.go, h, if_true, List.append_nil]

/-- The last chunk, with the wrong CRC. -/
theorem chunkDone_checksum {d : NufxDec} (h : d.expect ≤ d.produced + d.chunkOut)
    (hcrc : d.chunkCrc par false ≠ d.crcWant) :
    d.chunkDone par false =
      { st := d.emitted par false, out := d.chunk.take d.chunkOut, sig := .raised .checksum } := by
  rw [chunkDone_eq, Run.andThen_running _ rfl]
  simp [loopHead, emitted, Run.go, Nat.not_lt.mpr h, hcrc, Run.fail]

/-- The last chunk, with no CRC to check or the right one: the natural end. -/
theorem chunkDone_end {d : NufxDec} (h : d.expect ≤ d.produced + d.chunkOut)
    (hcrc : lzw2 = true ∨ d.chunkCrc par lzw2 = d.crcWant) :
    d.chunkDone par lzw2 =
      { st := { d.emitted par lzw2 with pc := .done }, out := d.chunk.take d.chunkOut, sig := .returned } := by
  rw [chunkDone_eq, Run.andThen_running _ rfl]
  rcases hcrc with rfl | hcrc <;> simp [loopHead, emitted, Run.go, Nat.not_lt.mpr h, Run.ret, *]

/-! ### The last byte of the stage-1 data (R349) -/

theorem settle_stored {d : NufxDec} (hpc : d.pc = .stored) :
    d.settle par lzw2 = if d.rlelen ≤ d.seg.length then d.stage1Done par lzw2 else .go d := by
  simp only [settle, hpc]

/-- The last stored byte completes the stage-1 data. -/
theorem byte_stored_last {d : NufxDec} (hpc : d.pc = .stored) (hlen : d.rlelen = d.seg.length + 1) (b : Byte) :
    d.byte par lzw2 b = { d with seg := d.seg ++ [b] }.stage1Done par lzw2 := by
  simp only [byte, hpc]
  rw [Run.andThen_running _ rfl]
  simp only [Run.go, List.nil_append]
  rw [settle_stored par lzw2 rfl, if_pos (by simp [hlen])]

/-- Stage-1 data of a whole chunk hold no tokens. -/
theorem stage1Done_raw {d : NufxDec} (h : d.rlelen = 4096) :
    d.stage1Done par lzw2 = { d with rd := d.rd.align, chunk := d.seg }.chunkDone par lzw2 := by
  simp only [stage1Done, Config.nufxChunk, if_pos h]

/-- Shorter stage-1 data are RLE tokens. -/
theorem stage1Done_rle {d : NufxDec} (h : d.rlelen ≠ 4096) :
    d.stage1Done par lzw2 = { d with rd := d.rd.align, chunk := [] }.rleLoop par lzw2 d.seg := by
  simp only [stage1Done, Config.nufxChunk, if_neg h]

/-- The stage-1 data `data` of a chunk of RLELEN bytes stand for the bytes `x`: they are these bytes where RLELEN is
4096, and otherwise the RLE tokens `ts`, and perhaps a token cut short (R349). -/
def StandsFor (d : NufxDec) (data x tail : List Byte) (ts : List (Byte × Option Byte)) : Prop :=
  if d.rlelen = 4096 then x = data ∧ tail = []
  else d.rlelen < 4096 ∧ (∀ t ∈ ts, t.2 = none → t.1 ≠ d.delimIn) ∧ x = ts.flatMap rleData ∧
    data = ts.flatMap (rleBytes d.delimIn) ++ tail

/-- The four ends of a chunk's stage-1 data. -/
theorem stage1Done_cases {d : NufxDec} {x tail : List Byte} {ts : List (Byte × Option Byte)}
    (hlen : d.rlelen = d.seg.length) (h : d.StandsFor d.seg x tail ts) :
    (4096 < x.length → ∃ d', d.stage1Done par lzw2 = .fail d' .rleOverrun) ∧
    (x.length ≤ 4096 → (tail = [d.delimIn] ∨ ∃ v, tail = [d.delimIn, v]) →
      ∃ d', d.stage1Done par lzw2 = .fail d' .rleTruncated) ∧
    (x.length < 4096 → tail = [] → ∃ d', d.stage1Done par lzw2 = .fail d' .rleUnderrun) ∧
    (x.length = 4096 → tail = [] →
      ∃ pc, d.stage1Done par lzw2 = { d with rd := d.rd.align, chunk := x, pc := pc }.chunkDone par lzw2) := by
  unfold StandsFor at h
  by_cases hwhole : d.rlelen = 4096
  case pos =>
    rw [if_pos hwhole] at h
    obtain ⟨rfl, rfl⟩ := h
    have hx : d.seg.length = 4096 := hlen.symm.trans hwhole
    exact ⟨fun h => by omega, fun _ h => by simp at h, fun h => by omega,
      fun _ _ => ⟨d.pc, stage1Done_raw par lzw2 hwhole⟩⟩
  case neg =>
    rw [if_neg hwhole] at h
    obtain ⟨-, hts, hx, hdata⟩ := h
    let d0 : NufxDec := { d with rd := d.rd.align, chunk := [] }
    have hloop : d.stage1Done par lzw2 = d0.rleLoop par lzw2 (ts.flatMap (rleBytes d0.delimIn) ++ tail) :=
      (stage1Done_rle par lzw2 hwhole).trans (congrArg (d0.rleLoop par lzw2) hdata)
    have hfits (h : x.length ≤ 4096) : d.stage1Done par lzw2 = { d0 with chunk := x }.rleLoop par lzw2 tail := by
      rw [hloop, rleLoop_tokens par lzw2 tail ts d0 hts (by simpa [d0, ← hx] using h), ← hx]
      rfl
    refine ⟨fun h => ?overrun, fun h htail => ?cut, fun h htail => ?under, fun h htail => ?full⟩
    case overrun =>
      obtain ⟨d', hd'⟩ := rleLoop_tokens_overrun par lzw2 tail ts d0 hts (Nat.zero_le _)
        (by simpa [d0, ← hx] using h)
      exact ⟨d', hloop.trans hd'⟩
    case cut => exact ⟨_, (hfits h).trans (rleLoop_cut par lzw2 _ htail)⟩
    case under =>
      subst htail
      exact ⟨_, (hfits h.le).trans (if_neg h.ne)⟩
    case full =>
      subst htail
      exact ⟨_, (hfits h.le).trans (if_pos h)⟩

end NufxDec

/-- The run decides what of the input is left. -/
theorem Ctx.absorb_inq (c : Ctx) (q rest : List Byte) (r : Run Engines) :
    Ctx.absorb { c with inq := q } r rest = c.absorb r rest := rfl

section
variable {c : Ctx} (h : c.inq = []) (e : Engines) (o : List Byte)
include h

theorem Ctx.absorb_running_emit : c.absorb { st := e, out := o, sig := .running } [] = c.emit o e := by
  simp [absorb_running, emit, h]

theorem Ctx.absorb_raised_emit (err : Err) :
    c.absorb { st := e, out := o, sig := .raised err } [] = (c.emit o e).raise err := by
  simp [absorb_raised, emit, h]

theorem Ctx.absorb_returned_emit : c.absorb { st := e, out := o, sig := .returned } [] = (c.emit o e).procReturned := by
  simp [absorb_returned, emit, h]

end

section
variable {s : State} {c : Ctx} {b : Byte} {lzw2 : Bool} {r : Run NufxDec}

/-- FEED to a NuFX decoder that waits for stored bytes runs the decoder's byte. -/
theorem exec_feed_stored (hc : s.cur = some c) (hst : c.st = .active) (hdir : c.dir = true) (hnatend : c.natend = false)
    (heng : c.engine = if lzw2 then 1 else 0) (hinq : c.inq = []) (hended : c.ended = false)
    (hcap : s.par.outqCap = none) (hpc : c.eng.nufxDec.pc = .stored)
    (hlen : c.eng.nufxDec.seg.length < c.eng.nufxDec.rlelen) (hbyte : c.eng.nufxDec.byte s.par lzw2 b = r) :
    exec (.cmdFeed b) s = .next (s.setCur (Ctx.absorb { c with inCount := c.inCount + 1 }
      (r.map fun d => { c.eng with nufxDec := d }) [])) := by
  have hsettle : c.eng.nufxDec.settle s.par lzw2 = .go c.eng.nufxDec := by
    rw [NufxDec.settle_stored s.par lzw2 hpc, if_neg (Nat.not_le.mpr hlen)]
  have hrun := Ctx.runProc_nufxDec (par := s.par)
    (c := { c with inCount := c.inCount + 1, inq := c.inq ++ [b] }) heng hdir
    (Proc.drive_byte hended hinq (by simp [nufxDecProc, hpc]) hsettle hbyte)
  refine (exec_feed hc hst hnatend (by simp [Ctx.wholeFull, hdir]) rfl hrun (Ctx.lzcPastMax_of_expand hdir _ _)
    (hasRoom_unbounded hcap _)).trans ?_
  rw [Ctx.absorb_inq { c with inCount := c.inCount + 1 }]

end

/-- Settles O34: the tokens are expanded one by one, and the cases are those of the chunk's end. -/
theorem nufxChunkEndsWithItsLastByte : Obligations.NufxChunkEndsWithItsLastByte := by
  intro s c b ts tail x hc hdec hinq hended hpc hcap d c1 hlen hdata raises
  have hkind : c.st = .active ∧ c.dir = true ∧ c.natend = false ∧
      ∃ lzw2 : Bool, c.engine = if lzw2 then 1 else 0 := by
    rcases hdec with h | h
    · exact ⟨h.st, h.dir, h.natend, false, h.engine⟩
    · exact ⟨h.st, h.dir, h.natend, true, h.engine⟩
  obtain ⟨hst, hdir, hnatend, lzw2, heng⟩ := hkind
  have hinq1 : c1.inq = [] := hinq
  let eng (d' : NufxDec) : Engines := { c.eng with nufxDec := d' }
  have hfeed {r : Run NufxDec} {q : Ctx} (hr : d.byte s.par lzw2 b = r) (hq : c1.absorb (r.map eng) [] = q) :
      exec (.cmdFeed b) s = .next (s.setCur q) := by
    rw [← hq]
    exact exec_feed_stored hc hst hdir hnatend heng hinq hended hcap hpc (by simp only [d] at hlen; omega) hr
  have hraises {err : Err} (hr : ∃ d', d.byte s.par lzw2 b = .fail d' err) : raises err := by
    obtain ⟨d', hr⟩ := hr
    exact ⟨eng d', hfeed hr ((Ctx.absorb_raised_emit hinq1 (eng d') [] err).trans (by rw [Ctx.emit_nil]))⟩
  have hcases := NufxDec.stage1Done_cases s.par lzw2 (d := { d with seg := d.seg ++ [b] }) (by simpa using hlen) hdata
  rw [← NufxDec.byte_stored_last s.par lzw2 hpc hlen b] at hcases
  obtain ⟨hover, hcut, hunder, hfull⟩ := hcases
  refine ⟨fun h => hraises (hover h), fun h htail => hraises (hcut h htail), fun h htail => hraises (hunder h htail),
    fun h htail => ?_⟩
  intro n crc
  obtain ⟨pc, hr⟩ := hfull h htail
  let d' : NufxDec := { d with seg := d.seg ++ [b], rd := d.rd.align, chunk := x, pc := pc }
  have hcrc : d'.chunkCrc s.par lzw2 = crc := by
    cases lzw2 <;> simp [NufxDec.chunkCrc, NufxDec.crcSpanBytes, crc, heng, d'] <;> rfl
  refine ⟨fun hmore => ?more, fun hlast h0 hbad => ?checksum, fun hlast hgood => ?natural⟩
  case more =>
    exact ⟨_, hfeed (hr.trans (NufxDec.chunkDone_more s.par lzw2 (d := d') hmore))
      (Ctx.absorb_running_emit hinq1 _ _), rfl, rfl, hcrc⟩
  case checksum =>
    obtain rfl : lzw2 = false := by cases lzw2 <;> simp_all
    exact ⟨_, hfeed (hr.trans (NufxDec.chunkDone_checksum s.par (d := d') hlast (hcrc ▸ hbad)))
      (Ctx.absorb_raised_emit hinq1 _ _ _)⟩
  case natural =>
    have hgood : lzw2 = true ∨ d'.chunkCrc s.par lzw2 = d.crcWant := by
      rw [hcrc]
      refine hgood.imp_left fun h1 => ?_
      cases lzw2 <;> simp_all
    have hengine : c.engine ≠ 2 := by cases lzw2 <;> simp [heng]
    exact ⟨_, hfeed (hr.trans (NufxDec.chunkDone_end s.par lzw2 (d := d') hlast hgood))
      ((Ctx.absorb_returned_emit hinq1 _ _).trans (Ctx.procReturned_expand hdir hengine hinq)), rfl⟩

end Sys2Proof.Machine
end

section
/-! PROOFS. A token event (log entry 3): the decoded token runs, and items that are no token end the input. -/

namespace Sys2Proof.Machine

open Sys2Proof

/-! ### The bytes among the items (R265) -/

/-- The bytes of one item. -/
def itemByte (it : Item) : List Byte :=
  match it with
  | .byte b => [b]
  | .bit _ => []

theorem Ctx.itemBytes_eq (items : List Item) : itemBytes items = items.flatMap itemByte := by
  induction items with
  | nil => rfl
  | cons it items ih =>
    rw [List.flatMap_cons, ← ih]
    cases it <;> rfl

/-- Bytes that can be taken are the first bytes among the items. -/
theorem takeBytes_ok {items r : List Item} {n : Nat} {bs : List Byte} (h : takeBytes false n items = .ok (bs, r)) :
    Ctx.itemBytes items = bs ++ Ctx.itemBytes r ∧ bs.length = n := by
  induction items generalizing n bs with
  | nil =>
    cases n with
    | zero => simp_all [takeBytes]
    | succ n => cases h
  | cons it items ih =>
    cases n with
    | zero => simp_all [takeBytes]
    | succ n =>
      cases it with
      | bit =>
        simp only [takeBytes] at h
        split at h <;> cases h
        next hrest => exact ih hrest
      | byte =>
        simp only [takeBytes] at h
        split at h <;> cases h
        next hrest =>
        obtain ⟨hbytes, hlen⟩ := ih hrest
        exact ⟨congrArg (List.cons _) hbytes, congrArg (· + 1) hlen⟩

/-- Bytes cannot be taken only where there are too few of them. -/
theorem takeBytes_error {items : List Item} {n : Nat} {e : DecodeError} (h : takeBytes false n items = .error e) :
    (Ctx.itemBytes items).length < n := by
  induction items generalizing n with
  | nil =>
    cases n with
    | zero => cases h
    | succ n => exact Nat.zero_lt_succ n
  | cons it items ih =>
    cases n with
    | zero => cases h
    | succ n =>
      cases it with
      | bit =>
        simp only [takeBytes] at h
        split at h <;> cases h
        next hrest => exact ih hrest
      | byte =>
        simp only [takeBytes] at h
        split at h <;> cases h
        next hrest => exact Nat.succ_lt_succ (ih hrest)

/-- A name without its end has no byte 0. -/
theorem takeName_error {items : List Item} {e : DecodeError} (h : takeName items = .error e) :
    ∀ b ∈ Ctx.itemBytes items, b ≠ 0 := by
  induction items with
  | nil => exact fun b hb => absurd hb List.not_mem_nil
  | cons it items ih =>
    cases it with
    | bit => exact ih h
    | byte b0 =>
      simp only [takeName] at h
      split at h
      · cases h
      · next hb0 =>
        split at h <;> cases h
        next hrest =>
        intro b hb
        rcases List.mem_cons.mp hb with rfl | hb
        · exact hb0
        · exact ih hrest b hb

/-- Bytes that are there can be taken. -/
theorem takeBytes_of_le {items : List Item} {n : Nat} (h : n ≤ (Ctx.itemBytes items).length) :
    ∃ bs r, takeBytes false n items = .ok (bs, r) ∧ bs.length = n ∧
      Ctx.itemBytes items = bs ++ Ctx.itemBytes r := by
  cases htake : takeBytes false n items with
  | error => exact absurd (takeBytes_error htake) (Nat.not_lt.mpr h)
  | ok q => exact ⟨q.1, q.2, rfl, (takeBytes_ok htake).2, (takeBytes_ok htake).1⟩

/-! ### Headers that are cut short (R171 to R181) -/

/-- The size of a token that is always as many bytes. -/
def tokenSize? : ReadPoint → Option Nat
  | .nufx1Hdr | .sqNode => some 4
  | .nufx1Chunk => some 3
  | .nufx2Hdr | .sqCount => some 2
  | _ => none

/-- A token of a fixed size is cut short only where there are too few bytes. -/
theorem decode_sized_error {p : ReadPoint} {n : Nat} {items : List Item} {e : DecodeError} (hp : tokenSize? p = some n)
    (h : decode p items = .error e) : (Ctx.itemBytes items).length < n := by
  refine Nat.lt_of_not_le fun hle => ?_
  obtain ⟨bs, r, htake, hlen, -⟩ := takeBytes_of_le hle
  unfold tokenSize? at hp
  split at hp <;> cases hp
  case h_1 | h_2 =>
    obtain ⟨b0, b1, b2, b3, rfl⟩ := List.length_eq_four.mp hlen
    simp [decode, htake] at h
  case h_3 =>
    obtain ⟨b0, b1, b2, rfl⟩ := List.length_eq_three.mp hlen
    simp [decode, htake] at h
  case h_4 | h_5 =>
    obtain ⟨b0, b1, rfl⟩ := List.length_eq_two.mp hlen
    simp [decode, htake] at h

/-- An LZW/2 chunk word is cut short before its end, or before the end of the CLEN it announces. -/
theorem decodeNufx2Chunk_error {items : List Item} {e : DecodeError} (h : decodeNufx2Chunk items = .error e) :
    (Ctx.itemBytes items).length < 2 ∨
    ∃ b0 b1 more, Ctx.itemBytes items = b0 :: b1 :: more ∧ chunkUseLzw (u16le b0 b1) = true ∧
      more.length < 2 := by
  refine (Nat.lt_or_ge _ _).imp_right fun hle => ?_
  obtain ⟨bs, r, htake, hlen, hbytes⟩ := takeBytes_of_le hle
  obtain ⟨b0, b1, rfl⟩ := List.length_eq_two.mp hlen
  refine ⟨b0, b1, Ctx.itemBytes r, hbytes, ?_⟩
  by_cases hlzw : chunkUseLzw (u16le b0 b1) = true
  · refine ⟨hlzw, Nat.lt_of_not_le fun hle => ?_⟩
    obtain ⟨cs, r', htake', hlen', -⟩ := takeBytes_of_le hle
    obtain ⟨c0, c1, rfl⟩ := List.length_eq_two.mp hlen'
    simp [decodeNufx2Chunk, htake, hlzw, htake'] at h
  · simp [decodeNufx2Chunk, htake, hlzw] at h

/-- A Squeeze header is cut short inside its magic, before its name or inside it. -/
theorem decodeSqHdr_error {items : List Item} {e : DecodeError} (h : decodeSqHdr items = .error e) :
    (Ctx.itemBytes items).length < 2 ∨
    ∃ more, Ctx.itemBytes items = 0x76 :: 0xFF :: more ∧
      (more.length < 2 ∨ ∃ s0 s1 name, more = s0 :: s1 :: name ∧ ∀ b ∈ name, b ≠ 0) := by
  refine (Nat.lt_or_ge _ _).imp_right fun hle => ?_
  obtain ⟨bs, r, htake, hlen, hbytes⟩ := takeBytes_of_le hle
  obtain ⟨m0, m1, rfl⟩ := List.length_eq_two.mp hlen
  by_cases hmagic : m0 = 0x76 ∧ m1 = 0xFF
  · obtain ⟨rfl, rfl⟩ := hmagic
    refine ⟨Ctx.itemBytes r, hbytes, (Nat.lt_or_ge _ _).imp_right fun hle => ?_⟩
    obtain ⟨cs, r', htake', hlen', hbytes'⟩ := takeBytes_of_le hle
    obtain ⟨s0, s1, rfl⟩ := List.length_eq_two.mp hlen'
    refine ⟨s0, s1, Ctx.itemBytes r', hbytes', ?_⟩
    cases hname : takeName r' with
    | error => exact takeName_error hname
    | ok => simp [decodeSqHdr, htake, htake', hname] at h
  · simp only [decodeSqHdr, htake, hmagic, if_false] at h
    cases h

/-! ### A procedure that takes the bytes and then meets the end of its input (R124) -/

section
variable {σ : Type} {p : Proc σ} {s s' : σ} {b : Byte} {bs : List Byte} {err : Err}

/-- The procedure takes the bytes, then it meets the end of its input. -/
def Proc.cut (p : Proc σ) (bs : List Byte) (s : σ) : Run σ := (p.feed bs s).1.andThen p.eof

theorem Proc.cut_nil (s : σ) : p.cut [] s = p.eof s := by
  rw [Proc.cut, Proc.feed, Run.andThen_running _ rfl]
  rfl

theorem Proc.cut_cons_go (h : p.byte s b = .go s') : p.cut (b :: bs) s = p.cut bs s' := by
  simp [Proc.cut, Proc.feed, h, Run.go]

theorem Proc.cut_cons_fail (h : p.byte s b = .fail s' err) : p.cut (b :: bs) s = .fail s' err := by
  rw [Proc.cut, Proc.feed, h]
  exact Run.andThen_stopped _ (by simp [Run.fail])

/-- A procedure that waits for `n` bytes (`P got` says which have come) and gets fewer. -/
theorem Proc.cut_short {P : List Byte → σ → Prop} {n : Nat}
    (hbyte : ∀ got s b, P got s → got.length + 1 < n → ∃ s', p.byte s b = .go s' ∧ P (got ++ [b]) s')
    (heof : ∀ got s, P got s → p.eof s = .fail s err) :
    ∀ (bs got : List Byte) (s : σ), P got s → got.length + bs.length < n → ∃ s', p.cut bs s = .fail s' err
  | [], got, s, h, _ => ⟨s, (Proc.cut_nil s).trans (heof got s h)⟩
  | b :: bs, got, s, h, hlen => by
    rw [List.length_cons] at hlen
    obtain ⟨s1, hgo, h1⟩ := hbyte got s b h (by omega)
    rw [Proc.cut_cons_go hgo]
    exact Proc.cut_short hbyte heof bs (got ++ [b]) s1 h1
      (by simp only [List.length_append, List.length_singleton]; omega)

end

/-! ### NuFX headers that are cut short (R345, R346) -/

namespace NufxDec
variable {par : Params} {lzw2 : Bool} {d : NufxDec} {bs : List Byte}

/-- The decoder waits for the rest of the stream header. -/
theorem hdrBytes_short {got : List Byte} (hgot : got ≠ []) (hlen : got.length < if lzw2 then 2 else 4) :
    ∃ d', d.hdrBytes par lzw2 got = .go d' ∧ d'.pc = .hdr got := by
  unfold hdrBytes
  split
  case h_4 => exact absurd hlen (by simp)
  case h_5 => exact absurd hlen (by simp)
  all_goals exact ⟨_, rfl, rfl⟩

theorem cut_hdr (hpc : d.pc = .hdr []) (hlen : bs.length < if lzw2 then 2 else 4) :
    ∃ d', (nufxDecProc par lzw2).cut bs d = .fail d' .truncated := by
  refine Proc.cut_short (P := fun got d => d.pc = .hdr got) (fun got d b h hlen => ?_)
    (fun got d h => eof_hdr h) bs [] d hpc (by simpa using hlen)
  simp only [nufxDecProc, byte, h]
  exact hdrBytes_short (by simp) (by simpa using hlen)

/-- The decoder waits for the rest of the chunk header or word. -/
theorem chunkHdrBytes_short {got : List Byte} (hlen : got.length < if lzw2 then 2 else 3) :
    ∃ d', d.chunkHdrBytes par lzw2 got = .go d' ∧ d'.pc = .chunkHdr got := by
  unfold chunkHdrBytes
  split
  case h_1 => exact absurd hlen (by simp)
  case h_2 => exact absurd hlen (by simp)
  all_goals exact ⟨_, rfl, rfl⟩

theorem eof_of_pc (h : d.pc ≠ .done) : d.eof = .fail d .truncated := by
  unfold eof
  split
  · next hdone => exact absurd hdone h
  · rfl

theorem cut_chunkHdr (hpc : d.pc = .chunkHdr []) (hlen : bs.length < if lzw2 then 2 else 3) :
    ∃ d', (nufxDecProc par lzw2).cut bs d = .fail d' .truncated := by
  refine Proc.cut_short (P := fun got d => d.pc = .chunkHdr got) (fun got d b h hlen => ?_)
    (fun got d h => eof_of_pc (by simp [h])) bs [] d hpc (by simpa using hlen)
  simp only [nufxDecProc, byte, h]
  exact chunkHdrBytes_short (by simpa using hlen)

theorem cut_clen {w : Half} (hpc : d.pc = .clen w []) (hlen : bs.length < 2) :
    ∃ d', (nufxDecProc par lzw2).cut bs d = .fail d' .truncated := by
  refine Proc.cut_short (P := fun got d => d.pc = .clen w got) (n := 2) (fun got d b h hlen => ?_)
    (fun got d h => eof_of_pc (by simp [h])) bs [] d hpc (by simpa using hlen)
  obtain rfl : got = [] := List.length_eq_zero_iff.mp (by omega)
  simp only [nufxDecProc, byte, h]
  exact ⟨_, rfl, rfl⟩

/-- An LZW/2 chunk word that announces CLEN, and too few bytes of it. -/
theorem cut_chunkHdr2 {b0 b1 : Byte} (hpc : d.pc = .chunkHdr []) (hlzw : chunkUseLzw (u16le b0 b1) = true)
    (hlen : bs.length < 2) : ∃ d', (nufxDecProc par true).cut (b0 :: b1 :: bs) d = .fail d' .truncated := by
  have hfirst : (nufxDecProc par true).byte d b0 = .go { d with pc := .chunkHdr [b0] } := by
    simp [nufxDecProc, byte, hpc, chunkHdrBytes]
  have hsecond : (nufxDecProc par true).byte { d with pc := .chunkHdr [b0] } b1 =
      .go { d with rlelen := (chunkRlelen (u16le b0 b1)).toNat, useLzw := true, pc := .clen (u16le b0 b1) [] } := by
    simp [nufxDecProc, byte, chunkHdrBytes, hlzw]
  rw [Proc.cut_cons_go hfirst, Proc.cut_cons_go hsecond]
  exact cut_clen rfl hlen

/-- Where the items end inside a token of the stream, NuFX expand raises TRUNCATED. -/
theorem cut_truncated {p : ReadPoint} {items : List Item} (hpoint : Ctx.nufxPoint lzw2 d = some p)
    (hdec : decode p items = .error .truncated) :
    ∃ d', Ctx.cutNufx par lzw2 .stream items d = .fail d' .truncated := by
  have hcut (hpc : d.pc ≠ .code) :
      Ctx.cutNufx par lzw2 .stream items d = (nufxDecProc par lzw2).cut (Ctx.itemBytes items) d := if_neg hpc
  unfold Ctx.nufxPoint at hpoint
  split at hpoint
  case h_1 hpc =>
    rw [hcut (by simp [hpc])]
    refine cut_hdr hpc ?_
    cases lzw2 <;> cases hpoint <;> exact decode_sized_error rfl hdec
  case h_2 hpc =>
    rw [hcut (by simp [hpc])]
    cases lzw2 <;> cases hpoint
    case false => exact cut_chunkHdr hpc (decode_sized_error rfl hdec)
    case true =>
      rcases decodeNufx2Chunk_error hdec with hlen | ⟨b0, b1, more, hbytes, hlzw, hlen⟩
      · exact cut_chunkHdr hpc hlen
      · rw [hbytes]
        exact cut_chunkHdr2 hpc hlzw hlen
  case h_3 hpc => exact ⟨d, (if_pos hpc).trans (eof_of_pc (by simp [hpc]))⟩
  case h_4 => cases hpoint

end NufxDec

/-! ### Squeeze headers and node entries that are cut short (R540, R713) -/

namespace SqDec
variable {par : Params} {l : LCfg} {d : SqDec} {bs : List Byte} {b : Byte}

theorem eof_of_pc (h : d.pc ≠ .tail) (h' : d.pc ≠ .done) : d.eof = .fail d .truncated := by
  unfold eof
  split
  · next htail => exact absurd htail h
  · next hdone => exact absurd hdone h'
  · rfl

theorem cut_count (hpc : d.pc = .count []) (hlen : bs.length < 2) :
    ∃ d', (sqDecProc par l).cut bs d = .fail d' .truncated := by
  refine Proc.cut_short (P := fun got d => d.pc = .count got) (n := 2) (fun got d b h hlen => ?_)
    (fun got d h => eof_of_pc (by simp [h]) (by simp [h])) bs [] d hpc (by simpa using hlen)
  obtain rfl : got = [] := List.length_eq_zero_iff.mp (by omega)
  simp only [sqDecProc, byte, h]
  exact ⟨_, rfl, rfl⟩

theorem byte_hdr {got : List Byte} (hpc : d.pc = .hdr got) (b : Byte) :
    (sqDecProc par l).byte d b = d.hdrByte got b := by
  simp only [sqDecProc, byte, hpc]

theorem cut_end (h : d.pc ≠ .tail) (h' : d.pc ≠ .done) : (sqDecProc par l).cut [] d = .fail d .truncated :=
  (Proc.cut_nil d).trans (eof_of_pc h h')

/-- The header's name, as far as it has come, is discarded. -/
theorem cut_name {m0 m1 s0 s1 : Byte} {got : List Byte} (hpc : d.pc = .hdr (m0 :: m1 :: s0 :: s1 :: got)) :
    ∀ {name : List Byte}, (∀ b ∈ name, b ≠ 0) → (sqDecProc par l).cut name d = .fail d .truncated
  | [], _ => cut_end (by simp [hpc]) (by simp [hpc])
  | b :: name, hname => by
    have hgo : (sqDecProc par l).byte d b = .go d :=
      (byte_hdr hpc b).trans (if_neg (hname b List.mem_cons_self))
    rw [Proc.cut_cons_go hgo]
    exact cut_name hpc fun b hb => hname b (List.mem_cons_of_mem _ hb)

/-- What follows a good magic: the checksum and the name. -/
theorem cut_afterMagic {m0 m1 : Byte} (hpc : d.pc = .hdr [m0, m1])
    (hbs : bs.length < 2 ∨ ∃ s0 s1 name, bs = s0 :: s1 :: name ∧ ∀ b ∈ name, b ≠ 0) :
    ∃ d', (sqDecProc par l).cut bs d = .fail d' .truncated := by
  have hfirst (s0 : Byte) : (sqDecProc par l).byte d s0 = .go { d with pc := .hdr [m0, m1, s0] } := byte_hdr hpc s0
  rcases hbs with hlen | ⟨s0, s1, name, rfl, hname⟩
  · rcases bs with _ | ⟨s0, _ | ⟨s1, bs⟩⟩
    · exact ⟨d, cut_end (by simp [hpc]) (by simp [hpc])⟩
    · exact ⟨_, (Proc.cut_cons_go (hfirst s0)).trans (cut_end (by simp) (by simp))⟩
    · exact absurd hlen (by simp)
  · have hsecond : (sqDecProc par l).byte { d with pc := .hdr [m0, m1, s0] } s1 =
        .go { d with sumWant := u16le s0 s1, pc := .hdr [m0, m1, s0, s1] } := rfl
    rw [Proc.cut_cons_go (hfirst s0), Proc.cut_cons_go hsecond]
    exact ⟨_, cut_name rfl hname⟩

/-- A header whose first byte is wrong raises BAD_MAGIC. -/
theorem cut_hdr_badMagic (hpc : d.pc = .hdr []) (hbs : bs.headD 0x76 ≠ 0x76) :
    (sqDecProc par l).cut bs d = .fail d .badMagic := by
  cases bs with
  | nil => exact absurd rfl hbs
  | cons b bs => exact Proc.cut_cons_fail ((byte_hdr hpc b).trans (if_pos hbs))

/-- A header that is good as far as it has come, and cut short, raises TRUNCATED. -/
theorem cut_hdr_truncated (hpc : d.pc = .hdr []) (hhead : bs.headD 0x76 = 0x76)
    (hbs : bs.length < 2 ∨ ∃ more, bs = 0x76 :: 0xFF :: more ∧
      (more.length < 2 ∨ ∃ s0 s1 name, more = s0 :: s1 :: name ∧ ∀ b ∈ name, b ≠ 0)) :
    ∃ d', (sqDecProc par l).cut bs d = .fail d' .truncated := by
  have hfirst : (sqDecProc par l).byte d 0x76 = .go { d with pc := .hdr [0x76] } := byte_hdr hpc _
  rcases hbs with hlen | ⟨more, rfl, hmore⟩
  · rcases bs with _ | ⟨m0, _ | ⟨m1, bs⟩⟩
    · exact ⟨d, cut_end (by simp [hpc]) (by simp [hpc])⟩
    · obtain rfl : m0 = 0x76 := hhead
      exact ⟨_, (Proc.cut_cons_go hfirst).trans (cut_end (by simp) (by simp))⟩
    · exact absurd hlen (by simp)
  · have hsecond : (sqDecProc par l).byte { d with pc := .hdr [0x76] } 0xFF =
        .go { d with pc := .hdr [0x76, 0xFF] } := rfl
    rw [Proc.cut_cons_go hfirst, Proc.cut_cons_go hsecond]
    exact cut_afterMagic rfl hmore

theorem byte_node {i : Nat} {got : List Byte} (hpc : d.pc = .node i got) (b : Byte) :
    (sqDecProc par l).byte d b = d.nodeByte l i got b := by
  simp only [sqDecProc, byte, hpc]

/-- A node entry that is cut short before its first reference is complete. -/
theorem cut_node_start {i : Nat} (hpc : d.pc = .node i []) (hlen : bs.length < 2) :
    ∃ d', (sqDecProc par l).cut bs d = .fail d' .truncated := by
  refine Proc.cut_short (P := fun got d => d.pc = .node i got) (n := 2) (fun got d b h hlen => ?_)
    (fun got d h => eof_of_pc (by simp [h]) (by simp [h])) bs [] d hpc (by simpa using hlen)
  obtain rfl : got = [] := List.length_eq_zero_iff.mp (by omega)
  exact ⟨_, byte_node h b, rfl⟩

/-- A first reference out of range raises BAD_TREE. -/
theorem cut_node_badTree {i : Nat} {l0 l1 : Byte} (hpc : d.pc = .node i []) (href : d.refOk (u16le l0 l1) = false) :
    ∃ d', (sqDecProc par l).cut (l0 :: l1 :: bs) d = .fail d' .badTree := by
  let d1 : SqDec := { d with pc := .node i [l0] }
  have hfirst : (sqDecProc par l).byte d l0 = .go d1 := byte_node hpc l0
  have hbad : d1.setRef i 0 (u16le l0 l1) = .fail d1 .badTree :=
    if_neg (show ¬ d.refOk (u16le l0 l1) = true by simp [href])
  have hsecond : (sqDecProc par l).byte d1 l1 = .fail d1 .badTree := by
    rw [byte_node rfl, nodeByte, hbad]
    rfl
  exact ⟨d1, (Proc.cut_cons_go hfirst).trans (Proc.cut_cons_fail hsecond)⟩

/-- A first reference in range, and no complete second one. -/
theorem cut_node_truncated {i : Nat} {l0 l1 : Byte} (hpc : d.pc = .node i []) (href : d.refOk (u16le l0 l1) = true)
    (hlen : bs.length < 2) : ∃ d', (sqDecProc par l).cut (l0 :: l1 :: bs) d = .fail d' .truncated := by
  let d1 : SqDec := { d with pc := .node i [l0] }
  let d2 : SqDec := { d1 with dnode := Tab.put 0 d.dnode (2 * i + 0) (s16 (u16le l0 l1)) }
  have hfirst : (sqDecProc par l).byte d l0 = .go d1 := byte_node hpc l0
  have hok : d1.setRef i 0 (u16le l0 l1) = .go d2 := if_pos href
  have hsecond : (sqDecProc par l).byte d1 l1 = .go { d2 with pc := .node i [l0, l1] } := by
    rw [byte_node rfl, nodeByte, hok]
    rfl
  rw [Proc.cut_cons_go hfirst, Proc.cut_cons_go hsecond]
  rcases bs with _ | ⟨r0, _ | ⟨r1, bs⟩⟩
  · exact ⟨_, cut_end (by simp) (by simp)⟩
  · have hthird : (sqDecProc par l).byte { d2 with pc := .node i [l0, l1] } r0 =
        .go { d2 with pc := .node i [l0, l1, r0] } := rfl
    exact ⟨_, (Proc.cut_cons_go hthird).trans (cut_end (by simp) (by simp))⟩
  · exact absurd hlen (by simp)

/-- A reference is in range (R543). -/
theorem refOk_iff (d : SqDec) (r : Half) :
    d.refOk r = true ↔ (-257 ≤ r.toInt ∧ r.toInt ≤ -1) ∨ (0 ≤ r.toInt ∧ r.toInt < d.numnodes) := by
  simp only [refOk, Bool.or_eq_true, Bool.and_eq_true, decide_eq_true_eq]
  exact Iff.rfl

/-- The read points of the Squeeze decoder, with its control points. -/
theorem sqPoint_cases {p : ReadPoint} (h : Ctx.sqPoint d = some p) :
    (d.pc = .hdr [] ∧ p = .sqHdr) ∨ (d.pc = .count [] ∧ p = .sqCount) ∨
    (∃ i, d.pc = .node i [] ∧ p = .sqNode) ∨ (d.pc = .data ∧ p = .sqCode d.dnode) := by
  unfold Ctx.sqPoint at h
  split at h
  · next hpc => exact .inl ⟨hpc, by simpa using h.symm⟩
  · next hpc => exact .inr (.inl ⟨hpc, by simpa using h.symm⟩)
  · next hpc => exact .inr (.inr (.inl ⟨_, hpc, by simpa using h.symm⟩))
  · next hpc =>
    split at h <;> cases h
    exact .inr (.inr (.inr ⟨hpc, rfl⟩))
  · cases h

section
variable {p : ReadPoint} {items : List Item} (hpoint : Ctx.sqPoint d = some p)
  (hdec : decode p items = .error .truncated)
include hpoint hdec

/-- Items that end inside a token other than a header or a node entry. -/
theorem cutSq_other (hhdr : p ≠ .sqHdr) (hnode : p ≠ .sqNode) :
    ∃ d', Ctx.cutSq par l .stream items d = .fail d' .truncated := by
  rcases sqPoint_cases hpoint with ⟨-, hp⟩ | ⟨hpc, rfl⟩ | ⟨i, -, hp⟩ | ⟨hpc, -⟩
  · exact absurd hp hhdr
  · obtain ⟨d', hd'⟩ := cut_count (par := par) (l := l) hpc (decode_sized_error rfl hdec)
    exact ⟨d', (if_neg (by simp [hpc])).trans hd'⟩
  · exact absurd hp hnode
  · exact ⟨d, (if_pos hpc).trans (eof_of_pc (by simp [hpc]) (by simp [hpc]))⟩

/-- Items that end inside a header: its first byte may be wrong already. -/
theorem cutSq_hdr (hp : p = .sqHdr) :
    ((Ctx.itemBytes items).headD 0x76 = 0x76 → ∃ d', Ctx.cutSq par l .stream items d = .fail d' .truncated) ∧
    ((Ctx.itemBytes items).headD 0x76 ≠ 0x76 → ∃ d', Ctx.cutSq par l .stream items d = .fail d' .badMagic) := by
  subst hp
  have hpc : d.pc = .hdr [] := by simpa using sqPoint_cases hpoint
  have hcut : Ctx.cutSq par l .stream items d = (sqDecProc par l).cut (Ctx.itemBytes items) d := if_neg (by simp [hpc])
  rw [hcut]
  exact ⟨fun h => cut_hdr_truncated hpc h (decodeSqHdr_error hdec), fun h => ⟨d, cut_hdr_badMagic hpc h⟩⟩

/-- Items that end inside a node entry: its first reference may be out of range already. -/
theorem cutSq_node (hp : p = .sqNode) :
    ((Ctx.itemBytes items).length < 2 → ∃ d', Ctx.cutSq par l .stream items d = .fail d' .truncated) ∧
    ∀ l0 l1 more, Ctx.itemBytes items = l0 :: l1 :: more →
      (d.refOk (u16le l0 l1) = true → ∃ d', Ctx.cutSq par l .stream items d = .fail d' .truncated) ∧
      (d.refOk (u16le l0 l1) = false → ∃ d', Ctx.cutSq par l .stream items d = .fail d' .badTree) := by
  subst hp
  obtain ⟨i, hpc⟩ : ∃ i, d.pc = .node i [] := by simpa using sqPoint_cases hpoint
  have hcut : Ctx.cutSq par l .stream items d = (sqDecProc par l).cut (Ctx.itemBytes items) d := if_neg (by simp [hpc])
  have hlen : (Ctx.itemBytes items).length < 4 := decode_sized_error rfl hdec
  rw [hcut]
  refine ⟨cut_node_start hpc, fun l0 l1 more hbytes => ?_⟩
  rw [hbytes] at hlen ⊢
  exact ⟨fun h => cut_node_truncated hpc h (by simp only [List.length_cons] at hlen; omega),
    fun h => cut_node_badTree hpc h⟩

end

end SqDec

/-! ### What the open procedure does where the items end inside a token (R266) -/

namespace Ctx
variable {par : Params} {c : Ctx} {p : ReadPoint} {items : List Item} {sp : Space}

theorem tokenError_nufx {lzw2 : Bool} (heng : c.engine = if lzw2 then 1 else 0) :
    c.tokenError par sp items .truncated =
      (cutNufx par lzw2 sp items c.eng.nufxDec).map (fun x => { c.eng with nufxDec := x }) := by
  cases lzw2 <;> simp [tokenError, heng]

theorem tokenError_lzc (heng : c.engine = 2) :
    c.tokenError par sp items .truncated = c.eng.lzcDec.eof.map (fun x => { c.eng with lzcDec := x }) := by
  simp [tokenError, heng]

theorem tokenError_sq (heng : c.engine = 3) :
    c.tokenError par sp items .truncated =
      (cutSq par c.lcfg sp items c.eng.sqDec).map (fun x => { c.eng with sqDec := x }) := by
  simp [tokenError, heng]

theorem tokenError_zx (heng : c.engine = 4) :
    c.tokenError par sp items .truncated =
      (cutZx items.isEmpty c.eng.zxDec).map (fun x => { c.eng with zxDec := x }) := by
  simp [tokenError, heng]

/-- The read point in the stream is that of the open engine. -/
theorem streamPoint_cases (h : c.streamPoint = some p) :
    (∃ lzw2 : Bool, c.engine = (if lzw2 then 1 else 0) ∧ nufxPoint lzw2 c.eng.nufxDec = some p) ∨
    (c.engine = 2 ∧ lzcPoint c.eng.lzcDec = some p) ∨ (c.engine = 3 ∧ sqPoint c.eng.sqDec = some p) ∨
    (c.engine = 4 ∧ zxPoint c.lcfg c.eng.zxDec = some p) := by
  have heng {n : Nat} (h : c.engine.toNat = n) : c.engine = BitVec.ofNat 3 n := by simp [← h]
  unfold streamPoint at h
  split at h
  · next hn => exact .inl ⟨false, heng hn, h⟩
  · next hn => exact .inl ⟨true, heng hn, h⟩
  · next hn => exact .inr (.inl ⟨heng hn, h⟩)
  · next hn => exact .inr (.inr (.inl ⟨heng hn, h⟩))
  · next hn => exact .inr (.inr (.inr ⟨heng hn, h⟩))
  · cases h

/-- Only the Squeeze decoder reads Squeeze headers and node entries. -/
theorem streamPoint_notSq (h : c.streamPoint = some p) (heng : c.engine ≠ 3) : p ≠ .sqHdr ∧ p ≠ .sqNode := by
  rcases streamPoint_cases h with ⟨lzw2, -, h⟩ | ⟨-, h⟩ | ⟨hsq, -⟩ | ⟨-, h⟩
  · unfold nufxPoint at h
    cases lzw2 <;> split at h <;> simp at h <;> simp [← h]
  · unfold lzcPoint at h
    split at h <;> simp at h <;> simp [← h]
  · exact absurd hsq heng
  · unfold zxPoint at h
    split at h <;> simp at h <;> simp [← h]

theorem readPoint_stream {n : Nat} (h : c.readPoint par .stream n = some p) : c.streamPoint = some p := by
  simp only [readPoint, Option.ite_none_right_eq_some, Option.ite_none_left_eq_some] at h
  exact h.2.2

theorem readPoint_rle {n : Nat} (h : c.readPoint par .rle n = some p) : c.rlePoint par = some p := by
  simp only [readPoint, Option.ite_none_right_eq_some, Option.ite_none_left_eq_some] at h
  exact h.2.2

/-- The LZC decoder awaits a code or a group. -/
theorem readPoint_lzc {n : Nat} (h : c.readPoint par sp n = some p) (heng : c.engine = 2) (hp : p ≠ .lzcHdr) :
    ∃ ph, c.eng.lzcDec.pc = .fetch ph ∧ c.eng.lzcDec.grp = [] := by
  cases sp with
  | stream =>
    have hpoint : lzcPoint c.eng.lzcDec = some p := by simpa [streamPoint, heng] using readPoint_stream h
    unfold lzcPoint at hpoint
    split at hpoint
    · exact absurd (Option.some.inj hpoint).symm hp
    · next ph hpc =>
      split at hpoint <;> cases hpoint
      next hgrp => exact ⟨ph, hpc, hgrp⟩
    · cases hpoint
  | group =>
    have hgroup : c.eng.lzcDec.groupPhase?.isSome = true := by
      by_contra hnone
      simp [readPoint, hnone] at h
    unfold LzcDec.groupPhase? at hgroup
    split at hgroup
    · next ph hpc =>
      split at hgroup
      · next hgrp => exact ⟨ph, hpc, hgrp⟩
      · cases hgroup
    · cases hgroup
  | rle => simpa [rlePoint, heng] using readPoint_rle h
  | pad => simp [readPoint, heng] at h

/-- Where the items end inside a token of the stream, an engine other than Squeeze raises TRUNCATED; LZC does so in its
header only. -/
theorem tokenError_notSq (hpoint : c.streamPoint = some p) (hdec : decode p items = .error .truncated)
    (hitems : items ≠ []) (heng : c.engine ≠ 3) (hlzc : c.engine ≠ 2 ∨ p = .lzcHdr) :
    ∃ e, c.tokenError par .stream items .truncated = .fail e .truncated := by
  rcases streamPoint_cases hpoint with ⟨lzw2, hnufx, h⟩ | ⟨h2, h⟩ | ⟨hsq, -⟩ | ⟨hzx, -⟩
  · obtain ⟨d', hd'⟩ := NufxDec.cut_truncated (par := par) h hdec
    exact ⟨_, by rw [tokenError_nufx hnufx, hd', Run.map_fail]⟩
  · obtain rfl : p = .lzcHdr := hlzc.resolve_left (fun h => h h2)
    have hpc : c.eng.lzcDec.pc = .hdr [] := by
      unfold lzcPoint at h
      split at h
      · assumption
      · split at h <;> cases h
      · cases h
    exact ⟨_, by rw [tokenError_lzc h2, LzcDec.eof_hdr hpc, Run.map_fail]⟩
  · exact absurd hsq heng
  · have hcut : cutZx items.isEmpty c.eng.zxDec = .fail c.eng.zxDec .truncated := if_neg (by simp [hitems])
    exact ⟨_, by rw [tokenError_zx hzx, hcut, Run.map_fail]⟩

/-- Stage-1 data or symbols that end inside an RLE token. -/
theorem tokenError_rle (hpoint : c.rlePoint par = some p) (hitems : items ≠ []) :
    c.tokenError par .rle items .truncated = .fail c.eng .rleTruncated := by
  have hempty : items.isEmpty = false := by simpa using hitems
  unfold rlePoint at hpoint
  split at hpoint
  · next heng => simp [tokenError, heng, cutNufx, hempty]
  · next heng => simp [tokenError, heng, cutNufx, hempty]
  · next heng => simp [tokenError, heng, cutSq, hempty]
  · cases hpoint

end Ctx

/-! ### The step (log entry 3) -/

section
variable {s : State} {sp : Space} {items : List Item} {rest : List Event} {c : Ctx} {p : ReadPoint}
  (hbus : s.bus = .token sp items :: rest) (hc : s.cur = some c) (hpoint : c.readPoint s.par sp items.length = some p)
include hbus hc hpoint

/-- Items that decode: the token runs, and the procedure goes on. -/
theorem step_token_ok {i : Instr} {rem : List Item} (hdec : decode p items = .ok (i, rem)) :
    step s = outThen (exec i { s with bus := if rem = [] then rest else .token sp rem :: rest }) (resumeToken sp) := by
  have hc : s.ctxs[s.sel]? = some c := hc
  simp only [step, hbus, stepToken, hc, hpoint, hdec]

/-- Items that are no token: the open procedure meets their end, or the value out of range. -/
theorem step_token_error {e : DecodeError} (hdec : decode p items = .error e) :
    step s = { s with bus := rest }.onCtx (fun c => c.tokenRun s.par s.free (c.tokenError s.par sp items e)) := by
  have hc : s.ctxs[s.sel]? = some c := hc
  simp only [step, hbus, stepToken, hc, hpoint, hdec]

/-- Items that are no token, where the procedure raises. -/
theorem step_token_raises {e : DecodeError} {eng : Engines} {err : Err} (hdec : decode p items = .error e)
    (herr : c.tokenError s.par sp items e = .fail eng err) :
    step s = .next ({ s with bus := rest }.setCur ({ c with eng := eng }.raise err)) := by
  rw [step_token_error hbus hc hpoint hdec]
  refine State.onCtx_setCur hc ?_
  rw [herr]
  exact Ctx.tokenRun_fail (Ctx.readPoint_active hpoint).1 eng err

/-- A partial last code of LZC is dropped (R442). -/
theorem step_token_dropped (hdec : decode p items = .error .truncated) (heng : c.engine = 2) (hp : p ≠ .lzcHdr)
    (hroom : hasRoom s.par c.outq.length = true) :
    step s = .next ({ s with bus := rest }.setCur
      { c with eng := { c.eng with lzcDec := { c.eng.lzcDec with pc := .done } } }) := by
  obtain ⟨ph, hpc, hgrp⟩ := Ctx.readPoint_lzc hpoint heng hp
  have heof : c.eng.lzcDec.eof = .ret { c.eng.lzcDec with pc := .done } := by simp [LzcDec.eof, hpc, hgrp]
  have habsorb (e : Engines) : c.absorb (.ret e) c.inq = { c with eng := e } := by
    simp [Run.ret, Ctx.absorb_returned, Ctx.procReturned, heng]
  rw [step_token_error hbus hc hpoint hdec]
  refine State.onCtx_setCur hc ?_
  rw [Ctx.tokenError_lzc heng, heof, Run.map_ret, Ctx.tokenRun, habsorb]
  exact Ctx.commit_of_room hroom

end

/-- Settles O7: the outcomes of the decoder are those of the step. -/
theorem stepRunsTheDecodedToken : Obligations.StepRunsTheDecodedToken := by
  intro s sp items rest c p hbus hc hpoint
  refine ⟨fun i rem hdec => ?ok, fun hdec => ?badElias, fun hdec hitems => ⟨fun hsp hlzc => ?stream, fun hsp => ?rle,
    fun heng hp hroom => step_token_dropped hbus hc hpoint hdec heng hp hroom⟩⟩
  case ok =>
    intro r
    have hstep : step s = outThen r (resumeToken sp) := step_token_ok hbus hc hpoint hdec
    refine ⟨fun f hr => by rw [hstep, hr]; rfl, fun f hr => by rw [hstep, hr]; rfl, fun t hr => ?_⟩
    rw [hstep, hr]
    exact ⟨fun hsp => by rcases hsp with rfl | rfl <;> rfl, fun hsp => by rcases hsp with rfl | rfl <;> rfl⟩
  case badElias => exact step_token_raises hbus hc hpoint hdec rfl
  case stream =>
    subst hsp
    intro bytes raises ok
    have hbytes : Ctx.itemBytes items = bytes := Ctx.itemBytes_eq items
    have hstream : c.streamPoint = some p := Ctx.readPoint_stream hpoint
    have hraises {err : Err} (h : ∃ e, c.tokenError s.par .stream items .truncated = .fail e err) : raises err := by
      obtain ⟨e, he⟩ := h
      exact ⟨e, step_token_raises hbus hc hpoint hdec he⟩
    by_cases heng : c.engine = 3
    case neg =>
      obtain ⟨hhdr, hnode⟩ := Ctx.streamPoint_notSq hstream heng
      exact ⟨fun _ _ => hraises (Ctx.tokenError_notSq hstream hdec hitems heng hlzc), fun h => absurd h hhdr,
        fun h => absurd h hnode⟩
    case pos =>
      have hpoint : Ctx.sqPoint c.eng.sqDec = some p := by simpa [Ctx.streamPoint, heng] using hstream
      have hsq {err : Err} (h : ∃ d', Ctx.cutSq s.par c.lcfg .stream items c.eng.sqDec = .fail d' err) :
          raises err := by
        obtain ⟨d', hd'⟩ := h
        exact hraises ⟨_, by rw [Ctx.tokenError_sq heng, hd', Run.map_fail]⟩
      refine ⟨fun hhdr hnode => hsq (SqDec.cutSq_other hpoint hdec hhdr hnode), fun hp => ?hdr, fun hp => ?node⟩
      case hdr =>
        obtain ⟨hgood, hbad⟩ := SqDec.cutSq_hdr (par := s.par) (l := c.lcfg) hpoint hdec hp
        rw [hbytes] at hgood hbad
        exact ⟨fun h => hsq (hgood h), fun h => hsq (hbad h)⟩
      case node =>
        obtain ⟨hshort, href⟩ := SqDec.cutSq_node (par := s.par) (l := c.lcfg) hpoint hdec hp
        rw [hbytes] at hshort href
        refine ⟨fun h => hsq (hshort h), fun l0 l1 more h => ?_⟩
        obtain ⟨hin, hout⟩ := href l0 l1 more h
        exact ⟨fun hok => hsq (hin ((SqDec.refOk_iff _ _).mpr hok)),
          fun hok => hsq (hout (Bool.eq_false_iff.mpr fun hin => hok ((SqDec.refOk_iff _ _).mp hin)))⟩
  case rle =>
    subst hsp
    exact step_token_raises hbus hc hpoint hdec (Ctx.tokenError_rle (Ctx.readPoint_rle hpoint) hitems)

end Sys2Proof.Machine
end

section
/-! PROOFS. The bit writers: the LSB-first writer (R262, R263): the bits given to `putBits` are those of the bytes it has filled up,
followed by those ACC still holds. -/

namespace Sys2Proof

/-! ### The bits of a value, extended upwards -/

/-- The bit put above the `n` bits of a value comes after them. -/
theorem bitsOf_add_bit {v n : Nat} (h : v < 2 ^ n) (b : Bool) :
    bitsOf (v + 2 ^ n * b.toNat) (n + 1) = bitsOf v n ++ [b] := by
  induction n generalizing v with
  | zero =>
    obtain rfl : v = 0 := by simpa using h
    cases b <;> rfl
  | succ n ih =>
    have hmul : 2 ^ (n + 1) * b.toNat = 2 * (2 ^ n * b.toNat) := by rw [Nat.pow_succ', Nat.mul_assoc]
    have hmod : (v + 2 ^ (n + 1) * b.toNat) % 2 = v % 2 := by omega
    have hdiv : (v + 2 ^ (n + 1) * b.toNat) / 2 = v / 2 + 2 ^ n * b.toNat := by omega
    rw [bitsOf, hmod, hdiv, ih (by omega), bitsOf, List.cons_append]

theorem add_bit_lt {v n : Nat} (h : v < 2 ^ n) (b : Bool) : v + 2 ^ n * b.toNat < 2 ^ (n + 1) := by
  have hbit : 2 ^ n * b.toNat ≤ 2 ^ n * 1 := Nat.mul_le_mul_left _ (Bool.toNat_le b)
  omega

/-- The bits above a value are zeros. -/
theorem bitsOf_add_zeros {v n : Nat} (h : v < 2 ^ n) (k : Nat) :
    bitsOf v (n + k) = bitsOf v n ++ List.replicate k false := by
  induction k with
  | zero => simp
  | succ k ih =>
    have hlt : v < 2 ^ (n + k) := h.trans_le (Nat.pow_le_pow_right two_pos (Nat.le_add_right n k))
    have htop := bitsOf_add_bit hlt false
    rw [Bool.toNat_false, Nat.mul_zero, Nat.add_zero, ih] at htop
    rw [← Nat.add_assoc, htop, List.replicate_succ', List.append_assoc]

/-- The bits of a sequence of bytes, bit 0 of each byte first (R262). -/
def bytesBits (bytes : List Byte) : List Bool := bytes.flatMap fun b => bitsOf b.toNat 8

@[simp] theorem bytesBits_nil : bytesBits [] = [] := rfl

@[simp] theorem bytesBits_singleton (b : Byte) : bytesBits [b] = bitsOf b.toNat 8 := by simp [bytesBits]

@[simp] theorem bytesBits_append (xs ys : List Byte) : bytesBits (xs ++ ys) = bytesBits xs ++ bytesBits ys :=
  List.flatMap_append

namespace Machine.LsbWriter

variable {w : LsbWriter}

/-! ### What the writer holds -/

/-- Fewer than 8 bits are pending, and ACC is 0 above them. -/
structure WellKept (w : LsbWriter) : Prop where
  nacc_lt : w.nacc < 8
  acc_lt : w.acc.toNat < 2 ^ w.nacc

/-- The bits written that fill no byte yet. -/
def pending (w : LsbWriter) : List Bool := bitsOf w.acc.toNat w.nacc

/-- `r` is what writing `bs` to `w` gives: no bit is lost, added or moved, and DEST stands. -/
structure Writes (w : LsbWriter) (bs : List Bool) (r : LsbWriter × List Byte) : Prop where
  wellKept : r.1.WellKept
  bits : bytesBits r.2 ++ r.1.pending = w.pending ++ bs
  dest : r.1.dest = w.dest

/-- A writer that holds no bits is well kept, wherever its bytes go. -/
theorem wellKept_empty (dest : Dest) : ({ dest } : LsbWriter).WellKept := ⟨by simp, by simp⟩

@[simp] theorem pending_fresh : ({} : LsbWriter).pending = [] := rfl

/-! ### One bit, many bits, the flush -/

/-- The bit a round of `put_code` puts into ACC stands just above the pending ones (R262). -/
theorem toNat_or_bit (h : w.WellKept) (b : Bool) :
    (w.acc ||| (BitVec.ofNat 8 b.toNat <<< w.nacc)).toNat = w.acc.toNat + 2 ^ w.nacc * b.toNat := by
  have hle : 2 ^ (w.nacc + 1) ≤ 2 ^ 8 := Nat.pow_le_pow_right two_pos h.nacc_lt
  have hbit : 2 ^ w.nacc * b.toNat < 2 ^ 8 := by
    have hsum := add_bit_lt h.acc_lt b
    omega
  have hbyte : b.toNat < 2 ^ 8 := (Bool.toNat_lt b).trans (by decide)
  rw [BitVec.toNat_or, BitVec.toNat_shiftLeft, BitVec.toNat_ofNat, Nat.mod_eq_of_lt hbyte, Nat.shiftLeft_eq,
    Nat.mul_comm, Nat.mod_eq_of_lt hbit, Nat.or_comm, ← Nat.two_pow_add_eq_or_of_lt h.acc_lt, Nat.add_comm]

theorem putBit_writes (h : w.WellKept) (b : Bool) : w.Writes [b] (w.putBit b) := by
  have hacc := toNat_or_bit h b
  have hbits := bitsOf_add_bit h.acc_lt b
  rw [← hacc] at hbits
  by_cases hfull : w.nacc + 1 = 8
  case pos =>
    rw [putBit, if_pos hfull]
    refine ⟨wellKept_empty w.dest, ?_, rfl⟩
    rw [hfull] at hbits
    simpa [pending, bitsOf] using hbits
  case neg =>
    rw [putBit, if_neg hfull]
    have hlt : w.nacc + 1 < 8 := lt_of_le_of_ne h.nacc_lt hfull
    exact ⟨⟨hlt, hacc.trans_lt (add_bit_lt h.acc_lt b)⟩, by simpa [pending] using hbits, rfl⟩

theorem putBits_writes (h : w.WellKept) (bs : List Bool) : w.Writes bs (w.putBits bs) := by
  induction bs generalizing w with
  | nil => exact ⟨h, (List.append_nil _).symm, rfl⟩
  | cons b bs ih =>
    have hone := putBit_writes h b
    have hrest := ih hone.wellKept
    refine ⟨hrest.wellKept, ?_, hrest.dest.trans hone.dest⟩
    simp only [putBits, bytesBits_append, List.append_assoc, hrest.bits]
    rw [← List.append_assoc, hone.bits, List.append_assoc, List.singleton_append]

/-- A flush lays down the pending bits, filled up to a byte with zeros (R263). -/
theorem bytesBits_flush (h : w.WellKept) :
    ∃ pad < 8, bytesBits w.flush.2 = w.pending ++ List.replicate pad false := by
  by_cases hpos : 0 < w.nacc
  case pos =>
    have hzeros := bitsOf_add_zeros h.acc_lt (8 - w.nacc)
    rw [Nat.add_sub_cancel' h.nacc_lt.le] at hzeros
    exact ⟨8 - w.nacc, by omega, by simpa [flush, hpos, pending] using hzeros⟩
  case neg => exact ⟨0, by decide, by simp [flush, pending, Nat.eq_zero_of_not_pos hpos, bitsOf]⟩

end Machine.LsbWriter

namespace Machine

/-- Settles O58: the writer keeps the bits in order, and the flush lays down those left. -/
theorem packedBitsAreLaidDownInOrder : Obligations.PackedBitsAreLaidDownInOrder := by
  intro bs r
  have hwrites : ({} : LsbWriter).Writes bs r := LsbWriter.putBits_writes (LsbWriter.wellKept_empty .outq) bs
  obtain ⟨pad, hpad, hflush⟩ := LsbWriter.bytesBits_flush hwrites.wellKept
  refine ⟨pad, hpad, ?_, congrArg (LsbWriter.mk 0 0) hwrites.dest⟩
  calc bytesBits (r.2 ++ r.1.flush.2)
    _ = (bytesBits r.2 ++ r.1.pending) ++ List.replicate pad false := by
        rw [bytesBits_append, hflush, List.append_assoc]
    _ = bs ++ List.replicate pad false := by rw [hwrites.bits, LsbWriter.pending_fresh, List.nil_append]

end Machine

end Sys2Proof
end

section
/-! PROOFS. The NuFX stream tokens (R360 to R370): the class of a code and what each token rule does to the decoder,
then each token's effect on the state. -/

namespace Sys2Proof.Machine

open Sys2Proof

namespace NufxDec

variable {d : NufxDec} {code p : Nat}

/-! ### The class of a code (R340) -/

theorem classOf_clear (d : NufxDec) : d.classOf 0x100 = .clear := rfl

/-- With no previous code the table limit plays no part. -/
theorem classOf_first (hprev : d.prev = none) (hclear : code ≠ 0x100) :
    d.classOf code = if code < 0x100 then .lit else if code < d.f then .table else .invalid := by
  rw [classOf, nufxClass, if_neg hclear, hprev]; rfl

/-- After a previous code, while the table has room. -/
theorem classOf_next (hprev : d.prev = some p) (hroom : d.f ≤ 0xFFD) (hclear : code ≠ 0x100) :
    d.classOf code = if code < 0x100 then .lit else if code < d.f then .table else
      if code = d.f then .kwkwk else .invalid := by
  rw [classOf, nufxClass, if_neg hclear, hprev, Option.isSome_some, if_pos rfl, if_neg (Nat.not_lt.mpr hroom)]

/-- After a previous code, once the table is exhausted. -/
theorem classOf_full (hprev : d.prev = some p) (hfull : 0xFFD < d.f) (hclear : code ≠ 0x100) :
    d.classOf code = .invalid := by
  rw [classOf, nufxClass, if_neg hclear, hprev, Option.isSome_some, if_pos rfl, if_pos hfull]

theorem classOf_lit (hroom : d.prev = none ∨ d.f ≤ 0xFFD) (hcode : code < 0x100) : d.classOf code = .lit := by
  have hclear : code ≠ 0x100 := hcode.ne
  cases hprev : d.prev with
  | none => rw [classOf_first hprev hclear, if_pos hcode]
  | some p => rw [classOf_next hprev (hroom.resolve_left (by simp [hprev])) hclear, if_pos hcode]

theorem classOf_table (hroom : d.prev = none ∨ d.f ≤ 0xFFD) (hfirst : 0x101 ≤ code) (hcode : code < d.f) :
    d.classOf code = .table := by
  have hclear : code ≠ 0x100 := by omega
  have hlit : ¬code < 0x100 := by omega
  cases hprev : d.prev with
  | none => rw [classOf_first hprev hclear, if_neg hlit, if_pos hcode]
  | some p => rw [classOf_next hprev (hroom.resolve_left (by simp [hprev])) hclear, if_neg hlit, if_pos hcode]

theorem classOf_kwkwk (hprev : d.prev = some p) (hroom : d.f ≤ 0xFFD) (hfirst : 0x101 ≤ code) (hcode : code = d.f) :
    d.classOf code = .kwkwk := by
  rw [classOf_next hprev hroom (by omega), if_neg (by omega), if_neg (by omega), if_pos hcode]

/-- A first code that names no entry. -/
theorem classOf_invalid_first (hprev : d.prev = none) (hclear : code ≠ 0x100) (hlit : 0x100 ≤ code)
    (hcode : d.f ≤ code) : d.classOf code = .invalid := by
  rw [classOf_first hprev hclear, if_neg (by omega), if_neg (by omega)]

/-- A code above the entry that is about to be created. -/
theorem classOf_invalid_next (hprev : d.prev = some p) (hroom : d.f ≤ 0xFFD) (hclear : code ≠ 0x100)
    (hlit : 0x100 ≤ code) (hcode : d.f < code) : d.classOf code = .invalid := by
  rw [classOf_next hprev hroom hclear, if_neg (by omega), if_neg (by omega), if_neg (by omega)]

/-- The table limit is checked first (R364). -/
theorem invalidErr_tableFull (hprev : d.prev = some p) (hfull : 0xFFD < d.f) : d.invalidErr = .tableFull := by
  rw [invalidErr, hprev]; exact if_pos ⟨rfl, hfull⟩

theorem invalidErr_badCode (h : d.prev = none ∨ d.f ≤ 0xFFD) : d.invalidErr = .badCode := by
  refine if_neg fun ⟨hsome, hfull⟩ => ?_
  rcases h with hprev | hroom
  · simp [hprev] at hsome
  · exact Nat.not_lt.mpr hroom hfull

/-! ### The rules of the codes (R360 to R363) -/

theorem define_first (hprev : d.prev = none) (c : Byte) : d.define c = d := by
  rw [define, hprev]

theorem define_next (hprev : d.prev = some p) (c : Byte) : d.define c = d.addEntry p c := by
  rw [define, hprev]

theorem lit_first (hprev : d.prev = none) (k : Byte) : d.lit k = d.append [k] k.toNat := by
  rw [lit, define_first hprev]

theorem lit_next (hprev : d.prev = some p) (k : Byte) : d.lit k = (d.addEntry p k).append [k] k.toNat := by
  rw [lit, define_next hprev]

theorem table_first (hprev : d.prev = none) (k : Nat) : d.table k = d.append (d.string k) k := by
  rw [table, define_first hprev]

theorem table_next (hprev : d.prev = some p) (k : Nat) :
    d.table k = (d.addEntry p ((d.string k).headD 0)).append (d.string k) k := by
  rw [table, define_next hprev]

theorem kwkwk_next (hprev : d.prev = some p) (k : Nat) :
    d.kwkwk k = (d.addEntry p ((d.string p).headD 0)).append (d.string p ++ [(d.string p).headD 0]) k := by
  rw [kwkwk, hprev]

/-- string(k) of an entry (R340): the `k - 1` links that are left are enough for the code in its PREFIX. -/
theorem string_entry (hpfx : ∀ k, 0x100 ≤ k → Tab.get 0 d.pfx k < k) {k : Nat} (hk : 0x100 ≤ k) :
    d.string k = d.string (Tab.get 0 d.pfx k) ++ [Tab.get 0 d.sfx k] := by
  have hlt := hpfx k hk
  obtain ⟨n, rfl⟩ : ∃ n, k = n + 1 := ⟨k - 1, by omega⟩
  rw [string, stringOf, if_neg (by omega), stringOf_fuel hpfx (Nat.le_of_lt_succ hlt) le_rfl, ← string]

/-! ### The rules of the chunk headers (R368, R370) -/

theorem chunkRlelen_toNat (w : Half) : (chunkRlelen w).toNat = (w.extractLsb' 0 13).toNat :=
  BitVec.toNat_setWidth_of_le (by decide)

theorem chunk1_start {rlelen : Half} {flag : Byte} (hflag : flag.toNat ≤ 1) (hlen : rlelen.toNat ≤ 4096) :
    d.chunk1 rlelen flag = .go { d with
      rlelen := rlelen.toNat, useLzw := decide (flag = 1), f := 0x101, seg := [], prev := none, rd := {},
      pc := if flag = 1 then .code else .stored } := by
  refine (if_neg (not_or.mpr ⟨Nat.not_lt.mpr hflag, Nat.not_lt.mpr hlen⟩)).trans ?_
  by_cases h : flag = 1 <;> simp [startChunk, tableReset, LsbReader.align, h]

theorem chunk1_fail {rlelen : Half} {flag : Byte} (h : 1 < flag.toNat ∨ 4096 < rlelen.toNat) :
    d.chunk1 rlelen flag =
      .fail { d with rlelen := rlelen.toNat, useLzw := decide (flag = 1) } .badChunkHeader :=
  if_pos h

/-- The table is emptied only for a stored chunk. -/
theorem chunk2_start {w : Half} (clen : Half) (hlen : (w.extractLsb' 0 13).toNat ≤ 4096) :
    d.chunk2 w clen = .go { d with
      rlelen := (w.extractLsb' 0 13).toNat, useLzw := w.getLsbD 15, f := if w.getLsbD 15 then d.f else 0x101,
      seg := [], prev := none, rd := {}, pc := if w.getLsbD 15 then .code else .stored } := by
  rw [← chunkRlelen_toNat] at hlen ⊢
  refine (if_neg (Nat.not_lt.mpr hlen)).trans ?_
  rw [chunkUseLzw]
  cases w.getLsbD 15 <;> rfl

theorem chunk2_fail {w : Half} (clen : Half) (hlen : 4096 < (w.extractLsb' 0 13).toNat) :
    d.chunk2 w clen =
      .fail { d with rlelen := (chunkRlelen w).toNat, useLzw := chunkUseLzw w } .badChunkHeader :=
  if_pos (chunkRlelen_toNat w ▸ hlen)

end NufxDec

/-! ### The tokens on the state (log entry 3) -/

section
variable (s : State) (k : BitVec 12) (crc rlelen w clen : Half) (v n b flag volume delim : Byte)

theorem exec_nufxLit : exec (.nufxLit b) s = s.onNufx none NufxDec.atCode
    (fun d => decide (d.classOf b.toNat = .lit)) (fun d => .go (d.lit b)) := rfl

theorem exec_nufxClear : exec .nufxClear s = s.onNufx none NufxDec.atCode
    (fun d => decide (d.classOf 0x100 = .clear)) (fun d => .go d.clear) := rfl

theorem exec_nufxTable : exec (.nufxTable k) s = s.onNufx none NufxDec.atCode
    (fun d => decide (d.classOf k.toNat = .table)) (fun d => .go (d.table k.toNat)) := rfl

theorem exec_nufxKwkwk : exec (.nufxKwkwk k) s = s.onNufx none NufxDec.atCode
    (fun d => decide (d.classOf k.toNat = .kwkwk)) (fun d => .go (d.kwkwk k.toNat)) := rfl

theorem exec_nufxInvalid : exec (.nufxInvalid k) s = s.onNufx none NufxDec.atCode
    (fun d => decide (d.classOf k.toNat = .invalid)) (fun d => .fail d d.invalidErr) := rfl

theorem exec_nufxRleRun : exec (.nufxRleRun v n) s =
    s.onNufx none NufxDec.inRle (fun _ => true) (fun d => d.rleRun v n) := rfl

theorem exec_nufxRleLit : exec (.nufxRleLit b) s =
    s.onNufx none NufxDec.inRle (fun d => decide (b ≠ d.delimIn)) (fun d => d.rleLit b) := rfl

theorem exec_nufx1Hdr : exec (.nufx1Hdr crc volume delim) s = s.onNufx (some false)
    (fun d => decide (d.pc = .hdr [])) (fun _ => true) (fun d => .go (d.hdr1 s.par crc volume delim)) := rfl

theorem exec_nufx2Hdr : exec (.nufx2Hdr volume delim) s = s.onNufx (some true)
    (fun d => decide (d.pc = .hdr [])) (fun _ => true) (fun d => .go (d.hdr2 volume delim)) := rfl

theorem exec_nufx1Chunk : exec (.nufx1Chunk rlelen flag) s = s.onNufx (some false)
    (fun d => decide (d.pc = .chunkHdr [])) (fun _ => true) (fun d => d.chunk1 rlelen flag) := rfl

theorem exec_nufx2Chunk : exec (.nufx2Chunk w clen) s = s.onNufx (some true)
    (fun d => decide (d.pc = .chunkHdr [])) (fun _ => true) (fun d => d.chunk2 w clen) := rfl

end

/-- The decoder can take a token of either NuFX variant, or of the one that `only` names. -/
def Ctx.TakesNufx (c : Ctx) (only : Option Bool) : Prop :=
  c.expanding = true ∧ only.elim (c.isNufx false || c.isNufx true) c.isNufx = true

theorem Ctx.DecodingNufx.takesNufx {c : Ctx} (h : c.DecodingNufx) : c.TakesNufx none := h.isNufx

theorem Ctx.Decoding.takesNufx {c : Ctx} {lzw2 : Bool} (h : c.Decoding (if lzw2 then 1 else 0)) :
    c.TakesNufx (some lzw2) :=
  ⟨h.expanding, decide_eq_true h.engine⟩

theorem NufxDec.AtCode.atCode {d : NufxDec} (h : d.AtCode) : d.atCode = true :=
  Bool.and_eq_true_iff.mpr ⟨decide_eq_true h.1, decide_eq_true h.2⟩

theorem NufxDec.inRle_of_pc {d : NufxDec} {rest : List Byte} (h : d.pc = .rle rest) : d.inRle = true := by
  rw [NufxDec.inRle, h]

section
variable {s : State} {c : Ctx} {only : Option Bool} {aw cls : NufxDec → Bool} {f : NufxDec → Run NufxDec}
  {g : NufxDec → NufxDec} {d : NufxDec} {err : Err} {i : Instr} {code : Nat} {k : CodeClass}

/-- A token whose rule goes on, without output, changes the decoder alone. -/
theorem exec_nufx_goes (hi : exec i s = s.onNufx only aw cls f) (hc : s.cur = some c) (ht : c.TakesNufx only)
    (ha : aw c.eng.nufxDec = true) (hcls : cls c.eng.nufxDec = true) (hroom : hasRoom s.par c.outq.length = true)
    (hf : f c.eng.nufxDec = .go d) :
    exec i s = .next (s.setCur { c with eng := { c.eng with nufxDec := d } }) := by
  rw [hi, State.onNufx_go hc ht.1 ht.2 ha hcls hf hroom, Ctx.emit_nil]

theorem raises_nufx (hi : exec i s = s.onNufx only aw cls f) (hc : s.cur = some c) (ht : c.TakesNufx only)
    (ha : aw c.eng.nufxDec = true) (hcls : cls c.eng.nufxDec = true) (hf : f c.eng.nufxDec = .fail d err) :
    Raises i s c err :=
  ⟨{ c.eng with nufxDec := d }, hi.trans (State.onNufx_raise hc ht.1 ht.2 ha hcls hf)⟩

/-- At the boundary of a code, a code of the class that its row asks for runs the row's rule. -/
theorem exec_nufx_code
    (hi : exec i s = s.onNufx none NufxDec.atCode (fun d => decide (d.classOf code = k)) (fun d => .go (g d)))
    (hc : s.cur = some c) (hdec : c.DecodingNufx) (hat : c.eng.nufxDec.AtCode)
    (hroom : hasRoom s.par c.outq.length = true) (hcls : c.eng.nufxDec.classOf code = k)
    (hg : g c.eng.nufxDec = d) :
    exec i s = .next (s.setCur { c with eng := { c.eng with nufxDec := d } }) :=
  exec_nufx_goes hi hc hdec.takesNufx hat.atCode (decide_eq_true hcls) hroom (congrArg Run.go hg)

/-- At the boundary of a code, a code that names no entry raises the error of R364. -/
theorem raises_nufxInvalid {k : BitVec 12} (hc : s.cur = some c) (hdec : c.DecodingNufx) (hat : c.eng.nufxDec.AtCode)
    (hcls : c.eng.nufxDec.classOf k.toNat = .invalid) (herr : c.eng.nufxDec.invalidErr = err) :
    Raises (.nufxInvalid k) s c err :=
  raises_nufx (exec_nufxInvalid s k) hc hdec.takesNufx hat.atCode (decide_eq_true hcls)
    (congrArg (Run.fail c.eng.nufxDec) herr)

end

/-! ### The statements -/

/-- Settles O30: a literal is of its own class wherever the table is not exhausted, CLEAR everywhere. -/
theorem nufxLiteralAndClear : Obligations.NufxLiteralAndClear := by
  intro s c k hc hdec hat hroom d upd
  refine ⟨fun hprev => ?first, fun p hprev hf => ?next, ?clear⟩
  case first =>
    exact exec_nufx_code (exec_nufxLit s k) hc hdec hat hroom (NufxDec.classOf_lit (.inl hprev) k.isLt)
      (NufxDec.lit_first hprev k)
  case next =>
    exact exec_nufx_code (exec_nufxLit s k) hc hdec hat hroom (NufxDec.classOf_lit (.inr hf) k.isLt)
      (NufxDec.lit_next hprev k)
  case clear => exact exec_nufx_code (exec_nufxClear s) hc hdec hat hroom (NufxDec.classOf_clear d) rfl

/-- Settles O31: every link of PREFIX shortens what is left of a string, and the class of the code selects the rule. -/
theorem nufxTableAndKwkwk : Obligations.NufxTableAndKwkwk := by
  refine ⟨fun d => ⟨fun k => d.stringOf_lit k, fun hpfx k => NufxDec.string_entry hpfx⟩, ?_⟩
  intro s c k hc hdec hat hroom hfirst d upd str
  refine ⟨fun hk hprev => ?tableFirst, fun p hk hprev hf => ?tableNext, fun p hk hprev hf => ?kwkwk⟩
  case tableFirst =>
    exact exec_nufx_code (exec_nufxTable s k) hc hdec hat hroom (NufxDec.classOf_table (.inl hprev) hfirst hk)
      (NufxDec.table_first hprev k.toNat)
  case tableNext =>
    exact exec_nufx_code (exec_nufxTable s k) hc hdec hat hroom (NufxDec.classOf_table (.inr hf) hfirst hk)
      (NufxDec.table_next hprev k.toNat)
  case kwkwk =>
    exact exec_nufx_code (exec_nufxKwkwk s k) hc hdec hat hroom (NufxDec.classOf_kwkwk hprev hf hfirst hk)
      (NufxDec.kwkwk_next hprev k.toNat)

/-- Settles O32: the code is invalid in each case, and the table limit decides the error. -/
theorem nufxInvalidCodeRaises : Obligations.NufxInvalidCodeRaises := by
  intro s c k hc hdec hat hk d
  have hclear : k.toNat ≠ 0x100 := fun h => hk (BitVec.eq_of_toNat_eq h)
  refine ⟨fun hprev hfull => ?full, fun hprev hf hcode hlit => ?next, fun hprev hcode hlit => ?first⟩
  case full =>
    obtain ⟨p, hprev⟩ := Option.ne_none_iff_exists'.mp hprev
    exact raises_nufxInvalid hc hdec hat (NufxDec.classOf_full hprev hfull hclear)
      (NufxDec.invalidErr_tableFull hprev hfull)
  case next =>
    obtain ⟨p, hprev⟩ := Option.ne_none_iff_exists'.mp hprev
    exact raises_nufxInvalid hc hdec hat (NufxDec.classOf_invalid_next hprev hf hclear hlit hcode)
      (NufxDec.invalidErr_badCode (.inr hf))
  case first =>
    exact raises_nufxInvalid hc hdec hat (NufxDec.classOf_invalid_first hprev hclear hlit hcode)
      (NufxDec.invalidErr_badCode (.inl hprev))

/-- Settles O33: the token's rule goes on exactly where the chunk has room for its bytes. -/
theorem nufxRleTokensFillTheChunk : Obligations.NufxRleTokensFillTheChunk := by
  intro s c v n b rest hc hdec hpc hroom d upd
  have htakes := hdec.takesNufx
  have hrle := NufxDec.inRle_of_pc hpc
  refine ⟨fun hlen => ?run, fun hlen => ?runOver, fun hb hlen => ?lit, fun hb hlen => ?litOver⟩
  case run => exact exec_nufx_goes (exec_nufxRleRun s v n) hc htakes hrle rfl hroom (NufxDec.rleRun_go v n hlen)
  case runOver => exact raises_nufx (exec_nufxRleRun s v n) hc htakes hrle rfl (NufxDec.rleRun_overrun v n hlen)
  case lit =>
    exact exec_nufx_goes (exec_nufxRleLit s b) hc htakes hrle (decide_eq_true hb) hroom (NufxDec.rleLit_go b hlen)
  case litOver =>
    exact raises_nufx (exec_nufxRleLit s b) hc htakes hrle (decide_eq_true hb) (NufxDec.rleLit_overrun b hlen)

/-- Settles O35: the header rules have no check, so any operands are taken. -/
theorem nufxStreamHeaders : Obligations.NufxStreamHeaders := by
  intro s c crc volume delim hc hpc hroom d upd
  have hat := decide_eq_true hpc
  refine ⟨fun hdec => ?lzw1, fun hdec => ?lzw2⟩
  case lzw1 =>
    have htakes : c.TakesNufx (some false) := hdec.takesNufx
    exact exec_nufx_goes (exec_nufx1Hdr s crc volume delim) hc htakes hat rfl hroom rfl
  case lzw2 =>
    have htakes : c.TakesNufx (some true) := hdec.takesNufx
    exact exec_nufx_goes (exec_nufx2Hdr s volume delim) hc htakes hat rfl hroom rfl

/-- Settles O36: the checks of the header decide between the chunk's start and the error. -/
theorem nufxChunkHeaders : Obligations.NufxChunkHeaders := by
  intro s c rlelen w clen flag hc hpc hroom d upd len
  have hat := decide_eq_true hpc
  refine ⟨fun hdec => ?lzw1, fun hdec => ?lzw2⟩
  case lzw1 =>
    have htakes : c.TakesNufx (some false) := hdec.takesNufx
    have hi := exec_nufx1Chunk s rlelen flag
    exact ⟨fun hflag hlen => exec_nufx_goes hi hc htakes hat rfl hroom (NufxDec.chunk1_start hflag hlen),
      fun hbad => raises_nufx hi hc htakes hat rfl (NufxDec.chunk1_fail hbad)⟩
  case lzw2 =>
    have htakes : c.TakesNufx (some true) := hdec.takesNufx
    have hi := exec_nufx2Chunk s w clen
    exact ⟨fun hlen => exec_nufx_goes hi hc htakes hat rfl hroom (NufxDec.chunk2_start clen hlen),
      fun hlen => raises_nufx hi hc htakes hat rfl (NufxDec.chunk2_fail clen hlen)⟩

end Sys2Proof.Machine
end

section
/-! PROOFS. The LZC stream tokens (R460 to R466): the class of a code and what each token rule does to the decoder, then
each token's effect on the state. -/

namespace Sys2Proof.Machine

open Sys2Proof

namespace LzcDec

variable {d : LzcDec} {ph : LzcPhase} {code : Nat}

/-! ### The boundary of a code (R445) -/

theorem AtPhase.phase (h : d.AtPhase ph) : d.phase? = some ph := by
  rcases h with hpc | ⟨hpc, hgrp⟩
  · rw [phase?, hpc]
  · rw [phase?, hpc]; exact if_pos hgrp

theorem AtPhase.atCode (h : d.AtPhase ph) : d.atCode = true := by
  rw [LzcDec.atCode, h.phase]; rfl

theorem AtPhase.codeIs (h : d.AtPhase ph) {k : CodeClass} (hclass : d.classOf ph code = k) :
    d.codeIs k code = true := by
  rw [LzcDec.codeIs, h.phase]; exact decide_eq_true hclass

/-! ### The class of a code (R444, R445) -/

/-- A literal is of its own class in every phase. -/
theorem classOf_lit (d : LzcDec) (ph : LzcPhase) (hcode : code < 256) : d.classOf ph code = .lit := by
  have hclear : ¬(code = Config.lzcClear ∧ d.block = true) := fun h => hcode.ne h.1
  simp [classOf, lzcClass, hcode, hclear]

theorem classOf_clear (hblock : d.block = true) : d.classOf .next 256 = .clear := by
  rw [classOf, lzcClass, if_neg (by decide), if_pos ⟨rfl, hblock⟩]

/-- The first code of the stream and the first after a CLEAR must be a literal (R444). -/
theorem classOf_mustLit (hph : ph ≠ .next) (hcode : 256 ≤ code) : d.classOf ph code = .invalid := by
  rw [classOf, lzcClass, if_pos (decide_eq_true hph), if_neg (Nat.not_lt.mpr hcode)]

/-- Any other code that is no literal and no CLEAR is compared with FREE_ENT. -/
theorem classOf_entry (hcode : 256 ≤ code) (hclear : ¬(code = 256 ∧ d.block = true)) :
    d.classOf .next code = if code < d.freeEnt then .table else if code = d.freeEnt then .kwkwk else .invalid := by
  rw [classOf, lzcClass, if_neg (by decide), if_neg hclear, if_neg (Nat.not_lt.mpr hcode)]

/-! ### The rules of the codes (R460 to R463, R446) -/

/-- A code that is not the first of the stream, while the table has room: entry FREE_ENT is created. -/
theorem emit_creates (hroom : d.freeEnt < d.maxmaxcode) (str : List Byte) (k : Nat) :
    d.emit str k = .go { d with
      finchar := str.headD 0, tabPrefix := Tab.put 0 d.tabPrefix d.freeEnt d.oldcode,
      tabSuffix := Tab.put 0 d.tabSuffix d.freeEnt (str.headD 0), freeEnt := d.freeEnt + 1, oldcode := k,
      pc := .codes .next } str := by
  rw [emit, addEntry, if_pos hroom]

/-- A code that is not the first of the stream, with the table full. -/
theorem emit_full (hfull : d.maxmaxcode ≤ d.freeEnt) (str : List Byte) (k : Nat) :
    d.emit str k = .go { d with finchar := str.headD 0, oldcode := k, pc := .codes .next } str := by
  rw [emit, addEntry, if_neg (Nat.not_lt.mpr hfull)]

theorem lit_first (d : LzcDec) (k : Byte) :
    d.lit true k = .go { d with oldcode := k.toNat, finchar := k, pc := .codes .next } [k] := rfl

theorem lit_later (d : LzcDec) (k : Byte) : d.lit false k = d.emit [k] k.toNat := rfl

/-- Whichever rule a literal takes, a new code is awaited, of the group that was there. -/
theorem lit_go (d : LzcDec) (first : Bool) (k : Byte) :
    ∃ d', d.lit first k = .go d' [k] ∧ d'.pc = .codes .next ∧ d'.grp = d.grp := by
  cases first with
  | true => exact ⟨_, lit_first d k, rfl, rfl⟩
  | false =>
    rcases Nat.lt_or_ge d.freeEnt d.maxmaxcode with hroom | hfull
    · exact ⟨_, emit_creates hroom [k] k.toNat, rfl, rfl⟩
    · exact ⟨_, emit_full hfull [k] k.toNat, rfl, rfl⟩

/-- string(k) of an entry (R447): the `k - 1` links that are left are enough for the code in TAB_PREFIX. -/
theorem string_entry (hprefix : ∀ k, 256 ≤ k → Tab.get 0 d.tabPrefix k < k) {k : Nat} (hk : 256 ≤ k) :
    d.string k = d.string (Tab.get 0 d.tabPrefix k) ++ [Tab.get 0 d.tabSuffix k] := by
  have hlt := hprefix k hk
  obtain ⟨n, rfl⟩ : ∃ n, k = n + 1 := ⟨k - 1, by omega⟩
  rw [string, stringOf, if_neg (by omega), stringOf_append, stringOf_fuel hprefix (Nat.le_of_lt_succ hlt) le_rfl,
    ← string]

/-! ### The width of the codes after a CLEAR (R442) -/

theorem needGroup_of_clear (h : d.clearFlg = true) : d.needGroup = true := by
  simp [needGroup, h]

/-- A CLEAR undoes any growth of the width. -/
theorem growWidth_of_clear (h : d.clearFlg = true) :
    d.growWidth.nBits = 9 ∧ d.growWidth.maxcode = 511 ∧ d.growWidth.clearFlg = false := by
  by_cases hgrow : d.maxcode < d.freeEnt <;> simp [growWidth, hgrow, h]

/-! ### The rules of the header and of a group (R465, R466) -/

theorem hdr_badMagic {m0 m1 : Byte} (h : m0 ≠ 0x1F ∨ m1 ≠ 0x9D) (flags : Byte) :
    d.hdr m0 m1 flags = .fail d .badMagic := if_pos h

theorem hdr_badFlags {flags : Byte} (h : flagsReserved flags ≠ 0 ∨ flagsMaxbits flags < 9 ∨ 16 < flagsMaxbits flags) :
    d.hdr 0x1F 0x9D flags =
      .fail { d with maxbits := flagsMaxbits flags, block := flagsBlock flags } .badHeader := by
  rw [hdr, if_neg (by decide)]; exact if_pos h

theorem hdr_start {flags : Byte} (hreserved : flagsReserved flags = 0) (hmin : 9 ≤ flagsMaxbits flags)
    (hmax : flagsMaxbits flags ≤ 16) :
    d.hdr 0x1F 0x9D flags = .go { d with
      maxbits := flagsMaxbits flags, block := flagsBlock flags, maxmaxcode := 2 ^ flagsMaxbits flags,
      freeEnt := if flagsBlock flags then 257 else 256, pc := .codes .first } := by
  rw [hdr, if_neg (by decide)]
  exact if_neg (by simp [hreserved, hmin, hmax])

/-- The bits of a group are fewer than those of one code. -/
theorem group_short {bytes : List Byte} (h : bytes.length * 8 < d.nBits) (ph : LzcPhase) :
    d.group ph bytes = .ret { d with
      grp := bytes, goff := 0, gsize := (bytes.length : Int) * 8 - ((d.nBits : Int) - 1), pc := .done } :=
  if_pos (by dsimp only; omega)

theorem group_whole {bytes : List Byte} (h : d.nBits ≤ bytes.length * 8) (ph : LzcPhase) :
    d.group ph bytes = .go { d with
      grp := bytes, goff := 0, gsize := (bytes.length : Int) * 8 - ((d.nBits : Int) - 1), pc := .codes ph } :=
  if_neg (by dsimp only; omega)

end LzcDec

/-! ### The tokens on the state (log entry 3) -/

section
variable (s : State) (k : Byte) (code : Half) (m0 m1 flags : Byte) (bytes : List Byte)

theorem exec_lzcLit : exec (.lzcLit k) s = s.onLzc LzcDec.atCode (fun d => d.codeIs .lit k.toNat)
    (fun d => d.lit (decide (d.phase? = some .first)) k) := rfl

theorem exec_lzcClear : exec .lzcClear s = s.onLzc LzcDec.atCode (fun d => d.codeIs .clear 256) LzcDec.clear := rfl

theorem exec_lzcTable : exec (.lzcTable code) s = s.onLzc LzcDec.atCode (fun d => d.codeIs .table code.toNat)
    (fun d => d.table code.toNat) := rfl

theorem exec_lzcKwkwk : exec (.lzcKwkwk code) s = s.onLzc LzcDec.atCode (fun d => d.codeIs .kwkwk code.toNat)
    (fun d => d.kwkwk code.toNat) := rfl

theorem exec_lzcInvalid : exec (.lzcInvalid code) s = s.onLzc LzcDec.atCode
    (fun d => d.codeIs .invalid code.toNat) LzcDec.invalid := rfl

theorem exec_lzcHdr : exec (.lzcHdr m0 m1 flags) s = s.onLzc (fun d => decide (d.pc = .hdr [])) (fun _ => true)
    (fun d => d.hdr m0 m1 flags) := rfl

theorem exec_lzcGroup : exec (.lzcGroup bytes) s = s.onLzc (fun d => d.groupPhase?.isSome)
    (fun d => decide (1 ≤ bytes.length) && decide (bytes.length ≤ d.nBits))
    (fun d => d.group (d.groupPhase?.getD .next) bytes) := rfl

end

section
variable {s : State} {c : Ctx} {aw cls : LzcDec → Bool} {f : LzcDec → Run LzcDec} {d : LzcDec} {out : List Byte}
  {err : Err} {i : Instr} {code : Nat} {k : CodeClass} {ph : LzcPhase}

/-- At the boundary of a code, a code of the class that its row asks for runs the row's rule. -/
theorem exec_lzc_code (hi : exec i s = s.onLzc LzcDec.atCode (fun d => d.codeIs k code) f) (hc : s.cur = some c)
    (hdec : c.Decoding 2) (hat : c.eng.lzcDec.AtPhase ph) (hclass : c.eng.lzcDec.classOf ph code = k)
    (hf : f c.eng.lzcDec = .go d out) (hroom : hasRoom s.par (c.outq.length + out.length) = true) :
    exec i s = .next (s.setCur (c.emit out { c.eng with lzcDec := d })) :=
  hi.trans (State.onLzc_go hc hdec hat.atCode (hat.codeIs hclass) hf hroom)

/-- A token whose rule goes on, without output, changes the decoder alone. -/
theorem exec_lzc_goes (hi : exec i s = s.onLzc aw cls f) (hc : s.cur = some c) (hdec : c.Decoding 2)
    (ha : aw c.eng.lzcDec = true) (hcls : cls c.eng.lzcDec = true) (hroom : hasRoom s.par c.outq.length = true)
    (hf : f c.eng.lzcDec = .go d) :
    exec i s = .next (s.setCur { c with eng := { c.eng with lzcDec := d } }) := by
  rw [hi, State.onLzc_go hc hdec ha hcls hf hroom, Ctx.emit_nil]

theorem raises_lzc (hi : exec i s = s.onLzc aw cls f) (hc : s.cur = some c) (hdec : c.Decoding 2)
    (ha : aw c.eng.lzcDec = true) (hcls : cls c.eng.lzcDec = true) (hf : f c.eng.lzcDec = .fail d err) :
    Raises i s c err :=
  ⟨{ c.eng with lzcDec := d }, hi.trans (State.onLzc_raise hc hdec ha hcls hf)⟩

/-- A literal runs the rule of the first code of the stream in the first phase, and else that of a later code. -/
theorem exec_lzcLit_code {k : Byte} (hc : s.cur = some c) (hdec : c.Decoding 2) (hat : c.eng.lzcDec.AtPhase ph)
    (hroom : hasRoom s.par (c.outq.length + 1) = true) (hf : c.eng.lzcDec.lit (decide (ph = .first)) k = .go d [k]) :
    exec (.lzcLit k) s = .next (s.setCur (c.emit [k] { c.eng with lzcDec := d })) :=
  exec_lzc_code (exec_lzcLit s k) hc hdec hat (LzcDec.classOf_lit _ ph k.isLt)
    (by simpa only [hat.phase, Option.some.injEq] using hf) hroom

theorem raises_lzcInvalid {k : Half} (hc : s.cur = some c) (hdec : c.Decoding 2) (hat : c.eng.lzcDec.AtPhase ph)
    (hclass : c.eng.lzcDec.classOf ph k.toNat = .invalid) : Raises (.lzcInvalid k) s c .badCode :=
  raises_lzc (exec_lzcInvalid s k) hc hdec hat.atCode (hat.codeIs hclass) rfl

end

/-! ### After a token (R221) -/

/-- Without input and without FINISH the procedure runs up to its next read. -/
theorem Proc.drive_settles {σ : Type} {p : Proc σ} {a b : σ} (hdone : p.done a = false) (hsettle : p.settle a = .go b) :
    p.drive false [] a = (.go b, []) := by
  simp [Proc.drive, hdone, hsettle, Proc.feed, Run.go]

/-- A decoder with its group used up goes on to the read of a new group, and outputs nothing. -/
theorem Ctx.resume_lzc {par : Params} {c : Ctx} {ph : LzcPhase} (hdec : c.Decoding 2)
    (hpc : c.eng.lzcDec.pc = .codes ph) (hgrp : c.eng.lzcDec.grp = []) (hinq : c.inq = []) (hended : c.ended = false)
    (hroom : hasRoom par c.outq.length = true) (free : Nat) :
    c.resume par free = .ok ({ c with eng := { c.eng with lzcDec :=
      { c.eng.lzcDec.growWidth with grp := [], pc := .fetch ph } } }, free) := by
  have hdrive : lzcDecProc.drive c.ended c.inq c.eng.lzcDec =
      (.go { c.eng.lzcDec.growWidth with grp := [], pc := .fetch ph }, []) := by
    rw [hended, hinq]
    exact Proc.drive_settles (by simp [lzcDecProc, hpc]) (LzcDec.settle_empty hgrp hpc)
  have hrun := Ctx.run_of_runProc (Ctx.runProc_lzcDec (par := par) hdec.engine hdec.dir hdrive)
    (Ctx.lzcPastMax_of_expand hdec.dir _ _) free
  rw [Run.map_go, Run.go, Ctx.absorb_running_emit hinq, Ctx.emit_nil] at hrun
  have hlive : (decide (c.st = .active) && !c.natend) = true := by simp [hdec.st, hdec.natend]
  rw [Ctx.resume, if_pos hlive, hrun]
  exact Ctx.commit_of_room hroom

theorem Ctx.Decoding.emit {c : Ctx} {engine : BitVec 3} (h : c.Decoding engine) (out : List Byte) (e : Engines) :
    (c.emit out e).Decoding engine :=
  ⟨h.st, h.dir, h.natend, h.engine⟩

theorem State.setCur_inj {s : State} {c c1 c2 : Ctx} (hc : s.cur = some c) (h : s.setCur c1 = s.setCur c2) : c1 = c2 :=
  Option.some.inj ((State.cur_setCur hc c1).symm.trans (h ▸ State.cur_setCur hc c2))

/-! ### The statements -/

/-- Settles O37: a literal is a literal in every phase; the phase decides whether it creates an entry. -/
theorem lzcLiteralOutputsItsByte : Obligations.LzcLiteralOutputsItsByte := by
  intro s c k ph hc hdec hat hroom d upd
  refine ⟨fun hfirst => ?first, fun hlater hspace => ?creates, fun hlater hfull => ?full,
    fun hpc hinq hended c' hexec => ?resume⟩
  case first =>
    exact exec_lzcLit_code hc hdec hat hroom (by rw [decide_eq_true hfirst]; exact LzcDec.lit_first d k)
  case creates =>
    exact exec_lzcLit_code hc hdec hat hroom (by rw [decide_eq_false hlater]; exact LzcDec.emit_creates hspace [k] _)
  case full =>
    exact exec_lzcLit_code hc hdec hat hroom (by rw [decide_eq_false hlater]; exact LzcDec.emit_full hfull [k] _)
  case resume =>
    have hgrp : d.grp = [] := by
      rcases hat with hcodes | ⟨-, hgrp⟩
      · cases hpc.symm.trans hcodes
      · exact hgrp
    obtain ⟨d', hlit, hpc', hgrp'⟩ := LzcDec.lit_go d (decide (ph = .first)) k
    have hnext := hexec.symm.trans (exec_lzcLit_code hc hdec hat hroom hlit)
    injection hnext with hstate
    obtain rfl := State.setCur_inj hc hstate
    have hroom' : hasRoom s.par (c.emit [k] { c.eng with lzcDec := d' }).outq.length = true := by
      rwa [Ctx.emit, List.length_append]
    exact ⟨_, Ctx.resume_lzc (hdec.emit [k] { c.eng with lzcDec := d' }) hpc' (hgrp'.trans hgrp) hinq
      hended hroom' s.free, rfl, rfl⟩

/-- Settles O38: CLEAR_FLG calls for a new group, and resets its width. -/
theorem lzcClearStartsANewGroup : Obligations.LzcClearStartsANewGroup := by
  intro s c hc hdec hat hblock hroom d'
  have hexec := exec_lzc_code (exec_lzcClear s) hc hdec hat (LzcDec.classOf_clear hblock) rfl hroom
  rw [Ctx.emit_nil] at hexec
  exact ⟨hexec, LzcDec.needGroup_of_clear rfl, LzcDec.growWidth_of_clear rfl⟩

/-- Settles O39: the code is compared with FREE_ENT, and both rules emit a string. -/
theorem lzcTableAndKwkwk : Obligations.LzcTableAndKwkwk := by
  refine ⟨fun d => ⟨fun k => d.stringOf_lit k [], fun hprefix k => LzcDec.string_entry hprefix⟩, ?_⟩
  intro s c k hc hdec hat hk hclear d after
  have hclass := LzcDec.classOf_entry hk fun h => hclear ⟨BitVec.eq_of_toNat_eq h.1, h.2⟩
  have hemit (str : List Byte) : ∃ d', d.emit str k.toNat = .go d' str ∧
      c.emit str { c.eng with lzcDec := d' } = after str := by
    rcases Nat.lt_or_ge d.freeEnt d.maxmaxcode with hspace | hfull
    · exact ⟨_, LzcDec.emit_creates hspace str _, by simp only [after, if_pos hspace]⟩
    · exact ⟨_, LzcDec.emit_full hfull str _, by simp only [after, if_neg (Nat.not_lt.mpr hfull)]⟩
  refine ⟨fun hlt hroom => ?table, fun heq hroom => ?kwkwk⟩
  case table =>
    obtain ⟨d', hd', hafter⟩ := hemit (d.string k.toNat)
    rw [← hafter]
    exact exec_lzc_code (exec_lzcTable s k) hc hdec hat (hclass.trans (if_pos hlt)) hd' hroom
  case kwkwk =>
    obtain ⟨d', hd', hafter⟩ := hemit (d.string d.oldcode ++ [d.finchar])
    rw [← hafter]
    exact exec_lzc_code (exec_lzcKwkwk s k) hc hdec hat
      (hclass.trans ((if_neg heq.not_lt).trans (if_pos heq))) hd' (by simpa using hroom)

/-- Settles O40: in each case the code is of the class that no other row takes. -/
theorem lzcInvalidCodeRaises : Obligations.LzcInvalidCodeRaises := by
  intro s c k ph hc hdec hat hk
  refine ⟨fun hph => raises_lzcInvalid hc hdec hat (LzcDec.classOf_mustLit hph hk), fun hph hlt hclear => ?_⟩
  subst hph
  have hclass := LzcDec.classOf_entry hk fun h => hclear ⟨BitVec.eq_of_toNat_eq h.1, h.2⟩
  exact raises_lzcInvalid hc hdec hat (hclass.trans ((if_neg hlt.le.not_gt).trans (if_neg hlt.ne')))

/-- Settles O41: the magic is checked first, then the flags. -/
theorem lzcHeaderIsChecked : Obligations.LzcHeaderIsChecked := by
  intro s c m0 m1 flags hc hdec hpc hroom d m
  have hat := decide_eq_true hpc
  have hi := exec_lzcHdr s m0 m1 flags
  refine ⟨fun hmagic => ?magic, fun h0 h1 hflags => ?flags, fun h0 h1 hreserved hmin hmax => ?start⟩
  case magic => exact raises_lzc hi hc hdec hat rfl (LzcDec.hdr_badMagic hmagic flags)
  case flags =>
    subst h0 h1
    exact raises_lzc hi hc hdec hat rfl (LzcDec.hdr_badFlags hflags)
  case start =>
    subst h0 h1
    exact exec_lzc_goes hi hc hdec hat rfl hroom (LzcDec.hdr_start hreserved hmin hmax)

/-- Settles O42: a group that holds no whole code returns from the procedure, which is no natural end in LZC. -/
theorem lzcGroupIsRead : Obligations.LzcGroupIsRead := by
  intro s c bytes ph hc hdec hpc hgrp hmin hmax hroom d
  have hphase : d.groupPhase? = some ph := by rw [LzcDec.groupPhase?, hpc]; exact if_pos hgrp
  have ha : d.groupPhase?.isSome = true := by rw [hphase]; rfl
  have hlen : (decide (1 ≤ bytes.length) && decide (bytes.length ≤ d.nBits)) = true := by simp [hmin, d, hmax]
  have hf : d.group (d.groupPhase?.getD .next) bytes = d.group ph bytes := by rw [hphase]; rfl
  rcases Nat.lt_or_ge (bytes.length * 8) d.nBits with hshort | hwhole
  · rw [if_pos hshort]
    exact (exec_lzcGroup s bytes).trans
      (State.onLzc_ret hc hdec ha hlen (hf.trans (LzcDec.group_short hshort ph)) hroom)
  · rw [if_neg (Nat.not_lt.mpr hwhole)]
    exact exec_lzc_goes (exec_lzcGroup s bytes) hc hdec ha hlen hroom (hf.trans (LzcDec.group_whole hwhole ph))

end Sys2Proof.Machine
end

section
/-! PROOFS. FEED to LZC compress (R410 to R420, R425): the probe of the hash table, what a miss does to it, and the
byte's effect on the state. -/

namespace Sys2Proof.Machine

open Sys2Proof

namespace LzcEnc

variable {e e' : LzcEnc} {b : Byte} {quirk : Bool} {n i f : Nat} {pad : FlushPad} {par : Params} {out : List Byte}

/-! ### The probe (R411, R412) -/

/-- The step of the secondary probe sequence from the primary slot `i`. -/
def nextSlot (primary i : Nat) : Nat :=
  let disp := if primary = 0 then 1 else 69001 - primary
  if i < disp then i + 69001 - disp else i - disp

/-- Slot number `n` of the probe for the byte `b`: number 0 is the primary slot. -/
def probeSlot (e : LzcEnc) (b : Byte) (n : Nat) : Nat := (nextSlot (e.slot b))^[n] (e.slot b)

/-- The key of slot number `n`. -/
def probeKey (e : LzcEnc) (b : Byte) (n : Nat) : Int := Tab.get (-1) e.htab (e.probeSlot b n)

/-- The probe passes slot number `n`; the quirk concerns the secondary sequence only. -/
def Passes (quirk : Bool) (e : LzcEnc) (b : Byte) (n : Nat) : Prop :=
  e.probeKey b n ≠ (e.fcode b : Int) ∧
    if n ≠ 0 ∧ quirk = true then 0 < e.probeKey b n else 0 ≤ e.probeKey b n

theorem passes_zero : e.Passes quirk b 0 ↔ e.probeKey b 0 ≠ (e.fcode b : Int) ∧ 0 ≤ e.probeKey b 0 := by
  simp [Passes]

theorem passes_succ : e.Passes quirk b (n + 1) ↔
    e.probeKey b (n + 1) ≠ (e.fcode b : Int) ∧ continueProbe quirk (e.probeKey b (n + 1)) = true := by
  cases quirk <;> simp [Passes, continueProbe]

/-- A primary slot that is passed leads to the secondary sequence. -/
theorem lookup_of_passes (h : e.Passes quirk b 0) : e.lookup quirk b =
    probeFrom quirk e.htab (e.fcode b) (if e.slot b = 0 then 1 else 69001 - e.slot b) 69001 (e.slot b) := by
  obtain ⟨hkey, hused⟩ := passes_zero.mp h
  exact (if_neg hkey).trans (if_neg (not_lt.mpr hused))

/-- The lookup ends at the first slot that is not passed: a hit with the key in it, and else a miss. -/
theorem lookup_along (hn : n ≤ 69001) (hpass : ∀ m, m < n → e.Passes quirk b m) :
    (e.probeKey b n = e.fcode b → e.lookup quirk b = .hit (e.probeSlot b n)) ∧
    (e.probeKey b n ≠ e.fcode b → ¬e.Passes quirk b n → e.lookup quirk b = .miss (e.probeSlot b n)) := by
  cases n with
  | zero =>
    refine ⟨fun hkey => if_pos hkey, fun hkey hstop => (if_neg hkey).trans (if_pos ?_)⟩
    exact not_le.mp fun hused => hstop (passes_zero.mpr ⟨hkey, hused⟩)
  | succ n =>
    rw [lookup_of_passes (hpass 0 n.succ_pos)]
    obtain ⟨hhit, hmiss⟩ := probeFrom_along (quirk := quirk) (htab := e.htab) (key := e.fcode b) rfl n 69001 (e.slot b)
      hn fun m hm => passes_succ.mp (hpass (m + 1) (Nat.succ_lt_succ hm))
    refine ⟨hhit, fun hkey hstop => hmiss hkey (Bool.eq_false_iff.mpr fun hgo => ?_)⟩
    exact hstop (passes_succ.mpr ⟨hkey, hgo⟩)

/-! ### The new entry and the ratio check (R413, R419, R420) -/

theorem afterMiss_creates (hroom : e.freeEnt < e.maxmaxcode) (pad : FlushPad) (i f : Nat) :
    e.afterMiss pad i f = ({ e with
      codetab := Tab.put 0 e.codetab i e.freeEnt, freeEnt := e.freeEnt + 1, htab := Tab.put (-1) e.htab i f }, []) :=
  if_pos hroom

theorem afterMiss_full (hfull : e.maxmaxcode ≤ e.freeEnt) (hcheck : e.inCnt < e.checkpoint ∨ e.block = false)
    (pad : FlushPad) (i f : Nat) : e.afterMiss pad i f = (e, []) := by
  refine (if_neg (Nat.not_lt.mpr hfull)).trans (if_neg fun ⟨hreached, hblock⟩ => ?_)
  rcases hcheck with hbefore | hnoblock
  · exact Nat.not_lt.mpr hreached hbefore
  · cases hblock.symm.trans hnoblock

theorem afterMiss_checks (hfull : e.maxmaxcode ≤ e.freeEnt) (hcheck : e.checkpoint ≤ e.inCnt) (hblock : e.block = true)
    (pad : FlushPad) (i f : Nat) : e.afterMiss pad i f = e.clBlock pad :=
  (if_neg (Nat.not_lt.mpr hfull)).trans (if_pos ⟨hcheck, hblock⟩)

/-- The ratio has risen: the table is kept. -/
theorem clBlock_keeps (h : e.ratio < e.ratioOf) (pad : FlushPad) :
    e.clBlock pad = ({ e with checkpoint := e.inCnt + 10000, ratio := e.ratioOf }, []) := if_pos h

/-- The ratio has not risen: the table is emptied and CLEAR is output. -/
theorem clBlock_clears (h : e.ratioOf ≤ e.ratio) (pad : FlushPad) :
    e.clBlock pad = { e with
      checkpoint := e.inCnt + 10000, ratio := 0, htab := [], freeEnt := 257, clearFlg := true }.output pad 256 :=
  if_neg (Nat.not_lt.mpr h)

/-! ### The loop body (R410) -/

theorem next_hit (h : e.lookup par.zeroKeyQuirk b = .hit i) :
    e.next par b = ({ e with inCnt := e.inCnt + 1, ent := Tab.get 0 e.codetab i }, []) := by
  have h1 : { e with inCnt := e.inCnt + 1 }.lookup par.zeroKeyQuirk b = .hit i := h
  simp only [next, h1]

theorem next_miss (h : e.lookup par.zeroKeyQuirk b = .miss i)
    (hafter : { ({ e with inCnt := e.inCnt + 1 }.output par.flushPad e.ent).1 with ent := b.toNat }.afterMiss
      par.flushPad i (e.fcode b) = (e', out)) :
    e.next par b = (e', ({ e with inCnt := e.inCnt + 1 }.output par.flushPad e.ent).2 ++ out) := by
  have h1 : { e with inCnt := e.inCnt + 1 }.lookup par.zeroKeyQuirk b = .miss i := h
  have hf : { e with inCnt := e.inCnt + 1 }.fcode b = e.fcode b := rfl
  simp only [next, h1, hf, hafter]

theorem byte_first (h : e.haveEnt = false) (par : Params) (b : Byte) :
    e.byte par b = .go { e with ent := b.toNat, haveEnt := true } := if_neg (by simp [h])

theorem byte_later (h : e.haveEnt = true) (par : Params) (b : Byte) :
    e.byte par b = .go (e.next par b).1 (e.next par b).2 := if_pos h

/-! ### How far the input has been read -/

/-- The registers that follow the input: only the head of the loop and the end of the input change them. -/
def progress (e : LzcEnc) : Nat × Bool × Bool := (e.inCnt, e.haveEnt, e.returned)

theorem nextWidth_progress (e : LzcEnc) : e.nextWidth.progress = e.progress := by
  unfold nextWidth; split <;> rfl

theorem widthChangeFlush_progress (e : LzcEnc) (pad : FlushPad) : (e.widthChangeFlush pad).1.progress = e.progress := by
  unfold widthChangeFlush; split <;> exact nextWidth_progress _

theorem groupFull_progress (e : LzcEnc) : e.groupFull.1.progress = e.progress := by
  unfold groupFull; split <;> rfl

theorem output_progress (e : LzcEnc) (pad : FlushPad) (code : Nat) : (e.output pad code).1.progress = e.progress := by
  simp only [output]
  split
  · exact (widthChangeFlush_progress _ pad).trans (groupFull_progress _)
  · exact groupFull_progress _

theorem clBlock_progress (e : LzcEnc) (pad : FlushPad) : (e.clBlock pad).1.progress = e.progress := by
  rcases Nat.lt_or_ge e.ratio e.ratioOf with hrisen | hnot
  · rw [clBlock_keeps hrisen]; rfl
  · rw [clBlock_clears hnot]; exact output_progress _ pad 256

theorem afterMiss_progress (e : LzcEnc) (pad : FlushPad) (i f : Nat) :
    (e.afterMiss pad i f).1.progress = e.progress := by
  unfold afterMiss
  split
  · rfl
  · split
    · exact clBlock_progress e pad
    · rfl

/-- Each later byte is counted. -/
theorem next_progress (e : LzcEnc) (par : Params) (b : Byte) :
    (e.next par b).1.progress = (e.inCnt + 1, e.haveEnt, e.returned) := by
  cases h : e.lookup par.zeroKeyQuirk b with
  | hit i => rw [next_hit h]; rfl
  | miss i =>
    rw [next_miss h rfl]
    exact (afterMiss_progress _ par.flushPad i _).trans (output_progress _ par.flushPad e.ent)

theorem next_inCnt (e : LzcEnc) (par : Params) (b : Byte) : (e.next par b).1.inCnt = e.inCnt + 1 :=
  congrArg Prod.fst (next_progress e par b)

theorem next_haveEnt (e : LzcEnc) (par : Params) (b : Byte) : (e.next par b).1.haveEnt = e.haveEnt :=
  congrArg (fun p => p.2.1) (next_progress e par b)

theorem next_returned (e : LzcEnc) (par : Params) (b : Byte) : (e.next par b).1.returned = e.returned :=
  congrArg (fun p => p.2.2) (next_progress e par b)

end LzcEnc

/-! ### The byte on the state (R225) -/

/-- LZC compress is open and waits for input. -/
structure Ctx.AwaitsLzcEnc (c : Ctx) : Prop where
  st : c.st = .active
  engine : c.engine = 2
  dir : c.dir = false
  natend : c.natend = false
  inq : c.inq = []
  ended : c.ended = false
  returned : c.eng.lzcEnc.returned = false

namespace Ctx.AwaitsLzcEnc

variable {s : State} {c : Ctx} {b : Byte} {e : LzcEnc} {out : List Byte} (h : c.AwaitsLzcEnc)
include h

/-- The byte is all that the procedure takes. -/
theorem runProc_feed {par : Params} (hbyte : c.eng.lzcEnc.byte par b = .go e out) :
    Ctx.runProc par { c with inCount := c.inCount + 1, inq := c.inq ++ [b] } =
      (.go { c.eng with lzcEnc := e } out, []) :=
  Ctx.runProc_lzcEnc (c := { c with inCount := c.inCount + 1, inq := c.inq ++ [b] }) h.engine h.dir
    (Proc.drive_byte h.ended h.inq h.returned rfl hbyte)

/-- LZC compress holds no whole file (R816). -/
theorem wholeFull (par : Params) : c.wholeFull par = false := by
  simp [Ctx.wholeFull, h.engine]

/-- What a stretch of the procedure leaves that has taken the byte. -/
theorem absorb_feed :
    Ctx.absorb { c with inCount := c.inCount + 1, inq := c.inq ++ [b] } (.go { c.eng with lzcEnc := e } out) [] =
      { c with inCount := c.inCount + 1 }.emit out { c.eng with lzcEnc := e } := by
  rw [Ctx.absorb_inq { c with inCount := c.inCount + 1 }]
  exact Ctx.absorb_running_emit (c := { c with inCount := c.inCount + 1 }) h.inq _ _

/-- FEED, where LZC_MAX_IN is not passed. -/
theorem exec_feed (hc : s.cur = some c) (hbyte : c.eng.lzcEnc.byte s.par b = .go e out)
    (hmax : e.inCnt ≤ s.par.lzcMaxIn) (hroom : hasRoom s.par (c.outq.length + out.length) = true) :
    exec (.cmdFeed b) s =
      .next (s.setCur ({ c with inCount := c.inCount + 1 }.emit out { c.eng with lzcEnc := e })) := by
  have hpast : Ctx.lzcPastMax s.par { c with inCount := c.inCount + 1, inq := c.inq ++ [b] }
      { c.eng with lzcEnc := e } = false := by
    simp [Ctx.lzcPastMax, hmax]
  have hroom' : hasRoom s.par (Ctx.absorb { c with inCount := c.inCount + 1, inq := c.inq ++ [b] }
      (.go { c.eng with lzcEnc := e } out) []).outq.length = true := by
    rwa [h.absorb_feed, Ctx.emit, List.length_append]
  rw [Machine.exec_feed hc h.st h.natend (h.wholeFull s.par) rfl (h.runProc_feed hbyte) hpast hroom', h.absorb_feed]

/-- FEED of a byte that is not the first. -/
theorem exec_feed_next (hc : s.cur = some c) (hhave : c.eng.lzcEnc.haveEnt = true)
    (hmax : c.eng.lzcEnc.inCnt < s.par.lzcMaxIn) (hnext : c.eng.lzcEnc.next s.par b = (e, out))
    (hroom : hasRoom s.par (c.outq.length + out.length) = true) :
    exec (.cmdFeed b) s =
      .next (s.setCur ({ c with inCount := c.inCount + 1 }.emit out { c.eng with lzcEnc := e })) := by
  have hbyte : c.eng.lzcEnc.byte s.par b = .go e out := by rw [LzcEnc.byte_later hhave, hnext]
  have hcount : e.inCnt = c.eng.lzcEnc.inCnt + 1 := by rw [← LzcEnc.next_inCnt _ s.par b, hnext]
  exact h.exec_feed hc hbyte (by omega) hroom

/-- The run past LZC_MAX_IN: the bytes output are the free value of that number. -/
theorem run_feed_pastMax {par : Params} (hbyte : c.eng.lzcEnc.byte par b = .go e out) (hhave : e.haveEnt = true)
    (hpast : par.lzcMaxIn < e.inCnt) (free : Nat) :
    Ctx.run par free { c with inCount := c.inCount + 1, inq := c.inq ++ [b] } =
      ({ c with inCount := c.inCount + 1 }.emit (Config.freeLzcOutput free) { c.eng with lzcEnc := e }, free + 1) := by
  have hpast : Ctx.lzcPastMax par { c with inCount := c.inCount + 1, inq := c.inq ++ [b] }
      { c.eng with lzcEnc := e } = true := by
    simp [Ctx.lzcPastMax, h.engine, h.dir, hhave, hpast]
  rw [Ctx.run, h.runProc_feed hbyte]
  exact (if_pos hpast).trans (congrArg (·, free + 1) h.absorb_feed)

end Ctx.AwaitsLzcEnc

/-! ### The statements -/

/-- Settles O23: the lookup ends at the first slot that the probe does not pass, and a miss there meets a table with
room or the ratio check. -/
theorem lzcCompressFollowsTheTrie : Obligations.LzcCompressFollowsTheTrie := by
  intro s c b hc hst heng hdir hnatend hinq hended hreturned hroom e c1 answers key primary disp slot h goesOn
  have hawaits : c.AwaitsLzcEnc := ⟨hst, heng, hdir, hnatend, hinq, hended, hreturned⟩
  refine ⟨fun hhave hmax hroom => hawaits.exec_feed hc (LzcEnc.byte_first hhave _ b) hmax hroom, ?_⟩
  intro hhave hmax n hn hpass
  have hanswers {e' : LzcEnc} {out : List Byte} (hnext : e.next s.par b = (e', out)) : answers out e' :=
    hawaits.exec_feed_next hc hhave hmax hnext
  obtain ⟨hhit, hmiss⟩ := LzcEnc.lookup_along (e := e) (b := b) (quirk := s.par.zeroKeyQuirk) hn hpass
  refine ⟨fun hkey => hanswers (LzcEnc.next_hit (hhit hkey)), ?_⟩
  intro hkey hstop r e1
  have hlookup : e.lookup s.par.zeroKeyQuirk b = .miss (slot n) := hmiss hkey hstop
  have houtputs {e' : LzcEnc} {out : List Byte}
      (hafter : e1.afterMiss s.par.flushPad (slot n) (e.fcode b) = (e', out)) : answers (r.2 ++ out) e' :=
    hanswers (LzcEnc.next_miss hlookup hafter)
  have hquiet {e' : LzcEnc} (hafter : e1.afterMiss s.par.flushPad (slot n) (e.fcode b) = (e', [])) :
      answers r.2 e' := by
    simpa only [List.append_nil] using houtputs hafter
  refine ⟨fun hspace => hquiet (LzcEnc.afterMiss_creates hspace _ _ _),
    fun hfull hcheck => hquiet (LzcEnc.afterMiss_full hfull hcheck _ _ _), ?_⟩
  intro hfull hcheck hblock rat e2
  have hafter := LzcEnc.afterMiss_checks hfull hcheck hblock s.par.flushPad (slot n) (e.fcode b)
  exact ⟨fun hrisen => hquiet (hafter.trans (LzcEnc.clBlock_keeps hrisen _)),
    fun hnot => houtputs (hafter.trans (LzcEnc.clBlock_clears hnot _))⟩

/-- Settles O24: the byte is counted as before, and LZC_MAX_IN is then passed. -/
theorem lzcPastMaximumOutputsFreeBytes : Obligations.LzcPastMaximumOutputsFreeBytes := by
  intro s c b hc hst heng hdir hnatend hinq hended hreturned hhave hmax hcap
  have hawaits : c.AwaitsLzcEnc := ⟨hst, heng, hdir, hnatend, hinq, hended, hreturned⟩
  have hcount := LzcEnc.next_inCnt c.eng.lzcEnc s.par b
  have hrun := hawaits.run_feed_pastMax (LzcEnc.byte_later hhave s.par b)
    ((LzcEnc.next_haveEnt _ s.par b).trans hhave) (by omega) s.free
  have hfeed := (Ctx.feedCmd_active hst s.par s.free b).trans (Ctx.feedRun_run hnatend (hawaits.wholeFull s.par) _ b)
  rw [hrun, Ctx.commit_of_room (hasRoom_unbounded hcap _)] at hfeed
  exact ⟨_, State.onCtx_ok hc hfeed, hcount, (LzcEnc.next_returned _ s.par b).trans hreturned⟩

end Sys2Proof.Machine
end

section
/-! PROOFS. The Squeeze stream tokens (R560 to R569): what each token rule does to the decoder, then each token's effect on
the state. -/

namespace Sys2Proof.Machine

open Sys2Proof

theorem Run.go_andThen {σ : Type} (x : σ) (f : σ → Run σ) : (Run.go x).andThen f = f x := rfl

theorem Run.fail_andThen {σ : Type} (x : σ) (e : Err) (f : σ → Run σ) : (Run.fail x e).andThen f = .fail x e := rfl

/-- Room for more bytes is room for fewer. -/
theorem hasRoom_mono {par : Params} {m n : Nat} (hle : m ≤ n) (h : hasRoom par n = true) : hasRoom par m = true := by
  cases hcap : par.outqCap with
  | none => exact hasRoom_unbounded hcap m
  | some cap =>
    rw [hasRoom, hcap, Option.all_some, decide_eq_true_iff] at h ⊢
    exact hle.trans h

namespace SqDec

variable {d : SqDec}

/-! ### The rules of the header, the count and the nodes (R541 to R543) -/

theorem hdr_start (d : SqDec) (sum : Half) : d.hdr 0x76 0xFF sum = .go { d with sumWant := sum, pc := .count [] } := rfl

theorem hdr_badMagic {m0 m1 : Byte} (h : m0 ≠ 0x76 ∨ m1 ≠ 0xFF) (sum : Half) : d.hdr m0 m1 sum = .fail d .badMagic :=
  if_pos h

theorem count_zero (d : SqDec) : d.count 0 = .go { d with
    numnodes := 0, sum := 0, rstate := .normal, rval := 0, node := 0, rd := {}, pc := .tail } := rfl

theorem count_nodes {n : Half} (hmin : 0 < n.toNat) (hmax : n.toNat ≤ 256) :
    d.count n = .go { d with numnodes := n.toNat, pc := .node 0 [] } := by
  have hn : n ≠ 0 := fun h => by simp [h] at hmin
  exact (if_neg (Nat.not_lt.mpr hmax)).trans (if_neg hn)

theorem count_tooMany {n : Half} (h : 256 < n.toNat) : d.count n = .fail { d with numnodes := n.toNat } .badTree :=
  if_pos h

theorem nodeIndex?_of_pc {i : Nat} (h : d.pc = .node i []) : d.nodeIndex? = some i := by
  rw [nodeIndex?, h]

theorem nextNode_more {i : Nat} (h : i + 1 < d.numnodes) : d.nextNode i = .go { d with pc := .node (i + 1) [] } :=
  congrArg Run.go (if_pos h)

/-- After the last node the data section begins. -/
theorem nextNode_last {i : Nat} (h : i + 1 = d.numnodes) : d.nextNode i = .go { d with
    sum := 0, rstate := .normal, rval := 0, node := 0, rd := {}, pc := .data } := by
  have hpc : (if d.numnodes = 0 then SqPc.tail else .data) = .data := if_neg (by omega)
  rw [nextNode, if_neg (by omega), startData, hpc]
  rfl

theorem setRef_ok {r : Half} (h : d.refOk r = true) (i side : Nat) :
    d.setRef i side r = .go { d with dnode := Tab.put 0 d.dnode (2 * i + side) r.toInt } := if_pos h

theorem setRef_bad {r : Half} (h : ¬ d.refOk r = true) (i side : Nat) : d.setRef i side r = .fail d .badTree :=
  if_neg h

/-- Both references are stored, the left one first. -/
theorem node1_stored {l r : Half} (hl : d.refOk l = true) (hr : d.refOk r = true) (i : Nat) :
    d.node1 i l r = SqDec.nextNode { d with
      dnode := Tab.put 0 (Tab.put 0 d.dnode (2 * i) l.toInt) (2 * i + 1) r.toInt } i := by
  have hright (t : Tab Int) : SqDec.setRef { d with dnode := t } i 1 r =
      .go { d with dnode := Tab.put 0 t (2 * i + 1) r.toInt } := setRef_ok (d := { d with dnode := t }) hr i 1
  rw [node1, setRef_ok hl, Run.go_andThen, hright, Run.go_andThen]
  rfl

theorem node1_badTree {l r : Half} (h : ¬ d.refOk l = true ∨ ¬ d.refOk r = true) (i : Nat) :
    ∃ d', d.node1 i l r = .fail d' .badTree := by
  by_cases hl : d.refOk l = true
  · have hr := h.resolve_left (not_not.mpr hl)
    have hright (t : Tab Int) : SqDec.setRef { d with dnode := t } i 1 r = .fail { d with dnode := t } .badTree :=
      setRef_bad (d := { d with dnode := t }) hr i 1
    exact ⟨_, by rw [node1, setRef_ok hl, Run.go_andThen, hright, Run.fail_andThen]⟩
  · exact ⟨d, by rw [node1, setRef_bad hl, Run.fail_andThen, Run.fail_andThen]⟩

/-! ### The steps of the RLE expander (R547, R503) -/

theorem rleStep_delim (h : d.rstate = .normal) (layout : SqLayout) (delim : Byte) :
    d.rleStep layout delim delim = .go { d with rstate := .haveDelim } := by
  simp only [rleStep, h, if_true]

theorem rleStep_lit (h : d.rstate = .normal) (layout : SqLayout) {delim s : Byte} (hs : s ≠ delim) :
    d.rleStep layout delim s = d.rleLit layout s := by
  simp only [rleStep, h, if_neg hs]

theorem rleStep_value (h : d.rstate = .haveDelim) (delim s : Byte) :
    d.rleStep .doc delim s = .go { d with rval := s, rstate := .haveValue } := by
  simp only [rleStep, h]

theorem rleStep_esc (h : d.rstate = .haveDelim) (delim : Byte) : d.rleStep .usq delim 0 = d.usqEsc delim := by
  simp only [rleStep, h, if_true]

theorem rleStep_usqRun (h : d.rstate = .haveDelim) (delim : Byte) {s : Byte} (hs : s ≠ 0) :
    d.rleStep .usq delim s = d.usqRun s := by
  simp only [rleStep, h, if_neg hs]

theorem rleStep_count (h : d.rstate = .haveValue) (layout : SqLayout) (delim s : Byte) :
    d.rleStep layout delim s = d.rleRun d.rval s := by
  simp only [rleStep, h]

/-! ### The rules of the data section (R503, R545 to R548) -/

theorem AtCode.atCode (h : d.AtCode) : d.atCode = true :=
  Bool.and_eq_true_iff.mpr ⟨decide_eq_true h.1, decide_eq_true h.2⟩

/-- The walk to the leaf ends where it began. -/
theorem AtCode.sym (h : d.AtCode) (layout : SqLayout) (delim s : Byte) :
    d.sym layout delim s = d.rleStep layout delim s := by
  rw [SqDec.sym, ← h.2]

theorem atRle_of_normal (hpc : d.pc = .data) (h : d.rstate = .normal) : d.atRle = true :=
  Bool.and_eq_true_iff.mpr ⟨decide_eq_true hpc, decide_eq_true h⟩

theorem rleLit_go (d : SqDec) (layout : SqLayout) (b : Byte) :
    d.rleLit layout b = .go { (match layout with | .doc => d | .usq => { d with rval := b }) with
      sum := sumBytes d.sum [b] } [b] := by
  cases layout <;> rfl

/-- A run token leaves an expander that stands between tokens there. -/
theorem rleRun_normal (h : d.rstate = .normal) (v n : Byte) :
    d.rleRun v n = .go { d with rval := v, sum := sumBytes d.sum (List.replicate (n.toNat + 1) v) }
      (List.replicate (n.toNat + 1) v) := by
  rw [rleRun, ← h]
  rfl

/-- `DELIM n` repeats RVAL at most `n` times. -/
theorem usqCount_le {n : Byte} (h : n ≠ 0) : usqCount n ≤ n.toNat := by
  have hpos : n.toNat ≠ 0 := fun hn => h (BitVec.eq_of_toNat_eq hn)
  unfold usqCount
  split <;> omega

/-- Room for `n` bytes is room for the run that `DELIM n` stands for. -/
theorem hasRoom_usqRun {par : Params} {n : Byte} {k : Nat} (h : n ≠ 0) (hroom : hasRoom par (k + n.toNat) = true)
    (v : Byte) : hasRoom par (k + (List.replicate (usqCount n) v).length) = true := by
  rw [List.length_replicate]
  exact hasRoom_mono (Nat.add_le_add_left (usqCount_le h) k) hroom

theorem usqRun_normal (h : d.rstate = .normal) (n : Byte) :
    d.usqRun n = d.outBytes (List.replicate (usqCount n) d.rval) := by
  rw [usqRun, ← h]

theorem usqEsc_normal (h : d.rstate = .normal) (delim : Byte) : d.usqEsc delim = d.outBytes [delim] := by
  rw [usqEsc, ← h]

/-! The end code: the checks at the end of the stream, in their order. -/

theorem eofSym_truncated (h : d.rstate ≠ .normal) (full : Bool) :
    d.eofSym full = .fail { d with node := 0, rd := {} } .rleTruncated := if_pos h

theorem eofSym_checksum (h : d.rstate = .normal) (hsum : d.sum ≠ d.sumWant) :
    d.eofSym true = .fail { d with node := 0, rd := {} } .checksum :=
  (if_neg (not_not.mpr h)).trans (if_pos ⟨rfl, hsum⟩)

/-- A stream that ends between tokens, with its checksum if there is one, ends well. -/
theorem eofSym_ret (h : d.rstate = .normal) {full : Bool} (hsum : full = false ∨ d.sum = d.sumWant) :
    d.eofSym full = .ret { d with node := 0, rd := {}, pc := .done } := by
  have hpass : ¬ (full = true ∧ d.sum ≠ d.sumWant) := fun ⟨hfull, hne⟩ =>
    hsum.elim (fun hshort => Bool.false_ne_true (hshort.symm.trans hfull)) hne
  exact (if_neg (not_not.mpr h)).trans (if_neg hpass)

end SqDec

/-! ### The tokens on the state (log entry 3) -/

section
variable (s : State) (m0 m1 v n b : Byte) (sum count l r : Half) (name : List Byte) (bits : List Bool)

theorem exec_sqHdr : exec (.sqHdr m0 m1 sum name) s = s.onSq (fun _ d => decide (d.pc = .hdr [])) (fun _ _ => true)
    (fun _ d => d.hdr m0 m1 sum) := rfl

theorem exec_sqCount : exec (.sqCount count) s = s.onSq (fun _ d => decide (d.pc = .count [])) (fun _ _ => true)
    (fun _ d => d.count count) := rfl

theorem exec_sqNode : exec (.sqNode l r) s = s.onSq (fun _ d => d.nodeIndex?.isSome) (fun _ _ => true)
    (fun _ d => d.node1 (d.nodeIndex?.getD 0) l r) := rfl

theorem exec_sqSym : exec (.sqSym b) s = s.onSq (fun _ d => d.atCode) (fun _ d => d.hasLeaf b.toNat)
    (fun l d => d.sym s.par.sqLayout (sqDelim l) b) := rfl

theorem exec_sqEof : exec .sqEof s = s.onSq (fun _ d => d.atCode) (fun _ d => d.hasLeaf 256)
    (fun l d => d.eofSym (sqFullHdr l)) := rfl

theorem exec_sqPad : exec (.sqPad bits) s = execSqPad bits s := rfl

theorem exec_sqRleRun : exec (.sqRleRun v n) s = s.onSq (fun _ d => d.atRle)
    (fun _ _ => decide (s.par.sqLayout = .doc)) (fun _ d => d.rleRun v n) := rfl

theorem exec_sqRleLit : exec (.sqRleLit b) s = s.onSq (fun _ d => d.atRle) (fun l _ => decide (b ≠ sqDelim l))
    (fun _ d => d.rleLit s.par.sqLayout b) := rfl

theorem exec_usqRun : exec (.usqRun n) s = s.onSq (fun _ d => d.atRle)
    (fun _ _ => decide (s.par.sqLayout = .usq) && decide (n ≠ 0)) (fun _ d => d.usqRun n) := rfl

theorem exec_usqEsc : exec .usqEsc s = s.onSq (fun _ d => d.atRle) (fun _ _ => decide (s.par.sqLayout = .usq))
    (fun l d => d.usqEsc (sqDelim l)) := rfl

end

section
variable {s : State} {c : Ctx} {aw cls : LCfg → SqDec → Bool} {f : LCfg → SqDec → Run SqDec} {d : SqDec}
  {out : List Byte} {err : Err} {i : Instr} {b : Byte}

/-- A token whose rule goes on, without output, changes the decoder alone. -/
theorem exec_sq_goes (hi : exec i s = s.onSq aw cls f) (hc : s.cur = some c) (hdec : c.Decoding 3)
    (ha : aw c.lcfg c.eng.sqDec = true) (hcls : cls c.lcfg c.eng.sqDec = true)
    (hroom : hasRoom s.par c.outq.length = true) (hf : f c.lcfg c.eng.sqDec = .go d) :
    exec i s = .next (s.setCur { c with eng := { c.eng with sqDec := d } }) := by
  rw [hi, State.onSq_go hc hdec ha hcls hf hroom, Ctx.emit_nil]

theorem raises_sq (hi : exec i s = s.onSq aw cls f) (hc : s.cur = some c) (hdec : c.Decoding 3)
    (ha : aw c.lcfg c.eng.sqDec = true) (hcls : cls c.lcfg c.eng.sqDec = true)
    (hf : f c.lcfg c.eng.sqDec = .fail d err) : Raises i s c err :=
  ⟨{ c.eng with sqDec := d }, hi.trans (State.onSq_raise hc hdec ha hcls hf)⟩

/-- A symbol of the tree goes to the RLE expander. -/
theorem exec_sqSym_step (hc : s.cur = some c) (hdec : c.Decoding 3) (hat : c.eng.sqDec.AtCode)
    (hleaf : c.eng.sqDec.hasLeaf b.toNat = true)
    (hstep : c.eng.sqDec.rleStep s.par.sqLayout (sqDelim c.lcfg) b = .go d out)
    (hroom : hasRoom s.par (c.outq.length + out.length) = true) :
    exec (.sqSym b) s = .next (s.setCur (c.emit out { c.eng with sqDec := d })) :=
  (exec_sqSym s b).trans
    (State.onSq_go hc hdec hat.atCode hleaf ((hat.sym s.par.sqLayout (sqDelim c.lcfg) b).trans hstep) hroom)

/-- Input left over at a natural end is counted, with its warning (R236). -/
theorem Ctx.trail_inq_length (c : Ctx) : c.trail c.inq.length = { c with
    trailCount := c.trailCount + BitVec.ofNat 32 c.inq.length,
    warn := if c.inq = [] then c.warn else c.warn ||| 1 } := by
  by_cases h : c.inq = []
  · rw [if_pos h, List.length_eq_zero_iff.mpr h, Ctx.trail_zero, BitVec.add_zero]
  · obtain ⟨k, hk⟩ := Nat.exists_eq_succ_of_ne_zero (mt List.eq_nil_of_length_eq_zero h)
    rw [hk, Ctx.trail_succ, if_neg h]
    rfl

end

/-! ### The statements -/

/-- Settles O43: the magic is checked, and the count is compared with 0 and 256. -/
theorem squeezeHeaderAndCount : Obligations.SqueezeHeaderAndCount := by
  intro s c m0 m1 sum n name hc hdec hroom d upd
  refine ⟨fun hpc => ?hdr, fun hpc => ?count⟩
  case hdr =>
    have hat := decide_eq_true hpc
    have hi := exec_sqHdr s m0 m1 sum name
    refine ⟨fun h0 h1 => ?_, fun hmagic => raises_sq hi hc hdec hat rfl (SqDec.hdr_badMagic hmagic sum)⟩
    subst h0 h1
    exact exec_sq_goes hi hc hdec hat rfl hroom (SqDec.hdr_start d sum)
  case count =>
    have hat := decide_eq_true hpc
    have hi := exec_sqCount s n
    refine ⟨fun hzero => ?_,
      fun hmin hmax => exec_sq_goes hi hc hdec hat rfl hroom (SqDec.count_nodes hmin hmax),
      fun hmany => raises_sq hi hc hdec hat rfl (SqDec.count_tooMany hmany)⟩
    subst hzero
    exact exec_sq_goes hi hc hdec hat rfl hroom (SqDec.count_zero d)

/-- Settles O44: the references are checked one by one, and the entry's index tells the last. -/
theorem squeezeNodeIsChecked : Obligations.SqueezeNodeIsChecked := by
  intro s c l r i hc hdec hpc hroom d ok dn upd
  have hindex := SqDec.nodeIndex?_of_pc hpc
  have hat : d.nodeIndex?.isSome = true := by rw [hindex]; rfl
  have hrule : d.node1 (d.nodeIndex?.getD 0) l r = d.node1 i l r := by rw [hindex]; rfl
  have hi := exec_sqNode s l r
  have hstored (hl : ok l) (hr : ok r) : d.node1 (d.nodeIndex?.getD 0) l r = { d with dnode := dn }.nextNode i :=
    hrule.trans (SqDec.node1_stored ((d.refOk_iff l).mpr hl) ((d.refOk_iff r).mpr hr) i)
  refine ⟨fun hl hr hmore => ?more, fun hl hr hlast => ?last, fun hbad => ?bad⟩
  case more => exact exec_sq_goes hi hc hdec hat rfl hroom ((hstored hl hr).trans (SqDec.nextNode_more hmore))
  case last => exact exec_sq_goes hi hc hdec hat rfl hroom ((hstored hl hr).trans (SqDec.nextNode_last hlast))
  case bad =>
    obtain ⟨d', hd'⟩ := SqDec.node1_badTree (d := d)
      (hbad.imp (mt (d.refOk_iff l).mp) (mt (d.refOk_iff r).mp)) i
    exact raises_sq hi hc hdec hat rfl (hrule.trans hd')

/-- Settles O45: the symbol takes the step of the RLE expander that RSTATE and the layout select. -/
theorem squeezeSymbolFeedsTheRleExpander : Obligations.SqueezeSymbolFeedsTheRleExpander := by
  intro s c b hc hdec hat hleaf d delim upd room
  have hfeeds {out : List Byte} {d' : SqDec}
      (hstep : d.rleStep s.par.sqLayout delim b = .go { d' with sum := sumBytes d.sum out } out)
      (hroom : room out.length) : exec (.sqSym b) s = .next (s.setCur (upd out d')) :=
    exec_sqSym_step hc hdec hat hleaf hstep hroom
  refine ⟨fun hstate hb hroom => ?delim, fun hstate hb hroom => ?lit, fun hlayout hstate hroom => ?value,
    fun hstate hroom => ?run, fun hlayout hstate => ⟨fun hb hroom => ?esc, fun hb hroom => ?usqRun⟩⟩
  case delim =>
    refine hfeeds ?_ hroom
    rw [hb]
    exact SqDec.rleStep_delim hstate _ delim
  case lit => exact hfeeds ((SqDec.rleStep_lit hstate _ hb).trans (d.rleLit_go _ b)) hroom
  case value =>
    refine hfeeds ?_ hroom
    rw [hlayout]
    exact SqDec.rleStep_value hstate delim b
  case run => exact hfeeds (SqDec.rleStep_count hstate _ delim b) (by rwa [List.length_replicate])
  case esc =>
    refine hfeeds ?_ hroom
    rw [hlayout, hb]
    exact SqDec.rleStep_esc hstate delim
  case usqRun =>
    refine hfeeds ?_ (SqDec.hasRoom_usqRun hb hroom d.rval)
    rw [hlayout]
    exact SqDec.rleStep_usqRun hstate delim hb

/-- Settles O46: the checks of the end come in their order, and a procedure that passes them returns. -/
theorem squeezeEofEndsTheStream : Obligations.SqueezeEofEndsTheStream := by
  intro s c hc hdec hat hleaf hroom d full
  have hi := exec_sqEof s
  refine ⟨fun hstate => ?truncated, fun hstate hfull hsum => ?checksum, fun hstate hsum => ?ends⟩
  case truncated => exact raises_sq hi hc hdec hat.atCode hleaf (SqDec.eofSym_truncated hstate full)
  case checksum =>
    exact raises_sq hi hc hdec hat.atCode hleaf
      ((congrArg d.eofSym hfull).trans (SqDec.eofSym_checksum hstate hsum))
  case ends =>
    rw [hi, State.onSq_ret hc hdec hat.atCode hleaf (SqDec.eofSym_ret hstate hsum) hroom, Ctx.trail_inq_length]

/-- Settles O47: the bits left in the byte were dropped at the natural end, and are dropped again. -/
theorem squeezePaddingIsDiscarded : Obligations.SqueezePaddingIsDiscarded := by
  intro s c bits hc hst hdir heng hpc hbits
  have hawaited : (decide (c.st = .active) && c.dir && decide (c.engine = 3) && decide (c.eng.sqDec.pc = .done)) =
      true := by simp [hst, hdir, heng, hpc]
  refine (exec_sqPad s bits).trans
    (State.onCtx_ok hc (r := ({ c with eng := { c.eng with sqDec := c.eng.sqDec.padBits } }, s.free)) ?_)
  exact (if_pos hawaited).trans (if_pos hbits)

/-- Settles O48: between tokens each token has one rule, which leaves the expander there. -/
theorem squeezeRleTokens : Obligations.SqueezeRleTokens := by
  intro s c v n b hc hdec hpc hstate d delim upd room
  have hat := SqDec.atRle_of_normal hpc hstate
  refine ⟨fun hlayout hroom => ?run, fun hb hroom => ?lit, fun hlayout hn hroom => ?usqRun,
    fun hlayout hroom => ?esc⟩
  case run =>
    exact (exec_sqRleRun s v n).trans (State.onSq_go hc hdec hat (decide_eq_true hlayout)
      (SqDec.rleRun_normal hstate v n) (by rwa [List.length_replicate]))
  case lit =>
    exact (exec_sqRleLit s b).trans (State.onSq_go hc hdec hat (decide_eq_true hb) (d.rleLit_go _ b) hroom)
  case usqRun =>
    have hcls := Bool.and_eq_true_iff.mpr ⟨decide_eq_true hlayout, decide_eq_true hn⟩
    exact (exec_usqRun s n).trans (State.onSq_go hc hdec hat hcls (SqDec.usqRun_normal hstate n)
      (SqDec.hasRoom_usqRun hn hroom d.rval))
  case esc =>
    exact (exec_usqEsc s).trans (State.onSq_go hc hdec hat (decide_eq_true hlayout)
      (SqDec.usqEsc_normal hstate delim) hroom)

end Sys2Proof.Machine
end

section
/-! PROOFS. The Squeeze RLE form in layout DOC (R302, R501, R547): the expander gives back each run of the pass, and so the
bytes. -/

namespace Sys2Proof.Machine

open Sys2Proof

namespace SqDec

variable {delim : Byte}

/-! ### What a list of symbols is expanded to -/

/-- One symbol goes to the expander, and its output is appended. -/
def rleFeed (delim : Byte) (a : SqDec × List Byte) (b : Byte) : SqDec × List Byte :=
  ((a.1.rleStep .doc delim b).st, a.2 ++ (a.1.rleStep .doc delim b).out)

/-- Between tokens, the symbols `syms` output exactly `out`, add it to SUM, and end between tokens. -/
def RleExpands (delim : Byte) (syms out : List Byte) : Prop :=
  ∀ (d : SqDec) (before : List Byte), d.rstate = .normal →
    ∃ d', syms.foldl (rleFeed delim) (d, before) = (d', before ++ out) ∧
      d'.rstate = .normal ∧ d'.sum = sumBytes d.sum out

namespace RleExpands

theorem nil : RleExpands delim [] [] :=
  fun d before hnormal => ⟨d, by rw [List.append_nil, List.foldl_nil], hnormal, rfl⟩

theorem append {syms syms' out out' : List Byte} (h : RleExpands delim syms out) (h' : RleExpands delim syms' out') :
    RleExpands delim (syms ++ syms') (out ++ out') := by
  intro d before hnormal
  obtain ⟨d1, hfold, hnormal1, hsum⟩ := h d before hnormal
  obtain ⟨d2, hfold', hnormal2, hsum'⟩ := h' d1 (before ++ out) hnormal1
  refine ⟨d2, ?_, hnormal2, ?_⟩
  · rw [List.foldl_append, hfold, hfold', List.append_assoc]
  · rw [hsum', hsum, sumBytes, sumBytes, sumBytes, List.foldl_append]

/-- A symbol other than DELIM stands for itself. -/
theorem lit {b : Byte} (hb : b ≠ delim) : RleExpands delim [b] [b] := by
  intro d before hnormal
  refine ⟨{ d with sum := sumBytes d.sum [b] }, ?_, hnormal, rfl⟩
  rw [List.foldl_cons, List.foldl_nil, rleFeed, rleStep_lit hnormal .doc hb]
  rfl

/-- DELIM, a value and a count stand for a run. -/
theorem run (v n : Byte) : RleExpands delim [delim, v, n] (List.replicate (n.toNat + 1) v) := by
  intro d before hnormal
  have hdelim : rleFeed delim (d, before) delim = ({ d with rstate := .haveDelim }, before) := by
    rw [rleFeed, rleStep_delim hnormal]
    exact congrArg _ (List.append_nil before)
  have hvalue : rleFeed delim ({ d with rstate := .haveDelim }, before) v =
      ({ d with rval := v, rstate := .haveValue }, before) := by
    rw [rleFeed, rleStep_value rfl]
    exact congrArg _ (List.append_nil before)
  refine ⟨({ d with rval := v, rstate := .haveValue }.rleRun v n).st, ?_, rfl, rfl⟩
  rw [List.foldl_cons, hdelim, List.foldl_cons, hvalue, List.foldl_cons, List.foldl_nil, rleFeed, rleStep_count rfl]
  rfl

theorem replicate {b : Byte} (hb : b ≠ delim) : ∀ n, RleExpands delim (List.replicate n b) (List.replicate n b)
  | 0 => nil
  | n + 1 => (lit hb).append (replicate hb n)

/-- The code of a run that a count byte can hold (R302). -/
theorem emit {n : Nat} (hmin : 1 ≤ n) (hmax : n ≤ 256) (threshold : Nat) (v : Byte) :
    RleExpands delim (rleEmit delim threshold (v, n)) (List.replicate n v) := by
  by_cases hcoded : threshold ≤ n ∨ v = delim
  · have hcount : (BitVec.ofNat 8 (n - 1)).toNat + 1 = n := by
      rw [BitVec.toNat_ofNat, Nat.mod_eq_of_lt (by omega), Nat.sub_add_cancel hmin]
    rw [rleEmit, if_pos hcoded]
    simpa only [hcount] using run (delim := delim) v (BitVec.ofNat 8 (n - 1))
  · rw [rleEmit, if_neg hcoded]
    exact replicate (fun hv => hcoded (.inr hv)) n

/-- The codes of the runs that follow `n` bytes `v`. -/
theorem runs (threshold : Nat) : ∀ (xs : List Byte) (v : Byte) (n : Nat), 1 ≤ n → n ≤ 256 →
    RleExpands delim ((rleRuns 256 v n xs).flatMap (rleEmit delim threshold)) (List.replicate n v ++ xs)
  | [], v, n, hmin, hmax => by
    rw [rleRuns, List.flatMap_singleton, List.append_nil]
    exact emit hmin hmax threshold v
  | x :: xs, v, n, hmin, hmax => by
    rw [rleRuns]
    split
    · next hjoins =>
      obtain ⟨rfl, hlt⟩ := hjoins
      have hrun := runs threshold xs x (n + 1) (by omega) hlt
      rwa [List.replicate_succ', List.append_assoc, List.singleton_append] at hrun
    · exact (emit hmin hmax threshold v).append (runs threshold xs x 1 le_rfl (by decide))

/-- The RLE form of any bytes (R302). -/
theorem rleEncode (threshold : Nat) : ∀ x : List Byte, RleExpands delim (Machine.rleEncode x delim threshold) x
  | [] => nil
  | x :: xs => runs threshold xs x 1 le_rfl (by decide)

end RleExpands

end SqDec

/-- Settles O59: the runs of the pass are expanded one by one. -/
theorem squeezeRleRoundTrip : Obligations.SqueezeRleRoundTrip := by
  intro x delim d hnormal step r
  obtain ⟨d', hfold, hnormal', hsum⟩ := SqDec.RleExpands.rleEncode (delim := delim) Config.sqThreshold x d [] hnormal
  have hr : r = (d', x) := hfold
  rw [hr]
  exact ⟨rfl, hnormal', hsum⟩

end Sys2Proof.Machine
end

section
/-! PROOFS. The ZX0 stream tokens (R641 to R645): what the copy and each token rule do to the decoder, then each token's
effect on the state. -/

namespace Sys2Proof.Machine

open Sys2Proof

namespace ZxDec

variable {d : ZxDec}

/-! ### The copy (R642, R648) -/

theorem copyHist_succ (off n : Nat) (h : List Byte) :
    copyHist off (n + 1) h = (h.getD (off - 1) 0 :: (copyHist off n (h.getD (off - 1) 0 :: h)).1,
      (copyHist off n (h.getD (off - 1) 0 :: h)).2) := rfl

@[simp] theorem copyHist_length (off : Nat) : ∀ (n : Nat) (h : List Byte), (copyHist off n h).1.length = n
  | 0, _ => rfl
  | n + 1, h => congrArg (· + 1) (copyHist_length off n (h.getD (off - 1) 0 :: h))

/-- HIST after a copy, the newest byte first. -/
theorem copyHist_hist (off : Nat) : ∀ (n : Nat) (h : List Byte),
    (copyHist off n h).2 = (copyHist off n h).1.reverse ++ h
  | 0, _ => rfl
  | n + 1, h => by
    rw [copyHist_succ, List.reverse_cons, List.append_assoc, List.singleton_append]
    exact copyHist_hist off n (h.getD (off - 1) 0 :: h)

/-- Each byte is read `off` bytes back from where it is written (R648). The first byte of the copy joins HIST before
the rest is read, so the rest finds it in front of HIST and every older byte one place further on. -/
theorem copyHist_getElem? {off : Nat} (hoff : 1 ≤ off) : ∀ {n i : Nat} {h : List Byte}, off ≤ h.length → i < n →
    (copyHist off n h).1[i]? = if i < off then h[off - 1 - i]? else (copyHist off n h).1[i - off]?
  | n + 1, 0, h, hlen, _ => by
    rw [copyHist_succ, if_pos (Nat.lt_of_succ_le hoff), List.getElem?_cons_zero, Nat.sub_zero,
      List.getD_eq_getElem?_getD, List.getElem?_eq_getElem (by omega), Option.getD_some]
  | n + 1, i + 1, h, hlen, hi => by
    have ih := copyHist_getElem? (n := n) (i := i) (h := h.getD (off - 1) 0 :: h) hoff
      (Nat.le_succ_of_le hlen) (Nat.lt_of_succ_lt_succ hi)
    rw [copyHist_succ, List.getElem?_cons_succ, ih]
    rcases Nat.lt_trichotomy (i + 1) off with hlt | rfl | hgt
    · rw [if_pos (by omega), if_pos hlt, show off - 1 - i = off - 1 - (i + 1) + 1 by omega, List.getElem?_cons_succ]
    · rw [if_pos i.lt_succ_self, if_neg (Nat.lt_irrefl _), Nat.add_sub_cancel, Nat.sub_self, Nat.sub_self]
      rfl
    · rw [if_neg (by omega), if_neg (by omega), Nat.sub_add_comm (by omega), List.getElem?_cons_succ]

/-! ### The rules of the tokens (R641 to R645) -/

theorem copy_go {len : Nat} (h : d.lastOffset ≤ d.hist.length) :
    d.copy len = .go { d with hist := (copyHist d.lastOffset len d.hist).2 } (copyHist d.lastOffset len d.hist).1 :=
  if_neg (Nat.not_lt.mpr h)

theorem copy_badOffset (h : d.hist.length < d.lastOffset) (len : Nat) : d.copy len = .fail d .badOffset := if_pos h

theorem rep_eq_copy (d : ZxDec) (len : Nat) :
    d.rep len = ZxDec.copy { d with zstate := .copyFromLastOffset, pc := .indic } len := rfl

theorem newMatch_eq_copy (d : ZxDec) (msb : Nat) (b : Byte) (len : Nat) : d.newMatch msb b len =
    ZxDec.copy { d with lastOffset := zx0Offset msb b, zstate := .copyFromNewOffset, pc := .indic } len := rfl

theorem endMarker_eq_ret (d : ZxDec) : d.endMarker = .ret { d with zstate := .done, pc := .done } := rfl

/-! Where each token can stand (R184). -/

theorem atToken_of_start (h : d.pc = .start) : d.atToken = true :=
  Bool.or_eq_true_iff.mpr (.inl (decide_eq_true h))

theorem atToken_of_indic (h : d.pc = .indic) : d.atToken = true :=
  Bool.or_eq_true_iff.mpr (.inr (decide_eq_true h))

theorem literalsHere_of_start (h : d.pc = .start) : d.literalsHere = true :=
  Bool.or_eq_true_iff.mpr (.inl (decide_eq_true h))

theorem literalsHere_of_zstate (h : d.zstate ≠ .copyLiterals) : d.literalsHere = true :=
  Bool.or_eq_true_iff.mpr (.inr (decide_eq_true h))

theorem repHere_of_zstate (hpc : d.pc = .indic) (h : d.zstate = .copyLiterals) : d.repHere = true :=
  Bool.and_eq_true_iff.mpr ⟨decide_eq_true hpc, decide_eq_true h⟩

theorem newHere_of_indic (h : d.pc = .indic) : d.newHere = true := decide_eq_true h

/-- The operands of ZX0.NEW: the raw byte of the offset holds the first bit of the length (R186). -/
theorem newOperands_ok {msb b : Byte} {len : Nat} (hmsb : msb ≠ 0) (hlen : 2 ≤ len)
    (hfirst : b.getLsbD 0 = true ↔ len = 2) :
    (decide (msb ≠ 0) && decide (2 ≤ len) && (b.getLsbD 0 == decide (len = 2))) = true := by
  have hbit : b.getLsbD 0 = decide (len = 2) := Bool.eq_iff_iff.mpr (hfirst.trans decide_eq_true_iff.symm)
  rw [decide_eq_true hmsb, decide_eq_true hlen, hbit, beq_self_eq_true]
  rfl

end ZxDec

/-! ### The tokens on the state (log entry 3) -/

section
variable (s : State) (bytes : List Byte) (msb b : Byte) (len : Nat)

theorem exec_zx0Literals : exec (.zx0Literals bytes) s = s.onZx ZxDec.atToken
    (fun d => d.literalsHere && decide (1 ≤ bytes.length)) (fun d => d.literals bytes) := rfl

theorem exec_zx0Rep : exec (.zx0Rep len) s = s.onZx ZxDec.atToken (fun d => d.repHere && decide (1 ≤ len))
    (fun d => d.rep len) := rfl

theorem exec_zx0New : exec (.zx0New msb b len) s = s.onZx ZxDec.atToken
    (fun d => d.newHere && (decide (msb ≠ 0) && decide (2 ≤ len) && (b.getLsbD 0 == decide (len = 2))))
    (fun d => d.newMatch msb.toNat b len) := rfl

theorem exec_zx0End : exec .zx0End s = s.onZx ZxDec.atToken ZxDec.newHere ZxDec.endMarker := rfl

end

section
variable {s : State} {c : Ctx} {cls : ZxDec → Bool} {f : ZxDec → Run ZxDec} {d : ZxDec} {i : Instr} {len : Nat}

/-- A token whose rule comes to a copy that HIST reaches outputs the copy. -/
theorem exec_zx_copy (hi : exec i s = s.onZx ZxDec.atToken cls f) (hc : s.cur = some c) (hdec : c.Decoding 4)
    (hpc : c.eng.zxDec.pc = .indic) (hcls : cls c.eng.zxDec = true) (hf : f c.eng.zxDec = d.copy len)
    (hoff : d.lastOffset ≤ d.hist.length) (hroom : hasRoom s.par (c.outq.length + len) = true) :
    exec i s = .next (s.setCur (c.emit (ZxDec.copyHist d.lastOffset len d.hist).1 { c.eng with zxDec :=
      { d with hist := (ZxDec.copyHist d.lastOffset len d.hist).2 } })) :=
  hi.trans (State.onZx_go hc hdec (ZxDec.atToken_of_indic hpc) hcls (hf.trans (ZxDec.copy_go hoff))
    (by rwa [ZxDec.copyHist_length]))

/-- A token whose rule comes to a copy from before the start of the output raises (R645). -/
theorem raises_zx_copy (hi : exec i s = s.onZx ZxDec.atToken cls f) (hc : s.cur = some c) (hdec : c.Decoding 4)
    (hpc : c.eng.zxDec.pc = .indic) (hcls : cls c.eng.zxDec = true) (hf : f c.eng.zxDec = d.copy len)
    (hoff : d.hist.length < d.lastOffset) : Raises i s c .badOffset :=
  ⟨{ c.eng with zxDec := d }, hi.trans
    (State.onZx_raise hc hdec (ZxDec.atToken_of_indic hpc) hcls (hf.trans (ZxDec.copy_badOffset hoff len)))⟩

end

/-! ### The statements -/

/-- Settles O60: the copy is unrolled byte by byte, and each byte joins HIST before the next is read. -/
theorem zx0CopyReadsItsOwnOutput : Obligations.Zx0CopyReadsItsOwnOutput := fun off n h hoff hlen =>
  ⟨ZxDec.copyHist_length off n h, ZxDec.copyHist_hist off n h, fun _ => ZxDec.copyHist_getElem? hoff hlen⟩

/-- Settles O49: literals are taken at the start and after a copy; the end marker returns from the procedure, which is
the natural end. -/
theorem zx0LiteralsAndEnd : Obligations.Zx0LiteralsAndEnd := by
  intro s c bytes hc hdec d
  refine ⟨fun hplace hlen hroom => ?literals, fun hpc hroom => ?ends⟩
  case literals =>
    obtain ⟨hat, hhere⟩ : d.atToken = true ∧ d.literalsHere = true := by
      rcases hplace with hpc | ⟨hpc, hstate⟩
      · exact ⟨ZxDec.atToken_of_start hpc, ZxDec.literalsHere_of_start hpc⟩
      · exact ⟨ZxDec.atToken_of_indic hpc, ZxDec.literalsHere_of_zstate hstate⟩
    exact (exec_zx0Literals s bytes).trans (State.onZx_go hc hdec hat
      (Bool.and_eq_true_iff.mpr ⟨hhere, decide_eq_true hlen⟩) rfl hroom)
  case ends =>
    rw [exec_zx0End, State.onZx_ret hc hdec (ZxDec.atToken_of_indic hpc) (ZxDec.newHere_of_indic hpc)
      d.endMarker_eq_ret hroom, Ctx.trail_inq_length]

/-- Settles O50: both rules come to one copy, ZX0.REP with the last offset and ZX0.NEW with the offset it has stored as
the last. -/
theorem zx0CopiesFromHistory : Obligations.Zx0CopiesFromHistory := by
  intro s c msb b len hc hdec hpc d off upd
  refine ⟨fun hstate hlen => ?rep, fun hmsb hlen hfirst => ?new⟩
  case rep =>
    have hi := exec_zx0Rep s len
    have hcls := Bool.and_eq_true_iff.mpr ⟨ZxDec.repHere_of_zstate hpc hstate, decide_eq_true hlen⟩
    have hrule := d.rep_eq_copy len
    have hcopies := exec_zx_copy hi hc hdec hpc hcls hrule
    have hraises := raises_zx_copy hi hc hdec hpc hcls hrule
    exact ⟨hcopies, hraises⟩
  case new =>
    have hi := exec_zx0New s msb b len
    have hcls := Bool.and_eq_true_iff.mpr ⟨ZxDec.newHere_of_indic hpc, ZxDec.newOperands_ok hmsb hlen hfirst⟩
    have hrule := d.newMatch_eq_copy msb.toNat b len
    have hcopies := exec_zx_copy hi hc hdec hpc hcls hrule
    have hraises := raises_zx_copy hi hc hdec hpc hcls hrule
    exact ⟨hcopies, hraises⟩

end Sys2Proof.Machine
end

section
/-! PROOFS. Error entry (R710, R712), and the classes of the errors that the engine procedures and the token rules
raise: expand only CORRUPT, compress only INTERNAL (R702, R703). -/

namespace Sys2Proof.Machine

open Sys2Proof

/-! ### Error entry -/

/-- Settles O11: error entry while IDLE and in an open instance; the instance is then in ERROR with OUTQ empty. -/
theorem errorEntryDiscardsAndRecords : Obligations.ErrorEntryDiscardsAndRecords := by
  intro c e
  refine ⟨c.raise_err e, fun hidle => ?idle, fun hopen => ⟨?entry, ?outEnd, ?dout⟩⟩
  case idle =>
    rw [c.raise_err e]
    exact Ctx.raise_idle hidle e
  case entry =>
    rw [c.raise_err e]
    exact Ctx.raise_open hopen e
  case outEnd =>
    rw [Ctx.status_getLsbD]
    exact Ctx.outEnd_iff _ |>.mpr (.inr (by simp [hopen]))
  case dout =>
    have hst : (c.raise e).st = .error := by simp [hopen]
    have houtq : (c.raise e).outq = [] := by rw [Ctx.raise_open hopen]
    rw [Ctx.produceCmd_open (hst ▸ by decide), Ctx.take_nil houtq, hst]
    rfl

/-! ### Classes of errors (R45, R702, R703) -/

/-- The errors of class CORRUPT. -/
abbrev Err.IsCorrupt (e : Err) : Prop := e.cls = 2

/-- The errors of class INTERNAL. -/
abbrev Err.IsInternal (e : Err) : Prop := e.cls = 3

/-- ERR.CLASS of an error's word. -/
theorem Err.errClass_word (e : Err) : errClass e.word = e.cls := by
  cases e <;> rfl

/-- The errors that can arise in the direction of `c`: none of INTERNAL in expand, none of CORRUPT in compress. -/
def Ctx.Allows (c : Ctx) (e : Err) : Prop := if c.dir then ¬ e.IsInternal else ¬ e.IsCorrupt

theorem Ctx.allows_of_not {e : Err} (c : Ctx) (hcorrupt : ¬ e.IsCorrupt) (hinternal : ¬ e.IsInternal) : c.Allows e := by
  unfold Allows
  split
  · exact hinternal
  · exact hcorrupt

theorem Ctx.allows_corrupt {c : Ctx} (hdir : c.dir = true) {e : Err} (h : e.IsCorrupt) : c.Allows e := by
  rw [Allows, if_pos hdir, Err.IsInternal, h]
  decide

theorem Ctx.allows_internal {c : Ctx} (hdir : c.dir = false) {e : Err} (h : e.IsInternal) : c.Allows e := by
  rw [Allows, if_neg (by simp [hdir]), Err.IsCorrupt, h]
  decide

/-! ### The errors that a stretch of a procedure can end in -/

/-- If the stretch `r` raises, its error meets `P`. -/
def Run.RaisesOnly {σ : Type} (P : Err → Prop) (r : Run σ) : Prop := ∀ e, r.sig = .raised e → P e

section
variable {σ : Type} {P : Err → Prop} {r : Run σ} {f : σ → Run σ} {s : σ}

theorem Run.RaisesOnly.of_running (h : r.sig = .running) : r.RaisesOnly P := fun _ he => by simp [h] at he

theorem Run.RaisesOnly.of_returned (h : r.sig = .returned) : r.RaisesOnly P := fun _ he => by simp [h] at he

theorem Run.RaisesOnly.go {o : List Byte} : (Run.go s o).RaisesOnly P := .of_running rfl

theorem Run.RaisesOnly.ret : (Run.ret s).RaisesOnly P := .of_returned rfl

theorem Run.RaisesOnly.fail {e : Err} (h : P e) : (Run.fail s e).RaisesOnly P := by
  rintro _ ⟨⟩
  exact h

theorem Run.RaisesOnly.mono {Q : Err → Prop} (hr : r.RaisesOnly P) (h : ∀ e, P e → Q e) : r.RaisesOnly Q :=
  fun e he => h e (hr e he)

theorem Run.RaisesOnly.andThen (hr : r.RaisesOnly P) (hf : ∀ s, (f s).RaisesOnly P) : (r.andThen f).RaisesOnly P := by
  by_cases h : r.sig = .running
  · rw [Run.andThen_running f h]
    exact hf r.st
  · rw [Run.andThen_stopped f h]
    exact hr

theorem Proc.feed_raisesOnly (p : Proc σ) (hbyte : ∀ s b, (p.byte s b).RaisesOnly P) (inq : List Byte) (s : σ) :
    (p.feed inq s).1.RaisesOnly P := by
  induction inq generalizing s with
  | nil => exact .go
  | cons b bs ih =>
    simp only [Proc.feed]
    split
    · exact ih (p.byte s b).st
    · exact hbyte s b

/-- A drive of a procedure raises only what its parts raise (R221). -/
theorem Proc.drive_raisesOnly (p : Proc σ) (hsettle : ∀ s, (p.settle s).RaisesOnly P)
    (hbyte : ∀ s b, (p.byte s b).RaisesOnly P) (heof : ∀ s, (p.eof s).RaisesOnly P) (ended : Bool) (inq : List Byte)
    (s : σ) : (p.drive ended inq s).1.RaisesOnly P := by
  simp only [Proc.drive]
  split
  · exact .go
  · split
    · have hfeed := p.feed_raisesOnly hbyte inq (p.settle s).st
      split
      · exact Run.RaisesOnly.andThen hfeed heof
      · exact hfeed
    · exact hsettle s

end

/-! ### NuFX (R340 to R370) -/

/-- NuFX compress raises no error, so what it raises meets every `P`. -/
theorem NufxEnc.drive_raisesOnly {P : Err → Prop} (par : Params) (lzw2 : Bool) (l : LCfg) (ended : Bool)
    (inq : List Byte) (e : NufxEnc) : ((nufxEncProc par lzw2 l).drive ended inq e).1.RaisesOnly P := by
  have hclose (delim : Byte) (e : NufxEnc) : (e.closeChunk par lzw2 delim).RaisesOnly P := by
    unfold closeChunk
    split <;> exact .go
  have hfinalize (e : NufxEnc) : (e.finalize lzw2 l).RaisesOnly P := .of_returned rfl
  refine Proc.drive_raisesOnly _ (fun _ => .go) (fun e b => ?byte) (fun e => ?eof) ended inq e
  case byte =>
    change (e.byte par lzw2 l b).RaisesOnly P
    simp only [byte]
    split
    · exact .go
    · exact hclose _ _
  case eof =>
    change (e.eof par lzw2 l).RaisesOnly P
    unfold eof
    split
    · exact hfinalize e
    · exact .andThen (hclose _ _) hfinalize

namespace NufxDec

variable (d : NufxDec)

theorem invalidErr_isCorrupt : d.invalidErr.IsCorrupt := by
  unfold invalidErr
  split <;> rfl

theorem applyCode_raisesCorrupt (code : Nat) : (d.applyCode code).RaisesOnly Err.IsCorrupt := by
  unfold applyCode
  split
  case h_5 => exact .fail d.invalidErr_isCorrupt
  all_goals exact .go

theorem rleRun_raisesCorrupt (v n : Byte) : (d.rleRun v n).RaisesOnly Err.IsCorrupt := by
  simp only [rleRun]
  split
  · exact .fail rfl
  · exact .go

theorem rleLit_raisesCorrupt (b : Byte) : (d.rleLit b).RaisesOnly Err.IsCorrupt := by
  simp only [rleLit]
  split
  · exact .fail rfl
  · exact .go

theorem chunk1_raisesCorrupt (rlelen : Half) (flag : Byte) : (d.chunk1 rlelen flag).RaisesOnly Err.IsCorrupt := by
  simp only [chunk1]
  split
  · exact .fail rfl
  · exact .go

theorem chunk2_raisesCorrupt (w clen : Half) : (d.chunk2 w clen).RaisesOnly Err.IsCorrupt := by
  simp only [chunk2]
  split
  · exact .fail rfl
  · exact .go

theorem loopHead_raisesCorrupt (lzw2 : Bool) : (d.loopHead lzw2).RaisesOnly Err.IsCorrupt := by
  unfold loopHead
  split
  · exact .go
  · split
    · exact .fail rfl
    · exact .ret

variable (par : Params) (lzw2 : Bool)

theorem chunkDone_raisesCorrupt : (d.chunkDone par lzw2).RaisesOnly Err.IsCorrupt :=
  .andThen .go fun d => d.loopHead_raisesCorrupt lzw2

theorem rleLoop_raisesCorrupt (ys : List Byte) : (d.rleLoop par lzw2 ys).RaisesOnly Err.IsCorrupt := by
  induction d, ys using rleLoop.induct with
  | case1 d hfull =>
    rw [rleLoop_nil, if_pos hfull]
    exact chunkDone_raisesCorrupt _ par lzw2
  | case2 d hshort =>
    rw [rleLoop_nil, if_neg hshort]
    exact .fail rfl
  | case3 d v n rest d1 out hrun ih =>
    rw [rleLoop.eq_def]
    simp only [if_true, hrun]
    exact ih
  | case4 d v n rest hstop =>
    rw [rleLoop.eq_def]
    simp only [if_true]
    exact d.rleRun_raisesCorrupt v n
  | case5 d bs hshort =>
    rw [rleLoop.eq_def]
    simp only [if_true]
    exact .fail rfl
  | case6 d b bs hb d1 out hlit ih =>
    rw [rleLoop.eq_def]
    simp only [hb, if_false, hlit]
    exact ih
  | case7 d b bs hb hstop =>
    rw [rleLoop.eq_def]
    simp only [hb, if_false]
    exact d.rleLit_raisesCorrupt b

theorem stage1Done_raisesCorrupt : (d.stage1Done par lzw2).RaisesOnly Err.IsCorrupt := by
  simp only [stage1Done]
  split
  · exact chunkDone_raisesCorrupt _ par lzw2
  · exact rleLoop_raisesCorrupt _ par lzw2 _

theorem settle_raisesCorrupt : (d.settle par lzw2).RaisesOnly Err.IsCorrupt := by
  unfold settle
  split
  case h_1 => exact d.loopHead_raisesCorrupt lzw2
  case h_2 =>
    split
    · exact .fail rfl
    · split
      · exact d.stage1Done_raisesCorrupt par lzw2
      · exact .go
  case h_3 =>
    split
    · exact d.stage1Done_raisesCorrupt par lzw2
    · exact .go
  case h_4 => exact d.rleLoop_raisesCorrupt par lzw2 _
  case h_5 => exact .go

/-- A rule that raises only CORRUPT, and what the procedure then goes on with. -/
theorem andThen_settle_raisesCorrupt {r : Run NufxDec} (h : r.RaisesOnly Err.IsCorrupt) :
    (r.andThen (settle par lzw2)).RaisesOnly Err.IsCorrupt :=
  h.andThen fun d => d.settle_raisesCorrupt par lzw2

theorem bit_raisesCorrupt : (d.bit par lzw2).RaisesOnly Err.IsCorrupt := by
  simp only [bit]
  split
  · exact .go
  · exact andThen_settle_raisesCorrupt _ _ (applyCode_raisesCorrupt _ _)

theorem bits_raisesCorrupt (n : Nat) : (bits par lzw2 n d).RaisesOnly Err.IsCorrupt := by
  induction n generalizing d with
  | zero => exact .go
  | succ n ih =>
    unfold bits
    split
    · exact (d.bit_raisesCorrupt par lzw2).andThen ih
    · exact .go

theorem hdrBytes_raisesCorrupt (got : List Byte) : (d.hdrBytes par lzw2 got).RaisesOnly Err.IsCorrupt := by
  unfold hdrBytes
  split
  case h_4 | h_5 => exact andThen_settle_raisesCorrupt _ _ .go
  all_goals exact .go

theorem chunkHdrBytes_raisesCorrupt (got : List Byte) : (d.chunkHdrBytes par lzw2 got).RaisesOnly Err.IsCorrupt := by
  unfold chunkHdrBytes
  split
  · exact andThen_settle_raisesCorrupt _ _ (d.chunk1_raisesCorrupt _ _)
  · split
    · exact .go
    · exact andThen_settle_raisesCorrupt _ _ (d.chunk2_raisesCorrupt _ _)
  · exact .go

theorem clenBytes_raisesCorrupt (w : Half) (got : List Byte) :
    (d.clenBytes par lzw2 w got).RaisesOnly Err.IsCorrupt := by
  unfold clenBytes
  split
  · exact andThen_settle_raisesCorrupt _ _ (d.chunk2_raisesCorrupt _ _)
  · exact .go

theorem byte_raisesCorrupt (b : Byte) : (d.byte par lzw2 b).RaisesOnly Err.IsCorrupt := by
  unfold byte
  split
  · exact d.hdrBytes_raisesCorrupt par lzw2 _
  · exact d.chunkHdrBytes_raisesCorrupt par lzw2 _
  · exact d.clenBytes_raisesCorrupt par lzw2 _ _
  · exact andThen_settle_raisesCorrupt _ _ .go
  · exact bits_raisesCorrupt _ par lzw2 8
  · exact .go

theorem eof_raisesCorrupt : d.eof.RaisesOnly Err.IsCorrupt := by
  unfold eof
  split
  · exact .go
  · exact .fail rfl

theorem drive_raisesCorrupt (ended : Bool) (inq : List Byte) :
    ((nufxDecProc par lzw2).drive ended inq d).1.RaisesOnly Err.IsCorrupt :=
  Proc.drive_raisesOnly _ (fun d => d.settle_raisesCorrupt par lzw2) (fun d b => d.byte_raisesCorrupt par lzw2 b)
    (fun d => d.eof_raisesCorrupt) ended inq d

end NufxDec

/-! ### LZC (R440 to R466) -/

/-- LZC compress raises no error, so what it raises meets every `P`. -/
theorem LzcEnc.drive_raisesOnly {P : Err → Prop} (par : Params) (ended : Bool) (inq : List Byte) (e : LzcEnc) :
    ((lzcEncProc par).drive ended inq e).1.RaisesOnly P := by
  refine Proc.drive_raisesOnly _ (fun _ => .go) (fun e b => ?byte) (fun e => ?eof) ended inq e
  case byte =>
    change (e.byte par b).RaisesOnly P
    unfold byte
    split <;> exact .go
  case eof =>
    change (e.eof par).RaisesOnly P
    unfold eof
    split
    · exact .of_returned rfl
    · exact .ret

namespace LzcDec

variable (d : LzcDec)

theorem lit_raisesCorrupt (first : Bool) (k : Byte) : (d.lit first k).RaisesOnly Err.IsCorrupt := by
  unfold lit
  split <;> exact .go

theorem invalid_raisesCorrupt : d.invalid.RaisesOnly Err.IsCorrupt := .fail rfl

theorem applyCode_raisesCorrupt (ph : LzcPhase) (code : Nat) : (d.applyCode ph code).RaisesOnly Err.IsCorrupt := by
  unfold applyCode
  split
  case h_1 => exact d.lit_raisesCorrupt _ _
  case h_5 => exact d.invalid_raisesCorrupt
  all_goals exact .go

theorem hdr_raisesCorrupt (m0 m1 flags : Byte) : (d.hdr m0 m1 flags).RaisesOnly Err.IsCorrupt := by
  simp only [hdr]
  split
  · exact .fail rfl
  · split
    · exact .fail rfl
    · exact .go

theorem codesLoop_raisesCorrupt (fuel : Nat) : (codesLoop fuel d).RaisesOnly Err.IsCorrupt := by
  induction fuel generalizing d with
  | zero => exact .go
  | succ fuel ih =>
    unfold codesLoop
    split
    · split
      · exact .go
      · exact .andThen (applyCode_raisesCorrupt _ _ _) ih
    · exact .go

/-- A rule that raises only CORRUPT, and what the procedure then goes on with. -/
theorem andThen_settle_raisesCorrupt {r : Run LzcDec} (h : r.RaisesOnly Err.IsCorrupt) :
    (r.andThen settle).RaisesOnly Err.IsCorrupt :=
  h.andThen fun d => d.codesLoop_raisesCorrupt _

theorem group_raisesCorrupt (ph : LzcPhase) (bytes : List Byte) : (d.group ph bytes).RaisesOnly Err.IsCorrupt := by
  simp only [group]
  split
  · exact .ret
  · exact .go

theorem byte_raisesCorrupt (b : Byte) : (d.byte b).RaisesOnly Err.IsCorrupt := by
  unfold byte
  split
  · exact andThen_settle_raisesCorrupt (d.hdr_raisesCorrupt _ _ _)
  · exact .go
  · split
    · exact .go
    · exact andThen_settle_raisesCorrupt (d.group_raisesCorrupt _ _)
  · exact .go

theorem atEnd_raisesCorrupt : d.atEnd.RaisesOnly Err.IsCorrupt := by
  unfold atEnd
  split
  · exact .ret
  · exact .go

theorem eof_raisesCorrupt : d.eof.RaisesOnly Err.IsCorrupt := by
  unfold eof
  split
  · exact .fail rfl
  · split
    · exact .ret
    · exact (andThen_settle_raisesCorrupt (d.group_raisesCorrupt _ _)).andThen atEnd_raisesCorrupt
  · exact .go

theorem drive_raisesCorrupt (ended : Bool) (inq : List Byte) :
    (lzcDecProc.drive ended inq d).1.RaisesOnly Err.IsCorrupt :=
  Proc.drive_raisesOnly _ (fun d => d.codesLoop_raisesCorrupt _) byte_raisesCorrupt eof_raisesCorrupt ended inq d

end LzcDec

/-! ### Squeeze (R510, R540 to R569) -/

/-- Squeeze compress raises only INTERNAL (R523). -/
theorem SqEnc.drive_raisesInternal (par : Params) (l : LCfg) (ended : Bool) (inq : List Byte) (e : SqEnc) :
    ((sqEncProc par l).drive ended inq e).1.RaisesOnly Err.IsInternal := by
  refine Proc.drive_raisesOnly _ (fun _ => .go) (fun _ _ => .go) (fun e => ?eof) ended inq e
  case eof =>
    change (e.eof par l).RaisesOnly Err.IsInternal
    simp only [eof]
    split
    · exact .fail rfl
    · exact .of_returned rfl

namespace SqDec

variable (d : SqDec)

theorem rleLit_raisesCorrupt (layout : SqLayout) (b : Byte) : (d.rleLit layout b).RaisesOnly Err.IsCorrupt := by
  cases layout <;> exact .go

theorem rleStep_raisesCorrupt (layout : SqLayout) (delim s : Byte) :
    (d.rleStep layout delim s).RaisesOnly Err.IsCorrupt := by
  unfold rleStep
  split
  · split
    · exact .go
    · exact d.rleLit_raisesCorrupt layout s
  · split
    · exact .go
    · split <;> exact .go
  · exact .go

theorem finish_raisesCorrupt (full : Bool) : (d.finish full).RaisesOnly Err.IsCorrupt := by
  unfold finish
  split
  · exact .fail rfl
  · split
    · exact .fail rfl
    · exact .ret

theorem hdr_raisesCorrupt (m0 m1 : Byte) (sum : Half) : (d.hdr m0 m1 sum).RaisesOnly Err.IsCorrupt := by
  unfold hdr
  split
  · exact .fail rfl
  · exact .go

theorem count_raisesCorrupt (n : Half) : (d.count n).RaisesOnly Err.IsCorrupt := by
  simp only [count]
  split
  · exact .fail rfl
  · split <;> exact .go

theorem setRef_raisesCorrupt (i side : Nat) (r : Half) : (d.setRef i side r).RaisesOnly Err.IsCorrupt := by
  unfold setRef
  split
  · exact .go
  · exact .fail rfl

theorem node1_raisesCorrupt (i : Nat) (left right : Half) : (d.node1 i left right).RaisesOnly Err.IsCorrupt :=
  .andThen (.andThen (d.setRef_raisesCorrupt i 0 left) fun d => d.setRef_raisesCorrupt i 1 right) fun _ => .go

theorem bit_raisesCorrupt (par : Params) (l : LCfg) : (d.bit par l).RaisesOnly Err.IsCorrupt := by
  simp only [bit]
  split
  · exact .go
  · split
    · exact finish_raisesCorrupt _ _
    · exact rleStep_raisesCorrupt _ _ _ _

theorem bits_raisesCorrupt (par : Params) (l : LCfg) (n : Nat) : (bits par l n d).RaisesOnly Err.IsCorrupt := by
  induction n generalizing d with
  | zero => exact .go
  | succ n ih =>
    unfold bits
    split
    · exact (d.bit_raisesCorrupt par l).andThen ih
    · exact .go

theorem settle_raisesCorrupt (l : LCfg) : (settle l d).RaisesOnly Err.IsCorrupt := by
  unfold settle
  split
  · exact d.finish_raisesCorrupt _
  · exact .go

/-- A rule that raises only CORRUPT, and what the procedure then goes on with. -/
theorem andThen_settle_raisesCorrupt {r : Run SqDec} (h : r.RaisesOnly Err.IsCorrupt) (l : LCfg) :
    (r.andThen (settle l)).RaisesOnly Err.IsCorrupt :=
  h.andThen fun d => d.settle_raisesCorrupt l

theorem hdrByte_raisesCorrupt (got : List Byte) (b : Byte) : (d.hdrByte got b).RaisesOnly Err.IsCorrupt := by
  unfold hdrByte
  split
  case h_1 | h_2 =>
    split
    · exact .fail rfl
    · exact .go
  case h_3 | h_4 => exact .go
  case h_5 =>
    split
    · exact d.hdr_raisesCorrupt _ _ _
    · exact .go

theorem nodeByte_raisesCorrupt (l : LCfg) (i : Nat) (got : List Byte) (b : Byte) :
    (nodeByte l d i got b).RaisesOnly Err.IsCorrupt := by
  unfold nodeByte
  split
  · exact (d.setRef_raisesCorrupt _ _ _).andThen fun _ => .go
  · exact andThen_settle_raisesCorrupt ((d.setRef_raisesCorrupt _ _ _).andThen fun _ => .go) l
  · exact .go

theorem byte_raisesCorrupt (par : Params) (l : LCfg) (b : Byte) : (d.byte par l b).RaisesOnly Err.IsCorrupt := by
  unfold byte
  split
  · exact d.hdrByte_raisesCorrupt _ b
  · exact andThen_settle_raisesCorrupt (d.count_raisesCorrupt _) l
  · exact .go
  · exact d.nodeByte_raisesCorrupt l _ _ b
  · exact bits_raisesCorrupt _ par l 8
  · exact .go

theorem eof_raisesCorrupt : d.eof.RaisesOnly Err.IsCorrupt := by
  unfold eof
  split
  case h_1 | h_2 => exact .go
  case h_3 => exact .fail rfl

theorem drive_raisesCorrupt (par : Params) (l : LCfg) (ended : Bool) (inq : List Byte) :
    ((sqDecProc par l).drive ended inq d).1.RaisesOnly Err.IsCorrupt :=
  Proc.drive_raisesOnly _ (fun d => d.settle_raisesCorrupt l) (fun d b => d.byte_raisesCorrupt par l b)
    eof_raisesCorrupt ended inq d

end SqDec

/-! ### ZX0 (R610, R640 to R649) -/

/-- ZX0 compress raises only INTERNAL (R616, R623). -/
theorem ZxEnc.drive_raisesInternal (l : LCfg) (ended : Bool) (inq : List Byte) (e : ZxEnc) :
    ((zxEncProc l).drive ended inq e).1.RaisesOnly Err.IsInternal := by
  refine Proc.drive_raisesOnly _ (fun _ => .go) (fun _ _ => .go) (fun e => ?eof) ended inq e
  case eof =>
    change (e.eof l).RaisesOnly Err.IsInternal
    unfold eof
    split
    · exact .ret
    · split
      · exact .fail rfl
      · split
        · exact .fail rfl
        · exact .of_returned rfl

namespace ZxDec

variable (d : ZxDec)

theorem copy_raisesCorrupt (len : Nat) : (d.copy len).RaisesOnly Err.IsCorrupt := by
  unfold copy
  split
  · exact .fail rfl
  · exact .go

theorem egDone_raisesCorrupt (use : EgUse) (v : Nat) : (d.egDone use v).RaisesOnly Err.IsCorrupt := by
  unfold egDone
  split
  · exact .go
  · exact copy_raisesCorrupt _ v
  · split
    · exact .ret
    · exact .go
  · exact copy_raisesCorrupt _ (v + 1)

theorem egBit_raisesCorrupt (classic : Bool) (use : EgUse) (v : Nat) (data b : Bool) :
    (egBit classic d use v data b).RaisesOnly Err.IsCorrupt := by
  simp only [egBit]
  split
  · split
    · exact .fail rfl
    · exact .go
  · split
    · exact d.egDone_raisesCorrupt use v
    · exact .go

theorem indicBit_raisesCorrupt (b : Bool) : (d.indicBit b).RaisesOnly Err.IsCorrupt := by
  unfold indicBit
  split
  · exact .go
  · split <;> exact .go

theorem bit_raisesCorrupt (classic b : Bool) : (d.bit classic b).RaisesOnly Err.IsCorrupt := by
  unfold bit
  split
  · exact d.egBit_raisesCorrupt _ _ _ _ _
  · exact d.egBit_raisesCorrupt _ _ _ _ _
  · exact d.indicBit_raisesCorrupt b
  · exact .go

theorem bits_raisesCorrupt (classic : Bool) (n : Nat) : (bits classic n d).RaisesOnly Err.IsCorrupt := by
  induction n generalizing d with
  | zero => exact .go
  | succ n ih =>
    unfold bits
    split
    · split
      · exact .andThen (bit_raisesCorrupt _ _ _) ih
      · exact .go
    · exact .go

theorem settle_raisesCorrupt (l : LCfg) : (settle l d).RaisesOnly Err.IsCorrupt := d.bits_raisesCorrupt _ 9

theorem byte_raisesCorrupt (l : LCfg) (b : Byte) : (d.byte l b).RaisesOnly Err.IsCorrupt := by
  unfold byte
  split
  · exact .andThen .go fun d => d.settle_raisesCorrupt l
  · exact settle_raisesCorrupt _ l
  · exact .go
  · exact .andThen (bit_raisesCorrupt _ _ _) fun d => d.settle_raisesCorrupt l

theorem eof_raisesCorrupt : d.eof.RaisesOnly Err.IsCorrupt := by
  unfold eof
  split
  · exact .ret
  · exact .go
  · exact .fail rfl

theorem drive_raisesCorrupt (l : LCfg) (ended : Bool) (inq : List Byte) :
    ((zxDecProc l).drive ended inq d).1.RaisesOnly Err.IsCorrupt :=
  Proc.drive_raisesOnly _ (fun d => d.settle_raisesCorrupt l) (fun d b => d.byte_raisesCorrupt l b)
    eof_raisesCorrupt ended inq d

end ZxDec

end Sys2Proof.Machine
end

section
/-! PROOFS. What an instruction can do to ERR: keep it, record a first error that the direction allows, or, for OPEN in
IDLE, clear it and record a CONFIG error (R702, R703, R706, R712). -/

namespace Sys2Proof.Machine

open Sys2Proof

/-! ### The error of a run -/

namespace Ctx

variable {c : Ctx}

/-- ERR as a run or error entry of `c` leaves it: as it was, or the first error (R712), which the direction allows. -/
def RecordsErr (c : Ctx) (w : Word) : Prop := w = c.err ∨ ∃ e, errClass c.err = 0 ∧ c.Allows e ∧ w = e.word

theorem raise_recordsErr {e : Err} (h : c.Allows e) : c.RecordsErr (c.raise e).err := by
  rw [raise_err]
  split
  · next hclear => exact .inr ⟨e, hclear, h, rfl⟩
  · exact .inl rfl

@[simp] theorem procReturned_err (c : Ctx) : c.procReturned.err = c.err := by
  unfold procReturned
  split <;> simp

theorem absorb_recordsErr {r : Run Engines} (h : r.RaisesOnly c.Allows) (rest : List Byte) :
    c.RecordsErr (c.absorb r rest).err := by
  unfold absorb
  split
  · exact .inl rfl
  · exact .inl (by simp)
  · next e he =>
    exact raise_recordsErr (c := { c with
      eng := r.st, outq := c.outq ++ r.out, outCount := c.outCount + BitVec.ofNat 32 r.out.length, inq := rest })
      (h e he)

/-- The procedure of an expand instance raises only CORRUPT, that of a compress instance only INTERNAL (R702, R703). -/
theorem runProc_raisesOnly (par : Params) (c : Ctx) : (c.runProc par).1.RaisesOnly c.Allows := by
  unfold runProc
  split
  case h_1 | h_3 => exact NufxEnc.drive_raisesOnly _ _ _ _ _ _
  case h_2 _ hdir | h_4 _ hdir => exact (NufxDec.drive_raisesCorrupt _ _ _ _ _).mono fun _ => allows_corrupt hdir
  case h_5 => exact LzcEnc.drive_raisesOnly _ _ _ _
  case h_6 _ hdir => exact (LzcDec.drive_raisesCorrupt _ _ _).mono fun _ => allows_corrupt hdir
  case h_7 _ hdir => exact (SqEnc.drive_raisesInternal _ _ _ _ _).mono fun _ => allows_internal hdir
  case h_8 _ hdir => exact (SqDec.drive_raisesCorrupt _ _ _ _ _).mono fun _ => allows_corrupt hdir
  case h_9 _ hdir => exact (ZxEnc.drive_raisesInternal _ _ _ _).mono fun _ => allows_internal hdir
  case h_10 _ hdir => exact (ZxDec.drive_raisesCorrupt _ _ _ _).mono fun _ => allows_corrupt hdir
  case h_11 => exact .go

theorem run_recordsErr (par : Params) (free : Nat) (c : Ctx) : c.RecordsErr (c.run par free).1.err := by
  obtain ⟨r, rest, n, hrun, -, -, hsig⟩ := c.run_eq par free
  have hr : r.RaisesOnly c.Allows := fun e he => runProc_raisesOnly par c e (hsig.symm.trans he)
  rw [hrun]
  exact absorb_recordsErr hr rest

/-- A run whose procedure goes on waiting raises nothing. -/
theorem run_err_of_running {par : Params} (h : (c.runProc par).1.sig = .running) (free : Nat) :
    (c.run par free).1.err = c.err := by
  obtain ⟨r, rest, n, hrun, -, -, hsig⟩ := c.run_eq par free
  simp only [hrun, absorb, hsig.trans h]

/-! ### The commands -/

/-- ERR as instruction `i` leaves it: as a run or error entry does, and OPEN in IDLE clears it and may then record an
error of class CONFIG. -/
inductive ErrAfter (c : Ctx) : Instr → Word → Prop
  | recorded {i w} : c.RecordsErr w → c.ErrAfter i w
  | cleared {eng dir w} : c.st = .idle → w = 0 → c.ErrAfter (.cmdOpen eng dir) w
  | rejected {eng dir w} {e : Err} : c.st = .idle → e.cls = 1 → w = e.word → c.ErrAfter (.cmdOpen eng dir) w

theorem errAfter_of_eq {i : Instr} {w : Word} (h : w = c.err) : c.ErrAfter i w := .recorded (.inl h)

theorem raise_errAfter {i : Instr} {e : Err} (hcorrupt : ¬ e.IsCorrupt) (hinternal : ¬ e.IsInternal) :
    c.ErrAfter i (c.raise e).err :=
  .recorded (raise_recordsErr (c.allows_of_not hcorrupt hinternal))

theorem guarded_errAfter {free : Nat} {ok : Bool} {f : Except Refusal (Ctx × Nat)} {i : Instr} {q : Ctx × Nat}
    (h : c.guarded free ok f = .ok q) (hf : ok = true → f = .ok q → c.ErrAfter i q.1.err) : c.ErrAfter i q.1.err := by
  rcases guarded_ok h with ⟨-, rfl⟩ | ⟨-, hok, hq⟩ | ⟨-, -, rfl⟩
  · exact errAfter_of_eq rfl
  · exact hf hok hq
  · exact raise_errAfter (by decide) (by decide)

/-- The checks of OPEN raise only CONFIG (R224). -/
theorem openError_cls {e : Err} (h : c.openError = some e) : e.cls = 1 := by
  unfold openError at h
  split at h
  · cases h; rfl
  · split at h
    · cases h; rfl
    · split at h
      · cases h; rfl
      · cases h

/-- OPEN raises what its checks find, and the first run of the engine waits for input. -/
theorem openRun_err {par : Params} {free : Nat} {q : Ctx × Nat} (herr : c.err = 0) (hinq : c.inq = [])
    (hended : c.ended = false) (h : c.openRun par free = .ok q) :
    q.1.err = 0 ∨ ∃ e : Err, e.cls = 1 ∧ q.1.err = e.word := by
  unfold openRun at h
  split at h
  · next e he =>
    cases h
    exact .inr ⟨e, openError_cls he, by simp [herr, errClass]⟩
  · obtain ⟨rfl, -⟩ := commit_ok h
    have hstart : c.absorb (c.startEngine par) [] = c.emit (c.startEngine par).out (c.startEngine par).st := by
      simp only [absorb, startEngine_running, ← hinq, emit]
    have hwaits : ((c.absorb (c.startEngine par) []).runProc par).1.sig = .running := by
      rw [hstart, startEngine_waits par hinq hended]
      rfl
    rw [run_err_of_running hwaits, hstart]
    exact .inl herr

theorem openRun_errAfter {par : Params} {free : Nat} {eng : BitVec 3} {dir : Bool} {q : Ctx × Nat}
    (hidle : c.st = .idle) (h : (c.opened eng dir).openRun par free = .ok q) :
    c.ErrAfter (.cmdOpen eng dir) q.1.err := by
  rcases openRun_err rfl rfl rfl h with h0 | ⟨e, hcls, he⟩
  · exact .cleared hidle h0
  · exact .rejected hidle hcls he

theorem feedRun_recordsErr {par : Params} {free : Nat} {b : Byte} {q : Ctx × Nat} (h : c.feedRun par free b = .ok q) :
    c.RecordsErr q.1.err := by
  unfold feedRun at h
  split at h
  · cases h
    exact .inl (by simp)
  · split at h
    · cases h
    · obtain ⟨rfl, -⟩ := commit_ok h
      exact run_recordsErr par free { c with inCount := c.inCount + 1, inq := c.inq ++ [b] }

@[simp] theorem finished_err (r : Ctx × Nat) : (finished r).1.err = r.1.err := by
  unfold finished
  split <;> rfl

theorem finishRun_recordsErr {par : Params} {free : Nat} {q : Ctx × Nat} (h : c.finishRun par free = .ok q) :
    c.RecordsErr q.1.err := by
  obtain ⟨rfl, -⟩ := commit_ok h
  rw [finished_err]
  exact run_recordsErr par free { c with ended := true }

@[simp] theorem take_err (c : Ctx) : c.take.err = c.err := by
  unfold take
  split <;> rfl

theorem produceCmd_errAfter {i : Instr} : c.ErrAfter i c.produceCmd.err := by
  unfold produceCmd
  split
  · exact raise_errAfter (by decide) (by decide)
  · exact errAfter_of_eq c.take_err

theorem closeCmd_err (c : Ctx) : c.closeCmd.err = c.err := by
  unfold closeCmd
  split <;> rfl

theorem nameRun_errAfter {i : Instr} (b : Byte) : c.ErrAfter i (c.nameRun b).err := by
  unfold nameRun
  split
  · exact raise_errAfter (by decide) (by decide)
  · split
    · exact raise_errAfter (by decide) (by decide)
    · exact errAfter_of_eq rfl

theorem raisedError_cases {i : Instr} {e : Err} (h : raisedError i = some e) : e = .seek ∨ e = .reservedOp := by
  unfold raisedError at h
  split at h
  case h_1 => exact .inl (Option.some.inj h).symm
  case h_2 | h_3 | h_4 => exact .inr (Option.some.inj h).symm
  case h_5 => cases h

theorem raiseCmd_errAfter {i j : Instr} {e : Err} (h : raisedError j = some e) : c.ErrAfter i (c.raiseCmd e).err := by
  unfold raiseCmd
  split
  · exact errAfter_of_eq rfl
  · rcases raisedError_cases h with rfl | rfl <;> exact raise_errAfter (by decide) (by decide)

/-- What a command does to ERR. -/
theorem Acts.errAfter {par : Params} {free : Nat} {i : Instr} {q : Ctx × Nat} (hi : i.isCommand = true)
    (h : c.Acts par free i q) : c.ErrAfter i q.1.err := by
  cases h with
  | cmdOpen h => exact guarded_errAfter h fun hidle hq => openRun_errAfter (of_decide_eq_true hidle) hq
  | cmdFeed h => exact guarded_errAfter h fun _ hq => .recorded (feedRun_recordsErr hq)
  | cmdProduce => exact produceCmd_errAfter
  | cmdFinish h => exact guarded_errAfter h fun _ hq => .recorded (finishRun_recordsErr hq)
  | cmdClose => exact errAfter_of_eq c.closeCmd_err
  | cmdNameByte h => exact guarded_errAfter h fun _ hq => by cases hq; exact nameRun_errAfter _
  | cmdNameClear h => exact guarded_errAfter h fun _ hq => by cases hq; exact errAfter_of_eq rfl
  | raised h => exact raiseCmd_errAfter h
  | token htoken => simp [hi] at htoken
  | sqPad => cases hi

/-! ### The stream tokens -/

/-- A token runs in the expand direction, so a rule that raises only CORRUPT raises what the direction allows. -/
theorem token_recordsErr {par : Params} {free : Nat} {aw cls : Bool} {r : Run Engines} {q : Ctx × Nat}
    (h : c.token par free aw cls r = .ok q) (hr : r.RaisesOnly Err.IsCorrupt) : c.RecordsErr q.1.err := by
  obtain ⟨hexp, -, -, rfl, -⟩ := token_ok h
  have hdir : c.dir = true := by
    simp only [expanding, Bool.and_eq_true] at hexp
    exact hexp.1.2
  exact absorb_recordsErr (hr.mono fun _ => allows_corrupt hdir) c.inq

end Ctx

section
variable {s t : State} {c c' : Ctx} (hc : s.cur = some c) (hc' : t.cur = some c')
include hc hc'

theorem State.onCtx_recordsErr {f : Ctx → Except Refusal (Ctx × Nat)} (h : s.onCtx f = .next t)
    (hf : ∀ q, f c = .ok q → c.RecordsErr q.1.err) : c.RecordsErr c'.err := by
  obtain ⟨d, q, hd, hq, rfl⟩ := State.onCtx_next h
  cases hc.symm.trans hd
  cases (State.cur_setCur hc q.1).symm.trans hc'
  exact hf q hq

theorem State.onNufx_recordsErr {only : Option Bool} {aw cls : NufxDec → Bool} {f : NufxDec → Run NufxDec}
    (h : s.onNufx only aw cls f = .next t) (hf : ∀ d, (f d).RaisesOnly Err.IsCorrupt) : c.RecordsErr c'.err :=
  State.onCtx_recordsErr hc hc' h fun _ hq => Ctx.token_recordsErr hq (hf c.eng.nufxDec)

theorem State.onLzc_recordsErr {aw cls : LzcDec → Bool} {f : LzcDec → Run LzcDec}
    (h : s.onLzc aw cls f = .next t) (hf : ∀ d, (f d).RaisesOnly Err.IsCorrupt) : c.RecordsErr c'.err :=
  State.onCtx_recordsErr hc hc' h fun _ hq => Ctx.token_recordsErr hq (hf c.eng.lzcDec)

theorem State.onSq_recordsErr {aw cls : LCfg → SqDec → Bool} {f : LCfg → SqDec → Run SqDec}
    (h : s.onSq aw cls f = .next t) (hf : ∀ l d, (f l d).RaisesOnly Err.IsCorrupt) : c.RecordsErr c'.err :=
  State.onCtx_recordsErr hc hc' h fun _ hq => Ctx.token_recordsErr hq (hf c.lcfg c.eng.sqDec)

theorem State.onZx_recordsErr {aw cls : ZxDec → Bool} {f : ZxDec → Run ZxDec}
    (h : s.onZx aw cls f = .next t) (hf : ∀ d, (f d).RaisesOnly Err.IsCorrupt) : c.RecordsErr c'.err :=
  State.onCtx_recordsErr hc hc' h fun _ hq => Ctx.token_recordsErr hq (hf c.eng.zxDec)

theorem execSqPad_recordsErr {bits : List Bool} (h : execSqPad bits s = .next t) : c.RecordsErr c'.err := by
  refine State.onCtx_recordsErr hc hc' h fun q hq => ?_
  split at hq
  · split at hq
    · cases hq
      exact .inl rfl
    · cases hq
  · cases hq

/-- What a stream token does to ERR. -/
theorem exec_token_recordsErr {i : Instr} (hi : i.isCommand = false) (h : exec i s = .next t) :
    c.RecordsErr c'.err := by
  cases i
  case cmdNop | cmdOpen | cmdFeed | cmdProduce | cmdFinish | cmdSeek | cmdClose | cmdNameByte | cmdNameClear |
      cmdReserved9 | cmdReservedAB | cmdReservedCF => cases hi
  all_goals simp only [exec] at h
  case nufxLit | nufxClear | nufxTable | nufxKwkwk | nufx1Hdr | nufx2Hdr =>
    exact State.onNufx_recordsErr hc hc' h fun _ => .go
  case nufxInvalid => exact State.onNufx_recordsErr hc hc' h fun d => .fail d.invalidErr_isCorrupt
  case nufxRleRun => exact State.onNufx_recordsErr hc hc' h fun d => d.rleRun_raisesCorrupt _ _
  case nufxRleLit => exact State.onNufx_recordsErr hc hc' h fun d => d.rleLit_raisesCorrupt _
  case nufx1Chunk => exact State.onNufx_recordsErr hc hc' h fun d => d.chunk1_raisesCorrupt _ _
  case nufx2Chunk => exact State.onNufx_recordsErr hc hc' h fun d => d.chunk2_raisesCorrupt _ _
  case lzcLit => exact State.onLzc_recordsErr hc hc' h fun d => d.lit_raisesCorrupt _ _
  case lzcClear | lzcTable | lzcKwkwk => exact State.onLzc_recordsErr hc hc' h fun _ => .go
  case lzcInvalid => exact State.onLzc_recordsErr hc hc' h LzcDec.invalid_raisesCorrupt
  case lzcHdr => exact State.onLzc_recordsErr hc hc' h fun d => d.hdr_raisesCorrupt _ _ _
  case lzcGroup => exact State.onLzc_recordsErr hc hc' h fun d => d.group_raisesCorrupt _ _
  case sqHdr => exact State.onSq_recordsErr hc hc' h fun _ d => d.hdr_raisesCorrupt _ _ _
  case sqCount => exact State.onSq_recordsErr hc hc' h fun _ d => d.count_raisesCorrupt _
  case sqNode => exact State.onSq_recordsErr hc hc' h fun _ d => d.node1_raisesCorrupt _ _ _
  case sqSym => exact State.onSq_recordsErr hc hc' h fun _ d => SqDec.rleStep_raisesCorrupt _ _ _ _
  case sqEof => exact State.onSq_recordsErr hc hc' h fun _ d => SqDec.finish_raisesCorrupt _ _
  case sqPad => exact execSqPad_recordsErr hc hc' h
  case sqRleLit => exact State.onSq_recordsErr hc hc' h fun _ d => d.rleLit_raisesCorrupt _ _
  case sqRleRun | usqRun | usqEsc => exact State.onSq_recordsErr hc hc' h fun _ _ => .go
  case zx0Literals => exact State.onZx_recordsErr hc hc' h fun _ => .go
  case zx0Rep | zx0New => exact State.onZx_recordsErr hc hc' h fun _ => ZxDec.copy_raisesCorrupt _ _
  case zx0End => exact State.onZx_recordsErr hc hc' h fun _ => .ret

/-- All that an instruction can do to ERR of the addressed context. -/
theorem exec_errAfter {i : Instr} (h : exec i s = .next t) : c.ErrAfter i c'.err := by
  cases hi : i.isCommand with
  | false => exact .recorded (exec_token_recordsErr hc hc' hi h)
  | true =>
    rcases exec_next h with ⟨-, rfl⟩ | ⟨d, q, hd, hq, rfl⟩
    · cases hc.symm.trans hc'
      exact Ctx.errAfter_of_eq rfl
    · cases hc.symm.trans hd
      cases (State.cur_setCur hc q.1).symm.trans hc'
      exact hq.errAfter hi

end

/-! ### The statements -/

/-- Settles O12: each error that ERR can take has its word in the table. -/
theorem onlyListedErrorWords : Obligations.OnlyListedErrorWords := by
  intro i s t c c' hc h hc'
  cases exec_errAfter hc hc' h with
  | recorded hw =>
    rcases hw with hkept | ⟨e, -, -, he⟩
    · exact .inl hkept
    · exact .inr (.inr (he ▸ e.word_mem_errWords))
  | cleared _ h0 => exact .inr (.inl h0)
  | rejected _ _ he => exact .inr (.inr (he ▸ Err.word_mem_errWords _))

/-- Settles O13: an error is recorded only where ERR.CLASS is 0, and only OPEN in IDLE clears ERR. -/
theorem firstErrorWins : Obligations.FirstErrorWins := by
  intro i s t c c' hc h hc' hclass hopen
  cases exec_errAfter hc hc' h with
  | recorded hw =>
    rcases hw with hkept | ⟨e, hclear, -, -⟩
    · exact hkept
    · exact absurd hclear hclass
  | cleared hidle | rejected hidle => exact absurd rfl (hopen hidle _ _)

/-- Settles O14: a recorded error is one that the direction allows, and OPEN in IDLE leaves ERR clear or of class
CONFIG. -/
theorem corruptOnlyInExpand : Obligations.CorruptOnlyInExpand := by
  intro i s t c c' hc h hc'
  change (_ → errClass c.err ≠ 2 → errClass c'.err ≠ 2) ∧ (_ → errClass c.err ≠ 3 → errClass c'.err ≠ 3)
  cases exec_errAfter hc hc' h with
  | recorded hw =>
    rcases hw with hkept | ⟨e, -, hallows, he⟩
    · rw [hkept]
      exact ⟨fun _ hne => hne, fun _ hne => hne⟩
    · rw [he, e.errClass_word]
      refine ⟨fun hdir _ => ?compress, fun hdir _ => ?expand⟩
      case compress => simpa [Ctx.Allows, hdir] using hallows
      case expand => simpa [Ctx.Allows, hdir] using hallows
  | cleared _ h0 =>
    rw [h0]
    exact ⟨fun _ _ => by decide, fun _ _ => by decide⟩
  | rejected _ hcls he =>
    rw [he, Err.errClass_word, hcls]
    exact ⟨fun _ _ => by decide, fun _ _ => by decide⟩

end Sys2Proof.Machine
end

section
/-! PROOFS. The bounds of the model (R812, R816, log entry 9): what every instruction makes of OUTQ, and which bound a
refusal needs. -/

namespace Sys2Proof.Machine

open Sys2Proof

namespace Ctx

variable {par : Params} {c : Ctx}

/-- An action on `c` with this result keeps to the bounds: OUTQ does not grow or has room, and a refusal for a bound
needs that bound. -/
inductive KeepsBounds (par : Params) (c : Ctx) : Except Refusal (Ctx × Nat) → Prop
  | shrinks {q} : q.1.outq.length ≤ c.outq.length → KeepsBounds par c (.ok q)
  | fits {q} : hasRoom par q.1.outq.length = true → KeepsBounds par c (.ok q)
  | outqFull : par.outqCap ≠ none → KeepsBounds par c (.error .outqFull)
  | wholeFileFull : par.maxWhole ≠ none → KeepsBounds par c (.error .wholeFileFull)
  | otherRefusal {r} : r ≠ .outqFull → r ≠ .wholeFileFull → KeepsBounds par c (.error r)

theorem KeepsBounds.outq_le {q : Ctx × Nat} {cap : Nat} (h : c.KeepsBounds par (.ok q))
    (hcap : par.outqCap = some cap) (hle : c.outq.length ≤ cap) : q.1.outq.length ≤ cap := by
  cases h with
  | shrinks h => exact h.trans hle
  | fits h => simpa [hasRoom, hcap] using h

theorem KeepsBounds.not_outqFull (hcap : par.outqCap = none) : ¬ c.KeepsBounds par (.error .outqFull) := by
  intro h
  cases h with
  | outqFull hbounded => exact hbounded hcap
  | otherRefusal hne _ => exact hne rfl

theorem KeepsBounds.not_wholeFileFull (hmax : par.maxWhole = none) :
    ¬ c.KeepsBounds par (.error .wholeFileFull) := by
  intro h
  cases h with
  | wholeFileFull hbounded => exact hbounded hmax
  | otherRefusal _ hne => exact hne rfl

/-! ### The shared operations -/

theorem raise_outq_length_le (c : Ctx) (e : Err) : (c.raise e).outq.length ≤ c.outq.length := by
  by_cases hst : c.st = .idle
  · rw [raise_idle hst]
  · rw [raise_open hst]
    exact Nat.zero_le _

theorem commit_keepsBounds (r : Ctx × Nat) : c.KeepsBounds par (commit par r) := by
  unfold commit
  split
  · next hroom => exact .fits hroom
  · next hroom => exact .outqFull fun hcap => hroom (hasRoom_unbounded hcap _)

theorem guarded_keepsBounds {free : Nat} {ok : Bool} {f : Except Refusal (Ctx × Nat)} (hf : c.KeepsBounds par f) :
    c.KeepsBounds par (c.guarded free ok f) := by
  unfold guarded
  split
  · exact .shrinks le_rfl
  · split
    · exact hf
    · exact .shrinks (c.raise_outq_length_le _)

/-- A token is refused for its place or its class before its output is counted. -/
theorem token_keepsBounds (free : Nat) (awaited cls : Bool) (r : Run Engines) :
    c.KeepsBounds par (c.token par free awaited cls r) := by
  unfold token
  split
  · exact .otherRefusal (by decide) (by decide)
  · split
    · exact .otherRefusal (by decide) (by decide)
    · exact commit_keepsBounds _

/-! ### The commands -/

/-- OPEN discards OUTQ, so a failed check leaves no more than was there. -/
theorem openRun_keepsBounds (free : Nat) (eng : BitVec 3) (dir : Bool) :
    c.KeepsBounds par ((c.opened eng dir).openRun par free) := by
  unfold openRun
  split
  · exact .shrinks ((raise_outq_length_le _ _).trans (Nat.zero_le _))
  · exact commit_keepsBounds _

theorem feedRun_keepsBounds (free : Nat) (b : Byte) : c.KeepsBounds par (c.feedRun par free b) := by
  unfold feedRun
  split
  · exact .shrinks (by simp)
  · split
    · next hfull =>
      refine .wholeFileFull fun hmax => ?_
      simp [c.wholeFull_unbounded hmax] at hfull
    · exact commit_keepsBounds _

theorem take_outq_length_le (c : Ctx) : c.take.outq.length ≤ c.outq.length := by
  cases houtq : c.outq with
  | nil => rw [take_nil houtq, houtq]
  | cons b rest => simp [take_cons houtq]

theorem produceCmd_outq_length_le (c : Ctx) : c.produceCmd.outq.length ≤ c.outq.length := by
  unfold produceCmd
  split
  · exact c.raise_outq_length_le _
  · exact c.take_outq_length_le

theorem closeCmd_outq_length_le (c : Ctx) : c.closeCmd.outq.length ≤ c.outq.length := by
  unfold closeCmd
  split
  · exact le_rfl
  · exact Nat.zero_le _

theorem nameRun_outq_length_le (c : Ctx) (b : Byte) : (c.nameRun b).outq.length ≤ c.outq.length := by
  unfold nameRun
  split
  · exact c.raise_outq_length_le _
  · split
    · exact c.raise_outq_length_le _
    · exact le_rfl

theorem raiseCmd_outq_length_le (c : Ctx) (e : Err) : (c.raiseCmd e).outq.length ≤ c.outq.length := by
  unfold raiseCmd
  split
  · exact le_rfl
  · exact c.raise_outq_length_le e

end Ctx

/-! ### All instructions -/

/-- `onCtx` refuses only what its action refuses, where the context exists. -/
theorem State.onCtx_refused {s : State} {c : Ctx} {f : Ctx → Except Refusal (Ctx × Nat)} {r : Refusal}
    (hc : s.cur = some c) (h : s.onCtx f = .refused r) : f c = .error r := by
  cases hf : f c with
  | error r' =>
    have hctx : s.ctxs[s.sel]? = some c := hc
    simpa [State.onCtx, hctx, hf] using h
  | ok q =>
    rw [State.onCtx_ok hc hf] at h
    cases h

/-- A command without output keeps to the bounds where it does not lengthen OUTQ. -/
theorem State.onCtxPure_keepsBounds {s : State} {c : Ctx} {g : Ctx → Ctx} (hg : (g c).outq.length ≤ c.outq.length) :
    ∃ f, s.onCtxPure g = s.onCtx f ∧ c.KeepsBounds s.par (f c) :=
  ⟨_, rfl, .shrinks hg⟩

/-- Every instruction is an action on the addressed context that keeps to the bounds. -/
theorem exec_keepsBounds {s : State} {c : Ctx} (hc : s.cur = some c) (i : Instr) :
    ∃ f, exec i s = s.onCtx f ∧ c.KeepsBounds s.par (f c) := by
  cases i
  case cmdNop => exact ⟨fun c => .ok (c, s.free), (State.onCtx_self hc rfl).symm, .shrinks le_rfl⟩
  case cmdOpen => exact ⟨_, rfl, Ctx.guarded_keepsBounds (Ctx.openRun_keepsBounds _ _ _)⟩
  case cmdFeed => exact ⟨_, rfl, Ctx.guarded_keepsBounds (Ctx.feedRun_keepsBounds _ _)⟩
  case cmdProduce => exact State.onCtxPure_keepsBounds c.produceCmd_outq_length_le
  case cmdFinish => exact ⟨_, rfl, Ctx.guarded_keepsBounds (Ctx.commit_keepsBounds _)⟩
  case cmdClose => exact State.onCtxPure_keepsBounds c.closeCmd_outq_length_le
  case cmdNameByte => exact ⟨_, rfl, Ctx.guarded_keepsBounds (.shrinks (c.nameRun_outq_length_le _))⟩
  case cmdNameClear => exact ⟨_, rfl, Ctx.guarded_keepsBounds (.shrinks le_rfl)⟩
  case cmdSeek | cmdReserved9 | cmdReservedAB | cmdReservedCF =>
    exact State.onCtxPure_keepsBounds (c.raiseCmd_outq_length_le _)
  case sqPad bits =>
    refine ⟨_, rfl, ?_⟩
    split
    · split
      · exact .shrinks le_rfl
      · exact .otherRefusal (by decide) (by decide)
    · exact .otherRefusal (by decide) (by decide)
  -- the other stream tokens
  all_goals exact ⟨_, rfl, Ctx.token_keepsBounds _ _ _ _⟩

/-- Settles O54: an accepted action leaves OUTQ no longer than before or with room, and each of the two refusals needs
its bound. -/
theorem boundedOutputQueueIsNeverPassed : Obligations.BoundedOutputQueueIsNeverPassed := by
  intro i s c hc
  obtain ⟨f, hexec, hbounds⟩ := exec_keepsBounds hc i
  rw [hexec]
  refine ⟨fun cap t c' hcap hle h hc' => ?outq, fun hcap h => ?outqFull, fun hmax h => ?wholeFileFull⟩
  case outq =>
    obtain ⟨d, q, hd, hq, rfl⟩ := State.onCtx_next h
    cases hc.symm.trans hd
    cases (State.cur_setCur hc q.1).symm.trans hc'
    exact (hq ▸ hbounds).outq_le hcap hle
  case outqFull => exact Ctx.KeepsBounds.not_outqFull hcap (State.onCtx_refused hc h ▸ hbounds)
  case wholeFileFull => exact Ctx.KeepsBounds.not_wholeFileFull hmax (State.onCtx_refused hc h ▸ hbounds)

end Sys2Proof.Machine
end
